-- ==== Sys2Proof/Word.lean ====
section
/-! DEFINITION. The word types of HUFFC: registers and bus data are 32 bits (R15, R41), stream data are bytes (R47). -/

namespace Sys2Proof

/-- A 32-bit register value, bus word or command word (R15, R60). -/
abbrev Word := BitVec 32

/-- A byte of IN_DATA or OUT_DATA (R35, R36). -/
abbrev Byte := BitVec 8

end Sys2Proof
end

