-- ==== Sys2Proof/Config.lean ====
section
/-! DEFINITION. The parameters of R6, each a named constant (the widths as abbreviations, since types of State are written
with them), the capacities of R32 and R33, the identification constants of R15, and the free values the spec leaves open
(opaque: nothing in Lean can evaluate one). -/

namespace Sys2Proof.Config

/-- ALPH_SIZE: literal byte symbols 0..255 (R6). -/
def alphSize : Nat := 256

/-- PSEUDO_EOF, the sentinel symbol (R6). -/
def pseudoEof : Nat := 256

/-- NSYM: entries of FREQ and of CODE (R6). -/
def nsym : Nat := 257

/-- BITS_PER_WORD: width of one literal symbol on the streams (R6). -/
def bitsPerWord : Nat := 8

/-- LEAF_BITS: width of a leaf's symbol field in the tree header (R6). -/
def leafBits : Nat := 9

/-- MAGIC_BITS: width of the magic field (R6). -/
def magicBits : Nat := 32

/-- MAGIC_RESET: reset value of MAGIC (R6, R15; D7, I2; log entry 13). -/
def magicReset : Word := 0xFACE8201#32

/-- CNT_W: width of a FREQ entry, of a node weight and of IN_COUNT (R6). -/
abbrev cntW : Nat := 32

/-- MAX_IN: most input bytes COUNT accepts, 2^32 − 2 (R6). -/
def maxIn : BitVec cntW := 0xFFFFFFFE#cntW

/-- NODE_CAP: records of NODE (R6). -/
def nodeCap : Nat := 513

/-- IDX_W: width of a node index (R6). -/
abbrev idxW : Nat := 10

/-- MAX_CODE_LEN: longest code a CODE entry holds, the width of BITS (R6, R31). -/
abbrev maxCodeLen : Nat := 256

/-- POS_W: width of the input bit cursor IN_POS (R6). -/
abbrev posW : Nat := 40

/-- The tie-breaks among equal weights the model knows: HUFFC's (R6, R80). -/
inductive TiePolicy where
  | indexOrder
deriving DecidableEq, Repr

/-- TIE_POLICY: the tie-break among equal weights in BUILD (R6, R7; log entry 13). -/
def tiePolicy : TiePolicy := .indexOrder

/-- AUG_SYMBOL: the symbol of the zero-weight leaf BUILD adds for empty input (R6, R82). -/
def augSymbol : Nat := 0

/-- Longest input sequence IN_POS can address: 2^37 − 1 bytes (R35, R123 c). -/
def maxAttach : Nat := 2 ^ 37 - 1

/-- The ID register's constant, ASCII "HUFC" (R15). -/
def idConst : Word := 0x48554643#32

/-- The VERSION register's constant, 1.0 (R15). -/
def versionConst : Word := 0x00010000#32

/-- The PARAMS register's constant: CNT_W, LEAF_BITS and NODE_CAP (R15). -/
def paramsConst : Word := BitVec.ofNat 8 cntW ++ BitVec.ofNat 8 leafBits ++ BitVec.ofNat 16 nodeCap

/-- The most node indices HEAP holds (R32). -/
def heapCap : Nat := 257

/-- The most entries DSTACK holds (R33). -/
def dstackCap : Nat := 257

/-- The value of the n-th draw: "an unspecified value (a draw)" (R27, R44, R45, R46, R23; log entry 3). -/
opaque freeWord : Nat → Word

/-- What a rule would read from an entry of FREQ that nothing has written (R28, R37; log entry 2). -/
opaque freeFreq : Nat → BitVec cntW

/-- What a rule would read from a record of NODE that nothing has written: its bits, 62 of them (R29, R37; log
entry 2). -/
opaque freeNode : Nat → BitVec (1 + 9 + cntW + idxW + idxW)

/-- What a rule would read from an entry of CODE that nothing has written: its bits, 265 of them (R31, R37; log
entry 2). -/
opaque freeCode : Nat → BitVec (9 + maxCodeLen)

/-- Word k of the sixteen words behind the last entry of the CODE window, offsets 0x8040 to 0x807F, whose value no rule gives
(R39, R42, R46; log entry 26). -/
opaque freeCodeTail : Nat → Word

end Sys2Proof.Config
end

