-- ==== Sys2Proof/Syntax.lean ====
section
/-! DEFINITION. The commands of HUFFC, one constructor per row of the opcode table (R61), and the raw fields of a command
word (format CW, R60). A command takes no operands. -/

namespace Sys2Proof

/-- The fifteen commands (R61). -/
inductive Instr where
  | nop
  | clear
  | openout
  | count
  | build
  | gencode
  | wrmagic
  | serialize
  | encbody
  | close
  | encode
  | rdmagic
  | deserialize
  | decbody
  | decode
deriving DecidableEq, Repr

/-- The two fields of format CW: OP in bits [7:0], RSV in bits [31:8] (R60). -/
structure CmdFields where
  op  : BitVec 8
  rsv : BitVec 24
deriving DecidableEq, Repr

/-- The fields of a 32-bit command word (R60). -/
def CmdFields.ofWord (w : Word) : CmdFields :=
  ⟨w.extractLsb' 0 8, w.extractLsb' 8 24⟩

end Sys2Proof
end

