-- ==== Sys2Proof/WellFormed.lean ====
section
/-! DEFINITION. Which command words are legal, written from the ranges of R62 (the decoder is written from the table of
R61; a law proves that the two agree). An instruction itself has no operand that could be ill-formed. -/

namespace Sys2Proof

/-- R62, first check: the reserved field is 0. -/
def CmdFields.rsvClear (f : CmdFields) : Bool := f.rsv == 0

/-- R62, second check: OP lies in none of the ranges 0x03–0x0F, 0x17–0x1E, 0x23–0x2E, 0x30–0xFF. -/
def CmdFields.opAssigned (f : CmdFields) : Bool :=
  let op := f.op.toNat
  !(0x03 ≤ op && op ≤ 0x0F) && !(0x17 ≤ op && op ≤ 0x1E) && !(0x23 ≤ op && op ≤ 0x2E) && !(0x30 ≤ op)

/-- A legal command word's fields (R62). -/
def CmdFields.wellFormed (f : CmdFields) : Bool := f.rsvClear && f.opAssigned

/-- A legal command word (R62, R63). -/
def wordLegal (w : Word) : Bool := (CmdFields.ofWord w).wellFormed

end Sys2Proof
end

