-- ==== Sys2Proof/Decode.lean ====
section
/-! DEFINITION. The decoder of command words (R63), total on all 2^32 words and rejecting by name, and the encoder from the
same opcode map (R61). -/

namespace Sys2Proof

/-- Why a command word is illegal (R62). -/
inductive DecodeError where
  | reservedBits      -- RSV ≠ 0
  | unassignedOpcode  -- OP is not in the table of R61
deriving DecidableEq, Repr

/-- The opcode map of R61. -/
def ofOpcode : Nat → Option Instr
  | 0x00 => some .nop
  | 0x01 => some .clear
  | 0x02 => some .openout
  | 0x10 => some .count
  | 0x11 => some .build
  | 0x12 => some .gencode
  | 0x13 => some .wrmagic
  | 0x14 => some .serialize
  | 0x15 => some .encbody
  | 0x16 => some .close
  | 0x1F => some .encode
  | 0x20 => some .rdmagic
  | 0x21 => some .deserialize
  | 0x22 => some .decbody
  | 0x2F => some .decode
  | _ => none

/-- R63: `if w[31:8] ≠ 0 then illegal else look up w[7:0], illegal if absent`. -/
def decode (w : Word) : Except DecodeError Instr :=
  let f := CmdFields.ofWord w
  if f.rsv ≠ 0 then .error .reservedBits
  else match ofOpcode f.op.toNat with
    | some i => .ok i
    | none => .error .unassignedOpcode

/-- The OP field of a command (R61). -/
def opcode : Instr → BitVec 8
  | .nop => 0x00
  | .clear => 0x01
  | .openout => 0x02
  | .count => 0x10
  | .build => 0x11
  | .gencode => 0x12
  | .wrmagic => 0x13
  | .serialize => 0x14
  | .encbody => 0x15
  | .close => 0x16
  | .encode => 0x1F
  | .rdmagic => 0x20
  | .deserialize => 0x21
  | .decbody => 0x22
  | .decode => 0x2F

/-- The command word of a command: OP zero-extended, RSV = 0 (R60, R61). -/
def encode (i : Instr) : Word := (opcode i).setWidth 32

/-- What the decoder reads from an instruction whose bits are `w`, `nbits` of them given by the opcode table; the bits above
are 0 (the fixed name of the host's check). -/
def decodeTableWord (nbits w : Nat) : Option Instr :=
  if nbits ≤ 32 ∧ w < 2 ^ nbits then
    match decode (BitVec.ofNat 32 w) with
    | .ok i => some i
    | .error _ => none
  else none

end Sys2Proof
end

