-- ==== Sys2Proof/Machine/State.lean ====
section
/-! DEFINITION. The state of HUFFC: every piece R12 to R37 names, the model's own scratch and environment fields, the
reasons a step can stop, and the state after reset (R37, R119, R120). -/

namespace Sys2Proof.Machine

/-- The sequencer state SEQ (R14): the accepted command and the stage now running. `rejecting`: an illegal word was accepted,
which R70 lets set BUSY before the check that raises E_ILLEGAL_CMD; the word is in CMD, and no stage runs. -/
inductive Seq where
  | idle
  | running (cmd stage : Instr)
  | rejecting
deriving DecidableEq, Repr

/-- Where in its stage the sequencer stands, with the local variables of the stage's pseudocode. `enter`: before the
stage's first statement. `body`: in its loop. `merge L n`: in BUILD's loop (R81). `field i`: in DESERIALIZE's Get, before
the leaf field of record i (R91). `walk k`: in DECBODY's loop (R98). `ended`: after the stage's last statement, the bits it
wrote not all delivered yet (R50). -/
inductive Phase where
  | enter
  | body
  | merge (L n : Nat)
  | field (i : BitVec Config.idxW)
  | walk (k : Nat)
  | ended
deriving DecidableEq, Repr

/-- STATUS.DEC_STATE (R16, R24). -/
inductive DecState where
  | idle
  | walking
  | done
deriving DecidableEq, Repr

/-- STATUS.TREE_SRC (R16): the command that made the tree. -/
inductive TreeSrc where
  | build
  | deserialize
deriving DecidableEq, Repr

/-- The error names of R104; `eNone` is the value while no error is recorded. -/
inductive ErrCode where
  | eNone
  | eFmtBadMagic
  | eFmtMagicTrunc
  | eFmtHdrTrunc
  | eFmtBadLeaf
  | eFmtTreeTooLarge
  | eFmtBodyTrunc
  | eFmtDegenerate
  | eFmtIo
  | eIllegalCmd
  | eSeq
  | eOverflow
  | eNoCode
  | eOutClosed
deriving DecidableEq, Repr

/-- A record of NODE (R29). -/
structure NodeRec where
  leaf   : Bool
  value  : BitVec 9
  weight : BitVec Config.cntW
  left   : BitVec Config.idxW
  right  : BitVec Config.idxW
deriving DecidableEq, Repr

/-- An entry of CODE (R31): the code's length and its bits as one value, the last bit least significant. -/
structure CodeEntry where
  len  : BitVec 9
  bits : BitVec Config.maxCodeLen
deriving DecidableEq, Repr

/-- An internal memory: index and entry, indices strictly rising; an index not listed holds no value (log entry 2). -/
abbrev Table (α : Type) := List (Nat × α)

/-- An entry of DSTACK (R33). `put`: a node SERIALIZE has still to write (R90). `visit`: a node GENCODE has still to visit,
with its path (R85). `awaitLeft`, `awaitRight`: an internal record of DESERIALIZE whose left, or right, subtree is being
read; the second holds the left child's index (R91). -/
inductive Frame where
  | put (i : BitVec Config.idxW)
  | visit (i : BitVec Config.idxW) (len : BitVec 9) (bits : BitVec Config.maxCodeLen)
  | awaitLeft (i : BitVec Config.idxW)
  | awaitRight (i l : BitVec Config.idxW)
deriving DecidableEq, Repr

/-- The input port: IN_DATA (R35), the cursor IN_POS (R26), and the source's pending failure draws, one per ReadBits, none
left meaning "no failure" (R48; log entry 4). -/
structure InPort where
  data    : List Byte
  pos     : BitVec Config.posW
  ioDraws : List Bool
deriving DecidableEq, Repr

/-- The output port: OUT_ACC (R34), OUT_DATA (R36), OUT_COUNT and OUT_BITS (R22), STATUS.OUT_OPEN (R16). -/
structure OutPort where
  acc    : List Bool
  data   : List Byte
  count  : Word
  bits   : Word
  isOpen : Bool
deriving DecidableEq, Repr

/-- A move of the host or of the platform (R69, R127). `read` and `write` are bus accesses at a byte offset of the aperture
with a width in bytes (R40); `wait` is WAIT, reads of STATUS until BUSY = 0; `reset` is the platform's reset input (R119). -/
inductive HostMove where
  | read (off : BitVec 16) (width : Nat)
  | write (off : BitVec 16) (width : Nat) (v : Word)
  | attach (bytes : List Byte)
  | take
  | wait
  | reset
deriving DecidableEq, Repr

/-- The last answer the host got (R40, R127). `busError`: a refused access, whose read data is 0. -/
inductive Reply where
  | none
  | written
  | data (v : Word)
  | bytes (bs : List Byte)
  | busError (v : Word)
deriving DecidableEq, Repr

/-- The whole state. -/
structure State where
  -- the sequencer (R14) and the registers of R15
  seq       : Seq
  cmd       : Word
  done      : Bool
  err       : Bool
  ovr       : Bool
  freqV     : Bool
  treeV     : Bool
  codeV     : Bool
  decState  : DecState
  treeSrc   : TreeSrc
  errCode   : ErrCode
  errInfo   : Word
  magic     : Word
  doneIe    : Bool
  errIe     : Bool
  doneIp    : Bool
  errIp     : Bool
  inCount   : BitVec Config.cntW
  root      : BitVec Config.idxW
  nodeCount : BitVec Config.idxW
  leafCount : BitVec 9
  walk      : BitVec Config.idxW
  hdrBits   : Word
  -- the internal memories (R28, R29, R31)
  freq      : Table (BitVec Config.cntW)
  node      : Table NodeRec
  code      : Table CodeEntry
  -- hidden state (R32, R33), the sequencer's place in its stage, and the bits of the WriteBits under way that are still to be
  -- appended (R50; log entry 1)
  heap      : List Nat
  dstack    : List Frame
  phase     : Phase
  unsent    : List Bool
  -- the stream ports (R26, R34, R35, R36)
  inp       : InPort
  out       : OutPort
  -- the environment: the host's pending moves, the grants, the last answer, the draws made (log entries 3, 5, 6, 7)
  host      : List HostMove
  grants    : List Nat
  reply     : Reply
  draws     : Nat
deriving DecidableEq, Repr

/-- HUFFC has no trap and no stuck state: an error of the spec is recorded in ERR_CODE (R106) and the machine goes on, so
no step ends in a fault and the type has no constructor. Safe: nothing stops here. -/
inductive Fault
deriving DecidableEq, Repr

/-- Why a step is refused. -/
inductive Refusal where
  /-- Raised by an arm of `exec` whose command has no meaning yet. Safe: the machine stops. -/
  | notModelled (mnemonic : String)
  /-- Raised by the host move ATTACH while BUSY = 1, a duty of R123 and R127 with no move in the model (I16). Safe. -/
  | attachWhileBusy
  /-- Raised by the host move TAKE while BUSY = 1, a duty of R127 with no move in the model (I16). Safe. -/
  | takeWhileBusy
  /-- Raised by ATTACH of more than 2^37 − 1 bytes, outside what IN_POS addresses (R123 c, I16). Safe. -/
  | inputTooLong
deriving DecidableEq, Repr

/-- After reset (R37, R120). FREQ, NODE and CODE hold no value (log entry 2); HEAP, DSTACK and the bits
under way are empty (log entry 1);
IN_DATA and OUT_DATA, which reset does not touch, are empty (log entry 14); the environment fields as log entries 3 to 7. -/
def State.reset : State where
  seq       := .idle
  cmd       := 0x00000000#32
  done      := false
  err       := false
  ovr       := false
  freqV     := false
  treeV     := false
  codeV     := false
  decState  := .idle
  treeSrc   := .build
  errCode   := .eNone
  errInfo   := 0x00000000#32
  magic     := Config.magicReset
  doneIe    := false
  errIe     := false
  doneIp    := false
  errIp     := false
  inCount   := 0#Config.cntW
  root      := 0#Config.idxW
  nodeCount := 0#Config.idxW
  leafCount := 0#9
  walk      := 0#Config.idxW
  hdrBits   := 0#32
  freq      := []
  node      := []
  code      := []
  heap      := []
  dstack    := []
  phase     := .enter
  unsent    := []
  inp       := ⟨[], 0#Config.posW, []⟩
  out       := ⟨[], [], 0#32, 0#32, true⟩
  host      := []
  grants    := []
  reply     := .none
  draws     := 0

end Sys2Proof.Machine
end

