-- ==== Sys2Proof/Machine/Ops.lean ====
section
/-! DEFINITION. The named operations over HUFFC's memories, stream ports and lifecycle: table reads and writes, ReadBits
(R48), SetInPos (R49), WriteBits (R50), CloseOut (R51), OpenOut (R52), command acceptance (R70), complete() (R72) and
raise (R106), the one operation every error takes. There is no return from an error (R110). -/

namespace Sys2Proof.Machine

/-! ## Internal memories (R28, R29, R31) -/

/-- The entry an index holds, if anything has written it. -/
def tableGet {α : Type} : Table α → Nat → Option α
  | [], _ => none
  | (k, a) :: t, i => if k = i then some a else tableGet t i

/-- Write an entry, keeping the indices strictly rising. -/
def tableInsert {α : Type} : Table α → Nat → α → Table α
  | [], i, a => [(i, a)]
  | (k, b) :: t, i, a =>
    if i < k then (i, a) :: (k, b) :: t
    else if i = k then (i, a) :: t
    else (k, b) :: tableInsert t i a

/-- Write an entry of a memory of `cap` entries; an index at or above `cap` names no entry, and nothing is written
(log entry 15). -/
def tableSet {α : Type} (cap : Nat) (t : Table α) (i : Nat) (a : α) : Table α :=
  if i < cap then tableInsert t i a else t

/-- Canonical form from an index on: indices rise strictly and lie in `lo .. cap − 1`. -/
def tableWfFrom {α : Type} (lo cap : Nat) : Table α → Bool
  | [] => true
  | (k, _) :: t => decide (lo ≤ k) && decide (k < cap) && tableWfFrom (k + 1) cap t

/-- Canonical form of a memory of `cap` entries. -/
def tableWf {α : Type} (cap : Nat) (t : Table α) : Bool := tableWfFrom 0 cap t

/-- The three internal memories are in canonical form. -/
def Memory.wf (s : State) : Bool :=
  tableWf Config.nsym s.freq && tableWf Config.nodeCap s.node && tableWf Config.nsym s.code

/-- FREQ[i]; a free value where nothing has been written (log entry 2). -/
def freqAt (s : State) (i : Nat) : BitVec Config.cntW := (tableGet s.freq i).getD (Config.freeFreq i)

/-- The record whose bits are LEAF, VALUE, WEIGHT, LEFT, RIGHT from the top (R29). -/
def nodeOfBits (b : BitVec (1 + 9 + Config.cntW + Config.idxW + Config.idxW)) : NodeRec :=
  let lo := Config.idxW + Config.idxW + Config.cntW
  ⟨b.getLsbD (lo + 9), b.extractLsb' lo 9, b.extractLsb' (Config.idxW + Config.idxW) Config.cntW,
    b.extractLsb' Config.idxW Config.idxW, b.extractLsb' 0 Config.idxW⟩

/-- NODE[i] in a table of records; a free value where nothing has been written (log entry 2). -/
def nodeIn (t : Table NodeRec) (i : Nat) : NodeRec := (tableGet t i).getD (nodeOfBits (Config.freeNode i))

/-- NODE[i]. -/
def nodeAt (s : State) (i : Nat) : NodeRec := nodeIn s.node i

/-- The entry whose bits are LEN, BITS from the top (R31). -/
def codeOfBits (b : BitVec (9 + Config.maxCodeLen)) : CodeEntry :=
  ⟨b.extractLsb' Config.maxCodeLen 9, b.extractLsb' 0 Config.maxCodeLen⟩

/-- CODE[i]; a free value where nothing has been written (log entry 2). -/
def codeAt (s : State) (i : Nat) : CodeEntry := (tableGet s.code i).getD (codeOfBits (Config.freeCode i))

/-! ## Bits and numbers in stream order (R9, R47) -/

/-- The number whose bits, most significant first, are `bs` (R9). -/
def bitsToNat (bs : List Bool) : Nat := bs.foldl (fun n b => 2 * n + b.toNat) 0

/-- The low `n` bits of `v` in stream order: bit j is `v[n−1−j]` (R9, R50). -/
def natToBits (n v : Nat) : List Bool := (List.range n).map fun j => v.testBit (n - 1 - j)

/-- The byte whose bits from bit 7 down are `bs` (R47, R50). -/
def byteOfBits (bs : List Bool) : Byte := BitVec.ofNat 8 (bitsToNat bs)

/-- Stream bit k of a byte sequence: bit `7 − (k mod 8)` of byte `k div 8` (R47). -/
def streamBit (data : List Byte) (k : Nat) : Bool := (data.getD (k / 8) 0#8).getLsbD (7 - k % 8)

/-! ## The input port -/

/-- What ReadBits answers (R48). -/
inductive ReadResult where
  | val (v : Nat)
  | eos
  | ioErr
deriving DecidableEq, Repr

/-- ReadBits(n) (R48): the source's failure draw first, then end of stream, then the value; only the last moves IN_POS. -/
def InPort.readBits (n : Nat) (p : InPort) : ReadResult × InPort :=
  let q : InPort := { p with ioDraws := p.ioDraws.tail }
  if p.ioDraws.headD false then (.ioErr, q)
  else if p.pos.toNat + n > 8 * p.data.length then (.eos, q)
  else (.val (bitsToNat ((List.range n).map fun j => streamBit p.data (p.pos.toNat + j))),
        { q with pos := p.pos + BitVec.ofNat Config.posW n })

/-- SetInPos(0), the only use the rules make of SetInPos (R49). -/
def InPort.rewind (p : InPort) : InPort := { p with pos := 0#Config.posW }

/-! ## The output port -/

/-- One pass of WriteBits' loop: append a bit, deliver a completed byte (R50). OUT_BITS counts the bit here, not the run of
bits at its end; nothing can read it in between (R27; log entry 25). -/
def OutPort.writeBit (o : OutPort) (b : Bool) : OutPort :=
  let acc := o.acc ++ [b]
  let o := { o with bits := o.bits + 1#32 }
  if acc.length = 8 then { o with acc := [], data := o.data ++ [byteOfBits acc], count := o.count + 1#32 }
  else { o with acc := acc }

/-- WriteBits(n, v) (R50): its bits stand ready, v[n−1] first, and the sequencer appends them one a step before it goes on
with the stage, so that a reset, or any other move of the host, can land between any two of them (R119, R127). -/
def State.writeBits (n v : Nat) (s : State) : State := { s with unsent := s.unsent ++ natToBits n v }

/-- The next bit under way is appended (R50). -/
def sendBit (b : Bool) (rest : List Bool) (s : State) : State := { s with out := s.out.writeBit b, unsent := rest }

/-- CloseOut() (R51): pad a partial byte with zero bits, deliver it, close. -/
def OutPort.closeOut (o : OutPort) : OutPort :=
  if o.acc.length > 0 then
    { o with acc := [], data := o.data ++ [byteOfBits (o.acc ++ List.replicate (8 - o.acc.length) false)],
             count := o.count + 1#32, isOpen := false }
  else { o with isOpen := false }

/-- OpenOut() (R52): pending bits are discarded, OUT_DATA is not touched. -/
def OutPort.openOut (o : OutPort) : OutPort :=
  { o with acc := [], count := 0#32, bits := 0#32, isOpen := true }

/-! ## The traversal stack (R33) -/

/-- Push entries on DSTACK, which holds at most 257: an entry it has no room for is lost at the bottom. No tree that fits NODE
needs more room; a header whose Get has more than 256 records waiting cannot end within NODE_CAP records, so DESERIALIZE
ends in an error whether the bottom entry is there or not (R33, R91; log entry 17). -/
def pushFrames (fs st : List Frame) : List Frame := (fs ++ st).take Config.dstackCap

/-! ## Lifecycle (R70, R72, R106) -/

/-- STATUS.BUSY: 1 exactly when SEQ ≠ IDLE (R14, R16). -/
def State.busy (s : State) : Bool := s.seq != .idle

/-- A CMD write while BUSY = 1 (R17, R70): nothing but OVR. -/
def overrun (s : State) : State := { s with ovr := true }

/-- Acceptance of a command word, but for SEQ (R70, R17, R18). -/
def acceptWord (w : Word) (s : State) : State :=
  { s with cmd := w, done := false, err := false, errCode := .eNone, errInfo := 0#32 }

/-- Acceptance of a legal word: BUSY becomes 1 and SEQ RUNNING(op, op) (R70). -/
def accept (i : Instr) (s : State) : State :=
  { acceptWord (encode i) s with seq := .running i i, phase := .enter, unsent := [] }

/-- Acceptance of an illegal word: BUSY becomes 1 before the check of R70 that raises; the raise is a step of its own
(log entry 6). -/
def acceptIllegal (w : Word) (s : State) : State :=
  { acceptWord w s with seq := .rejecting, phase := .enter, unsent := [] }

/-- SEQ becomes IDLE; the scratch of the command is given up (R32, R33; log entry 1). -/
def endRun (s : State) : State := { s with seq := .idle, phase := .enter, heap := [], dstack := [], unsent := [] }

/-- complete() (R72). -/
def complete (s : State) : State := { endRun s with done := true, doneIp := true }

/-- raise E(info) (R106): the entry every error takes. -/
def raiseError (e : ErrCode) (info : Word) (s : State) : State :=
  { endRun s with errCode := e, errInfo := info, err := true, errIp := true }

/-- What one sequencer step of a stage comes to: the stage goes on, ends, or raises an error. -/
inductive StageResult where
  | more (s : State)
  | done (s : State)
  | raise (e : ErrCode) (info : Word) (s : State)
deriving DecidableEq, Repr

/-- `n` further free values were drawn (log entry 3). -/
def State.drew (n : Nat) (s : State) : State := { s with draws := s.draws + n }

/-- A model that runs one HUFFC sees the aperture from its base: the offset of an absolute address, for the open
parameter HUFFC_BASE given as an argument (R38, D4; log entry 11). -/
def apertureOffset (base addr : Nat) : Option (BitVec 16) :=
  if base ≤ addr ∧ addr < base + 0x10000 then some (BitVec.ofNat 16 (addr - base)) else none

end Sys2Proof.Machine
end

