-- ==== Sys2Proof/Machine/Flags.lean ====
section
/-! DEFINITION. Everything computed from flags: the error codes (R104), the interrupt line (R109), the STATUS word (R16),
IRQ_EN and IRQ_STAT (R20), and the precondition checks of a stage (R71). -/

namespace Sys2Proof.Machine

/-- ERR_CODE[7:0] of an error name (R104). -/
def ErrCode.toBits : ErrCode → BitVec 8
  | .eNone => 0x00
  | .eFmtBadMagic => 0x01
  | .eFmtMagicTrunc => 0x02
  | .eFmtHdrTrunc => 0x03
  | .eFmtBadLeaf => 0x04
  | .eFmtTreeTooLarge => 0x05
  | .eFmtBodyTrunc => 0x06
  | .eFmtDegenerate => 0x07
  | .eFmtIo => 0x08
  | .eIllegalCmd => 0x10
  | .eSeq => 0x11
  | .eOverflow => 0x12
  | .eNoCode => 0x13
  | .eOutClosed => 0x14

/-- The source's FormatError: ERR = 1 with ERR_CODE in 0x01..0x08 (R105). -/
def formatError (s : State) : Bool :=
  s.err && (1 ≤ s.errCode.toBits.toNat && s.errCode.toBits.toNat ≤ 8)

/-- The interrupt output (R109). -/
def irqLine (s : State) : Bool := (s.doneIp && s.doneIe) || (s.errIp && s.errIe)

/-- A word with one field: `b` at bit `k`. -/
def bitAt (k : Nat) (b : Bool) : Word := (BitVec.ofBool b).setWidth 32 <<< k

/-- STATUS[9:8] (R16). -/
def DecState.toBits : DecState → BitVec 2
  | .idle => 0
  | .walking => 1
  | .done => 2

/-- STATUS[10] (R16). -/
def TreeSrc.toBit : TreeSrc → Bool
  | .build => false
  | .deserialize => true

/-- The STATUS register (R16); bits [31:12] read 0. -/
def statusWord (s : State) : Word :=
  bitAt 0 s.busy ||| bitAt 1 s.done ||| bitAt 2 s.err ||| bitAt 3 s.ovr ||| bitAt 4 s.freqV ||| bitAt 5 s.treeV |||
  bitAt 6 s.codeV ||| bitAt 7 s.out.isOpen ||| (s.decState.toBits.setWidth 32 <<< 8) ||| bitAt 10 s.treeSrc.toBit |||
  bitAt 11 (irqLine s)

/-- The IRQ_EN register (R15). -/
def irqEnWord (s : State) : Word := bitAt 0 s.doneIe ||| bitAt 1 s.errIe

/-- The IRQ_STAT register (R15). -/
def irqStatWord (s : State) : Word := bitAt 0 s.doneIp ||| bitAt 1 s.errIp

/-- A host write of IRQ_EN: bits [1:0] at any time, the reserved bits ignored (R20). -/
def writeIrqEn (v : Word) (s : State) : State := { s with doneIe := v.getLsbD 0, errIe := v.getLsbD 1 }

/-- A host write of IRQ_STAT: a 1 clears its bit, a 0 leaves it (R20). -/
def writeIrqStat (v : Word) (s : State) : State :=
  { s with doneIp := s.doneIp && !v.getLsbD 0, errIp := s.errIp && !v.getLsbD 1 }

/-- A host write of MAGIC: ignored while BUSY = 1 (R19). -/
def writeMagic (v : Word) (s : State) : State := if s.busy then s else { s with magic := v }

/-- The first check of R71 that fails for a stage, if one does. -/
def precondition : Instr → State → Option ErrCode
  | .build, s => if s.freqV then none else some .eSeq
  | .gencode, s => if s.treeV then none else some .eSeq
  | .serialize, s => if s.treeV then (if s.out.isOpen then none else some .eOutClosed) else some .eSeq
  | .encbody, s => if s.codeV then (if s.out.isOpen then none else some .eOutClosed) else some .eSeq
  | .decbody, s => if s.treeV then (if s.out.isOpen then none else some .eOutClosed) else some .eSeq
  | .wrmagic, s => if s.out.isOpen then none else some .eOutClosed
  | .close, s => if s.out.isOpen then none else some .eOutClosed
  | .nop, _ | .clear, _ | .openout, _ | .count, _ | .encode, _ | .rdmagic, _ | .deserialize, _ | .decode, _ => none

/-- A stage's first statement: its checks; the first that fails raises with ERR_INFO = the stage's opcode and nothing else
happens (R71). -/
def checked (stage : Instr) (s : State) (body : State → StageResult) : StageResult :=
  match precondition stage s with
  | some e => .raise e ((opcode stage).setWidth 32) s
  | none => body s

end Sys2Proof.Machine
end

