-- ==== Sys2Proof/Machine/Operands.lean ====
section
/-! DEFINITION. The places a host access can name: the registers of R15 and the windows of R44 to R46, the aperture map of
R39, and what a read answers (R27, R40, R42). HUFFC's commands themselves name no operand (R13). -/

namespace Sys2Proof.Machine

/-- The registers of R15. -/
inductive Reg where
  | id | version | cmd | status | errCode | errInfo | magic | irqEn | irqStat | inCount
  | outCount | outBits | root | nodeCount | leafCount | walk | hdrBits | params | inPosLo | inPosHi
deriving DecidableEq, Repr

/-- The registers in the order of their offsets, four bytes each from 0x000 (R15). -/
def regList : List Reg :=
  [.id, .version, .cmd, .status, .errCode, .errInfo, .magic, .irqEn, .irqStat, .inCount,
   .outCount, .outBits, .root, .nodeCount, .leafCount, .walk, .hdrBits, .params, .inPosLo, .inPosHi]

/-- A place of the aperture (R39): a register, word of a window entry, or reserved. `codeTail`: a word of the CODE window behind
its last entry (log entry 26). -/
inductive Slot where
  | reg (r : Reg)
  | freqWin (s : Nat)
  | nodeWin (i k : Nat)
  | codeWin (s k : Nat)
  | codeTail (k : Nat)
  | reserved
deriving DecidableEq, Repr

/-- The aperture map (R39) for an aligned offset. The offsets 0x8040 to 0x807F, which R39 counts to the CODE window but which
lie behind its last entry (R46), are a place of their own (log entry 26). -/
def slotOf (off : BitVec 16) : Slot :=
  let o := off.toNat
  if o < 0x0050 then
    match regList[o / 4]? with
    | some r => .reg r
    | none => .reserved
  else if 0x0400 ≤ o ∧ o ≤ 0x0803 then .freqWin ((o - 0x0400) / 4)
  else if 0x1000 ≤ o ∧ o ≤ 0x300F then .nodeWin ((o - 0x1000) / 16) ((o - 0x1000) % 16 / 4)
  else if 0x4000 ≤ o ∧ o ≤ 0x803F then .codeWin ((o - 0x4000) / 64) ((o - 0x4000) % 64 / 4)
  else if 0x8040 ≤ o ∧ o ≤ 0x807F then .codeTail ((o - 0x8040) / 4)
  else .reserved

/-- The value of a register (R15). -/
def regValue (s : State) : Reg → Word
  | .id => Config.idConst
  | .version => Config.versionConst
  | .cmd => s.cmd
  | .status => statusWord s
  | .errCode => s.errCode.toBits.setWidth 32
  | .errInfo => s.errInfo
  | .magic => s.magic
  | .irqEn => irqEnWord s
  | .irqStat => irqStatWord s
  | .inCount => s.inCount.setWidth 32
  | .outCount => s.out.count
  | .outBits => s.out.bits
  | .root => s.root.setWidth 32
  | .nodeCount => s.nodeCount.setWidth 32
  | .leafCount => s.leafCount.setWidth 32
  | .walk => s.walk.setWidth 32
  | .hdrBits => s.hdrBits
  | .params => Config.paramsConst
  | .inPosLo => s.inp.pos.extractLsb' 0 32
  | .inPosHi => (s.inp.pos.extractLsb' 32 8).setWidth 32

/-- The registers whose reads return their current values while BUSY = 1 (R27). -/
def Reg.readableBusy : Reg → Bool
  | .id | .version | .cmd | .status | .magic | .irqEn | .irqStat | .params => true
  | .errCode | .errInfo | .inCount | .outCount | .outBits | .root | .nodeCount | .leafCount | .walk | .hdrBits
  | .inPosLo | .inPosHi => false

/-- Word k of a record's window (R45). -/
def nodeWord (r : NodeRec) : Nat → Word
  | 0 => bitAt 31 r.leaf ||| r.value.setWidth 32
  | 1 => r.weight.setWidth 32
  | 2 => r.left.setWidth 32
  | _ => r.right.setWidth 32

/-- Word k of a code entry's window (R46). -/
def codeWord (c : CodeEntry) (k : Nat) : Word :=
  if k = 0 then c.len.setWidth 32
  else if k ≤ 8 then c.bits.extractLsb' (32 * (k - 1)) 32
  else 0#32

/-- What an aligned word read answers; `none` is a draw (R27, R44, R45, R46). Reserved offsets read 0 (R39). A word behind the
last entry of the CODE window, whose value no rule gives, is one free value of its offset while CODE_V = 1 and BUSY = 0, so that
reads repeat (R42), and a draw otherwise (I4): the model's choice (log entry 26). -/
def slotValue (s : State) : Slot → Option Word
  | .reg r => if s.busy && !r.readableBusy then none else some (regValue s r)
  | .freqWin i => if s.freqV && !s.busy then some ((freqAt s i).setWidth 32) else none
  | .nodeWin i k => if s.treeV && !s.busy && decide (i < s.nodeCount.toNat) then some (nodeWord (nodeAt s i) k) else none
  | .codeWin i k => if s.codeV && !s.busy then some (codeWord (codeAt s i) k) else none
  | .codeTail k => if s.codeV && !s.busy then some (Config.freeCodeTail k) else none
  | .reserved => some 0#32

/-- An access HUFFC admits: a 32-bit word at a multiple of 4 (R40). -/
def admitted (off : BitVec 16) (width : Nat) : Bool := width == 4 && off.toNat % 4 == 0

/-- MemRead: a refused access answers a bus error with read data 0 (R40); a draw is a fresh free value (R42; log entry 3);
no other state changes. -/
def busRead (off : BitVec 16) (width : Nat) (s : State) : State :=
  if admitted off width then
    match slotValue s (slotOf off) with
    | some v => { s with reply := .data v }
    | none => { s.drew 1 with reply := .data (Config.freeWord s.draws) }
  else { s with reply := .busError 0#32 }

/-- An admitted write to any register but CMD; read-only registers, windows and reserved offsets ignore it (R42). -/
def writeSlot (v : Word) (s : State) : Slot → State
  | .reg .magic => writeMagic v s
  | .reg .irqEn => writeIrqEn v s
  | .reg .irqStat => writeIrqStat v s
  | .reg _ => s
  | .freqWin _ => s
  | .nodeWin _ _ => s
  | .codeWin _ _ => s
  | .codeTail _ => s
  | .reserved => s

end Sys2Proof.Machine
end

