-- ==== Sys2Proof/Machine/Control.lean ====
section
/-! DEFINITION. The bodies of the control commands CLEAR (R75) and OPENOUT (R76), and the opening step of the composites
(R96, R101). NOP has none (R74). -/

namespace Sys2Proof.Machine

/-- Exec(0x01): CLEAR (R75). The contents of FREQ, NODE and CODE become unspecified (log entry 2). The body
and complete() are one step, so no overrun lands between OVR ← 0 and the end of CLEAR (log entry 6). -/
def clearBody (s : State) : State :=
  { s with
    freqV := false, treeV := false, codeV := false, ovr := false, decState := .idle, treeSrc := .build
    inCount := 0#Config.cntW, root := 0#Config.idxW, nodeCount := 0#Config.idxW, leafCount := 0#9
    walk := 0#Config.idxW, hdrBits := 0#32
    inp := s.inp.rewind, out := s.out.openOut
    freq := [], node := [], code := [] }

/-- Exec(0x02): OPENOUT (R76), and the first statement of ENCODE (R96) and DECODE (R101): OpenOut() (R52). -/
def openBody (s : State) : State := { s with out := s.out.openOut }

end Sys2Proof.Machine
end

