-- ==== Sys2Proof/Machine/FrequencyCounter.lean ====
section
/-! DEFINITION. The Frequency Counter: COUNT (R77, R78). -/

namespace Sys2Proof.Machine

/-- FREQ before the scan: every literal symbol 0, the sentinel 1 (R77). -/
def countInit : Table (BitVec Config.cntW) :=
  (List.range Config.alphSize).map (fun s => (s, 0#Config.cntW)) ++ [(Config.pseudoEof, 1#Config.cntW)]

/-- Exec(0x10) up to its loop (R77). -/
def countEnter (s : State) : StageResult :=
  .more { s with freqV := false, inp := s.inp.rewind, freq := countInit, inCount := 0#Config.cntW, phase := .body }

/-- One pass of COUNT's loop (R77): end of stream, then the failure, then the limit, then the count (R108). -/
def countIter (s : State) : StageResult :=
  match s.inp.readBits Config.bitsPerWord with
  | (.eos, p) => .done { s with inp := p, freqV := true }
  | (.ioErr, p) => .raise .eFmtIo 0#32 { s with inp := p }
  | (.val v, p) =>
    if s.inCount = Config.maxIn then .raise .eOverflow (s.inCount.setWidth 32) { s with inp := p }
    else .more { s with
      inp := p, freq := tableSet Config.nsym s.freq v (freqAt s v + 1#Config.cntW), inCount := s.inCount + 1#Config.cntW }

end Sys2Proof.Machine
end

