-- ==== Sys2Proof/Machine/TreeBuilder.lean ====
section
/-! DEFINITION. The Tree Builder: BUILD (R80 to R84). -/

namespace Sys2Proof.Machine

/-- The order of R80: WEIGHT first, equal weights as TIE_POLICY says; INDEX_ORDER takes the lower index (R6, R80). -/
def keyLt (t : Table NodeRec) (i j : Nat) : Bool :=
  let wi := (nodeIn t i).weight.toNat
  let wj := (nodeIn t j).weight.toNat
  decide (wi < wj) || (decide (wi = wj) && match Config.tiePolicy with | .indexOrder => decide (i < j))

/-- The index of least key in HEAP (R80). -/
def heapMin (t : Table NodeRec) : List Nat → Option Nat
  | [] => none
  | i :: h =>
    match heapMin t h with
    | none => some i
    | some m => if keyLt t i m then some i else some m

/-- extract_min(HEAP): the index of least key and the rest (R80). -/
def extractMin (t : Table NodeRec) (h : List Nat) : Option (Nat × List Nat) :=
  (heapMin t h).map fun m => (m, h.erase m)

/-- S of R81: the symbols with a count, ascending, with AUG_SYMBOL in front where there is only one (R82). -/
def buildSymbols (s : State) : List Nat :=
  let syms := (List.range Config.nsym).filter fun i => freqAt s i != 0#Config.cntW
  if syms.length = 1 then Config.augSymbol :: syms else syms

/-- The leaf record of a symbol (R81). -/
def leafRec (s : State) (sym : Nat) : NodeRec := ⟨true, BitVec.ofNat 9 sym, freqAt s sym, 0#Config.idxW, 0#Config.idxW⟩

/-- The leaves written at indices k, k + 1, ... (R81). -/
def writeLeaves (s : State) : Nat → List Nat → Table NodeRec → Table NodeRec
  | _, [], t => t
  | k, sym :: rest, t => writeLeaves s (k + 1) rest (tableSet Config.nodeCap t k (leafRec s sym))

/-- Exec(0x11) up to its loop (R81). -/
def buildEnter (s : State) : StageResult :=
  checked .build s fun s =>
    let syms := buildSymbols s
    .more { s with
      treeV := false, codeV := false, decState := .idle
      node := writeLeaves s 0 syms s.node, heap := List.range syms.length, phase := .merge syms.length syms.length }

/-- The internal record over two extracted nodes: the first is LEFT, the second RIGHT, the weights added (R81). -/
def mergeRec (t : Table NodeRec) (a b : Nat) : NodeRec :=
  ⟨false, 0#9, (nodeIn t a).weight + (nodeIn t b).weight, BitVec.ofNat Config.idxW a,
    BitVec.ofNat Config.idxW b⟩

/-- The statements after BUILD's loop (R81). `r` is the single element of HEAP. -/
def buildFinish (L n : Nat) (r : BitVec Config.idxW) (s : State) : State :=
  { s with root := r, nodeCount := BitVec.ofNat Config.idxW n, leafCount := BitVec.ofNat 9 L, treeSrc := .build, treeV := true }

/-- One pass of BUILD's loop, or its end (R81): `L` leaves, `n` the next record. A HEAP with no element at all cannot come
from R81; ROOT is then a free value (log entry 15). -/
def buildIter (L n : Nat) (s : State) : StageResult :=
  match extractMin s.node s.heap with
  | none => .done (buildFinish L n ((Config.freeWord s.draws).setWidth Config.idxW) (s.drew 1))
  | some (a, h) =>
    match extractMin s.node h with
    | none => .done (buildFinish L n (BitVec.ofNat Config.idxW a) s)
    | some (b, h') =>
      .more { s with
        node := tableSet Config.nodeCap s.node n (mergeRec s.node a b)
        heap := h' ++ [n], phase := .merge L (n + 1) }

end Sys2Proof.Machine
end

