-- ==== Sys2Proof/Machine/CodeTable.lean ====
section
/-! DEFINITION. The Code Table Generator: GENCODE (R85 to R89). The recursion Visit is held on DSTACK (R33, R85). -/

namespace Sys2Proof.Machine

/-- CODE with no code for any symbol (R85). -/
def codeInit : Table CodeEntry := (List.range Config.nsym).map fun s => (s, ⟨0#9, 0#Config.maxCodeLen⟩)

/-- Exec(0x12) up to Visit(ROOT, 0, 0) (R85). -/
def gencodeEnter (s : State) : StageResult :=
  checked .gencode s fun s =>
    .more { s with codeV := false, code := codeInit, dstack := [.visit s.root 0#9 0#Config.maxCodeLen], phase := .body }

/-- One node of Visit, left before right; a leaf at the root binds nothing (R85, R88), a later leaf of the same symbol
overwrites (R89). Frames of other commands never stand on DSTACK here and are dropped (log entry 15). -/
def gencodeIter (s : State) : StageResult :=
  match s.dstack with
  | [] => .done { s with codeV := true }
  | .visit i len bits :: rest =>
    let r := nodeAt s i.toNat
    if r.leaf then
      if len = 0#9 then .more { s with dstack := rest }
      else .more { s with dstack := rest, code := tableSet Config.nsym s.code r.value.toNat ⟨len, bits⟩ }
    else
      let kids : List Frame :=
        [.visit r.left (len + 1#9) (bits <<< 1), .visit r.right (len + 1#9) (bits <<< 1 ||| 1#Config.maxCodeLen)]
      .more { s with dstack := pushFrames kids rest }
  | _ :: rest => .more { s with dstack := rest }

end Sys2Proof.Machine
end

