-- ==== Sys2Proof/Machine/TreeHeader.lean ====
section
/-! DEFINITION. The Tree Serializer and Deserializer: SERIALIZE (R90) and DESERIALIZE (R91), over the header format of R65.
The recursions Put and Get are held on DSTACK (R33). -/

namespace Sys2Proof.Machine

/-- Exec(0x14) up to Put(ROOT) (R90). -/
def serializeEnter (s : State) : StageResult :=
  checked .serialize s fun s => .more { s with hdrBits := 0#32, dstack := [.put s.root], phase := .body }

/-- One node of Put, left before right (R90, R65). -/
def serializeIter (s : State) : StageResult :=
  match s.dstack with
  | [] => .done s
  | .put i :: rest =>
    let r := nodeAt s i.toNat
    if r.leaf then
      .more (State.writeBits Config.leafBits r.value.toNat (State.writeBits 1 1
        { s with hdrBits := s.hdrBits + BitVec.ofNat 32 (1 + Config.leafBits), dstack := rest }))
    else
      .more (State.writeBits 1 0
        { s with hdrBits := s.hdrBits + 1#32, dstack := pushFrames [.put r.left, .put r.right] rest })
  | _ :: rest => .more { s with dstack := rest }

/-- What a failed DESERIALIZE leaves of the tree: NODE, ROOT, NODE_COUNT and LEAF_COUNT are unspecified, the registers a free
value each (R23, R91, I7; log entry 10). -/
def treeUnspecified (s : State) : State :=
  { s.drew 3 with
    node := []
    root := (Config.freeWord s.draws).setWidth Config.idxW
    nodeCount := (Config.freeWord (s.draws + 1)).setWidth Config.idxW
    leafCount := (Config.freeWord (s.draws + 2)).setWidth 9 }

/-- An error of DESERIALIZE (R91): the tree is left unspecified. -/
def deserializeRaise (e : ErrCode) (info : Word) (s : State) : StageResult := .raise e info (treeUnspecified s)

/-- Exec(0x21) up to Get() (R91). -/
def deserializeEnter (s : State) : StageResult :=
  .more { s with
    treeV := false, codeV := false, decState := .idle, nodeCount := 0#Config.idxW, leafCount := 0#9, hdrBits := 0#32
    dstack := [], phase := .body }

/-- Get() returns record `i` to the record that waits for it (R91): a left child makes its parent wait for the right one, a
right child completes its parent, which is returned in turn. Answers NODE, DSTACK, and the root once nothing waits. -/
def returnNode (i : BitVec Config.idxW) : List Frame → Table NodeRec → Table NodeRec × List Frame × Option (BitVec Config.idxW)
  | [], t => (t, [], some i)
  | .awaitLeft p :: rest, t => (t, .awaitRight p i :: rest, none)
  | .awaitRight p l :: rest, t =>
    returnNode p rest (tableSet Config.nodeCap t p.toNat { nodeIn t p.toNat with left := l, right := i })
  | _ :: rest, t => returnNode i rest t

/-- A leaf of Get(): its record, and the return to whatever waits (R91); with nothing waiting the root is read and
DESERIALIZE ends. `i` is the record's index. -/
def deserializeLeaf (i : BitVec Config.idxW) (v : Nat) (s : State) : StageResult :=
  let t := tableSet Config.nodeCap s.node i.toNat ⟨true, BitVec.ofNat 9 v, 0#Config.cntW, 0#Config.idxW, 0#Config.idxW⟩
  let s := { s with leafCount := s.leafCount + 1#9, phase := .body }
  match returnNode i s.dstack t with
  | (t', st, some r) => .done { s with node := t', dstack := st, root := r, treeSrc := .deserialize, treeV := true }
  | (t', st, none) => .more { s with node := t', dstack := st }

/-- The leaf field of Get() (R91, R66). -/
def deserializeField (i : BitVec Config.idxW) (s : State) : StageResult :=
  match s.inp.readBits Config.leafBits with
  | (.eos, p) => deserializeRaise .eFmtHdrTrunc s.hdrBits { s with inp := p }
  | (.ioErr, p) => deserializeRaise .eFmtIo 0#32 { s with inp := p }
  | (.val v, p) =>
    let s := { s with inp := p, hdrBits := s.hdrBits + BitVec.ofNat 32 Config.leafBits }
    if v > Config.pseudoEof then deserializeRaise .eFmtBadLeaf (BitVec.ofNat 32 v) s
    else deserializeLeaf i v s

/-- An internal record of Get(), whose left subtree is read next (R91). -/
def deserializeInternal (i : BitVec Config.idxW) (s : State) : StageResult :=
  .more { s with
    node := tableSet Config.nodeCap s.node i.toNat ⟨false, 0#9, 0#Config.cntW, 0#Config.idxW, 0#Config.idxW⟩
    dstack := pushFrames [.awaitLeft i] s.dstack }

/-- One call of Get() up to a leaf's field (R91): the node bit, the size check, then the record's number. -/
def deserializeIter (s : State) : StageResult :=
  match s.inp.readBits 1 with
  | (.eos, p) => deserializeRaise .eFmtHdrTrunc s.hdrBits { s with inp := p }
  | (.ioErr, p) => deserializeRaise .eFmtIo 0#32 { s with inp := p }
  | (.val b, p) =>
    let s := { s with inp := p, hdrBits := s.hdrBits + 1#32 }
    if s.nodeCount.toNat = Config.nodeCap then deserializeRaise .eFmtTreeTooLarge (BitVec.ofNat 32 Config.nodeCap) s
    else
      let i := s.nodeCount
      let s := { s with nodeCount := i + 1#Config.idxW }
      if b = 1 then .more { s with phase := .field i } else deserializeInternal i s

end Sys2Proof.Machine
end

