-- ==== Sys2Proof/Machine/StreamCodec.lean ====
section
/-! DEFINITION. The Stream Codec's stages: WRMAGIC (R93), ENCBODY (R94), CLOSE (R95), RDMAGIC (R97), DECBODY (R98 to R100). -/

namespace Sys2Proof.Machine

/-- Exec(0x13): WRMAGIC (R93). -/
def wrmagicEnter (s : State) : StageResult :=
  checked .wrmagic s fun s => .done (s.writeBits Config.magicBits s.magic.toNat)

/-- Exec(0x15) up to its loop (R94). -/
def encbodyEnter (s : State) : StageResult :=
  checked .encbody s fun s => .more { s with inp := s.inp.rewind, phase := .body }

/-- The code of a symbol written to the output (R94, R67). -/
def writeCode (c : CodeEntry) (s : State) : State := s.writeBits c.len.toNat c.bits.toNat

/-- One pass of ENCBODY's loop, or the sentinel's code that ends the body (R94). -/
def encbodyIter (s : State) : StageResult :=
  match s.inp.readBits Config.bitsPerWord with
  | (.eos, p) =>
    let s := { s with inp := p }
    let c := codeAt s Config.pseudoEof
    if c.len = 0#9 then .raise .eNoCode (BitVec.ofNat 32 Config.pseudoEof) s else .done (writeCode c s)
  | (.ioErr, p) => .raise .eFmtIo 0#32 { s with inp := p }
  | (.val v, p) =>
    let s := { s with inp := p }
    let c := codeAt s v
    if c.len = 0#9 then .raise .eNoCode (BitVec.ofNat 32 v) s else .more (writeCode c s)

/-- Exec(0x16): CLOSE (R95). -/
def closeEnter (s : State) : StageResult := checked .close s fun s => .done { s with out := s.out.closeOut }

/-- Exec(0x20): RDMAGIC (R97). -/
def rdmagicEnter (s : State) : StageResult :=
  match s.inp.rewind.readBits Config.magicBits with
  | (.eos, p) => .raise .eFmtMagicTrunc 0#32 { s with inp := p }
  | (.ioErr, p) => .raise .eFmtIo 0#32 { s with inp := p }
  | (.val v, p) =>
    if BitVec.ofNat 32 v = s.magic then .done { s with inp := p }
    else .raise .eFmtBadMagic (BitVec.ofNat 32 v) { s with inp := p }

/-- Exec(0x22) up to its loop, with the root leaf of R100 (R98). -/
def decbodyEnter (s : State) : StageResult :=
  checked .decbody s fun s =>
    let s := { s with decState := .walking, walk := s.root, phase := .walk 0 }
    let r := nodeAt s s.root.toNat
    if r.leaf then
      if r.value.toNat = Config.pseudoEof then .done { s with decState := .done }
      else .raise .eFmtDegenerate (r.value.setWidth 32) s
    else .more s

/-- What DECBODY does at the child `i` it moved to (R98): go on from an internal node, stop at the sentinel, write any other
leaf's byte and return to the root. -/
def decbodyAt (k : Nat) (i : BitVec Config.idxW) (s : State) : StageResult :=
  let s := { s with walk := i }
  let r := nodeAt s i.toNat
  if r.leaf then
    if r.value.toNat = Config.pseudoEof then .done { s with decState := .done }
    else .more (State.writeBits Config.bitsPerWord r.value.toNat { s with walk := s.root, phase := .walk (k + 1) })
  else .more s

/-- One pass of DECBODY's loop: one bit, one move of the walker (R98, R99). `k` bytes were written so far. -/
def decbodyIter (k : Nat) (s : State) : StageResult :=
  match s.inp.readBits 1 with
  | (.eos, p) => .raise .eFmtBodyTrunc (BitVec.ofNat 32 k) { s with inp := p }
  | (.ioErr, p) => .raise .eFmtIo 0#32 { s with inp := p }
  | (.val b, p) =>
    let s := { s with inp := p }
    let r := nodeAt s s.walk.toNat
    decbodyAt k (if b = 0 then r.left else r.right) s

end Sys2Proof.Machine
end

