-- ==== Sys2Proof/Machine/Sequencer.lean ====
section
/-! DEFINITION. The sequencer (R14, R70, R73): one step of the running stage, the fixed stage lists of the composites (R96,
R101), running to the end of a command, and what a command does from its acceptance on. -/

namespace Sys2Proof.Machine

/-- One pass of a stage: its entry, one pass of its loop, or its end. -/
def stageStep (stage : Instr) (s : State) : StageResult :=
  match stage, s.phase with
  | _, .ended => .done s
  | .nop, _ => .done s
  | .clear, _ => .done (clearBody s)
  | .openout, _ => .done (openBody s)
  | .count, .enter => countEnter s
  | .count, _ => countIter s
  | .build, .merge L n => buildIter L n s
  | .build, _ => buildEnter s
  | .gencode, .enter => gencodeEnter s
  | .gencode, _ => gencodeIter s
  | .wrmagic, _ => wrmagicEnter s
  | .serialize, .enter => serializeEnter s
  | .serialize, _ => serializeIter s
  | .encbody, .enter => encbodyEnter s
  | .encbody, _ => encbodyIter s
  | .close, _ => closeEnter s
  | .encode, _ => .done (openBody s)
  | .rdmagic, _ => rdmagicEnter s
  | .deserialize, .enter => deserializeEnter s
  | .deserialize, .field i => deserializeField i s
  | .deserialize, _ => deserializeIter s
  | .decbody, .walk k => decbodyIter k s
  | .decbody, _ => decbodyEnter s
  | .decode, _ => .done (openBody s)

/-- The stages of a composite in order, the composite's own opening step first (R96, R101); other commands have one stage. -/
def stageList : Instr → List Instr
  | .encode => [.encode, .count, .build, .gencode, .wrmagic, .serialize, .encbody, .close]
  | .decode => [.decode, .rdmagic, .deserialize, .decbody, .close]
  | i => [i]

/-- The element after `x` in a list. -/
def nextIn (x : Instr) : List Instr → Option Instr
  | a :: b :: rest => if a = x then some b else nextIn x (b :: rest)
  | _ => none

/-- The stage after `stage` in a command, if there is one (R14: nothing else changes stage). -/
def nextStage (cmd stage : Instr) : Option Instr := nextIn stage (stageList cmd)

/-- What follows the end of a stage, in the step of its last statement: the next stage of the command (Stage(op) of R96), or
complete(). That no move of the host lands in between is the model's choice (log entry 6). -/
def stageEnded (cmd stage : Instr) (s : State) : State :=
  match nextStage cmd stage with
  | some st => { s with seq := .running cmd st, phase := .enter }
  | none => complete s

/-- What the sequencer makes of a stage's pass: go on, end the stage (once the bits it wrote are appended, R50), or raise, all in
the pass's own step (log entry 6). -/
def settle (cmd stage : Instr) : StageResult → State
  | .more s => s
  | .done s => if s.unsent = [] then stageEnded cmd stage s else { s with phase := .ended }
  | .raise e info s => raiseError e info s

/-- One step of the sequencer: the next bit of the WriteBits under way (R50), or one pass of the running stage; for an illegal
word, the raise of R70; nothing while SEQ = IDLE. -/
def microStep (s : State) : State :=
  match s.seq with
  | .idle => s
  | .rejecting => raiseError .eIllegalCmd s.cmd s
  | .running cmd stage =>
    match s.unsent with
    | b :: rest => sendBit b rest s
    | [] => settle cmd stage (stageStep stage s)

/-- At most `n` steps of the sequencer, fewer where the command ends. -/
def runFor : Nat → State → State
  | 0, s => s
  | n + 1, s => if s.busy then runFor n (microStep s) else s

/-- More steps than any command takes from a reachable state (R103; log entry 6). -/
def stepBound (s : State) : Nat := 8192 * s.inp.data.length + 2097152

/-- The sequencer's turn: as many steps as the next grant says, or to the command's end where no grant is left
(log entry 6). -/
def runTurn (s : State) : State :=
  match s.grants with
  | [] => runFor (stepBound s) s
  | n :: rest => runFor n { s with grants := rest }

/-- A CMD write of the word of `i` (R70): overrun while BUSY = 1, else acceptance and the sequencer's turn. -/
def command (i : Instr) (s : State) : State :=
  if s.busy then overrun s else runTurn (accept i s)

/-- A CMD write of an illegal word (R62, R70): overrun while BUSY = 1, else acceptance and the sequencer's turn, whose first
step raises E_ILLEGAL_CMD with the word (log entry 6). -/
def rejectWord (w : Word) (s : State) : State :=
  if s.busy then overrun s else runTurn (acceptIllegal w s)

end Sys2Proof.Machine
end

