-- ==== Sys2Proof/Machine/Commands.lean ====
section
/-! DEFINITION. The meaning of each command, one definition each, over the shared lifecycle of R70 (`command`): the command
word is accepted, its stage or stages run as their rules say, and complete() or raise ends it. What a stage does stands in
its family's file; the meaning answers a next state in every case (no command of HUFFC stops the machine). -/

namespace Sys2Proof.Machine

/-- NOP (R74): changes the lifecycle registers only. -/
def execNop (s : State) : Host.Outcome State Fault Refusal := .next (command .nop s)

/-- CLEAR (R75): returns HUFFC to its reset state but for MAGIC, IRQ_EN and IRQ_STAT. -/
def execClear (s : State) : Host.Outcome State Fault Refusal := .next (command .clear s)

/-- OPENOUT (R76): opens a new output stream. -/
def execOpenout (s : State) : Host.Outcome State Fault Refusal := .next (command .openout s)

/-- COUNT (R77): builds FREQ from the whole input. -/
def execCount (s : State) : Host.Outcome State Fault Refusal := .next (command .count s)

/-- BUILD (R81): builds the Huffman tree from FREQ. -/
def execBuild (s : State) : Host.Outcome State Fault Refusal := .next (command .build s)

/-- GENCODE (R85): derives CODE from the current tree. -/
def execGencode (s : State) : Host.Outcome State Fault Refusal := .next (command .gencode s)

/-- WRMAGIC (R93): writes the 32 bits of MAGIC. -/
def execWrmagic (s : State) : Host.Outcome State Fault Refusal := .next (command .wrmagic s)

/-- SERIALIZE (R90): writes the tree header. -/
def execSerialize (s : State) : Host.Outcome State Fault Refusal := .next (command .serialize s)

/-- ENCBODY (R94): writes the codes of the input bytes and of the sentinel. -/
def execEncbody (s : State) : Host.Outcome State Fault Refusal := .next (command .encbody s)

/-- CLOSE (R95): pads and closes the output. -/
def execClose (s : State) : Host.Outcome State Fault Refusal := .next (command .close s)

/-- ENCODE (R96): runs the whole encode protocol. -/
def execEncode (s : State) : Host.Outcome State Fault Refusal := .next (command .encode s)

/-- RDMAGIC (R97): reads and checks the magic field. -/
def execRdmagic (s : State) : Host.Outcome State Fault Refusal := .next (command .rdmagic s)

/-- DESERIALIZE (R91): reads a tree header and makes it the current tree. -/
def execDeserialize (s : State) : Host.Outcome State Fault Refusal := .next (command .deserialize s)

/-- DECBODY (R98): walks the tree over the body and writes the decoded bytes. -/
def execDecbody (s : State) : Host.Outcome State Fault Refusal := .next (command .decbody s)

/-- DECODE (R101): runs the whole decode protocol. -/
def execDecode (s : State) : Host.Outcome State Fault Refusal := .next (command .decode s)

end Sys2Proof.Machine
end

