-- ==== Sys2Proof/Machine/Dispatch.lean ====
section
/-! DEFINITION. The dispatch: one arm per command of R61, each one direct call of its meaning. -/

namespace Sys2Proof.Machine

def exec (i : Instr) (s : State) : Host.Outcome State Fault Refusal :=
  match i with
  | .nop => Sys2Proof.Machine.execNop s
  | .clear => Sys2Proof.Machine.execClear s
  | .openout => Sys2Proof.Machine.execOpenout s
  | .count => Sys2Proof.Machine.execCount s
  | .build => Sys2Proof.Machine.execBuild s
  | .gencode => Sys2Proof.Machine.execGencode s
  | .wrmagic => Sys2Proof.Machine.execWrmagic s
  | .serialize => Sys2Proof.Machine.execSerialize s
  | .encbody => Sys2Proof.Machine.execEncbody s
  | .close => Sys2Proof.Machine.execClose s
  | .encode => Sys2Proof.Machine.execEncode s
  | .rdmagic => Sys2Proof.Machine.execRdmagic s
  | .deserialize => Sys2Proof.Machine.execDeserialize s
  | .decbody => Sys2Proof.Machine.execDecbody s
  | .decode => Sys2Proof.Machine.execDecode s

end Sys2Proof.Machine
end

