-- ==== Sys2Proof/Machine/HostPort.lean ====
section
/-! DEFINITION. The host's side: a write of CMD (R17, R70), bus writes (R40, R42), and the moves of the host and the
platform (R69, R119, R127). -/

namespace Sys2Proof.Machine

/-- The word written to CMD is decoded; a legal one runs its command, an illegal one raises (R62, R63, R70). -/
def writeCmd (w : Word) (s : State) : Host.Outcome State Fault Refusal :=
  match decode w with
  | .ok i => exec i s
  | .error _ => .next (rejectWord w s)

/-- MemWrite (R40, R42): a refused access answers a bus error and changes nothing else. -/
def busWrite (off : BitVec 16) (width : Nat) (v : Word) (s : State) : Host.Outcome State Fault Refusal :=
  if admitted off width then
    match slotOf off with
    | .reg .cmd => writeCmd v { s with reply := .written }
    | sl => .next { writeSlot v s sl with reply := .written }
  else .next { s with reply := .busError 0#32 }

/-- ATTACH: IN_DATA becomes the bytes, only while BUSY = 0, at most 2^37 − 1 of them (R69, R123, R127). -/
def attach (bytes : List Byte) (s : State) : Host.Outcome State Fault Refusal :=
  if s.busy then .refused .attachWhileBusy
  else if bytes.length > Config.maxAttach then .refused .inputTooLong
  else .next { s with inp := { s.inp with data := bytes } }

/-- TAKE: the host collects OUT_DATA and leaves it empty, only while BUSY = 0 (R36, R69, R127). -/
def take (s : State) : Host.Outcome State Fault Refusal :=
  if s.busy then .refused .takeWhileBusy
  else .next { s with reply := .bytes s.out.data, out := { s.out with data := [] } }

/-- One read of WAIT (R69): STATUS is read, and while its bit 0 is 1 the move stays to be made again. -/
def waitRead (s : State) : State :=
  let v := statusWord s
  if v.getLsbD 0 then { s with reply := .data v, host := .wait :: s.host } else { s with reply := .data v }

/-- Reset (R119): every piece of HUFFC state takes its reset value, whatever was running; IN_DATA, OUT_DATA and the
environment (the source's draws, the host's moves, the grants, the last answer, the draws made) are not HUFFC state. -/
def applyReset (s : State) : State :=
  { State.reset with
    inp := { State.reset.inp with data := s.inp.data, ioDraws := s.inp.ioDraws }
    out := { State.reset.out with data := s.out.data }
    host := s.host, grants := s.grants, reply := s.reply, draws := s.draws }

/-- One move of the host or the platform. -/
def hostMove (m : HostMove) (s : State) : Host.Outcome State Fault Refusal :=
  match m with
  | .read off width => .next (busRead off width s)
  | .write off width v => busWrite off width v s
  | .attach bytes => attach bytes s
  | .take => take s
  | .wait => .next (waitRead s)
  | .reset => .next (applyReset s)

/-- `CMD <mnemonic>` of R69: the write of the command's word. -/
def HostMove.cmd (i : Instr) : HostMove := .write 0x008 4 (encode i)

/-- `RUN <mnemonic>` of R69: `CMD <mnemonic>` then `WAIT`. -/
def HostMove.run (i : Instr) : List HostMove := [HostMove.cmd i, .wait]

/-- The sequencer's turn after a move of the host that landed in a running command (log entry 6). -/
def thenTurn (wasBusy : Bool) : Host.Outcome State Fault Refusal → Host.Outcome State Fault Refusal
  | .next s => .next (if wasBusy && s.busy then runTurn s else s)
  | .fault r => .fault r
  | .refused r => .refused r

/-- One step of the whole machine: the host's oldest pending move, then, in a running command, the sequencer's turn; with no
pending move, the sequencer's turn alone, or nothing while HUFFC is idle (R56 a, R118; log entries 5 and 6). -/
def machineStep (s : State) : Host.Outcome State Fault Refusal :=
  match s.host with
  | [] => .next (if s.busy then runTurn s else s)
  | m :: rest => thenTurn s.busy (hostMove m { s with host := rest })

/-- The command word of the opcode table's numbering as the host's next move, a write of CMD (the fixed name of the host's
check calls this; log entry 9). -/
def placeWord (s : State) (w : Nat) : State :=
  { s with host := .write 0x008 4 (BitVec.ofNat 32 w) :: s.host }

end Sys2Proof.Machine
end

