-- ==== Sys2Proof/Machine/Step.lean ====
section
/-! DEFINITION. One step of HUFFC and its environment, and the placing of a command word for the very next step. HUFFC has
no program counter and fetches nothing (R14, R59): commands arrive by host writes to CMD. -/

namespace Sys2Proof.Machine

/-- One step (R56, R70, R127). -/
def step (s : State) : Host.Outcome State Fault Refusal := machineStep s

/-- `s` with the host's next move a write of the word `w` to CMD (log entry 9). -/
def State.withFetchWord (s : State) (_nbits w : Nat) : State := placeWord s w

end Sys2Proof.Machine
end

