-- ==== Sys2Proof/Safety.lean ====
section
/-! DEFINITION. The terms claims about HUFFC are stated in: when a command may run undisturbed, what it leaves when it
completes or fails (R70, R72, R106), the bit streams of R47, the Huffman tree of the glossary with its header (R65) and its
codes (R31, R85), the container (R64), and the invariants of the state. -/

namespace Sys2Proof.Machine

/-! ## Running a command -/

/-- HUFFC is idle and no host move is to land in the next command: the command runs to its end (log entry 6). -/
def Ready (s : State) : Prop := s.seq = .idle ∧ s.grants = []

/-- The premise R48 gives claims: every ioerr_draw() still to come answers false. -/
def SourceOk (s : State) : Prop := ∀ b ∈ s.inp.ioDraws, b = false

/-- IN_DATA is within what IN_POS addresses (R35, R123 c). -/
def InputFits (s : State) : Prop := s.inp.data.length ≤ Config.maxAttach

/-- What the lifecycle leaves of `s` when the command `i` completes (R70, R72). -/
def completed (i : Instr) (s : State) : State :=
  { s with
    seq := .idle, cmd := encode i, done := true, err := false, errCode := .eNone, errInfo := 0#32, doneIp := true
    phase := .enter, heap := [], dstack := [], unsent := [] }

/-- What the lifecycle leaves of `s` when the command `i` raises E(info) (R70, R106). -/
def failed (i : Instr) (e : ErrCode) (info : Word) (s : State) : State :=
  { s with
    seq := .idle, cmd := encode i, done := false, err := true, errCode := e, errInfo := info, errIp := true
    phase := .enter, heap := [], dstack := [], unsent := [] }

/-! ## Bit streams (R9, R47) -/

/-- The eight stream bits of a byte, bit 7 first (R47). -/
def byteBits (b : Byte) : List Bool := natToBits 8 b.toNat

/-- The stream of a byte sequence (R47). -/
def streamOf (bytes : List Byte) : List Bool := bytes.flatMap byteBits

/-- The bits given to the output port and kept by it: those of OUT_DATA, then OUT_ACC (R34, R50). -/
def outStream (o : OutPort) : List Bool := streamOf o.data ++ o.acc

/-- Writing the bits `bs` takes the output port from `o` to `p` (R22, R50): they stand at the end of the output stream, each
completed byte is delivered and counted in OUT_COUNT, OUT_BITS counts them, and at most seven bits stay pending (R34). -/
def Wrote (o : OutPort) (bs : List Bool) (p : OutPort) : Prop :=
  outStream p = outStream o ++ bs ∧ p.acc.length ≤ 7 ∧ p.isOpen = o.isOpen ∧ p.bits = o.bits + BitVec.ofNat 32 bs.length ∧
  p.count = o.count + BitVec.ofNat 32 (p.data.length - o.data.length)

/-- The stream bits of IN_DATA from IN_POS on (R26, R47). -/
def inRest (p : InPort) : List Bool := (streamOf p.data).drop p.pos.toNat

/-! ## Huffman trees -/

/-- The tree of the glossary's Huffman Node, without indices and weights. -/
inductive HTree where
  | leaf (sym : Nat)
  | node (l r : HTree)
deriving DecidableEq, Repr

/-- Records of a tree (R23). -/
def HTree.size : HTree → Nat
  | .leaf _ => 1
  | .node l r => l.size + r.size + 1

/-- The symbols of the leaves, left to right. -/
def HTree.syms : HTree → List Nat
  | .leaf v => [v]
  | .node l r => l.syms ++ r.syms

/-- The tree header (R65). -/
def HTree.header : HTree → List Bool
  | .leaf v => true :: natToBits Config.leafBits v
  | .node l r => false :: (l.header ++ r.header)

/-- Each leaf's symbol with its path from the root, `0` for left and `1` for right, left to right (R31, R85). -/
def HTree.paths : HTree → List (Nat × List Bool)
  | .leaf v => [(v, [])]
  | .node l r =>
    (l.paths.map fun p => (p.1, false :: p.2)) ++ (r.paths.map fun p => (p.1, true :: p.2))

/-- The code of a symbol: the path of its last leaf in left-to-right order, if it has a leaf below an internal root
(R85, R88, R89). -/
def HTree.code (T : HTree) (v : Nat) : Option (List Bool) :=
  ((T.paths.filter fun p => p.1 == v && p.2 != []).map Prod.snd).getLast?

/-- The tree `T` stands in NODE with its root at index `i` (R29). -/
def treeAt (t : Table NodeRec) : HTree → Nat → Bool
  | .leaf v, i => (nodeIn t i).leaf && (nodeIn t i).value.toNat == v
  | .node l r, i => !(nodeIn t i).leaf && treeAt t l (nodeIn t i).left.toNat && treeAt t r (nodeIn t i).right.toNat

/-- Where a walk from record `i` stands after the bits `c`: `0` goes left, `1` goes right (R98). -/
def walkPath (t : Table NodeRec) (i : BitVec Config.idxW) (c : List Bool) : BitVec Config.idxW :=
  c.foldl (fun j b => if b then (nodeIn t j.toNat).right else (nodeIn t j.toNat).left) i

/-- The CODE entry of a bit string (R31); no code is LEN 0. -/
def entryOf : Option (List Bool) → CodeEntry
  | none => ⟨0#9, 0#Config.maxCodeLen⟩
  | some c => ⟨BitVec.ofNat 9 c.length, BitVec.ofNat Config.maxCodeLen (bitsToNat c)⟩

/-- The bit string of a CODE entry (R31). -/
def codeBits (c : CodeEntry) : List Bool := natToBits c.len.toNat c.bits.toNat

/-- A tree DESERIALIZE accepts and SERIALIZE can have written: at most NODE_CAP records, every leaf a Symbol (R30). -/
def HTree.fits (T : HTree) : Prop := T.size ≤ Config.nodeCap ∧ ∀ v ∈ T.syms, v ≤ Config.pseudoEof

/-! ## Frequency tables and containers -/

/-- FREQ of a byte sequence: each byte's occurrences, and 1 for the sentinel (R77). -/
def freqOf (bytes : List Byte) : Table (BitVec Config.cntW) :=
  (List.range Config.alphSize).map (fun v => (v, BitVec.ofNat Config.cntW (bytes.count (BitVec.ofNat 8 v)))) ++
    [(Config.pseudoEof, 1#Config.cntW)]

/-- The sum of all entries of FREQ, as a number. -/
def freqTotal (s : State) : Nat := ((List.range Config.nsym).map fun i => (freqAt s i).toNat).sum

/-- The bits of the body: each byte's code, then the sentinel's (R67). -/
def bodyBits (codeOf : Nat → List Bool) (bytes : List Byte) : List Bool :=
  bytes.flatMap (fun b => codeOf b.toNat) ++ codeOf Config.pseudoEof

/-- Bytes of a bit string, the last one padded with zero bits (R51, R64). -/
def padBits (bits : List Bool) : List Bool := List.replicate ((8 - bits.length % 8) % 8) false

/-- The bits of the container's fields before the pad (R64): the magic, the header of `T`, the body under the codes of `T`. -/
def containerBits (magic : Word) (T : HTree) (bytes : List Byte) : List Bool :=
  natToBits Config.magicBits magic.toNat ++ T.header ++ bodyBits (fun v => (T.code v).getD []) bytes

/-- How a reading of a header ends (R91). -/
inductive HeaderEnd where
  | whole
  | cut
  | ioErr
  | badLeaf (v : Nat)
  | tooLarge
deriving DecidableEq, Repr

/-- The error of a header that does not end whole (R91, R104). -/
def HeaderEnd.error : HeaderEnd → ErrCode
  | .whole => .eNone
  | .cut => .eFmtHdrTrunc
  | .ioErr => .eFmtIo
  | .badLeaf _ => .eFmtBadLeaf
  | .tooLarge => .eFmtTreeTooLarge

/-- Its ERR_INFO, where `b` header bits are consumed (R91, R104). -/
def HeaderEnd.info (b : Nat) : HeaderEnd → Word
  | .whole => 0#32
  | .cut => BitVec.ofNat 32 b
  | .ioErr => 0#32
  | .badLeaf v => BitVec.ofNat 32 v
  | .tooLarge => 513#32

/-- How a reading of a header ends, the header bits consumed and the reads made by then, the one that failed with them. -/
structure HeaderScan where
  ending : HeaderEnd
  bits   : Nat
  reads  : Nat
deriving DecidableEq, Repr

/-- R91 and R108 (4) over the bits to come, without a tree: `k` subtrees are still to be read, `n` records, `b` bits and `r`
reads are made, and `fails j` is the source's answer at read `j`. For each record: the node bit's failure or end, the size, the
leaf field's failure or end, its value. -/
def scanHeader (fails : Nat → Bool) : Nat → Nat → Nat → Nat → List Bool → HeaderScan
  | 0, _, b, r, _ => ⟨.whole, b, r⟩
  | _ + 1, _, b, r, [] => ⟨if fails r then .ioErr else .cut, b, r + 1⟩
  | k + 1, n, b, r, bit :: w =>
    if fails r then ⟨.ioErr, b, r + 1⟩
    else if n = Config.nodeCap then ⟨.tooLarge, b + 1, r + 1⟩
    else if !bit then scanHeader fails (k + 2) (n + 1) (b + 1) (r + 1) w
    else if fails (r + 1) then ⟨.ioErr, b + 1, r + 2⟩
    else match w with
      | b8 :: b7 :: b6 :: b5 :: b4 :: b3 :: b2 :: b1 :: b0 :: rest =>
        let v := bitsToNat [b8, b7, b6, b5, b4, b3, b2, b1, b0]
        if v > Config.pseudoEof then ⟨.badLeaf v, b + 1 + Config.leafBits, r + 2⟩
        else scanHeader fails k (n + 1) (b + 1 + Config.leafBits) (r + 2) rest
      | _ => ⟨.cut, b + 1, r + 2⟩

/-- The source's answer at the k-th read to come (R48). -/
def InPort.fails (p : InPort) (k : Nat) : Bool := p.ioDraws.getD k false

/-- The reading of a header from the current input on (R91). -/
def headerScan (p : InPort) : HeaderScan := scanHeader p.fails 1 0 0 0 (inRest p)

/-- The symbols a BUILD takes, ascending: those with a count, and AUG_SYMBOL before them where the sentinel is the only one
(R81, R82). -/
def symbolList (s : State) : List Nat :=
  let syms := (List.range Config.nsym).filter fun v => decide (0 < (freqAt s v).toNat)
  if syms.length = 1 then Config.augSymbol :: syms else syms

/-- The order of R80 on records: WEIGHT first, then the index. -/
def keyBefore (t : Table NodeRec) (i j : Nat) : Prop :=
  (nodeIn t i).weight.toNat < (nodeIn t j).weight.toNat ∨
    ((nodeIn t i).weight.toNat = (nodeIn t j).weight.toNat ∧ i < j)

/-- `j` is the LEFT or RIGHT of record `m`. -/
def isChild (t : Table NodeRec) (m j : Nat) : Prop := (nodeIn t m).left.toNat = j ∨ (nodeIn t m).right.toNat = j

/-- Commands issued one by one, each after the one before reads BUSY = 0 and DONE = 1 (R126); nothing where one does not. -/
def issueAll : List Instr → State → Option State
  | [], s => some s
  | i :: rest, s =>
    match exec i s with
    | .next t => if t.busy || !t.done then none else issueAll rest t
    | .fault _ => none
    | .refused _ => none

/-- Commands issued one by one up to the first that ends in an error (R126, R108 5). -/
def issueToError : List Instr → State → State
  | [], s => s
  | i :: rest, s =>
    match exec i s with
    | .next t => if t.err then t else issueToError rest t
    | .fault _ => s
    | .refused _ => s

/-- The output port as OpenOut() leaves it (R52). -/
def opened (o : OutPort) : OutPort := { o with acc := [], count := 0#32, bits := 0#32, isOpen := true }

/-! ## Invariants -/

/-- The lifecycle's registers agree with one another (R14, R16, R18, R70, R72, R106): never DONE and ERR together, neither
while BUSY, ERR_CODE and ERR_INFO 0 unless ERR, and ERR_CODE not 0 if ERR; no scratch while idle; and SEQ running the command
whose word is in CMD, in a stage of it. -/
def lifecycleOk (s : State) : Bool :=
  !(s.done && s.err) && !(s.busy && (s.done || s.err)) &&
  (s.err || (s.errCode == .eNone && s.errInfo == 0#32)) && (!s.err || s.errCode != .eNone) &&
  (s.busy || (s.phase == .enter && s.heap == [] && s.dstack == [] && s.unsent == [])) &&
  (match s.seq with
    | .idle => true
    | .rejecting => !wordLegal s.cmd
    | .running cmd stage => s.cmd == encode cmd && (stageList cmd).contains stage)

/-- The state's shape: the memories in canonical form, at most seven pending output bits (R34), IN_DATA within what IN_POS
addresses (R35, R123 c), HEAP and DSTACK within their sizes (R32, R33), the lifecycle consistent. -/
def wellShaped (s : State) : Bool :=
  Memory.wf s && decide (s.out.acc.length ≤ 7) && decide (s.inp.data.length ≤ Config.maxAttach) &&
  decide (s.heap.length ≤ Config.heapCap) && decide (s.dstack.length ≤ Config.dstackCap) && lifecycleOk s

/-- FREQ while it holds a count of `IN_COUNT` bytes (R28). -/
def countHolds (s : State) : Prop :=
  (∀ i, i < Config.nsym → (tableGet s.freq i).isSome) ∧ freqAt s Config.pseudoEof = 1#Config.cntW ∧
  freqTotal s = s.inCount.toNat + 1 ∧ s.inCount.toNat ≤ Config.maxIn.toNat

/-- R28's invariant, with what makes it one that every step keeps: it holds while FREQ_V = 1 and inside COUNT's loop, and
COUNT's loop runs with FREQ_V = 0. -/
def freqInvariant (s : State) : Prop :=
  (s.freqV = true → countHolds s) ∧
  (∀ cmd, s.seq = .running cmd .count → s.phase ≠ .enter → s.freqV = false ∧ countHolds s)

/-- The internal records below `n` have both children below `n` (R30 a). -/
def closedBelow (t : Table NodeRec) (n : Nat) : Prop :=
  ∀ j < n, (nodeIn t j).leaf = false → (nodeIn t j).left.toNat < n ∧ (nodeIn t j).right.toNat < n

/-- Each internal record below `n` weighs what its children weigh together (R30 c). -/
def weightsAdd (t : Table NodeRec) (n : Nat) : Prop :=
  ∀ j < n, (nodeIn t j).leaf = false →
    (nodeIn t j).weight = (nodeIn t (nodeIn t j).left.toNat).weight + (nodeIn t (nodeIn t j).right.toNat).weight

/-- R30 of the current tree: ROOT holds a tree whose records are NODE_COUNT in number, LEAF_COUNT of them leaves, each leaf a
Symbol; children lie below NODE_COUNT; in BUILD's tree the weights add up. -/
def treeHolds (s : State) : Prop :=
  (∃ T : HTree, treeAt s.node T s.root.toNat = true ∧ T.size = s.nodeCount.toNat ∧ T.syms.length = s.leafCount.toNat ∧
    T.fits) ∧
  s.root.toNat < s.nodeCount.toNat ∧ closedBelow s.node s.nodeCount.toNat ∧
  (s.treeSrc = .build → weightsAdd s.node s.nodeCount.toNat)

/-- BUILD's loop with `L` leaves and `n` records written (R81): HEAP holds the roots of trees that have all `n` records
between them. -/
def forestHolds (L n : Nat) (s : State) : Prop :=
  L ≤ n ∧ n < 2 * L ∧ L ≤ Config.nsym ∧ s.heap.length + n = 2 * L ∧ s.heap.Nodup ∧
  closedBelow s.node n ∧ weightsAdd s.node n ∧
  ∃ F : Nat → HTree, (∀ j ∈ s.heap, j < n ∧ treeAt s.node (F j) j = true ∧ ∀ v ∈ (F j).syms, v ≤ Config.pseudoEof) ∧
    (s.heap.map fun j => (F j).size).sum = n

/-- The tree `T` stands in NODE at the records `a` to `b − 1`, its root first (R91, R92 c). -/
def treeSpan (t : Table NodeRec) (T : HTree) (a b : Nat) : Prop :=
  treeAt t T a = true ∧ a + T.size = b ∧ (∀ v ∈ T.syms, v ≤ Config.pseudoEof) ∧
  ∀ j, a ≤ j → j < b → (nodeIn t j).leaf = false →
    a ≤ (nodeIn t j).left.toNat ∧ (nodeIn t j).left.toNat < b ∧ a ≤ (nodeIn t j).right.toNat ∧ (nodeIn t j).right.toNat < b

/-- DESERIALIZE's DSTACK where the next record is `n` and `k` leaves are read (R91): each waiting record is internal and
comes before all that is below it; a left subtree already read stands between its parent and what is read now. -/
def waitingHolds (t : Table NodeRec) : List Frame → Nat → Nat → Prop
  | [], n, k => n = 0 ∧ k = 0
  | .awaitLeft i :: rest, n, k => n = i.toNat + 1 ∧ (nodeIn t i.toNat).leaf = false ∧ waitingHolds t rest i.toNat k
  | .awaitRight i l :: rest, n, k =>
    l.toNat = i.toNat + 1 ∧ (nodeIn t i.toNat).leaf = false ∧
    ∃ T : HTree, ∃ k', treeSpan t T l.toNat n ∧ k = T.syms.length + k' ∧ waitingHolds t rest i.toNat k'
  | .put _ :: _, _, _ => False
  | .visit _ _ _ :: _, _, _ => False

/-- The records on DSTACK whose left subtree is being read. -/
def waitingLefts : List Frame → Nat
  | [] => 0
  | .awaitLeft _ :: st => waitingLefts st + 1
  | _ :: st => waitingLefts st

/-- DESERIALIZE before record `n`: DSTACK waits for it, or the header needs more records than NODE has, whatever comes. -/
def readingHolds (s : State) (n : Nat) : Prop :=
  waitingHolds s.node s.dstack n s.leafCount.toNat ∨
  (s.dstack.length ≤ Config.dstackCap ∧ Config.nodeCap < n + 1 + waitingLefts s.dstack)

/-- R30 as an invariant that every step keeps: it holds of the tree while TREE_V = 1, and TREE_V is 0 inside the loops of
BUILD and DESERIALIZE, which hold what makes it true at their end. -/
def treeInvariant (s : State) : Prop :=
  (s.treeV = true → treeHolds s) ∧
  (∀ cmd L n, s.seq = .running cmd .build → s.phase = .merge L n → s.treeV = false ∧ forestHolds L n s) ∧
  (∀ cmd, s.seq = .running cmd .deserialize → s.phase ≠ .enter →
    s.treeV = false ∧ s.nodeCount.toNat ≤ Config.nodeCap ∧
    ((s.phase = .body ∧ readingHolds s s.nodeCount.toNat) ∨
      ∃ i, s.phase = .field i ∧ s.nodeCount.toNat = i.toNat + 1 ∧ readingHolds s i.toNat))

end Sys2Proof.Machine
end

