-- ==== Sys2Proof/Certificates/Slice0/Obligations.lean ====
section
/-! DEFINITION. The statements about HUFFC, in the order of OBLIGATIONS.json. -/

open Sys2Proof Sys2Proof.Machine

/-! ## Command words -/

/-- R61, R63: five command words, written out from the opcode table, decode to their commands. -/
def Obligations.CommandWordsDecode : Prop :=
  decode 0x00000000#32 = .ok .nop ∧ decode 0x00000010#32 = .ok .count ∧ decode 0x0000001F#32 = .ok .encode ∧
  decode 0x00000022#32 = .ok .decbody ∧ decode 0x0000002F#32 = .ok .decode

/-- R60, R61, R63: of all 2^32 words, a command's own word and no other decodes to it. -/
def Obligations.DecodeEncodeAgree : Prop :=
  ∀ (w : Word) (i : Instr), decode w = .ok i ↔ w = encode i

/-- R62, R70: a word is either one row of R61 or illegal; an illegal word, accepted and undisturbed, raises E_ILLEGAL_CMD with
the word and changes no other state. -/
def Obligations.IllegalWordRaises : Prop :=
  (∀ w : Word, wordLegal w = true ↔ ∃ i, w = encode i) ∧
  ∀ (w : Word) (s : State), Ready s → wordLegal w = false →
    writeCmd w s = .next { s with
      cmd := w, done := false, err := true, errCode := .eIllegalCmd, errInfo := w, errIp := true
      phase := .enter, heap := [], dstack := [], unsent := [] }

/-- R17, R70: a CMD write while BUSY = 1 changes nothing but OVR, whatever the word. -/
def Obligations.BusyCommandOverruns : Prop :=
  ∀ s : State, s.busy = true →
    (∀ w : Word, writeCmd w s = .next { s with ovr := true }) ∧ (∀ i : Instr, exec i s = .next { s with ovr := true })

/-- R17, R59, R70: a step whose host move writes a legal word to CMD is exec of the decoded command, the bus write answered
and the move taken off the host's list; what the step adds around it is the sequencer's turn where a command was running.
The host's list of moves, the turns and withFetchWord are the model's choice (log entries 5, 6 and 9). -/
def Obligations.StepRunsDecodedCommand : Prop :=
  (∀ (s : State) (w : Word) (rest : List HostMove) (i : Instr), s.host = .write 0x008 4 w :: rest → decode w = .ok i →
    step s = thenTurn s.busy (exec i { s with host := rest, reply := .written })) ∧
  (∀ (s : State) (w : Word) (i : Instr), s.busy = false → decode w = .ok i →
    step (s.withFetchWord 32 w.toNat) = exec i { s with reply := .written })

/-! ## Control commands -/

/-- R74, R72: NOP changes the lifecycle's registers only. -/
def Obligations.NopCompletes : Prop :=
  ∀ s : State, Ready s → exec .nop s = .next (completed .nop s)

/-- R75: CLEAR, field by field; the contents of FREQ, NODE and CODE are left open. -/
def Obligations.ClearCompletes : Prop :=
  ∀ s : State, Ready s → ∃ t, exec .clear s = .next t ∧ t = { completed .clear s with
    freqV := false, treeV := false, codeV := false, ovr := false, decState := .idle, treeSrc := .build
    inCount := 0#32, root := 0#10, nodeCount := 0#10, leafCount := 0#9, walk := 0#10, hdrBits := 0#32
    inp := { s.inp with pos := 0#40 }
    out := { s.out with acc := [], count := 0#32, bits := 0#32, isOpen := true }
    freq := t.freq, node := t.node, code := t.code }

/-- R76, R52: OPENOUT discards the pending bits, zeroes the counters and opens the output; nothing is delivered. -/
def Obligations.OpenoutCompletes : Prop :=
  ∀ s : State, Ready s → exec .openout s = .next { completed .openout s with
    out := { s.out with acc := [], count := 0#32, bits := 0#32, isOpen := true } }

/-- R71: the first check of a stage that fails raises its error with the stage's opcode, and the stage has no other effect. -/
def Obligations.StagePreconditions : Prop :=
  ∀ s : State, Ready s →
    (s.freqV = false → exec .build s = .next (failed .build .eSeq 0x11#32 s)) ∧
    (s.treeV = false → exec .gencode s = .next (failed .gencode .eSeq 0x12#32 s)) ∧
    (s.treeV = false → exec .serialize s = .next (failed .serialize .eSeq 0x14#32 s)) ∧
    (s.treeV = true → s.out.isOpen = false → exec .serialize s = .next (failed .serialize .eOutClosed 0x14#32 s)) ∧
    (s.codeV = false → exec .encbody s = .next (failed .encbody .eSeq 0x15#32 s)) ∧
    (s.codeV = true → s.out.isOpen = false → exec .encbody s = .next (failed .encbody .eOutClosed 0x15#32 s)) ∧
    (s.treeV = false → exec .decbody s = .next (failed .decbody .eSeq 0x22#32 s)) ∧
    (s.treeV = true → s.out.isOpen = false → exec .decbody s = .next (failed .decbody .eOutClosed 0x22#32 s)) ∧
    (s.out.isOpen = false → exec .wrmagic s = .next (failed .wrmagic .eOutClosed 0x13#32 s)) ∧
    (s.out.isOpen = false → exec .close s = .next (failed .close .eOutClosed 0x16#32 s))

/-! ## COUNT -/

/-- R77: COUNT over an input of at most MAX_IN bytes whose source does not fail. -/
def Obligations.CountCompletes : Prop :=
  ∀ s : State, Ready s → SourceOk s → s.inp.data.length ≤ 2 ^ 32 - 2 →
    exec .count s = .next { completed .count s with
      freqV := true, freq := freqOf s.inp.data, inCount := BitVec.ofNat 32 s.inp.data.length
      inp := ⟨s.inp.data, BitVec.ofNat 40 (8 * s.inp.data.length), s.inp.ioDraws.drop (s.inp.data.length + 1)⟩ }

/-- R77, R78, R108: the two errors of COUNT. The source fails at read number `k` (from 0), be it the read that would answer end
of stream: E_FMT_IO. No read up to the byte after MAX_IN fails and that byte is there: E_OVERFLOW with 0xFFFFFFFE. -/
def Obligations.CountFailures : Prop :=
  (∀ (s : State) (k : Nat), Ready s → k ≤ s.inp.data.length → k ≤ 2 ^ 32 - 2 →
    (∀ j < k, s.inp.ioDraws.getD j false = false) → s.inp.ioDraws.getD k false = true →
    exec .count s = .next { failed .count .eFmtIo 0#32 s with
      freqV := false, freq := freqOf (s.inp.data.take k), inCount := BitVec.ofNat 32 k
      inp := ⟨s.inp.data, BitVec.ofNat 40 (8 * k), s.inp.ioDraws.drop (k + 1)⟩ }) ∧
  ∀ s : State, Ready s → (∀ j ≤ 2 ^ 32 - 2, s.inp.ioDraws.getD j false = false) → 2 ^ 32 - 2 < s.inp.data.length →
    exec .count s = .next { failed .count .eOverflow 0xFFFFFFFE#32 s with
      freqV := false, freq := freqOf (s.inp.data.take (2 ^ 32 - 2)), inCount := 0xFFFFFFFE#32
      inp := ⟨s.inp.data, BitVec.ofNat 40 (8 * (2 ^ 32 - 1)), s.inp.ioDraws.drop (2 ^ 32 - 1)⟩ }

/-! ## BUILD -/

/-- R80, R81: BUILD from a counted FREQ. The leaves stand at 0 .. L − 1 in ascending symbol order; each internal record is
over the two records of least key among those not yet used, the first LEFT and the second RIGHT; records at 2L − 1 and above
are not written. -/
def Obligations.BuildCompletes : Prop :=
  (∀ s : State, Ready s → s.freqV = false → exec .build s = .next (failed .build .eSeq 0x11#32 s)) ∧
  ∀ s : State, Ready s → s.freqV = true → countHolds s →
    let S := symbolList s
    let L := S.length
    2 ≤ L ∧ L ≤ 257 ∧ ∃ t, exec .build s = .next t ∧
      t = { completed .build s with
        treeV := true, codeV := false, decState := .idle, treeSrc := .build
        root := BitVec.ofNat 10 (2 * L - 2), nodeCount := BitVec.ofNat 10 (2 * L - 1), leafCount := BitVec.ofNat 9 L
        node := t.node } ∧
      (∀ k, ∀ h : k < S.length, nodeAt t k = ⟨true, BitVec.ofNat 9 S[k], freqAt s S[k], 0#10, 0#10⟩) ∧
      (∀ m, L ≤ m → m < 2 * L - 1 → ∃ a b, a < m ∧ b < m ∧ a ≠ b ∧
        nodeAt t m = ⟨false, 0#9, (nodeAt t a).weight + (nodeAt t b).weight, BitVec.ofNat 10 a, BitVec.ofNat 10 b⟩ ∧
        (∀ m', L ≤ m' → m' < m → ¬ isChild t.node m' a ∧ ¬ isChild t.node m' b) ∧
        keyBefore t.node a b ∧
        (∀ j, j < m → j ≠ a → j ≠ b → (∀ m', L ≤ m' → m' < m → ¬ isChild t.node m' j) → keyBefore t.node b j)) ∧
      (∀ j, 2 * L - 1 ≤ j → nodeAt t j = nodeAt s j)

/-- R83, R84, R30, R23: the tree BUILD leaves is one tree over all its records, its leaves the symbols, each once; no weight
wraps and the root weighs IN_COUNT + 1; every record but the root has exactly one parent. -/
def Obligations.BuildTreeProperties : Prop :=
  ∀ s : State, Ready s → s.freqV = true → countHolds s → ∃ t l r, exec .build s = .next t ∧
    treeAt t.node (.node l r) t.root.toNat = true ∧
    (HTree.node l r).syms.Perm (symbolList s) ∧ (HTree.node l r).syms.Nodup ∧
    (HTree.node l r).size = t.nodeCount.toNat ∧ 2 * t.leafCount.toNat = t.nodeCount.toNat + 1 ∧
    (∀ m, m < t.nodeCount.toNat → (nodeAt t m).leaf = false →
      (nodeAt t m).weight.toNat =
        (nodeAt t (nodeAt t m).left.toNat).weight.toNat + (nodeAt t (nodeAt t m).right.toNat).weight.toNat) ∧
    (nodeAt t t.root.toNat).weight.toNat = s.inCount.toNat + 1 ∧
    (∀ j, j < t.nodeCount.toNat → j ≠ t.root.toNat →
      ∃ m, (m < t.nodeCount.toNat ∧ (nodeAt t m).leaf = false ∧ isChild t.node m j) ∧
        ∀ m', m' < t.nodeCount.toNat → (nodeAt t m').leaf = false → isChild t.node m' j → m' = m)

/-- R82: BUILD from the count of the empty input: the added leaf of symbol 0, the sentinel's, and the root over both. -/
def Obligations.BuildEmptyInput : Prop :=
  ∀ s : State, Ready s → s.freqV = true → countHolds s → s.inCount = 0#32 → ∃ t, exec .build s = .next t ∧
    t.root = 2#10 ∧ t.nodeCount = 3#10 ∧ t.leafCount = 2#9 ∧
    nodeAt t 0 = ⟨true, 0#9, 0#32, 0#10, 0#10⟩ ∧ nodeAt t 1 = ⟨true, 256#9, 1#32, 0#10, 0#10⟩ ∧
    nodeAt t 2 = ⟨false, 0#9, 1#32, 0#10, 1#10⟩ ∧ t.freq = s.freq

/-! ## GENCODE -/

/-- R85, R88, R89, R31: GENCODE over the tree `T` at ROOT: each symbol's entry is the path of its last leaf, left to right;
symbols with no leaf, and a leaf that is the root, have no code. With TREE_V = 0 it raises E_SEQ. -/
def Obligations.GencodeCompletes : Prop :=
  (∀ s : State, Ready s → s.treeV = false → exec .gencode s = .next (failed .gencode .eSeq 0x12#32 s)) ∧
  ∀ (s : State) (T : HTree), Ready s → s.treeV = true → treeAt s.node T s.root.toNat = true → T.size ≤ Config.nodeCap →
    ∃ t, exec .gencode s = .next t ∧ t = { completed .gencode s with codeV := true, code := t.code } ∧
      ∀ v < 257, tableGet t.code v = some (entryOf (T.code v))

/-- R86, R87: the code table GENCODE leaves. No code is a prefix of another symbol's; below an internal root every symbol
with a leaf has a code; a code has 1 to 256 bits and stands whole in its entry. -/
def Obligations.CodesPrefixFree : Prop :=
  ∀ (s : State) (l r : HTree), Ready s → s.treeV = true → treeAt s.node (.node l r) s.root.toNat = true →
    (HTree.node l r).size ≤ Config.nodeCap → ∃ t, exec .gencode s = .next t ∧
      (∀ v < 257, ∀ w < 257, (codeAt t v).len ≠ 0#9 → (codeAt t w).len ≠ 0#9 →
        codeBits (codeAt t v) <+: codeBits (codeAt t w) → v = w) ∧
      (∀ v < 257, v ∈ (HTree.node l r).syms ↔ (codeAt t v).len ≠ 0#9) ∧
      (∀ v < 257, (codeAt t v).len ≠ 0#9 → (v, codeBits (codeAt t v)) ∈ (HTree.node l r).paths ∧
        1 ≤ (codeAt t v).len.toNat ∧ (codeAt t v).len.toNat ≤ 256)

/-! ## The encode side of the stream codec -/

/-- R93: WRMAGIC writes the 32 bits of MAGIC, most significant first; with the output closed it raises E_OUT_CLOSED. -/
def Obligations.WrmagicCompletes : Prop :=
  ∀ s : State, Ready s →
    (s.out.isOpen = false → exec .wrmagic s = .next (failed .wrmagic .eOutClosed 0x13#32 s)) ∧
    (s.out.isOpen = true → s.out.acc.length ≤ 7 → ∃ t, exec .wrmagic s = .next t ∧
      t = { completed .wrmagic s with out := t.out } ∧ Wrote s.out (natToBits 32 s.magic.toNat) t.out)

/-- R90, R65: SERIALIZE writes the header of the tree at ROOT and counts its bits in HDR_BITS; the tree is not changed. With
TREE_V = 0 it raises E_SEQ, else with the output closed E_OUT_CLOSED. -/
def Obligations.SerializeCompletes : Prop :=
  (∀ s : State, Ready s →
    (s.treeV = false → exec .serialize s = .next (failed .serialize .eSeq 0x14#32 s)) ∧
    (s.treeV = true → s.out.isOpen = false → exec .serialize s = .next (failed .serialize .eOutClosed 0x14#32 s))) ∧
  ∀ (s : State) (T : HTree), Ready s → s.treeV = true → s.out.isOpen = true → s.out.acc.length ≤ 7 →
    treeAt s.node T s.root.toNat = true → T.size ≤ Config.nodeCap → ∃ t, exec .serialize s = .next t ∧
      t = { completed .serialize s with hdrBits := BitVec.ofNat 32 T.header.length, out := t.out } ∧
      Wrote s.out T.header t.out

/-- R94, R67: ENCBODY where every byte of the input and the sentinel have a code. -/
def Obligations.EncbodyCompletes : Prop :=
  ∀ s : State, Ready s → SourceOk s → InputFits s → s.codeV = true → s.out.isOpen = true → s.out.acc.length ≤ 7 →
    (∀ b ∈ s.inp.data, (codeAt s b.toNat).len ≠ 0#9) → (codeAt s 256).len ≠ 0#9 → ∃ t, exec .encbody s = .next t ∧
      t = { completed .encbody s with
        out := t.out
        inp := ⟨s.inp.data, BitVec.ofNat 40 (8 * s.inp.data.length), s.inp.ioDraws.drop (s.inp.data.length + 1)⟩ } ∧
      Wrote s.out (bodyBits (fun v => codeBits (codeAt s v)) s.inp.data) t.out

/-- R94, R107, R108: ENCBODY at the first byte with no code, or at the sentinel with none: the codes before it stay written,
none of its own is. -/
def Obligations.EncbodyNoCode : Prop :=
  (∀ (s : State) (k : Nat) (b : Byte), Ready s → SourceOk s → InputFits s → s.codeV = true → s.out.isOpen = true →
    s.out.acc.length ≤ 7 → s.inp.data[k]? = some b → (∀ c ∈ s.inp.data.take k, (codeAt s c.toNat).len ≠ 0#9) →
    (codeAt s b.toNat).len = 0#9 → ∃ t, exec .encbody s = .next t ∧
      t = { failed .encbody .eNoCode (b.setWidth 32) s with
        out := t.out, inp := ⟨s.inp.data, BitVec.ofNat 40 (8 * (k + 1)), s.inp.ioDraws.drop (k + 1)⟩ } ∧
      Wrote s.out ((s.inp.data.take k).flatMap fun c => codeBits (codeAt s c.toNat)) t.out) ∧
  (∀ s : State, Ready s → SourceOk s → InputFits s → s.codeV = true → s.out.isOpen = true → s.out.acc.length ≤ 7 →
    (∀ c ∈ s.inp.data, (codeAt s c.toNat).len ≠ 0#9) → (codeAt s 256).len = 0#9 → ∃ t, exec .encbody s = .next t ∧
      t = { failed .encbody .eNoCode 256#32 s with
        out := t.out
        inp := ⟨s.inp.data, BitVec.ofNat 40 (8 * s.inp.data.length), s.inp.ioDraws.drop (s.inp.data.length + 1)⟩ } ∧
      Wrote s.out (s.inp.data.flatMap fun c => codeBits (codeAt s c.toNat)) t.out)

/-- R95, R51: CLOSE pads the partial byte with zero bits, delivers it if there is one, and closes; a closed output raises
E_OUT_CLOSED. -/
def Obligations.CloseCompletes : Prop :=
  ∀ s : State, Ready s →
    (s.out.isOpen = false → exec .close s = .next (failed .close .eOutClosed 0x16#32 s)) ∧
    (s.out.isOpen = true → s.out.acc.length ≤ 7 → ∃ t, exec .close s = .next t ∧
      t = { completed .close s with out := t.out } ∧
      streamOf t.out.data = outStream s.out ++ padBits (outStream s.out) ∧
      t.out.acc = [] ∧ t.out.isOpen = false ∧ t.out.bits = s.out.bits ∧
      t.out.count = (if s.out.acc = [] then s.out.count else s.out.count + 1#32))

/-- R96, R64: ENCODE over an input of at most MAX_IN bytes whose source does not fail completes: the container of the tree
it built, and nothing else, is appended to OUT_DATA. -/
def Obligations.EncodeCompletes : Prop :=
  ∀ s : State, Ready s → SourceOk s → s.inp.data.length ≤ 2 ^ 32 - 2 → ∃ t l r, exec .encode s = .next t ∧
    t = { completed .encode s with
      freqV := true, treeV := true, codeV := true, treeSrc := .build, decState := .idle
      freq := freqOf s.inp.data, inCount := BitVec.ofNat 32 s.inp.data.length
      node := t.node, code := t.code, root := t.root, nodeCount := t.nodeCount, leafCount := t.leafCount
      hdrBits := BitVec.ofNat 32 (HTree.node l r).header.length
      inp := ⟨s.inp.data, BitVec.ofNat 40 (8 * s.inp.data.length), s.inp.ioDraws.drop (2 * (s.inp.data.length + 1))⟩
      out := t.out } ∧
    treeAt t.node (.node l r) t.root.toNat = true ∧ (HTree.node l r).size = t.nodeCount.toNat ∧
    2 * t.leafCount.toNat = t.nodeCount.toNat + 1 ∧
    (∀ b ∈ s.inp.data, b.toNat ∈ (HTree.node l r).syms) ∧ 256 ∈ (HTree.node l r).syms ∧ (HTree.node l r).syms.Nodup ∧
    (∀ v < 257, tableGet t.code v = some (entryOf ((HTree.node l r).code v))) ∧
    streamOf t.out.data = streamOf s.out.data ++ containerBits s.magic (.node l r) s.inp.data ++
      padBits (containerBits s.magic (.node l r) s.inp.data) ∧
    t.out.acc = [] ∧ t.out.isOpen = false ∧
    t.out.bits = BitVec.ofNat 32 (containerBits s.magic (.node l r) s.inp.data).length ∧
    t.out.count = BitVec.ofNat 32 (t.out.data.length - s.out.data.length)

/-! ## The decode side -/

/-- R97: everything RDMAGIC can come to: the magic matches; it does not; fewer than 32 bits; the source fails. -/
def Obligations.RdmagicOutcomes : Prop :=
  ∀ s : State, Ready s →
    (s.inp.ioDraws.headD false = false → 32 ≤ 8 * s.inp.data.length →
      bitsToNat ((streamOf s.inp.data).take 32) = s.magic.toNat →
      exec .rdmagic s = .next { completed .rdmagic s with inp := ⟨s.inp.data, 32#40, s.inp.ioDraws.tail⟩ }) ∧
    (s.inp.ioDraws.headD false = false → 32 ≤ 8 * s.inp.data.length →
      bitsToNat ((streamOf s.inp.data).take 32) ≠ s.magic.toNat →
      exec .rdmagic s = .next { failed .rdmagic .eFmtBadMagic (BitVec.ofNat 32 (bitsToNat ((streamOf s.inp.data).take 32))) s with
        inp := ⟨s.inp.data, 32#40, s.inp.ioDraws.tail⟩ }) ∧
    (s.inp.ioDraws.headD false = false → 8 * s.inp.data.length < 32 →
      exec .rdmagic s = .next { failed .rdmagic .eFmtMagicTrunc 0#32 s with
        inp := ⟨s.inp.data, 0#40, s.inp.ioDraws.tail⟩ }) ∧
    (s.inp.ioDraws.headD false = true →
      exec .rdmagic s = .next { failed .rdmagic .eFmtIo 0#32 s with inp := ⟨s.inp.data, 0#40, s.inp.ioDraws.tail⟩ })

/-- R91, R92 b: DESERIALIZE over the header of a tree of at most 513 records whose leaves are Symbols: that tree stands in
NODE with its root at 0; IN_POS moves past the header and no further; the other records are not written. -/
def Obligations.DeserializeCompletes : Prop :=
  ∀ (s : State) (T : HTree) (rest : List Bool), Ready s → SourceOk s → InputFits s → T.fits →
    inRest s.inp = T.header ++ rest → ∃ t, exec .deserialize s = .next t ∧
      t = { completed .deserialize s with
        treeV := true, codeV := false, decState := .idle, treeSrc := .deserialize
        root := 0#10, nodeCount := BitVec.ofNat 10 T.size, leafCount := BitVec.ofNat 9 ((T.size + 1) / 2)
        hdrBits := BitVec.ofNat 32 T.header.length, node := t.node
        inp := ⟨s.inp.data, s.inp.pos + BitVec.ofNat 40 T.header.length, t.inp.ioDraws⟩ } ∧
      treeAt t.node T 0 = true ∧ T.header.length + 1 = 11 * ((T.size + 1) / 2) ∧
      (∀ j, j < T.size → (nodeAt t j).weight = 0#32 ∧ ((nodeAt t j).leaf = false →
        j < (nodeAt t j).left.toNat ∧ (nodeAt t j).left.toNat < T.size ∧
        j < (nodeAt t j).right.toNat ∧ (nodeAt t j).right.toNat < T.size)) ∧
      (∀ j, T.size ≤ j → nodeAt t j = nodeAt s j)

/-- R91, R25: an input that ends inside a header, at a node bit or inside a leaf's field, after `b` header bits and `r` reads, the
last of which found the end: E_FMT_HDR_TRUNC with `b`, HDR_BITS `b`, IN_POS after those bits; no tree and no code table is valid
after it. What is left of the tree registers is open (R23). -/
def Obligations.DeserializeTruncated : Prop :=
  ∀ (s : State) (b r : Nat), Ready s → InputFits s → headerScan s.inp = ⟨.cut, b, r⟩ → ∃ t, exec .deserialize s = .next t ∧
    t = { failed .deserialize .eFmtHdrTrunc (BitVec.ofNat 32 b) s with
      treeV := false, codeV := false, decState := .idle, hdrBits := BitVec.ofNat 32 b
      inp := ⟨s.inp.data, s.inp.pos + BitVec.ofNat 40 b, s.inp.ioDraws.drop r⟩
      node := t.node, root := t.root, nodeCount := t.nodeCount, leafCount := t.leafCount, draws := t.draws }

/-- R91, R66, R25: a header whose first leaf field over 256 holds `v`, read as the last of `r` reads and up to header bit `b`,
whatever comes after it: E_FMT_BAD_LEAF with `v`, HDR_BITS `b`, IN_POS after those bits. -/
def Obligations.DeserializeBadLeaf : Prop :=
  ∀ (s : State) (b r v : Nat), Ready s → InputFits s → headerScan s.inp = ⟨.badLeaf v, b, r⟩ → ∃ t, exec .deserialize s = .next t ∧
    t = { failed .deserialize .eFmtBadLeaf (BitVec.ofNat 32 v) s with
      treeV := false, codeV := false, decState := .idle, hdrBits := BitVec.ofNat 32 b
      inp := ⟨s.inp.data, s.inp.pos + BitVec.ofNat 40 b, s.inp.ioDraws.drop r⟩
      node := t.node, root := t.root, nodeCount := t.nodeCount, leafCount := t.leafCount, draws := t.draws }

/-- R91, R25: a header with a 514th node bit, header bit `b`, the last of `r` reads, whatever comes after it: E_FMT_TREE_TOO_LARGE
with 513, HDR_BITS `b`, IN_POS after those bits. -/
def Obligations.DeserializeTooLarge : Prop :=
  ∀ (s : State) (b r : Nat), Ready s → InputFits s → headerScan s.inp = ⟨.tooLarge, b, r⟩ → ∃ t, exec .deserialize s = .next t ∧
    t = { failed .deserialize .eFmtTreeTooLarge 513#32 s with
      treeV := false, codeV := false, decState := .idle, hdrBits := BitVec.ofNat 32 b
      inp := ⟨s.inp.data, s.inp.pos + BitVec.ofNat 40 b, s.inp.ioDraws.drop r⟩
      node := t.node, root := t.root, nodeCount := t.nodeCount, leafCount := t.leafCount, draws := t.draws }

/-- R92 a: what SERIALIZE writes of a tree, DESERIALIZE reads back as the same tree. -/
def Obligations.HeaderRoundTrip : Prop :=
  ∀ (s u : State) (T : HTree) (rest : List Bool), Ready s → s.treeV = true → s.out.isOpen = true → s.out.acc.length ≤ 7 →
    T.fits → treeAt s.node T s.root.toNat = true → ∃ t header, exec .serialize s = .next t ∧
      outStream t.out = outStream s.out ++ header ∧
      (Ready u → SourceOk u → InputFits u → inRest u.inp = header ++ rest → ∃ v, exec .deserialize u = .next v ∧
        v.done = true ∧ v.treeV = true ∧ treeAt v.node T v.root.toNat = true ∧ inRest v.inp = rest)

/-- R98, R68 b c: DECBODY over a body: paths to byte leaves, then a path to a sentinel's leaf. Each byte is written, the bits
after are not read, and the walk ends at the sentinel's leaf. -/
def Obligations.DecbodyCompletes : Prop :=
  ∀ (s : State) (l r : HTree) (ps : List (Nat × List Bool)) (q rest : List Bool),
    Ready s → SourceOk s → InputFits s → s.treeV = true → s.out.isOpen = true → s.out.acc.length ≤ 7 →
    treeAt s.node (.node l r) s.root.toNat = true →
    (∀ p ∈ ps, p ∈ (HTree.node l r).paths ∧ p.1 < 256) → (256, q) ∈ (HTree.node l r).paths →
    inRest s.inp = ps.flatMap Prod.snd ++ q ++ rest → ∃ t, exec .decbody s = .next t ∧
      t = { completed .decbody s with
        decState := .done, walk := walkPath s.node s.root q, out := t.out
        inp := ⟨s.inp.data, s.inp.pos + BitVec.ofNat 40 (ps.flatMap Prod.snd ++ q).length,
          s.inp.ioDraws.drop (ps.flatMap Prod.snd ++ q).length⟩ } ∧
      Wrote s.out (streamOf (ps.map fun p => BitVec.ofNat 8 p.1)) t.out

/-- R98, R107: DECBODY where the input ends before a sentinel's leaf: E_FMT_BODY_TRUNC with the bytes written; they stay
written, DEC_STATE stays WALKING and WALK shows where the walk stopped. -/
def Obligations.DecbodyTruncated : Prop :=
  ∀ (s : State) (l r : HTree) (ps : List (Nat × List Bool)) (p : Nat × List Bool) (c : List Bool),
    Ready s → SourceOk s → InputFits s → s.treeV = true → s.out.isOpen = true → s.out.acc.length ≤ 7 →
    treeAt s.node (.node l r) s.root.toNat = true → (∀ p ∈ ps, p ∈ (HTree.node l r).paths ∧ p.1 < 256) → p ∈ (HTree.node l r).paths → c <+: p.2 → c ≠ p.2 →
    inRest s.inp = ps.flatMap Prod.snd ++ c → ∃ t, exec .decbody s = .next t ∧
      t = { failed .decbody .eFmtBodyTrunc (BitVec.ofNat 32 ps.length) s with
        decState := .walking, walk := walkPath s.node s.root c, out := t.out
        inp := ⟨s.inp.data, s.inp.pos + BitVec.ofNat 40 (ps.flatMap Prod.snd ++ c).length,
          s.inp.ioDraws.drop ((ps.flatMap Prod.snd ++ c).length + 1)⟩ } ∧
      Wrote s.out (streamOf (ps.map fun p => BitVec.ofNat 8 p.1)) t.out

/-- R100: a tree whose root is a leaf: the sentinel's ends DECBODY at once, any other raises E_FMT_DEGENERATE; no bit is read
and nothing is written. -/
def Obligations.DecbodyRootLeaf : Prop :=
  ∀ s : State, Ready s → s.treeV = true → s.out.isOpen = true → (nodeAt s s.root.toNat).leaf = true →
    ((nodeAt s s.root.toNat).value = 256#9 →
      exec .decbody s = .next { completed .decbody s with decState := .done, walk := s.root }) ∧
    ((nodeAt s s.root.toNat).value ≠ 256#9 →
      exec .decbody s = .next { failed .decbody .eFmtDegenerate ((nodeAt s s.root.toNat).value.setWidth 32) s with
        decState := .walking, walk := s.root })

/-- R101, R53, R100: DECODE over a container of any tree that fits: the decoded bytes, and no pad byte, are appended to OUT_DATA;
bits after the sentinel's code are not read. A container whose tree is the sentinel as a root leaf has no output, and no bit
after its header is read. -/
def Obligations.DecodeCompletes : Prop :=
  (∀ (s : State) (l r : HTree) (ps : List (Nat × List Bool)) (q rest : List Bool),
    Ready s → SourceOk s → InputFits s → (HTree.node l r).fits →
    (∀ p ∈ ps, p ∈ (HTree.node l r).paths ∧ p.1 < 256) → (256, q) ∈ (HTree.node l r).paths →
    streamOf s.inp.data = natToBits 32 s.magic.toNat ++ (HTree.node l r).header ++ ps.flatMap Prod.snd ++ q ++ rest →
    ∃ t, exec .decode s = .next t ∧
      t = { completed .decode s with
        treeV := true, codeV := false, decState := .done, treeSrc := .deserialize
        root := 0#10, nodeCount := BitVec.ofNat 10 (HTree.node l r).size
        leafCount := BitVec.ofNat 9 (((HTree.node l r).size + 1) / 2)
        hdrBits := BitVec.ofNat 32 (HTree.node l r).header.length, node := t.node, walk := walkPath t.node 0#10 q
        inp := ⟨s.inp.data, BitVec.ofNat 40 (32 + (HTree.node l r).header.length + (ps.flatMap Prod.snd ++ q).length), t.inp.ioDraws⟩
        out := ⟨[], s.out.data ++ ps.map (fun p => BitVec.ofNat 8 p.1), BitVec.ofNat 32 ps.length, BitVec.ofNat 32 (8 * ps.length), false⟩ } ∧
      treeAt t.node (.node l r) 0 = true) ∧
  ∀ (s : State) (rest : List Bool), Ready s → SourceOk s → InputFits s →
    streamOf s.inp.data = natToBits 32 s.magic.toNat ++ (HTree.leaf 256).header ++ rest →
    ∃ t, exec .decode s = .next t ∧
      t = { completed .decode s with
        treeV := true, codeV := false, decState := .done, treeSrc := .deserialize
        root := 0#10, nodeCount := 1#10, leafCount := 1#9, hdrBits := 10#32, node := t.node, walk := 0#10
        inp := ⟨s.inp.data, 42#40, s.inp.ioDraws.drop 3⟩, out := ⟨[], s.out.data, 0#32, 0#32, false⟩ } ∧
      treeAt t.node (.leaf 256) 0 = true

/-- R96, R94, R78, R107, R108: ENCODE in error, from a state of which nothing is assumed but that HUFFC is ready. The first
failing read is COUNT's number `k`; or the input has more than MAX_IN bytes; or the first failing read is ENCBODY's number `k`,
after the magic, the header and the codes of the `k` bytes before it. What was written stays written, and the output is left open
and unpadded. -/
def Obligations.EncodeFailures : Prop :=
  (∀ (s : State) (k : Nat), Ready s → k ≤ s.inp.data.length → k ≤ 2 ^ 32 - 2 →
    (∀ j < k, s.inp.ioDraws.getD j false = false) → s.inp.ioDraws.getD k false = true →
    exec .encode s = .next { failed .encode .eFmtIo 0#32 s with
      freqV := false, freq := freqOf (s.inp.data.take k), inCount := BitVec.ofNat 32 k, out := opened s.out
      inp := ⟨s.inp.data, BitVec.ofNat 40 (8 * k), s.inp.ioDraws.drop (k + 1)⟩ }) ∧
  (∀ s : State, Ready s → (∀ j ≤ 2 ^ 32 - 2, s.inp.ioDraws.getD j false = false) → 2 ^ 32 - 2 < s.inp.data.length →
    exec .encode s = .next { failed .encode .eOverflow 0xFFFFFFFE#32 s with
      freqV := false, freq := freqOf (s.inp.data.take (2 ^ 32 - 2)), inCount := 0xFFFFFFFE#32, out := opened s.out
      inp := ⟨s.inp.data, BitVec.ofNat 40 (8 * (2 ^ 32 - 1)), s.inp.ioDraws.drop (2 ^ 32 - 1)⟩ }) ∧
  ∀ (s : State) (k : Nat), Ready s → s.inp.data.length ≤ 2 ^ 32 - 2 → k ≤ s.inp.data.length →
    (∀ j < s.inp.data.length + 1 + k, s.inp.ioDraws.getD j false = false) →
    s.inp.ioDraws.getD (s.inp.data.length + 1 + k) false = true → ∃ t l r, exec .encode s = .next t ∧
      t = { failed .encode .eFmtIo 0#32 s with
        freqV := true, treeV := true, codeV := true, treeSrc := .build, decState := .idle
        freq := freqOf s.inp.data, inCount := BitVec.ofNat 32 s.inp.data.length
        node := t.node, code := t.code, root := t.root, nodeCount := t.nodeCount, leafCount := t.leafCount
        hdrBits := BitVec.ofNat 32 (HTree.node l r).header.length, out := t.out
        inp := ⟨s.inp.data, BitVec.ofNat 40 (8 * k), s.inp.ioDraws.drop (s.inp.data.length + 1 + k + 1)⟩ } ∧
      treeAt t.node (.node l r) t.root.toNat = true ∧ (∀ b ∈ s.inp.data, b.toNat ∈ (HTree.node l r).syms) ∧
      (∀ v < 257, tableGet t.code v = some (entryOf ((HTree.node l r).code v))) ∧
      Wrote (opened s.out) (natToBits 32 s.magic.toNat ++ (HTree.node l r).header ++
        (s.inp.data.take k).flatMap fun b => ((HTree.node l r).code b.toNat).getD []) t.out

/-- R101, R97, R91, R98, R100, R107, R108: DECODE in error. The magic is cut short, wrong, or cannot be read: OUT_DATA is not
changed. The header after it does not end whole. The input ends, or the source fails at the next read, after the codes of `ps`
and a part `c` of a code: those bytes stay written. The tree is a leaf of a byte. In each the output is left open and
unpadded. -/
def Obligations.DecodeFailures : Prop :=
  (∀ s : State, Ready s →
    (s.inp.ioDraws.headD false = false → 32 ≤ 8 * s.inp.data.length →
      bitsToNat ((streamOf s.inp.data).take 32) ≠ s.magic.toNat →
      exec .decode s = .next { failed .decode .eFmtBadMagic (BitVec.ofNat 32 (bitsToNat ((streamOf s.inp.data).take 32))) s with
        inp := ⟨s.inp.data, 32#40, s.inp.ioDraws.tail⟩, out := opened s.out }) ∧
    (s.inp.ioDraws.headD false = false → 8 * s.inp.data.length < 32 →
      exec .decode s = .next { failed .decode .eFmtMagicTrunc 0#32 s with
        inp := ⟨s.inp.data, 0#40, s.inp.ioDraws.tail⟩, out := opened s.out }) ∧
    (s.inp.ioDraws.headD false = true →
      exec .decode s = .next { failed .decode .eFmtIo 0#32 s with
        inp := ⟨s.inp.data, 0#40, s.inp.ioDraws.tail⟩, out := opened s.out })) ∧
  (∀ (s : State) (e : HeaderEnd) (b r : Nat), Ready s → InputFits s → s.inp.ioDraws.headD false = false →
    32 ≤ 8 * s.inp.data.length → bitsToNat ((streamOf s.inp.data).take 32) = s.magic.toNat →
    headerScan ⟨s.inp.data, 32#40, s.inp.ioDraws.tail⟩ = ⟨e, b, r⟩ → e ≠ .whole → ∃ t, exec .decode s = .next t ∧
      t = { failed .decode e.error (e.info b) s with
        treeV := false, codeV := false, decState := .idle, hdrBits := BitVec.ofNat 32 b, out := opened s.out
        inp := ⟨s.inp.data, BitVec.ofNat 40 (32 + b), s.inp.ioDraws.drop (1 + r)⟩
        node := t.node, root := t.root, nodeCount := t.nodeCount, leafCount := t.leafCount, draws := t.draws }) ∧
  (∀ (s : State) (l r : HTree) (ps : List (Nat × List Bool)) (p : Nat × List Bool) (c rest : List Bool) (io : Bool),
    Ready s → InputFits s → (HTree.node l r).fits →
    (∀ p ∈ ps, p ∈ (HTree.node l r).paths ∧ p.1 < 256) → p ∈ (HTree.node l r).paths → c <+: p.2 → c ≠ p.2 →
    streamOf s.inp.data = natToBits 32 s.magic.toNat ++ (HTree.node l r).header ++ (ps.flatMap Prod.snd ++ c) ++ rest →
    let size := (HTree.node l r).size
    let body := (ps.flatMap Prod.snd ++ c).length
    let reads := 1 + size + (size + 1) / 2 + body
    (∀ j < reads, s.inp.ioDraws.getD j false = false) → s.inp.ioDraws.getD reads false = io → (io = true ∨ rest = []) →
    ∃ t, exec .decode s = .next t ∧
      t = { failed .decode (if io then .eFmtIo else .eFmtBodyTrunc) (if io then 0#32 else BitVec.ofNat 32 ps.length) s with
        treeV := true, codeV := false, decState := .walking, treeSrc := .deserialize
        root := 0#10, nodeCount := BitVec.ofNat 10 size, leafCount := BitVec.ofNat 9 ((size + 1) / 2)
        hdrBits := BitVec.ofNat 32 (HTree.node l r).header.length, node := t.node, walk := walkPath t.node 0#10 c
        inp := ⟨s.inp.data, BitVec.ofNat 40 (32 + (HTree.node l r).header.length + body), s.inp.ioDraws.drop (reads + 1)⟩
        out := ⟨[], s.out.data ++ ps.map (fun p => BitVec.ofNat 8 p.1), BitVec.ofNat 32 ps.length, BitVec.ofNat 32 (8 * ps.length), true⟩ } ∧
      treeAt t.node (.node l r) 0 = true) ∧
  ∀ (s : State) (v : Nat) (rest : List Bool), Ready s → InputFits s → (∀ j < 3, s.inp.ioDraws.getD j false = false) → v < 256 →
    streamOf s.inp.data = natToBits 32 s.magic.toNat ++ (HTree.leaf v).header ++ rest → ∃ t, exec .decode s = .next t ∧
      t = { failed .decode .eFmtDegenerate (BitVec.ofNat 32 v) s with
        treeV := true, codeV := false, decState := .walking, treeSrc := .deserialize
        root := 0#10, nodeCount := 1#10, leafCount := 1#9, hdrBits := 10#32, node := t.node, walk := 0#10
        inp := ⟨s.inp.data, 42#40, s.inp.ioDraws.drop 3⟩, out := opened s.out } ∧
      treeAt t.node (.leaf v) 0 = true

/-! ## Laws of the codec -/

/-- R102: for every input of at most MAX_IN bytes, ENCODE completes with a container, and DECODE of that container under the
same MAGIC completes and delivers the input, bit for bit. -/
def Obligations.RoundTrip : Prop :=
  ∀ s : State, Ready s → SourceOk s → s.inp.data.length ≤ 2 ^ 32 - 2 → ∃ t container, exec .encode s = .next t ∧
    t.done = true ∧ t.err = false ∧ t.out.data = s.out.data ++ container ∧
    ∀ u : State, Ready u → SourceOk u → u.magic = s.magic → u.inp.data = container → ∃ v, exec .decode u = .next v ∧
      v.done = true ∧ v.err = false ∧ v.out.data = u.out.data ++ s.inp.data

/-- R126, R96, R107, R108: where ENCODE completes, its stages issued one by one leave the same state, CMD apart. Where it
ends in an error, the stages issued one by one up to the first that raises leave the same state, CMD and the DONE interrupts of
the stages before it apart; the output is still open. -/
def Obligations.EncodeEqualsStages : Prop :=
  ∀ s t : State, Ready s → exec .encode s = .next t → t.seq = .idle →
    (t.done = true → issueAll [.openout, .count, .build, .gencode, .wrmagic, .serialize, .encbody, .close] s =
      some { t with cmd := encode .close }) ∧
    (t.done = false → ∃ u, issueToError [.openout, .count, .build, .gencode, .wrmagic, .serialize, .encbody, .close] s = u ∧
      u.err = true ∧ t = { u with cmd := encode .encode, doneIp := s.doneIp } ∧ t.out.isOpen = true)

/-- R126, R101, R107, R108: where DECODE completes, its stages issued one by one leave the same state, CMD apart. Where it
ends in an error, the stages issued one by one up to the first that raises leave the same state, CMD and the DONE interrupts of
the stages before it apart; the output is still open. -/
def Obligations.DecodeEqualsStages : Prop :=
  ∀ s t : State, Ready s → exec .decode s = .next t → t.seq = .idle →
    (t.done = true → issueAll [.openout, .rdmagic, .deserialize, .decbody, .close] s =
      some { t with cmd := encode .close }) ∧
    (t.done = false → ∃ u, issueToError [.openout, .rdmagic, .deserialize, .decbody, .close] s = u ∧
      u.err = true ∧ t = { u with cmd := encode .decode, doneIp := s.doneIp } ∧ t.out.isOpen = true)

/-- R73, R118: a command that is given `n` sequencer steps first and the rest in the machine's next step, the host doing
nothing, leaves what the undisturbed command leaves. The cutting into turns is the model's choice (log entry 6). -/
def Obligations.CommandUndisturbed : Prop :=
  ∀ (i : Instr) (s t u : State) (n : Nat), s.seq = .idle → s.host = [] →
    exec i { s with grants := [] } = .next u → u.busy = false → exec i { s with grants := [n] } = .next t →
    step t = .next u

/-- R104, R48, R106, R107: the source fails at any read of DESERIALIZE (of a node bit or of a leaf's field), of ENCBODY (of a byte,
or where the end would be found) or of DECBODY: E_FMT_IO with 0. The read moves nothing; what was read and written before it
stays. -/
def Obligations.ReadFailures : Prop :=
  (∀ (s : State) (b r : Nat), Ready s → InputFits s → headerScan s.inp = ⟨.ioErr, b, r⟩ → ∃ t, exec .deserialize s = .next t ∧
    t = { failed .deserialize .eFmtIo 0#32 s with
      treeV := false, codeV := false, decState := .idle, hdrBits := BitVec.ofNat 32 b
      inp := ⟨s.inp.data, s.inp.pos + BitVec.ofNat 40 b, s.inp.ioDraws.drop r⟩
      node := t.node, root := t.root, nodeCount := t.nodeCount, leafCount := t.leafCount, draws := t.draws }) ∧
  (∀ (s : State) (k : Nat), Ready s → InputFits s → s.codeV = true → s.out.isOpen = true → s.out.acc.length ≤ 7 →
    k ≤ s.inp.data.length → (∀ c ∈ s.inp.data.take k, (codeAt s c.toNat).len ≠ 0#9) →
    (∀ j < k, s.inp.ioDraws.getD j false = false) → s.inp.ioDraws.getD k false = true → ∃ t, exec .encbody s = .next t ∧
      t = { failed .encbody .eFmtIo 0#32 s with
        out := t.out, inp := ⟨s.inp.data, BitVec.ofNat 40 (8 * k), s.inp.ioDraws.drop (k + 1)⟩ } ∧
      Wrote s.out ((s.inp.data.take k).flatMap fun c => codeBits (codeAt s c.toNat)) t.out) ∧
  ∀ (s : State) (l r : HTree) (ps : List (Nat × List Bool)) (p : Nat × List Bool) (c rest : List Bool),
    Ready s → InputFits s → s.treeV = true → s.out.isOpen = true → s.out.acc.length ≤ 7 →
    treeAt s.node (.node l r) s.root.toNat = true → (∀ p ∈ ps, p ∈ (HTree.node l r).paths ∧ p.1 < 256) →
    p ∈ (HTree.node l r).paths → c <+: p.2 → c ≠ p.2 →
    inRest s.inp = ps.flatMap Prod.snd ++ c ++ rest →
    (∀ j < (ps.flatMap Prod.snd ++ c).length, s.inp.ioDraws.getD j false = false) →
    s.inp.ioDraws.getD (ps.flatMap Prod.snd ++ c).length false = true → ∃ t, exec .decbody s = .next t ∧
      t = { failed .decbody .eFmtIo 0#32 s with
        decState := .walking, walk := walkPath s.node s.root c, out := t.out
        inp := ⟨s.inp.data, s.inp.pos + BitVec.ofNat 40 (ps.flatMap Prod.snd ++ c).length,
          s.inp.ioDraws.drop ((ps.flatMap Prod.snd ++ c).length + 1)⟩ } ∧
      Wrote s.out (streamOf (ps.map fun p => BitVec.ofNat 8 p.1)) t.out

/-! ## The host's side -/

/-- R16, R109: every bit of the word a read of STATUS answers, at any time. -/
def Obligations.StatusFields : Prop :=
  ∀ s : State, ∃ v : Word, busRead 0x00C 4 s = { s with reply := .data v } ∧
    v.getLsbD 0 = (s.seq != .idle) ∧ v.getLsbD 1 = s.done ∧ v.getLsbD 2 = s.err ∧ v.getLsbD 3 = s.ovr ∧
    v.getLsbD 4 = s.freqV ∧ v.getLsbD 5 = s.treeV ∧ v.getLsbD 6 = s.codeV ∧ v.getLsbD 7 = s.out.isOpen ∧
    v.extractLsb' 8 2 = (match s.decState with | .idle => 0#2 | .walking => 1#2 | .done => 2#2) ∧
    v.getLsbD 10 = (s.treeSrc == .deserialize) ∧
    v.getLsbD 11 = ((s.doneIp && s.doneIe) || (s.errIp && s.errIe)) ∧
    ∀ k, 12 ≤ k → v.getLsbD k = false

/-- R20, R111: the host's writes of IRQ_EN and IRQ_STAT, at any time: the enables are set, ones clear pending bits, zeros
leave them, nothing else changes; and a pending bit stays set from step to step until the host writes a 1 to it or reset is
applied. -/
def Obligations.InterruptRegisters : Prop :=
  (∀ (s : State) (v : Word),
    busWrite 0x01C 4 v s = .next { s with doneIe := v.getLsbD 0, errIe := v.getLsbD 1, reply := .written } ∧
    busWrite 0x020 4 v s = .next { s with
      doneIp := if v.getLsbD 0 then false else s.doneIp, errIp := if v.getLsbD 1 then false else s.errIp, reply := .written }) ∧
  ∀ s t : State, step s = .next t →
    (s.doneIp = true → t.doneIp = true ∨ (∃ v rest, s.host = .write 0x020 4 v :: rest ∧ v.getLsbD 0 = true) ∨
      ∃ rest, s.host = .reset :: rest) ∧
    (s.errIp = true → t.errIp = true ∨ (∃ v rest, s.host = .write 0x020 4 v :: rest ∧ v.getLsbD 1 = true) ∨
      ∃ rest, s.host = .reset :: rest)

/-- R104, R105: the code a read of ERR_CODE answers for each error, and which errors are the source's FormatError. -/
def Obligations.ErrorCodes : Prop :=
  ∀ s : State,
    (s.busy = false → ∀ p ∈ [(ErrCode.eNone, 0x00#32), (.eFmtBadMagic, 0x01#32), (.eFmtMagicTrunc, 0x02#32),
      (.eFmtHdrTrunc, 0x03#32), (.eFmtBadLeaf, 0x04#32), (.eFmtTreeTooLarge, 0x05#32), (.eFmtBodyTrunc, 0x06#32),
      (.eFmtDegenerate, 0x07#32), (.eFmtIo, 0x08#32), (.eIllegalCmd, 0x10#32), (.eSeq, 0x11#32), (.eOverflow, 0x12#32),
      (.eNoCode, 0x13#32), (.eOutClosed, 0x14#32)], s.errCode = p.1 → busRead 0x010 4 s = { s with reply := .data p.2 }) ∧
    (formatError s = true ↔ s.err = true ∧ s.errCode ∈ [ErrCode.eFmtBadMagic, .eFmtMagicTrunc, .eFmtHdrTrunc, .eFmtBadLeaf,
      .eFmtTreeTooLarge, .eFmtBodyTrunc, .eFmtDegenerate, .eFmtIo])

/-- R19: MAGIC takes any value the host writes while BUSY = 0, ignores a write while BUSY = 1, and no step changes it but such
a write and reset, which restores MAGIC_RESET. -/
def Obligations.MagicOnlyByHost : Prop :=
  (∀ (s : State) (v : Word),
    busWrite 0x018 4 v s = .next { s with magic := if s.busy then s.magic else v, reply := .written }) ∧
  ∀ s t : State, step s = .next t →
    t.magic = s.magic ∨ (∃ v rest, s.host = .write 0x018 4 v :: rest ∧ s.busy = false ∧ t.magic = v) ∨
      (∃ rest, s.host = .reset :: rest ∧ t.magic = 0xFACE8201#32)

/-- R40: any access but an aligned 32-bit word is refused: a bus error, read data 0, no HUFFC state changed. -/
def Obligations.BusErrors : Prop :=
  ∀ (s : State) (off : BitVec 16) (width : Nat) (v : Word), ¬ (width = 4 ∧ off.toNat % 4 = 0) →
    busRead off width s = { s with reply := .busError 0#32 } ∧
    busWrite off width v s = .next { s with reply := .busError 0#32 }

/-- R39, R42: admitted writes to any offset but those of CMD, MAGIC, IRQ_EN and IRQ_STAT are ignored without error, and reads
of reserved offsets answer 0. A read behind the last entry of the CODE window, of which no rule says what it answers, answers
some value: while CODE_V = 1 and BUSY = 0 the same whatever the last bus answer and the count of draws are, with no draw made;
otherwise with one draw made. That is the model's choice (log entry 26). -/
def Obligations.IgnoredWritesReservedReads : Prop :=
  (∀ (s : State) (off : BitVec 16) (v : Word), off.toNat % 4 = 0 → off ≠ 0x008#16 → off ≠ 0x018#16 → off ≠ 0x01C#16 →
    off ≠ 0x020#16 → busWrite off 4 v s = .next { s with reply := .written }) ∧
  (∀ (s : State) (off : BitVec 16), off.toNat % 4 = 0 →
    ((0x0050 ≤ off.toNat ∧ off.toNat < 0x0400) ∨ (0x0804 ≤ off.toNat ∧ off.toNat < 0x1000) ∨
      (0x3010 ≤ off.toNat ∧ off.toNat < 0x4000) ∨ 0x8080 ≤ off.toNat) →
    busRead off 4 s = { s with reply := .data 0#32 }) ∧
  (∀ (s : State) (off : BitVec 16), off.toNat % 4 = 0 → 0x8040 ≤ off.toNat → off.toNat < 0x8080 →
    (s.codeV = true → s.busy = false → ∃ v, ∀ (r : Reply) (n : Nat),
      busRead off 4 { s with reply := r, draws := n } = { s with reply := .data v, draws := n }) ∧
    (¬ (s.codeV = true ∧ s.busy = false) → ∃ v, busRead off 4 s = { s with reply := .data v, draws := s.draws + 1 }))

/-- R44: a read of FREQ[i] through its window; otherwise some value, and no other state changes. -/
def Obligations.FreqWindow : Prop :=
  ∀ (s : State) (i : Nat), i ≤ 256 →
    (s.freqV = true → s.busy = false →
      busRead (BitVec.ofNat 16 (0x0400 + 4 * i)) 4 s = { s with reply := .data (freqAt s i) }) ∧
    (¬ (s.freqV = true ∧ s.busy = false) → ∃ v, busRead (BitVec.ofNat 16 (0x0400 + 4 * i)) 4 s =
      { s with reply := .data v, draws := s.draws + 1 })

/-- R45: the four words of record i through its window; otherwise some value, and no other state changes. -/
def Obligations.NodeWindow : Prop :=
  ∀ (s : State) (i : Nat), i ≤ 512 →
    (s.treeV = true → s.busy = false → i < s.nodeCount.toNat →
      busRead (BitVec.ofNat 16 (0x1000 + 16 * i)) 4 s = { s with
        reply := .data (BitVec.ofBool (nodeAt s i).leaf ++ 0#22 ++ (nodeAt s i).value) } ∧
      busRead (BitVec.ofNat 16 (0x1000 + 16 * i + 4)) 4 s = { s with reply := .data (nodeAt s i).weight } ∧
      busRead (BitVec.ofNat 16 (0x1000 + 16 * i + 8)) 4 s = { s with reply := .data (0#22 ++ (nodeAt s i).left) } ∧
      busRead (BitVec.ofNat 16 (0x1000 + 16 * i + 12)) 4 s = { s with reply := .data (0#22 ++ (nodeAt s i).right) }) ∧
    (¬ (s.treeV = true ∧ s.busy = false ∧ i < s.nodeCount.toNat) → ∀ k < 4,
      ∃ v, busRead (BitVec.ofNat 16 (0x1000 + 16 * i + 4 * k)) 4 s = { s with reply := .data v, draws := s.draws + 1 })

/-- R46: the sixteen words of CODE[i] through its window; otherwise some value, and no other state changes. -/
def Obligations.CodeWindow : Prop :=
  ∀ (s : State) (i : Nat), i ≤ 256 →
    (s.codeV = true → s.busy = false →
      busRead (BitVec.ofNat 16 (0x4000 + 64 * i)) 4 s = { s with reply := .data (0#23 ++ (codeAt s i).len) } ∧
      (∀ k, 1 ≤ k → k ≤ 8 → busRead (BitVec.ofNat 16 (0x4000 + 64 * i + 4 * k)) 4 s =
        { s with reply := .data ((codeAt s i).bits.extractLsb' (32 * (k - 1)) 32) }) ∧
      (∀ k, 9 ≤ k → k ≤ 15 → busRead (BitVec.ofNat 16 (0x4000 + 64 * i + 4 * k)) 4 s = { s with reply := .data 0#32 })) ∧
    (¬ (s.codeV = true ∧ s.busy = false) → ∀ k ≤ 15,
      ∃ v, busRead (BitVec.ofNat 16 (0x4000 + 64 * i + 4 * k)) 4 s = { s with reply := .data v, draws := s.draws + 1 })

/-- R27, R15, R20: while BUSY = 1 eight registers read their current values and a read of any other answers some value; while
BUSY = 0 the registers read the fields they name. IRQ_EN and IRQ_STAT hold DONE in bit 0, ERR in bit 1, and 0 elsewhere. -/
def Obligations.RegisterReads : Prop :=
  (∀ s : State,
    busRead 0x000 4 s = { s with reply := .data 0x48554643#32 } ∧ busRead 0x004 4 s = { s with reply := .data 0x00010000#32 } ∧
    busRead 0x008 4 s = { s with reply := .data s.cmd } ∧ busRead 0x00C 4 s = { s with reply := .data (statusWord s) } ∧
    busRead 0x018 4 s = { s with reply := .data s.magic } ∧ busRead 0x044 4 s = { s with reply := .data 0x20090201#32 } ∧
    (∃ v : Word, busRead 0x01C 4 s = { s with reply := .data v } ∧
      v.getLsbD 0 = s.doneIe ∧ v.getLsbD 1 = s.errIe ∧ ∀ k, 2 ≤ k → v.getLsbD k = false) ∧
    (∃ v : Word, busRead 0x020 4 s = { s with reply := .data v } ∧
      v.getLsbD 0 = s.doneIp ∧ v.getLsbD 1 = s.errIp ∧ ∀ k, 2 ≤ k → v.getLsbD k = false)) ∧
  (∀ s : State, s.busy = true →
    ∀ off ∈ [0x010#16, 0x014#16, 0x024#16, 0x028#16, 0x02C#16, 0x030#16, 0x034#16, 0x038#16, 0x03C#16, 0x040#16, 0x048#16, 0x04C#16],
      ∃ v, busRead off 4 s = { s with reply := .data v, draws := s.draws + 1 }) ∧
  ∀ s : State, s.busy = false →
    busRead 0x010 4 s = { s with reply := .data (0#24 ++ s.errCode.toBits) } ∧
    busRead 0x014 4 s = { s with reply := .data s.errInfo } ∧ busRead 0x024 4 s = { s with reply := .data s.inCount } ∧
    busRead 0x028 4 s = { s with reply := .data s.out.count } ∧ busRead 0x02C 4 s = { s with reply := .data s.out.bits } ∧
    busRead 0x030 4 s = { s with reply := .data (0#22 ++ s.root) } ∧
    busRead 0x034 4 s = { s with reply := .data (0#22 ++ s.nodeCount) } ∧
    busRead 0x038 4 s = { s with reply := .data (0#23 ++ s.leafCount) } ∧
    busRead 0x03C 4 s = { s with reply := .data (0#22 ++ s.walk) } ∧
    busRead 0x040 4 s = { s with reply := .data s.hdrBits } ∧
    busRead 0x048 4 s = { s with reply := .data (s.inp.pos.extractLsb' 0 32) } ∧
    busRead 0x04C 4 s = { s with reply := .data (0#24 ++ s.inp.pos.extractLsb' 32 8) }

/-- R15, R37, R120: the word each of the twenty registers reads in the state after reset. -/
def Obligations.ResetRegisters : Prop :=
  ((List.range 20).map fun k => (busRead (BitVec.ofNat 16 (4 * k)) 4 State.reset).reply) =
    [.data 0x48554643#32, .data 0x00010000#32, .data 0#32, .data 0x00000080#32, .data 0#32, .data 0#32, .data 0xFACE8201#32,
     .data 0#32, .data 0#32, .data 0#32, .data 0#32, .data 0#32, .data 0#32, .data 0#32, .data 0#32, .data 0#32, .data 0#32,
     .data 0x20090201#32, .data 0#32, .data 0#32] ∧ State.reset.seq = .idle ∧ State.reset.out.acc = [] ∧
    irqLine State.reset = false

/-- R119, R37: reset takes HUFFC to its reset state at once, also out of a running command, with no completion and no error;
IN_DATA and the delivered bytes stay. -/
def Obligations.ResetStopsEverything : Prop :=
  ∀ (s : State) (rest : List HostMove), s.host = .reset :: rest → ∃ t, step s = .next t ∧ t = { State.reset with
    inp := { State.reset.inp with data := s.inp.data, ioDraws := t.inp.ioDraws }
    out := { State.reset.out with data := s.out.data }
    freq := t.freq, node := t.node, code := t.code, heap := t.heap, dstack := t.dstack, phase := t.phase
    host := rest, grants := t.grants, reply := t.reply, draws := t.draws }

/-- R36, R69, R127: ATTACH and TAKE while BUSY = 0 do what they say; a move that breaks a host's duty is refused by name, which
is the model's form of "no move" (I16, log entry 8). -/
def Obligations.AttachAndTake : Prop :=
  ∀ (s : State) (bytes : List Byte),
    (s.busy = false → bytes.length ≤ 2 ^ 37 - 1 →
      hostMove (.attach bytes) s = .next { s with inp := { s.inp with data := bytes } }) ∧
    (s.busy = false → hostMove .take s = .next { s with reply := .bytes s.out.data, out := { s.out with data := [] } }) ∧
    (s.busy = true → hostMove (.attach bytes) s = .refused .attachWhileBusy ∧ hostMove .take s = .refused .takeWhileBusy) ∧
    (s.busy = false → 2 ^ 37 - 1 < bytes.length → hostMove (.attach bytes) s = .refused .inputTooLong)

/-! ## The stream ports -/

/-- R48, R47: ReadBits(n): the failure first, then end of stream, then the next n bits of the stream as a number, most
significant first; only the last moves IN_POS. -/
def Obligations.ReadBitsOutcomes : Prop :=
  ∀ (n : Nat) (p : InPort), 1 ≤ n → n ≤ 32 → p.data.length ≤ 2 ^ 37 - 1 →
    (p.ioDraws.headD false = true → p.readBits n = (.ioErr, { p with ioDraws := p.ioDraws.tail })) ∧
    (p.ioDraws.headD false = false → 8 * p.data.length < p.pos.toNat + n →
      p.readBits n = (.eos, { p with ioDraws := p.ioDraws.tail })) ∧
    (p.ioDraws.headD false = false → p.pos.toNat + n ≤ 8 * p.data.length → ∃ v q, p.readBits n = (.val v, q) ∧
      v < 2 ^ n ∧ natToBits n v = (inRest p).take n ∧ q.data = p.data ∧ q.ioDraws = p.ioDraws.tail ∧
      q.pos.toNat = p.pos.toNat + n)

/-- R50, R22: WriteBits(n, v) in a running stage appends v[n−1] .. v[0] to the output stream, in that order, delivers every
completed byte, and goes on to nothing else before its last bit. That the sequencer appends one bit a step, so that a move of the
host can land after any `k` of them, is the model's choice (log entry 6), and so is that OUT_BITS is raised with each bit, where
R50 adds n after the last one (log entry 25): for `k < n` its value is the model's, for `k = n` it is what R50 gives. -/
def Obligations.WriteBitsAppends : Prop :=
  ∀ (n v k : Nat) (s : State) (cmd stage : Instr), 1 ≤ n → n ≤ 256 → k ≤ n → s.seq = .running cmd stage → s.unsent = [] →
    s.out.acc.length ≤ 7 →
    let bits := (List.range n).map fun j => v.testBit (n - 1 - j)
    ∃ t, runFor k (s.writeBits n v) = t ∧ t = { s with out := t.out, unsent := bits.drop k } ∧ Wrote s.out (bits.take k) t.out

/-! ## Invariants and whole-machine rules -/

/-- R14, R16, R18, R32 to R35, R106: the lifecycle's registers stay consistent, at most seven output bits stay pending, HEAP and
DSTACK stay within 257 entries, IN_DATA stays within what IN_POS addresses and the memories keep their canonical form, through
every step from every state that has them so. The canonical form and the empty scratch are the model's choice (log entries 1
and 2), and so is what DSTACK does with an entry it has no room for (log entry 17). -/
def Obligations.WellShapedKept : Prop :=
  ∀ s t : State, wellShaped s = true → step s = .next t → wellShaped t = true

/-- R28, R78: while FREQ_V = 1, FREQ[256] = 1 and the other entries sum to IN_COUNT, at most MAX_IN; every step keeps this,
with what COUNT's loop needs for it. -/
def Obligations.FreqInvariantKept : Prop :=
  ∀ s t : State, freqInvariant s → step s = .next t → freqInvariant t

/-- R30: while TREE_V = 1 ROOT holds a tree of NODE_COUNT records and LEAF_COUNT leaves, all Symbols, with all children below
NODE_COUNT, and in BUILD's tree the weights add up; every step keeps this, with what the loops of BUILD and DESERIALIZE need
for it. -/
def Obligations.TreeInvariantKept : Prop :=
  ∀ s t : State, freqInvariant s → treeInvariant s → step s = .next t → treeInvariant t

/-- The invariants hold after reset. -/
def Obligations.InvariantsAtReset : Prop :=
  wellShaped State.reset = true ∧ freqInvariant State.reset ∧ treeInvariant State.reset

/-- R35, R36: HUFFC never writes IN_DATA and only appends to OUT_DATA; the host's ATTACH and TAKE are the only other ways
they change. -/
def Obligations.StreamsOwned : Prop :=
  ∀ s t : State, step s = .next t →
    (t.inp.data = s.inp.data ∨ ∃ bytes rest, s.host = .attach bytes :: rest ∧ s.busy = false ∧ t.inp.data = bytes) ∧
    ((∃ ds, t.out.data = s.out.data ++ ds) ∨ ∃ rest, s.host = .take :: rest ∧ s.busy = false ∧ t.out.data = [])

/-! ## Frames -/

/-- What each command leaves unchanged, from any state, if it ends or not: besides the lifecycle's registers, the scratch and the
grants each changes only what its rule names as written. -/
def Obligations.CommandFrames : Prop :=
  ∀ s t : State,
    (exec .nop s = .next t → t = { s with
      seq := t.seq, cmd := t.cmd, done := t.done, err := t.err, ovr := t.ovr, errCode := t.errCode, errInfo := t.errInfo
      doneIp := t.doneIp, errIp := t.errIp, phase := t.phase, heap := t.heap, dstack := t.dstack, unsent := t.unsent, grants := t.grants }) ∧
    (exec .clear s = .next t → t = { t with
      magic := s.magic, doneIe := s.doneIe, errIe := s.errIe, host := s.host, reply := s.reply, draws := s.draws
      inp := { t.inp with data := s.inp.data, ioDraws := s.inp.ioDraws }, out := { t.out with data := s.out.data } }) ∧
    (exec .openout s = .next t → t = { s with
      seq := t.seq, cmd := t.cmd, done := t.done, err := t.err, ovr := t.ovr, errCode := t.errCode, errInfo := t.errInfo
      doneIp := t.doneIp, errIp := t.errIp, phase := t.phase, heap := t.heap, dstack := t.dstack, unsent := t.unsent, grants := t.grants
      out := { t.out with data := s.out.data } }) ∧
    (exec .count s = .next t → t = { s with
      seq := t.seq, cmd := t.cmd, done := t.done, err := t.err, ovr := t.ovr, errCode := t.errCode, errInfo := t.errInfo
      doneIp := t.doneIp, errIp := t.errIp, phase := t.phase, heap := t.heap, dstack := t.dstack, unsent := t.unsent, grants := t.grants
      freqV := t.freqV, freq := t.freq, inCount := t.inCount, inp := { t.inp with data := s.inp.data } }) ∧
    (exec .build s = .next t → t = { s with
      seq := t.seq, cmd := t.cmd, done := t.done, err := t.err, ovr := t.ovr, errCode := t.errCode, errInfo := t.errInfo
      doneIp := t.doneIp, errIp := t.errIp, phase := t.phase, heap := t.heap, dstack := t.dstack, unsent := t.unsent, grants := t.grants
      treeV := t.treeV, codeV := t.codeV, decState := t.decState, treeSrc := t.treeSrc, node := t.node, root := t.root
      nodeCount := t.nodeCount, leafCount := t.leafCount, draws := t.draws }) ∧
    (exec .gencode s = .next t → t = { s with
      seq := t.seq, cmd := t.cmd, done := t.done, err := t.err, ovr := t.ovr, errCode := t.errCode, errInfo := t.errInfo
      doneIp := t.doneIp, errIp := t.errIp, phase := t.phase, heap := t.heap, dstack := t.dstack, unsent := t.unsent, grants := t.grants
      codeV := t.codeV, code := t.code }) ∧
    (exec .wrmagic s = .next t → t = { s with
      seq := t.seq, cmd := t.cmd, done := t.done, err := t.err, ovr := t.ovr, errCode := t.errCode, errInfo := t.errInfo
      doneIp := t.doneIp, errIp := t.errIp, phase := t.phase, heap := t.heap, dstack := t.dstack, unsent := t.unsent, grants := t.grants
      out := { t.out with isOpen := s.out.isOpen } }) ∧
    (exec .serialize s = .next t → t = { s with
      seq := t.seq, cmd := t.cmd, done := t.done, err := t.err, ovr := t.ovr, errCode := t.errCode, errInfo := t.errInfo
      doneIp := t.doneIp, errIp := t.errIp, phase := t.phase, heap := t.heap, dstack := t.dstack, unsent := t.unsent, grants := t.grants
      out := { t.out with isOpen := s.out.isOpen }, hdrBits := t.hdrBits }) ∧
    (exec .encbody s = .next t → t = { s with
      seq := t.seq, cmd := t.cmd, done := t.done, err := t.err, ovr := t.ovr, errCode := t.errCode, errInfo := t.errInfo
      doneIp := t.doneIp, errIp := t.errIp, phase := t.phase, heap := t.heap, dstack := t.dstack, unsent := t.unsent, grants := t.grants
      out := { t.out with isOpen := s.out.isOpen }, inp := { t.inp with data := s.inp.data } }) ∧
    (exec .close s = .next t → t = { s with
      seq := t.seq, cmd := t.cmd, done := t.done, err := t.err, ovr := t.ovr, errCode := t.errCode, errInfo := t.errInfo
      doneIp := t.doneIp, errIp := t.errIp, phase := t.phase, heap := t.heap, dstack := t.dstack, unsent := t.unsent, grants := t.grants
      out := { t.out with bits := s.out.bits } }) ∧
    (exec .encode s = .next t → t = { t with
      magic := s.magic, doneIe := s.doneIe, errIe := s.errIe, walk := s.walk, host := s.host, reply := s.reply
      inp := { t.inp with data := s.inp.data } }) ∧
    (exec .rdmagic s = .next t → t = { s with
      seq := t.seq, cmd := t.cmd, done := t.done, err := t.err, ovr := t.ovr, errCode := t.errCode, errInfo := t.errInfo
      doneIp := t.doneIp, errIp := t.errIp, phase := t.phase, heap := t.heap, dstack := t.dstack, unsent := t.unsent, grants := t.grants
      inp := { t.inp with data := s.inp.data } }) ∧
    (exec .deserialize s = .next t → t = { s with
      seq := t.seq, cmd := t.cmd, done := t.done, err := t.err, ovr := t.ovr, errCode := t.errCode, errInfo := t.errInfo
      doneIp := t.doneIp, errIp := t.errIp, phase := t.phase, heap := t.heap, dstack := t.dstack, unsent := t.unsent, grants := t.grants
      treeV := t.treeV, codeV := t.codeV, decState := t.decState, treeSrc := t.treeSrc, node := t.node, root := t.root
      nodeCount := t.nodeCount, leafCount := t.leafCount, hdrBits := t.hdrBits, draws := t.draws
      inp := { t.inp with data := s.inp.data } }) ∧
    (exec .decbody s = .next t → t = { s with
      seq := t.seq, cmd := t.cmd, done := t.done, err := t.err, ovr := t.ovr, errCode := t.errCode, errInfo := t.errInfo
      doneIp := t.doneIp, errIp := t.errIp, phase := t.phase, heap := t.heap, dstack := t.dstack, unsent := t.unsent, grants := t.grants
      decState := t.decState, walk := t.walk, out := { t.out with isOpen := s.out.isOpen }, inp := { t.inp with data := s.inp.data } }) ∧
    (exec .decode s = .next t → t = { t with
      magic := s.magic, doneIe := s.doneIe, errIe := s.errIe, freqV := s.freqV, freq := s.freq, inCount := s.inCount
      code := s.code, host := s.host, reply := s.reply, inp := { t.inp with data := s.inp.data } })
end

