-- ==== Sys2Proof/Laws/Bits.lean ====
section
/-! SUPPORT. Numbers and bit strings in stream order (R9, R47): the two conversions undo each other. And the widths of R6 as
numbers, for arithmetic. -/

namespace Sys2Proof.Machine

@[simp] theorem cntW_eq : Config.cntW = 32 := rfl

@[simp] theorem idxW_eq : Config.idxW = 10 := rfl

@[simp] theorem posW_eq : Config.posW = 40 := rfl

@[simp] theorem maxCodeLen_eq : Config.maxCodeLen = 256 := rfl

@[simp] theorem natToBits_length (n v : Nat) : (natToBits n v).length = n := by simp [natToBits]

@[simp] theorem natToBits_zero (v : Nat) : natToBits 0 v = [] := rfl

/-- The bits of `n + 1` are the top bit and the bits of `n`. -/
theorem natToBits_succ (n v : Nat) : natToBits (n + 1) v = v.testBit n :: natToBits n v := by
  simp only [natToBits, List.range_succ_eq_map, List.map_cons, List.map_map, Nat.sub_zero, Nat.add_sub_cancel]
  congr 1
  refine List.map_congr_left fun j _ => ?_
  simp only [Function.comp]
  congr 1
  omega

theorem bitsToNat_foldl (bs : List Bool) (a : Nat) :
    bs.foldl (fun n b => 2 * n + b.toNat) a = a * 2 ^ bs.length + bitsToNat bs := by
  induction bs generalizing a with
  | nil => simp [bitsToNat]
  | cons b bs ih =>
    simp only [bitsToNat, List.foldl_cons, List.length_cons]
    rw [ih, ih (2 * 0 + b.toNat)]
    ring

theorem bitsToNat_nil : bitsToNat [] = 0 := rfl

theorem bitsToNat_cons (b : Bool) (bs : List Bool) :
    bitsToNat (b :: bs) = b.toNat * 2 ^ bs.length + bitsToNat bs := by
  rw [bitsToNat, List.foldl_cons, bitsToNat_foldl]
  simp

theorem bitsToNat_append (as bs : List Bool) :
    bitsToNat (as ++ bs) = bitsToNat as * 2 ^ bs.length + bitsToNat bs := by
  rw [bitsToNat, List.foldl_append, bitsToNat_foldl]
  rfl

theorem bitsToNat_lt (bs : List Bool) : bitsToNat bs < 2 ^ bs.length := by
  induction bs with
  | nil => simp [bitsToNat]
  | cons b bs ih =>
    rw [bitsToNat_cons, List.length_cons, Nat.pow_succ]
    cases b <;> simp <;> omega

/-- Only the low `n` bits count. -/
theorem natToBits_mod (n v : Nat) : natToBits n (v % 2 ^ n) = natToBits n v := by
  simp only [natToBits]
  refine List.map_congr_left fun j hj => ?_
  have := List.mem_range.1 hj
  rw [Nat.testBit_mod_two_pow]
  simp only [Bool.and_eq_right_iff_imp, decide_eq_true_eq]
  omega

theorem natToBits_append (m n a b : Nat) (hb : b < 2 ^ n) :
    natToBits (m + n) (a * 2 ^ n + b) = natToBits m a ++ natToBits n b := by
  induction m with
  | zero =>
    have h : (a * 2 ^ n + b) % 2 ^ n = b % 2 ^ n := Nat.mul_add_mod_self_right ..
    rw [Nat.zero_add, natToBits_zero, List.nil_append, ← natToBits_mod, h, natToBits_mod]
  | succ m ih =>
    rw [show m + 1 + n = (m + n) + 1 by omega, natToBits_succ, natToBits_succ, ih]
    congr 1
    rw [Nat.mul_comm, Nat.testBit_two_pow_mul_add _ hb]
    simp

/-- The bits of the number a bit string stands for are the bit string. -/
theorem natToBits_bitsToNat (bs : List Bool) : natToBits bs.length (bitsToNat bs) = bs := by
  induction bs with
  | nil => rfl
  | cons b bs ih =>
    have h := natToBits_append 1 bs.length b.toNat (bitsToNat bs) (bitsToNat_lt bs)
    rw [List.length_cons, bitsToNat_cons, Nat.add_comm, h, ih]
    cases b <;> rfl

/-- The number the low `n` bits of `v` stand for. -/
theorem bitsToNat_natToBits (n v : Nat) : bitsToNat (natToBits n v) = v % 2 ^ n := by
  induction n with
  | zero => simp [bitsToNat, Nat.mod_one]
  | succ n ih =>
    rw [natToBits_succ, bitsToNat_cons, ih, natToBits_length, Nat.testBit_eq_decide_div_mod_eq,
      Nat.pow_succ, Nat.mod_mul]
    rcases Nat.mod_two_eq_zero_or_one (v / 2 ^ n) with h | h <;> simp [h, Nat.add_comm]

theorem byteBits_length (b : Byte) : (byteBits b).length = 8 := by simp [byteBits]

/-- Packing eight bits into a byte loses none of them (R47, R50). -/
theorem byteBits_byteOfBits {bs : List Bool} (h : bs.length = 8) : byteBits (byteOfBits bs) = bs := by
  have := natToBits_bitsToNat bs
  rw [h] at this
  have hl := bitsToNat_lt bs
  rw [h] at hl
  simp only [byteBits, byteOfBits, BitVec.toNat_ofNat]
  rw [Nat.mod_eq_of_lt hl, this]

/-- A byte is the byte of its bits. -/
theorem byteOfBits_byteBits (b : Byte) : byteOfBits (byteBits b) = b := by
  apply BitVec.eq_of_toNat_eq
  simp [byteOfBits, byteBits, bitsToNat_natToBits]
  omega

@[simp] theorem streamOf_nil : streamOf [] = [] := rfl

@[simp] theorem streamOf_cons (b : Byte) (bs : List Byte) : streamOf (b :: bs) = byteBits b ++ streamOf bs := rfl

@[simp] theorem streamOf_append (as bs : List Byte) : streamOf (as ++ bs) = streamOf as ++ streamOf bs := by
  simp [streamOf]

@[simp] theorem streamOf_length (bs : List Byte) : (streamOf bs).length = 8 * bs.length := by
  induction bs with
  | nil => rfl
  | cons b bs ih => simp [byteBits_length, ih]; omega

/-- The stream determines the bytes. -/
theorem streamOf_injective {as bs : List Byte} (h : streamOf as = streamOf bs) : as = bs := by
  induction as generalizing bs with
  | nil =>
    cases bs with
    | nil => rfl
    | cons b bs => have := congrArg List.length h; simp [byteBits_length] at this; omega
  | cons a as ih =>
    cases bs with
    | nil => simpa [byteBits_length] using congrArg List.length h
    | cons b bs =>
      simp only [streamOf_cons] at h
      obtain ⟨h1, h2⟩ := List.append_inj h (by simp [byteBits_length])
      rw [ih h2, ← byteOfBits_byteBits a, ← byteOfBits_byteBits b, h1]

/-- Stream bit k by the formula of R47 is element k of the stream. -/
theorem streamBit_eq (data : List Byte) (k : Nat) (h : k < 8 * data.length) :
    streamBit data k = (streamOf data)[k]'(by simpa using h) := by
  induction data generalizing k with
  | nil => simp at h
  | cons b bs ih =>
    by_cases hk : k < 8
    · have h1 : k / 8 = 0 := by omega
      have h2 : k % 8 = k := by omega
      simp only [streamBit, h1, h2, List.getD_cons_zero, streamOf_cons]
      rw [List.getElem_append_left (by simpa [byteBits_length] using hk)]
      simp only [byteBits, natToBits, List.getElem_map, List.getElem_range]
      rfl
    · have h1 : k / 8 = (k - 8) / 8 + 1 := by omega
      have h2 : k % 8 = (k - 8) % 8 := by omega
      have h3 := ih (k - 8) (by simp at h; omega)
      simp only [streamBit, h1, h2, List.getD_cons_succ, streamOf_cons] at h3 ⊢
      rw [List.getElem_append_right (by simpa [byteBits_length] using Nat.le_of_not_lt hk)]
      simp only [byteBits_length]
      exact h3

/-- The bits ReadBits gathers are a slice of the stream (R48). -/
theorem readSlice_eq (data : List Byte) (p n : Nat) (h : p + n ≤ 8 * data.length) :
    ((List.range n).map fun j => streamBit data (p + j)) = ((streamOf data).drop p).take n := by
  apply List.ext_getElem
  · simp; omega
  · intro j h1 h2
    simp at h1 h2
    simp only [List.getElem_map, List.getElem_range, List.getElem_take, List.getElem_drop]
    rw [streamBit_eq data (p + j) (by omega)]

end Sys2Proof.Machine
end

