-- ==== Sys2Proof/Laws/Tables.lean ====
section
/-! SUPPORT. The internal memories: a read after a write, and that every write keeps the canonical form. -/

namespace Sys2Proof.Machine

variable {α : Type}

@[simp] theorem tableGet_nil (i : Nat) : tableGet ([] : Table α) i = none := rfl

theorem tableGet_insert_same (t : Table α) (i : Nat) (a : α) : tableGet (tableInsert t i a) i = some a := by
  induction t with
  | nil => simp [tableInsert, tableGet]
  | cons e t ih =>
    obtain ⟨k, b⟩ := e
    simp only [tableInsert]
    split
    · simp [tableGet]
    · split
      · simp [tableGet]
      · next h => simp [tableGet, Ne.symm h, ih]

theorem tableGet_insert_ne (t : Table α) {i j : Nat} (a : α) (h : j ≠ i) :
    tableGet (tableInsert t i a) j = tableGet t j := by
  induction t with
  | nil => simp [tableInsert, tableGet, h.symm]
  | cons e t ih =>
    obtain ⟨k, b⟩ := e
    simp only [tableInsert]
    split
    · simp [tableGet, h.symm]
    · split
      · next _ hk => subst hk; simp [tableGet, h.symm]
      · simp only [tableGet, ih]

/-- A read after a write to the same entry. -/
theorem tableGet_set_same {cap i : Nat} (t : Table α) (a : α) (h : i < cap) :
    tableGet (tableSet cap t i a) i = some a := by
  rw [tableSet, if_pos h, tableGet_insert_same]

/-- A write leaves every other entry alone. -/
theorem tableGet_set_ne (cap : Nat) (t : Table α) {i j : Nat} (a : α) (h : j ≠ i) :
    tableGet (tableSet cap t i a) j = tableGet t j := by
  unfold tableSet
  split
  · exact tableGet_insert_ne t a h
  · rfl

theorem tableWfFrom_mono {lo lo' cap : Nat} (t : Table α) (h : lo' ≤ lo) (hw : tableWfFrom lo cap t = true) :
    tableWfFrom lo' cap t = true := by
  cases t with
  | nil => rfl
  | cons e t =>
    simp only [tableWfFrom, Bool.and_eq_true, decide_eq_true_eq] at hw ⊢
    exact ⟨⟨by omega, hw.1.2⟩, hw.2⟩

theorem tableInsert_wf {lo cap i : Nat} (t : Table α) (a : α) (hlo : lo ≤ i) (hc : i < cap)
    (hw : tableWfFrom lo cap t = true) : tableWfFrom lo cap (tableInsert t i a) = true := by
  induction t generalizing lo with
  | nil => simp [tableInsert, tableWfFrom, hlo, hc]
  | cons e t ih =>
    obtain ⟨k, b⟩ := e
    simp only [tableWfFrom, Bool.and_eq_true, decide_eq_true_eq] at hw
    simp only [tableInsert]
    split
    · next h => simp [tableWfFrom, hlo, hc, hw.1.2, hw.2, h]
    · split
      · next h => subst h; simp [tableWfFrom, hlo, hc, hw.2]
      · simp [tableWfFrom, hw.1.1, hw.1.2, ih (lo := k + 1) (by omega) hw.2]

/-- A write keeps the canonical form. -/
theorem tableSet_wf {cap : Nat} (t : Table α) (i : Nat) (a : α) (hw : tableWf cap t = true) :
    tableWf cap (tableSet cap t i a) = true := by
  unfold tableSet
  split
  · next h => exact tableInsert_wf t a (Nat.zero_le _) h hw
  · exact hw

@[simp] theorem tableWf_nil (cap : Nat) : tableWf cap ([] : Table α) = true := rfl

/-- A table with an entry for each index of an interval is canonical. -/
theorem tableWfFrom_range' {lo cap : Nat} (n : Nat) (f : Nat → α) (tail : Table α)
    (hn : lo + n ≤ cap) (ht : tableWfFrom (lo + n) cap tail = true) :
    tableWfFrom lo cap ((List.range' lo n).map (fun i => (i, f i)) ++ tail) = true := by
  induction n generalizing lo with
  | zero => simpa using ht
  | succ n ih =>
    simp only [List.range'_succ, List.map_cons, List.cons_append, tableWfFrom, Bool.and_eq_true, decide_eq_true_eq]
    exact ⟨⟨Nat.le_refl _, by omega⟩, ih (by omega) (by rw [show lo + 1 + n = lo + (n + 1) by omega]; exact ht)⟩

/-- What such a table holds. -/
theorem tableGet_range' {lo : Nat} (n : Nat) (f : Nat → α) (tail : Table α) (i : Nat) :
    tableGet ((List.range' lo n).map (fun j => (j, f j)) ++ tail) i =
      if lo ≤ i ∧ i < lo + n then some (f i) else tableGet tail i := by
  induction n generalizing lo with
  | zero => simp
  | succ n ih =>
    simp only [List.range'_succ, List.map_cons, List.cons_append, tableGet, ih]
    by_cases h : lo = i
    · subst h; simp
    · rw [if_neg h]
      by_cases h2 : lo + 1 ≤ i ∧ i < lo + 1 + n
      · rw [if_pos h2, if_pos (by omega)]
      · rw [if_neg h2, if_neg (by omega)]

/-- The first table of COUNT: 0 for every literal symbol, 1 for the sentinel (R77). -/
theorem tableGet_countInit (i : Nat) :
    tableGet countInit i = if i < 256 then some 0#32 else if i = 256 then some 1#32 else none := by
  rw [countInit, List.range_eq_range', tableGet_range']
  simp only [Config.alphSize, Config.pseudoEof, tableGet, Nat.zero_le, true_and, Nat.zero_add]
  split
  · rfl
  · simp only [eq_comm]

theorem countInit_wf : tableWf Config.nsym countInit = true := by
  rw [tableWf, countInit, List.range_eq_range']
  exact tableWfFrom_range' _ _ _ (by decide) (by decide)

/-- The first table of GENCODE: no code for any symbol (R85). -/
theorem tableGet_codeInit (i : Nat) :
    tableGet codeInit i = if i < 257 then some ⟨0#9, 0#256⟩ else none := by
  rw [codeInit, List.range_eq_range', ← List.append_nil (List.map _ _), tableGet_range']
  simp [Config.nsym]

theorem codeInit_wf : tableWf Config.nsym codeInit = true := by
  rw [tableWf, codeInit, List.range_eq_range', ← List.append_nil (List.map _ _)]
  exact tableWfFrom_range' _ _ _ (by decide) rfl

/-- Two canonical tables with the same entries are the same data. -/
theorem table_ext {lo cap : Nat} {t u : Table α} (ht : tableWfFrom lo cap t = true) (hu : tableWfFrom lo cap u = true)
    (h : ∀ i, tableGet t i = tableGet u i) : t = u := by
  have below : ∀ {lo cap : Nat} {t : Table α}, tableWfFrom lo cap t = true → ∀ i < lo, tableGet t i = none := by
    intro lo cap t
    induction t generalizing lo with
    | nil => intros; rfl
    | cons e t ih =>
      intro hw i hi
      simp only [tableWfFrom, Bool.and_eq_true, decide_eq_true_eq] at hw
      rw [show tableGet (e :: t) i = if e.1 = i then some e.2 else tableGet t i from rfl, if_neg (by omega)]
      exact ih hw.2 i (by omega)
  induction t generalizing lo u with
  | nil =>
    cases u with
    | nil => rfl
    | cons f u => have := h f.1; simp [tableGet] at this
  | cons e t ih =>
    cases u with
    | nil => have := h e.1; simp [tableGet] at this
    | cons f u =>
      obtain ⟨k, a⟩ := e
      obtain ⟨l, b⟩ := f
      simp only [tableWfFrom, Bool.and_eq_true, decide_eq_true_eq] at ht hu
      have hkl : k = l := by
        rcases Nat.lt_trichotomy k l with hlt | heq | hgt
        · have := h k
          simp [tableGet, Nat.ne_of_gt hlt, below hu.2 k (by omega)] at this
        · exact heq
        · have := h l
          simp [tableGet, Nat.ne_of_gt hgt, below ht.2 l (by omega)] at this
      subst hkl
      have hab : a = b := by simpa [tableGet] using h k
      subst hab
      rw [ih ht.2 hu.2 fun i => ?_]
      by_cases hi : k = i
      · subst hi; rw [below ht.2 k (by omega), below hu.2 k (by omega)]
      · simpa [tableGet, hi] using h i

end Sys2Proof.Machine
end

