-- ==== Sys2Proof/Laws/Ports.lean ====
section
/-! SUPPORT. The stream ports: everything ReadBits can answer (R48), and what WriteBits (R50), CloseOut (R51) and OpenOut
(R52) do to the output stream. -/

namespace Sys2Proof.Machine

/-! ## Input -/

/-- ReadBits where the source reports a failure (R48). -/
theorem readBits_ioErr (n : Nat) (p : InPort) (h : p.ioDraws.headD false = true) :
    p.readBits n = (.ioErr, { p with ioDraws := p.ioDraws.tail }) := by
  simp only [InPort.readBits, h, if_true]

/-- ReadBits where fewer than `n` bits remain (R48). -/
theorem readBits_eos (n : Nat) (p : InPort) (hd : p.ioDraws.headD false = false)
    (h : 8 * p.data.length < p.pos.toNat + n) :
    p.readBits n = (.eos, { p with ioDraws := p.ioDraws.tail }) := by
  unfold InPort.readBits
  simp only [hd, h, if_true, Bool.false_eq_true, if_false]

/-- ReadBits where `n` bits remain: the number of the next `n` stream bits, and IN_POS moves past them (R48). -/
theorem readBits_val (n : Nat) (p : InPort) (hd : p.ioDraws.headD false = false)
    (h : p.pos.toNat + n ≤ 8 * p.data.length) :
    p.readBits n = (.val (bitsToNat ((inRest p).take n)),
      { p with pos := p.pos + BitVec.ofNat 40 n, ioDraws := p.ioDraws.tail }) := by
  unfold InPort.readBits
  simp only [hd, Nat.not_lt.2 h, if_false, Bool.false_eq_true]
  rw [readSlice_eq _ _ _ h]
  rfl

/-- Everything ReadBits can answer, and what each answer leaves. -/
theorem readBits_cases (n : Nat) (p : InPort) :
    (∃ v, p.readBits n = (.val v, { p with pos := p.pos + BitVec.ofNat 40 n, ioDraws := p.ioDraws.tail }) ∧
        v = bitsToNat ((inRest p).take n) ∧ p.pos.toNat + n ≤ 8 * p.data.length ∧ v < 2 ^ n) ∨
    (p.readBits n = (.eos, { p with ioDraws := p.ioDraws.tail }) ∧ 8 * p.data.length < p.pos.toNat + n) ∨
    (p.readBits n = (.ioErr, { p with ioDraws := p.ioDraws.tail }) ∧ p.ioDraws.headD false = true) := by
  by_cases hd : p.ioDraws.headD false = true
  · exact .inr (.inr ⟨readBits_ioErr n p hd, hd⟩)
  · rw [Bool.not_eq_true] at hd
    by_cases h : 8 * p.data.length < p.pos.toNat + n
    · exact .inr (.inl ⟨readBits_eos n p hd h, h⟩)
    · refine .inl ⟨_, readBits_val n p hd (Nat.le_of_not_lt h), rfl, Nat.le_of_not_lt h, ?_⟩
      refine lt_of_lt_of_le (bitsToNat_lt _) (Nat.pow_le_pow_right (by decide) ?_)
      simp

/-- A failed or short read moves nothing but the source's draws; a good one moves IN_POS by `n` alone. -/
theorem readBits_data (n : Nat) (p : InPort) : (p.readBits n).2.data = p.data := by
  rcases readBits_cases n p with ⟨v, h, -⟩ | ⟨h, -⟩ | ⟨h, -⟩ <;> rw [h]

theorem inRest_length (p : InPort) : (inRest p).length = 8 * p.data.length - p.pos.toNat := by
  simp [inRest]

/-- What remains after a read of `n` bits. -/
theorem inRest_advance (p : InPort) (n : Nat) (d : List Bool) (h : p.pos.toNat + n < 2 ^ 40) :
    inRest { p with pos := p.pos + BitVec.ofNat 40 n, ioDraws := d } = (inRest p).drop n := by
  simp only [inRest, BitVec.toNat_add, BitVec.toNat_ofNat, List.drop_drop, posW_eq]
  congr 1
  omega

@[simp] theorem rewind_data (p : InPort) : p.rewind.data = p.data := rfl
@[simp] theorem rewind_pos (p : InPort) : p.rewind.pos = 0#40 := rfl
@[simp] theorem rewind_ioDraws (p : InPort) : p.rewind.ioDraws = p.ioDraws := rfl

/-! ## Output -/

@[simp] theorem openOut_acc (o : OutPort) : o.openOut.acc = [] := rfl
@[simp] theorem openOut_data (o : OutPort) : o.openOut.data = o.data := rfl
@[simp] theorem openOut_count (o : OutPort) : o.openOut.count = 0#32 := rfl
@[simp] theorem openOut_bits (o : OutPort) : o.openOut.bits = 0#32 := rfl
@[simp] theorem openOut_isOpen (o : OutPort) : o.openOut.isOpen = true := rfl

/-- One bit written: at the end of the stream, counted in OUT_BITS; a completed byte is delivered and counted (R50). -/
theorem writeBit_spec (o : OutPort) (b : Bool) (h : o.acc.length ≤ 7) :
    outStream (o.writeBit b) = outStream o ++ [b] ∧ (o.writeBit b).acc.length ≤ 7 ∧
    (o.writeBit b).isOpen = o.isOpen ∧ (o.writeBit b).bits = o.bits + 1#32 ∧
    (∃ ds, (o.writeBit b).data = o.data ++ ds ∧ (o.writeBit b).count = o.count + BitVec.ofNat 32 ds.length) := by
  by_cases hl : (o.acc ++ [b]).length = 8
  · rw [OutPort.writeBit, if_pos hl]
    refine ⟨?_, by simp, rfl, rfl, [byteOfBits (o.acc ++ [b])], rfl, rfl⟩
    simp [outStream, byteBits_byteOfBits hl]
  · rw [OutPort.writeBit, if_neg hl]
    refine ⟨by simp [outStream], by simp at hl ⊢; omega, rfl, rfl, [], by simp⟩

theorem padBits_eq (bs : List Bool) (n : Nat) (h : bs.length = 8 * n) (acc : List Bool) (ha : acc.length ≤ 7)
    (hp : 0 < acc.length) : padBits (bs ++ acc) = List.replicate (8 - acc.length) false := by
  simp only [padBits, List.length_append, h]
  congr 1
  omega

/-- Everything CloseOut() does (R51): the stream padded with zero bits to a whole byte, all of it delivered. -/
theorem closeOut_spec (o : OutPort) (h : o.acc.length ≤ 7) :
    streamOf o.closeOut.data = outStream o ++ padBits (outStream o) ∧ o.closeOut.acc = [] ∧
    o.closeOut.isOpen = false ∧ o.closeOut.bits = o.bits ∧
    o.closeOut.count = o.count + BitVec.ofNat 32 (o.closeOut.data.length - o.data.length) := by
  by_cases hl : o.acc.length > 0
  · have hc : o.closeOut = ⟨[], o.data ++ [byteOfBits (o.acc ++ List.replicate (8 - o.acc.length) false)],
        o.count + 1#32, o.bits, false⟩ := by rw [OutPort.closeOut, if_pos hl]
    have h8 : (o.acc ++ List.replicate (8 - o.acc.length) false).length = 8 := by simp; omega
    rw [hc]
    refine ⟨?_, rfl, rfl, rfl, by simp⟩
    simp only [outStream, padBits_eq _ o.data.length (streamOf_length _) o.acc h hl]
    simp [byteBits_byteOfBits h8]
  · have h0 : o.acc = [] := by simpa using hl
    have hc : o.closeOut = { o with isOpen := false } := by rw [OutPort.closeOut, if_neg hl]
    rw [hc]
    refine ⟨?_, h0, rfl, rfl, by simp⟩
    simp [outStream, h0, padBits]

/-- CloseOut() delivers at most one byte, after those already delivered. -/
theorem closeOut_data (o : OutPort) : ∃ ds, o.closeOut.data = o.data ++ ds ∧ ds.length ≤ 1 := by
  unfold OutPort.closeOut
  split
  · exact ⟨_, rfl, by simp⟩
  · exact ⟨[], by simp, by simp⟩

/-! ## A run of bits -/

/-- The output port after a run of bits (R50). -/
def OutPort.push (o : OutPort) (bs : List Bool) : OutPort := bs.foldl OutPort.writeBit o

@[simp] theorem push_nil (o : OutPort) : o.push [] = o := rfl

@[simp] theorem push_cons (o : OutPort) (b : Bool) (bs : List Bool) : o.push (b :: bs) = (o.writeBit b).push bs := rfl

/-- Two runs are one run (R50, R67). -/
theorem push_push (o : OutPort) (as bs : List Bool) : (o.push as).push bs = o.push (as ++ bs) := by
  simp only [OutPort.push, List.foldl_append]

@[simp] theorem writeBit_isOpen (o : OutPort) (b : Bool) : (o.writeBit b).isOpen = o.isOpen := by
  unfold OutPort.writeBit
  dsimp only
  split <;> rfl

@[simp] theorem push_isOpen (o : OutPort) (bs : List Bool) : (o.push bs).isOpen = o.isOpen := by
  induction bs generalizing o with
  | nil => rfl
  | cons b bs ih => rw [push_cons, ih, writeBit_isOpen]

/-- A run of bits only appends to OUT_DATA (R36). -/
theorem push_data (o : OutPort) (bs : List Bool) : ∃ ds, (o.push bs).data = o.data ++ ds := by
  induction bs generalizing o with
  | nil => exact ⟨[], by simp⟩
  | cons b bs ih =>
    obtain ⟨ds, h⟩ := ih (o.writeBit b)
    rw [push_cons, h]
    unfold OutPort.writeBit
    dsimp only
    split
    · exact ⟨_, List.append_assoc _ _ _⟩
    · exact ⟨_, rfl⟩

/-- Everything a run of bits does to the output port: the run stands at the end of the stream, completed bytes are delivered
and counted, at most seven bits stay pending. -/
theorem push_wrote (o : OutPort) (bs : List Bool) (h : o.acc.length ≤ 7) : Wrote o bs (o.push bs) := by
  have key : outStream (o.push bs) = outStream o ++ bs ∧ (o.push bs).acc.length ≤ 7 ∧ (o.push bs).isOpen = o.isOpen ∧
      (o.push bs).bits = o.bits + BitVec.ofNat 32 bs.length ∧
      (∃ ds, (o.push bs).data = o.data ++ ds ∧ (o.push bs).count = o.count + BitVec.ofNat 32 ds.length) := by
    induction bs generalizing o with
    | nil => exact ⟨by simp, h, rfl, by simp, [], by simp⟩
    | cons b bs ih =>
      obtain ⟨h1, h2, h3, h4, ds, h5, h6⟩ := writeBit_spec o b h
      obtain ⟨k1, k2, k3, k4, es, k5, k6⟩ := ih (o.writeBit b) h2
      refine ⟨by simp [k1, h1], k2, k3.trans h3, ?_, ds ++ es, by simp [k5, h5], ?_⟩
      · rw [push_cons, k4, h4, List.length_cons, BitVec.ofNat_add, BitVec.add_assoc, BitVec.add_comm 1#32]
      · rw [push_cons, k6, h6, List.length_append, BitVec.ofNat_add, BitVec.add_assoc]
  obtain ⟨h1, h2, h3, h4, ds, h5, h6⟩ := key
  exact ⟨h1, h2, h3, h4, by simp [h5, h6]⟩

theorem push_acc_le (o : OutPort) (bs : List Bool) (h : o.acc.length ≤ 7) : (o.push bs).acc.length ≤ 7 :=
  (push_wrote o bs h).2.1

/-- `Wrote` says all there is to say: the port after is determined. -/
theorem wrote_unique {o p q : OutPort} {bs : List Bool} (hp : Wrote o bs p) (hq : Wrote o bs q) : p = q := by
  obtain ⟨p1, p2, p3, p4, p5⟩ := hp
  obtain ⟨q1, q2, q3, q4, q5⟩ := hq
  have he : streamOf p.data ++ p.acc = streamOf q.data ++ q.acc := p1.trans q1.symm
  have hl := congrArg List.length he
  simp only [List.length_append, streamOf_length] at hl
  obtain ⟨h1, h2⟩ := List.append_inj he (by simp only [streamOf_length]; omega)
  have hd := streamOf_injective h1
  cases p; cases q
  simp_all

end Sys2Proof.Machine
end

