-- ==== Sys2Proof/Laws/State.lean ====
section
/-! SUPPORT. What each named update of the state leaves in each field, true by unfolding, so that no later proof unfolds a
record update. -/

namespace Sys2Proof.Machine

@[simp] theorem overrun_seq (s : State) : (overrun s).seq = s.seq := rfl
@[simp] theorem overrun_cmd (s : State) : (overrun s).cmd = s.cmd := rfl
@[simp] theorem overrun_done (s : State) : (overrun s).done = s.done := rfl
@[simp] theorem overrun_err (s : State) : (overrun s).err = s.err := rfl
@[simp] theorem overrun_ovr (s : State) : (overrun s).ovr = true := rfl
@[simp] theorem overrun_freqV (s : State) : (overrun s).freqV = s.freqV := rfl
@[simp] theorem overrun_treeV (s : State) : (overrun s).treeV = s.treeV := rfl
@[simp] theorem overrun_codeV (s : State) : (overrun s).codeV = s.codeV := rfl
@[simp] theorem overrun_decState (s : State) : (overrun s).decState = s.decState := rfl
@[simp] theorem overrun_treeSrc (s : State) : (overrun s).treeSrc = s.treeSrc := rfl
@[simp] theorem overrun_errCode (s : State) : (overrun s).errCode = s.errCode := rfl
@[simp] theorem overrun_errInfo (s : State) : (overrun s).errInfo = s.errInfo := rfl
@[simp] theorem overrun_magic (s : State) : (overrun s).magic = s.magic := rfl
@[simp] theorem overrun_doneIe (s : State) : (overrun s).doneIe = s.doneIe := rfl
@[simp] theorem overrun_errIe (s : State) : (overrun s).errIe = s.errIe := rfl
@[simp] theorem overrun_doneIp (s : State) : (overrun s).doneIp = s.doneIp := rfl
@[simp] theorem overrun_errIp (s : State) : (overrun s).errIp = s.errIp := rfl
@[simp] theorem overrun_inCount (s : State) : (overrun s).inCount = s.inCount := rfl
@[simp] theorem overrun_root (s : State) : (overrun s).root = s.root := rfl
@[simp] theorem overrun_nodeCount (s : State) : (overrun s).nodeCount = s.nodeCount := rfl
@[simp] theorem overrun_leafCount (s : State) : (overrun s).leafCount = s.leafCount := rfl
@[simp] theorem overrun_walk (s : State) : (overrun s).walk = s.walk := rfl
@[simp] theorem overrun_hdrBits (s : State) : (overrun s).hdrBits = s.hdrBits := rfl
@[simp] theorem overrun_freq (s : State) : (overrun s).freq = s.freq := rfl
@[simp] theorem overrun_node (s : State) : (overrun s).node = s.node := rfl
@[simp] theorem overrun_code (s : State) : (overrun s).code = s.code := rfl
@[simp] theorem overrun_heap (s : State) : (overrun s).heap = s.heap := rfl
@[simp] theorem overrun_dstack (s : State) : (overrun s).dstack = s.dstack := rfl
@[simp] theorem overrun_phase (s : State) : (overrun s).phase = s.phase := rfl
@[simp] theorem overrun_unsent (s : State) : (overrun s).unsent = s.unsent := rfl
@[simp] theorem overrun_inp (s : State) : (overrun s).inp = s.inp := rfl
@[simp] theorem overrun_out (s : State) : (overrun s).out = s.out := rfl
@[simp] theorem overrun_host (s : State) : (overrun s).host = s.host := rfl
@[simp] theorem overrun_grants (s : State) : (overrun s).grants = s.grants := rfl
@[simp] theorem overrun_reply (s : State) : (overrun s).reply = s.reply := rfl
@[simp] theorem overrun_draws (s : State) : (overrun s).draws = s.draws := rfl

@[simp] theorem acceptWord_seq (w : Word) (s : State) : (acceptWord w s).seq = s.seq := rfl
@[simp] theorem acceptWord_cmd (w : Word) (s : State) : (acceptWord w s).cmd = w := rfl
@[simp] theorem acceptWord_done (w : Word) (s : State) : (acceptWord w s).done = false := rfl
@[simp] theorem acceptWord_err (w : Word) (s : State) : (acceptWord w s).err = false := rfl
@[simp] theorem acceptWord_ovr (w : Word) (s : State) : (acceptWord w s).ovr = s.ovr := rfl
@[simp] theorem acceptWord_freqV (w : Word) (s : State) : (acceptWord w s).freqV = s.freqV := rfl
@[simp] theorem acceptWord_treeV (w : Word) (s : State) : (acceptWord w s).treeV = s.treeV := rfl
@[simp] theorem acceptWord_codeV (w : Word) (s : State) : (acceptWord w s).codeV = s.codeV := rfl
@[simp] theorem acceptWord_decState (w : Word) (s : State) : (acceptWord w s).decState = s.decState := rfl
@[simp] theorem acceptWord_treeSrc (w : Word) (s : State) : (acceptWord w s).treeSrc = s.treeSrc := rfl
@[simp] theorem acceptWord_errCode (w : Word) (s : State) : (acceptWord w s).errCode = .eNone := rfl
@[simp] theorem acceptWord_errInfo (w : Word) (s : State) : (acceptWord w s).errInfo = 0#32 := rfl
@[simp] theorem acceptWord_magic (w : Word) (s : State) : (acceptWord w s).magic = s.magic := rfl
@[simp] theorem acceptWord_doneIe (w : Word) (s : State) : (acceptWord w s).doneIe = s.doneIe := rfl
@[simp] theorem acceptWord_errIe (w : Word) (s : State) : (acceptWord w s).errIe = s.errIe := rfl
@[simp] theorem acceptWord_doneIp (w : Word) (s : State) : (acceptWord w s).doneIp = s.doneIp := rfl
@[simp] theorem acceptWord_errIp (w : Word) (s : State) : (acceptWord w s).errIp = s.errIp := rfl
@[simp] theorem acceptWord_inCount (w : Word) (s : State) : (acceptWord w s).inCount = s.inCount := rfl
@[simp] theorem acceptWord_root (w : Word) (s : State) : (acceptWord w s).root = s.root := rfl
@[simp] theorem acceptWord_nodeCount (w : Word) (s : State) : (acceptWord w s).nodeCount = s.nodeCount := rfl
@[simp] theorem acceptWord_leafCount (w : Word) (s : State) : (acceptWord w s).leafCount = s.leafCount := rfl
@[simp] theorem acceptWord_walk (w : Word) (s : State) : (acceptWord w s).walk = s.walk := rfl
@[simp] theorem acceptWord_hdrBits (w : Word) (s : State) : (acceptWord w s).hdrBits = s.hdrBits := rfl
@[simp] theorem acceptWord_freq (w : Word) (s : State) : (acceptWord w s).freq = s.freq := rfl
@[simp] theorem acceptWord_node (w : Word) (s : State) : (acceptWord w s).node = s.node := rfl
@[simp] theorem acceptWord_code (w : Word) (s : State) : (acceptWord w s).code = s.code := rfl
@[simp] theorem acceptWord_heap (w : Word) (s : State) : (acceptWord w s).heap = s.heap := rfl
@[simp] theorem acceptWord_dstack (w : Word) (s : State) : (acceptWord w s).dstack = s.dstack := rfl
@[simp] theorem acceptWord_phase (w : Word) (s : State) : (acceptWord w s).phase = s.phase := rfl
@[simp] theorem acceptWord_unsent (w : Word) (s : State) : (acceptWord w s).unsent = s.unsent := rfl
@[simp] theorem acceptWord_inp (w : Word) (s : State) : (acceptWord w s).inp = s.inp := rfl
@[simp] theorem acceptWord_out (w : Word) (s : State) : (acceptWord w s).out = s.out := rfl
@[simp] theorem acceptWord_host (w : Word) (s : State) : (acceptWord w s).host = s.host := rfl
@[simp] theorem acceptWord_grants (w : Word) (s : State) : (acceptWord w s).grants = s.grants := rfl
@[simp] theorem acceptWord_reply (w : Word) (s : State) : (acceptWord w s).reply = s.reply := rfl
@[simp] theorem acceptWord_draws (w : Word) (s : State) : (acceptWord w s).draws = s.draws := rfl

@[simp] theorem accept_seq (i : Instr) (s : State) : (accept i s).seq = .running i i := rfl
@[simp] theorem accept_cmd (i : Instr) (s : State) : (accept i s).cmd = encode i := rfl
@[simp] theorem accept_done (i : Instr) (s : State) : (accept i s).done = false := rfl
@[simp] theorem accept_err (i : Instr) (s : State) : (accept i s).err = false := rfl
@[simp] theorem accept_ovr (i : Instr) (s : State) : (accept i s).ovr = s.ovr := rfl
@[simp] theorem accept_freqV (i : Instr) (s : State) : (accept i s).freqV = s.freqV := rfl
@[simp] theorem accept_treeV (i : Instr) (s : State) : (accept i s).treeV = s.treeV := rfl
@[simp] theorem accept_codeV (i : Instr) (s : State) : (accept i s).codeV = s.codeV := rfl
@[simp] theorem accept_decState (i : Instr) (s : State) : (accept i s).decState = s.decState := rfl
@[simp] theorem accept_treeSrc (i : Instr) (s : State) : (accept i s).treeSrc = s.treeSrc := rfl
@[simp] theorem accept_errCode (i : Instr) (s : State) : (accept i s).errCode = .eNone := rfl
@[simp] theorem accept_errInfo (i : Instr) (s : State) : (accept i s).errInfo = 0#32 := rfl
@[simp] theorem accept_magic (i : Instr) (s : State) : (accept i s).magic = s.magic := rfl
@[simp] theorem accept_doneIe (i : Instr) (s : State) : (accept i s).doneIe = s.doneIe := rfl
@[simp] theorem accept_errIe (i : Instr) (s : State) : (accept i s).errIe = s.errIe := rfl
@[simp] theorem accept_doneIp (i : Instr) (s : State) : (accept i s).doneIp = s.doneIp := rfl
@[simp] theorem accept_errIp (i : Instr) (s : State) : (accept i s).errIp = s.errIp := rfl
@[simp] theorem accept_inCount (i : Instr) (s : State) : (accept i s).inCount = s.inCount := rfl
@[simp] theorem accept_root (i : Instr) (s : State) : (accept i s).root = s.root := rfl
@[simp] theorem accept_nodeCount (i : Instr) (s : State) : (accept i s).nodeCount = s.nodeCount := rfl
@[simp] theorem accept_leafCount (i : Instr) (s : State) : (accept i s).leafCount = s.leafCount := rfl
@[simp] theorem accept_walk (i : Instr) (s : State) : (accept i s).walk = s.walk := rfl
@[simp] theorem accept_hdrBits (i : Instr) (s : State) : (accept i s).hdrBits = s.hdrBits := rfl
@[simp] theorem accept_freq (i : Instr) (s : State) : (accept i s).freq = s.freq := rfl
@[simp] theorem accept_node (i : Instr) (s : State) : (accept i s).node = s.node := rfl
@[simp] theorem accept_code (i : Instr) (s : State) : (accept i s).code = s.code := rfl
@[simp] theorem accept_heap (i : Instr) (s : State) : (accept i s).heap = s.heap := rfl
@[simp] theorem accept_dstack (i : Instr) (s : State) : (accept i s).dstack = s.dstack := rfl
@[simp] theorem accept_phase (i : Instr) (s : State) : (accept i s).phase = .enter := rfl
@[simp] theorem accept_unsent (i : Instr) (s : State) : (accept i s).unsent = [] := rfl
@[simp] theorem accept_inp (i : Instr) (s : State) : (accept i s).inp = s.inp := rfl
@[simp] theorem accept_out (i : Instr) (s : State) : (accept i s).out = s.out := rfl
@[simp] theorem accept_host (i : Instr) (s : State) : (accept i s).host = s.host := rfl
@[simp] theorem accept_grants (i : Instr) (s : State) : (accept i s).grants = s.grants := rfl
@[simp] theorem accept_reply (i : Instr) (s : State) : (accept i s).reply = s.reply := rfl
@[simp] theorem accept_draws (i : Instr) (s : State) : (accept i s).draws = s.draws := rfl

@[simp] theorem acceptIllegal_seq (w : Word) (s : State) : (acceptIllegal w s).seq = .rejecting := rfl
@[simp] theorem acceptIllegal_cmd (w : Word) (s : State) : (acceptIllegal w s).cmd = w := rfl
@[simp] theorem acceptIllegal_done (w : Word) (s : State) : (acceptIllegal w s).done = false := rfl
@[simp] theorem acceptIllegal_err (w : Word) (s : State) : (acceptIllegal w s).err = false := rfl
@[simp] theorem acceptIllegal_ovr (w : Word) (s : State) : (acceptIllegal w s).ovr = s.ovr := rfl
@[simp] theorem acceptIllegal_freqV (w : Word) (s : State) : (acceptIllegal w s).freqV = s.freqV := rfl
@[simp] theorem acceptIllegal_treeV (w : Word) (s : State) : (acceptIllegal w s).treeV = s.treeV := rfl
@[simp] theorem acceptIllegal_codeV (w : Word) (s : State) : (acceptIllegal w s).codeV = s.codeV := rfl
@[simp] theorem acceptIllegal_decState (w : Word) (s : State) : (acceptIllegal w s).decState = s.decState := rfl
@[simp] theorem acceptIllegal_treeSrc (w : Word) (s : State) : (acceptIllegal w s).treeSrc = s.treeSrc := rfl
@[simp] theorem acceptIllegal_errCode (w : Word) (s : State) : (acceptIllegal w s).errCode = .eNone := rfl
@[simp] theorem acceptIllegal_errInfo (w : Word) (s : State) : (acceptIllegal w s).errInfo = 0#32 := rfl
@[simp] theorem acceptIllegal_magic (w : Word) (s : State) : (acceptIllegal w s).magic = s.magic := rfl
@[simp] theorem acceptIllegal_doneIe (w : Word) (s : State) : (acceptIllegal w s).doneIe = s.doneIe := rfl
@[simp] theorem acceptIllegal_errIe (w : Word) (s : State) : (acceptIllegal w s).errIe = s.errIe := rfl
@[simp] theorem acceptIllegal_doneIp (w : Word) (s : State) : (acceptIllegal w s).doneIp = s.doneIp := rfl
@[simp] theorem acceptIllegal_errIp (w : Word) (s : State) : (acceptIllegal w s).errIp = s.errIp := rfl
@[simp] theorem acceptIllegal_inCount (w : Word) (s : State) : (acceptIllegal w s).inCount = s.inCount := rfl
@[simp] theorem acceptIllegal_root (w : Word) (s : State) : (acceptIllegal w s).root = s.root := rfl
@[simp] theorem acceptIllegal_nodeCount (w : Word) (s : State) : (acceptIllegal w s).nodeCount = s.nodeCount := rfl
@[simp] theorem acceptIllegal_leafCount (w : Word) (s : State) : (acceptIllegal w s).leafCount = s.leafCount := rfl
@[simp] theorem acceptIllegal_walk (w : Word) (s : State) : (acceptIllegal w s).walk = s.walk := rfl
@[simp] theorem acceptIllegal_hdrBits (w : Word) (s : State) : (acceptIllegal w s).hdrBits = s.hdrBits := rfl
@[simp] theorem acceptIllegal_freq (w : Word) (s : State) : (acceptIllegal w s).freq = s.freq := rfl
@[simp] theorem acceptIllegal_node (w : Word) (s : State) : (acceptIllegal w s).node = s.node := rfl
@[simp] theorem acceptIllegal_code (w : Word) (s : State) : (acceptIllegal w s).code = s.code := rfl
@[simp] theorem acceptIllegal_heap (w : Word) (s : State) : (acceptIllegal w s).heap = s.heap := rfl
@[simp] theorem acceptIllegal_dstack (w : Word) (s : State) : (acceptIllegal w s).dstack = s.dstack := rfl
@[simp] theorem acceptIllegal_phase (w : Word) (s : State) : (acceptIllegal w s).phase = .enter := rfl
@[simp] theorem acceptIllegal_unsent (w : Word) (s : State) : (acceptIllegal w s).unsent = [] := rfl
@[simp] theorem acceptIllegal_inp (w : Word) (s : State) : (acceptIllegal w s).inp = s.inp := rfl
@[simp] theorem acceptIllegal_out (w : Word) (s : State) : (acceptIllegal w s).out = s.out := rfl
@[simp] theorem acceptIllegal_host (w : Word) (s : State) : (acceptIllegal w s).host = s.host := rfl
@[simp] theorem acceptIllegal_grants (w : Word) (s : State) : (acceptIllegal w s).grants = s.grants := rfl
@[simp] theorem acceptIllegal_reply (w : Word) (s : State) : (acceptIllegal w s).reply = s.reply := rfl
@[simp] theorem acceptIllegal_draws (w : Word) (s : State) : (acceptIllegal w s).draws = s.draws := rfl

@[simp] theorem endRun_seq (s : State) : (endRun s).seq = .idle := rfl
@[simp] theorem endRun_cmd (s : State) : (endRun s).cmd = s.cmd := rfl
@[simp] theorem endRun_done (s : State) : (endRun s).done = s.done := rfl
@[simp] theorem endRun_err (s : State) : (endRun s).err = s.err := rfl
@[simp] theorem endRun_ovr (s : State) : (endRun s).ovr = s.ovr := rfl
@[simp] theorem endRun_freqV (s : State) : (endRun s).freqV = s.freqV := rfl
@[simp] theorem endRun_treeV (s : State) : (endRun s).treeV = s.treeV := rfl
@[simp] theorem endRun_codeV (s : State) : (endRun s).codeV = s.codeV := rfl
@[simp] theorem endRun_decState (s : State) : (endRun s).decState = s.decState := rfl
@[simp] theorem endRun_treeSrc (s : State) : (endRun s).treeSrc = s.treeSrc := rfl
@[simp] theorem endRun_errCode (s : State) : (endRun s).errCode = s.errCode := rfl
@[simp] theorem endRun_errInfo (s : State) : (endRun s).errInfo = s.errInfo := rfl
@[simp] theorem endRun_magic (s : State) : (endRun s).magic = s.magic := rfl
@[simp] theorem endRun_doneIe (s : State) : (endRun s).doneIe = s.doneIe := rfl
@[simp] theorem endRun_errIe (s : State) : (endRun s).errIe = s.errIe := rfl
@[simp] theorem endRun_doneIp (s : State) : (endRun s).doneIp = s.doneIp := rfl
@[simp] theorem endRun_errIp (s : State) : (endRun s).errIp = s.errIp := rfl
@[simp] theorem endRun_inCount (s : State) : (endRun s).inCount = s.inCount := rfl
@[simp] theorem endRun_root (s : State) : (endRun s).root = s.root := rfl
@[simp] theorem endRun_nodeCount (s : State) : (endRun s).nodeCount = s.nodeCount := rfl
@[simp] theorem endRun_leafCount (s : State) : (endRun s).leafCount = s.leafCount := rfl
@[simp] theorem endRun_walk (s : State) : (endRun s).walk = s.walk := rfl
@[simp] theorem endRun_hdrBits (s : State) : (endRun s).hdrBits = s.hdrBits := rfl
@[simp] theorem endRun_freq (s : State) : (endRun s).freq = s.freq := rfl
@[simp] theorem endRun_node (s : State) : (endRun s).node = s.node := rfl
@[simp] theorem endRun_code (s : State) : (endRun s).code = s.code := rfl
@[simp] theorem endRun_heap (s : State) : (endRun s).heap = [] := rfl
@[simp] theorem endRun_dstack (s : State) : (endRun s).dstack = [] := rfl
@[simp] theorem endRun_phase (s : State) : (endRun s).phase = .enter := rfl
@[simp] theorem endRun_unsent (s : State) : (endRun s).unsent = [] := rfl
@[simp] theorem endRun_inp (s : State) : (endRun s).inp = s.inp := rfl
@[simp] theorem endRun_out (s : State) : (endRun s).out = s.out := rfl
@[simp] theorem endRun_host (s : State) : (endRun s).host = s.host := rfl
@[simp] theorem endRun_grants (s : State) : (endRun s).grants = s.grants := rfl
@[simp] theorem endRun_reply (s : State) : (endRun s).reply = s.reply := rfl
@[simp] theorem endRun_draws (s : State) : (endRun s).draws = s.draws := rfl

@[simp] theorem complete_seq (s : State) : (complete s).seq = .idle := rfl
@[simp] theorem complete_cmd (s : State) : (complete s).cmd = s.cmd := rfl
@[simp] theorem complete_done (s : State) : (complete s).done = true := rfl
@[simp] theorem complete_err (s : State) : (complete s).err = s.err := rfl
@[simp] theorem complete_ovr (s : State) : (complete s).ovr = s.ovr := rfl
@[simp] theorem complete_freqV (s : State) : (complete s).freqV = s.freqV := rfl
@[simp] theorem complete_treeV (s : State) : (complete s).treeV = s.treeV := rfl
@[simp] theorem complete_codeV (s : State) : (complete s).codeV = s.codeV := rfl
@[simp] theorem complete_decState (s : State) : (complete s).decState = s.decState := rfl
@[simp] theorem complete_treeSrc (s : State) : (complete s).treeSrc = s.treeSrc := rfl
@[simp] theorem complete_errCode (s : State) : (complete s).errCode = s.errCode := rfl
@[simp] theorem complete_errInfo (s : State) : (complete s).errInfo = s.errInfo := rfl
@[simp] theorem complete_magic (s : State) : (complete s).magic = s.magic := rfl
@[simp] theorem complete_doneIe (s : State) : (complete s).doneIe = s.doneIe := rfl
@[simp] theorem complete_errIe (s : State) : (complete s).errIe = s.errIe := rfl
@[simp] theorem complete_doneIp (s : State) : (complete s).doneIp = true := rfl
@[simp] theorem complete_errIp (s : State) : (complete s).errIp = s.errIp := rfl
@[simp] theorem complete_inCount (s : State) : (complete s).inCount = s.inCount := rfl
@[simp] theorem complete_root (s : State) : (complete s).root = s.root := rfl
@[simp] theorem complete_nodeCount (s : State) : (complete s).nodeCount = s.nodeCount := rfl
@[simp] theorem complete_leafCount (s : State) : (complete s).leafCount = s.leafCount := rfl
@[simp] theorem complete_walk (s : State) : (complete s).walk = s.walk := rfl
@[simp] theorem complete_hdrBits (s : State) : (complete s).hdrBits = s.hdrBits := rfl
@[simp] theorem complete_freq (s : State) : (complete s).freq = s.freq := rfl
@[simp] theorem complete_node (s : State) : (complete s).node = s.node := rfl
@[simp] theorem complete_code (s : State) : (complete s).code = s.code := rfl
@[simp] theorem complete_heap (s : State) : (complete s).heap = [] := rfl
@[simp] theorem complete_dstack (s : State) : (complete s).dstack = [] := rfl
@[simp] theorem complete_phase (s : State) : (complete s).phase = .enter := rfl
@[simp] theorem complete_unsent (s : State) : (complete s).unsent = [] := rfl
@[simp] theorem complete_inp (s : State) : (complete s).inp = s.inp := rfl
@[simp] theorem complete_out (s : State) : (complete s).out = s.out := rfl
@[simp] theorem complete_host (s : State) : (complete s).host = s.host := rfl
@[simp] theorem complete_grants (s : State) : (complete s).grants = s.grants := rfl
@[simp] theorem complete_reply (s : State) : (complete s).reply = s.reply := rfl
@[simp] theorem complete_draws (s : State) : (complete s).draws = s.draws := rfl

@[simp] theorem raiseError_seq (e : ErrCode) (info : Word) (s : State) : (raiseError e info s).seq = .idle := rfl
@[simp] theorem raiseError_cmd (e : ErrCode) (info : Word) (s : State) : (raiseError e info s).cmd = s.cmd := rfl
@[simp] theorem raiseError_done (e : ErrCode) (info : Word) (s : State) : (raiseError e info s).done = s.done := rfl
@[simp] theorem raiseError_err (e : ErrCode) (info : Word) (s : State) : (raiseError e info s).err = true := rfl
@[simp] theorem raiseError_ovr (e : ErrCode) (info : Word) (s : State) : (raiseError e info s).ovr = s.ovr := rfl
@[simp] theorem raiseError_freqV (e : ErrCode) (info : Word) (s : State) : (raiseError e info s).freqV = s.freqV := rfl
@[simp] theorem raiseError_treeV (e : ErrCode) (info : Word) (s : State) : (raiseError e info s).treeV = s.treeV := rfl
@[simp] theorem raiseError_codeV (e : ErrCode) (info : Word) (s : State) : (raiseError e info s).codeV = s.codeV := rfl
@[simp] theorem raiseError_decState (e : ErrCode) (info : Word) (s : State) : (raiseError e info s).decState = s.decState := rfl
@[simp] theorem raiseError_treeSrc (e : ErrCode) (info : Word) (s : State) : (raiseError e info s).treeSrc = s.treeSrc := rfl
@[simp] theorem raiseError_errCode (e : ErrCode) (info : Word) (s : State) : (raiseError e info s).errCode = e := rfl
@[simp] theorem raiseError_errInfo (e : ErrCode) (info : Word) (s : State) : (raiseError e info s).errInfo = info := rfl
@[simp] theorem raiseError_magic (e : ErrCode) (info : Word) (s : State) : (raiseError e info s).magic = s.magic := rfl
@[simp] theorem raiseError_doneIe (e : ErrCode) (info : Word) (s : State) : (raiseError e info s).doneIe = s.doneIe := rfl
@[simp] theorem raiseError_errIe (e : ErrCode) (info : Word) (s : State) : (raiseError e info s).errIe = s.errIe := rfl
@[simp] theorem raiseError_doneIp (e : ErrCode) (info : Word) (s : State) : (raiseError e info s).doneIp = s.doneIp := rfl
@[simp] theorem raiseError_errIp (e : ErrCode) (info : Word) (s : State) : (raiseError e info s).errIp = true := rfl
@[simp] theorem raiseError_inCount (e : ErrCode) (info : Word) (s : State) : (raiseError e info s).inCount = s.inCount := rfl
@[simp] theorem raiseError_root (e : ErrCode) (info : Word) (s : State) : (raiseError e info s).root = s.root := rfl
@[simp] theorem raiseError_nodeCount (e : ErrCode) (info : Word) (s : State) : (raiseError e info s).nodeCount = s.nodeCount := rfl
@[simp] theorem raiseError_leafCount (e : ErrCode) (info : Word) (s : State) : (raiseError e info s).leafCount = s.leafCount := rfl
@[simp] theorem raiseError_walk (e : ErrCode) (info : Word) (s : State) : (raiseError e info s).walk = s.walk := rfl
@[simp] theorem raiseError_hdrBits (e : ErrCode) (info : Word) (s : State) : (raiseError e info s).hdrBits = s.hdrBits := rfl
@[simp] theorem raiseError_freq (e : ErrCode) (info : Word) (s : State) : (raiseError e info s).freq = s.freq := rfl
@[simp] theorem raiseError_node (e : ErrCode) (info : Word) (s : State) : (raiseError e info s).node = s.node := rfl
@[simp] theorem raiseError_code (e : ErrCode) (info : Word) (s : State) : (raiseError e info s).code = s.code := rfl
@[simp] theorem raiseError_heap (e : ErrCode) (info : Word) (s : State) : (raiseError e info s).heap = [] := rfl
@[simp] theorem raiseError_dstack (e : ErrCode) (info : Word) (s : State) : (raiseError e info s).dstack = [] := rfl
@[simp] theorem raiseError_phase (e : ErrCode) (info : Word) (s : State) : (raiseError e info s).phase = .enter := rfl
@[simp] theorem raiseError_unsent (e : ErrCode) (info : Word) (s : State) : (raiseError e info s).unsent = [] := rfl
@[simp] theorem raiseError_inp (e : ErrCode) (info : Word) (s : State) : (raiseError e info s).inp = s.inp := rfl
@[simp] theorem raiseError_out (e : ErrCode) (info : Word) (s : State) : (raiseError e info s).out = s.out := rfl
@[simp] theorem raiseError_host (e : ErrCode) (info : Word) (s : State) : (raiseError e info s).host = s.host := rfl
@[simp] theorem raiseError_grants (e : ErrCode) (info : Word) (s : State) : (raiseError e info s).grants = s.grants := rfl
@[simp] theorem raiseError_reply (e : ErrCode) (info : Word) (s : State) : (raiseError e info s).reply = s.reply := rfl
@[simp] theorem raiseError_draws (e : ErrCode) (info : Word) (s : State) : (raiseError e info s).draws = s.draws := rfl

@[simp] theorem drew_seq (n : Nat) (s : State) : (s.drew n).seq = s.seq := rfl
@[simp] theorem drew_cmd (n : Nat) (s : State) : (s.drew n).cmd = s.cmd := rfl
@[simp] theorem drew_done (n : Nat) (s : State) : (s.drew n).done = s.done := rfl
@[simp] theorem drew_err (n : Nat) (s : State) : (s.drew n).err = s.err := rfl
@[simp] theorem drew_ovr (n : Nat) (s : State) : (s.drew n).ovr = s.ovr := rfl
@[simp] theorem drew_freqV (n : Nat) (s : State) : (s.drew n).freqV = s.freqV := rfl
@[simp] theorem drew_treeV (n : Nat) (s : State) : (s.drew n).treeV = s.treeV := rfl
@[simp] theorem drew_codeV (n : Nat) (s : State) : (s.drew n).codeV = s.codeV := rfl
@[simp] theorem drew_decState (n : Nat) (s : State) : (s.drew n).decState = s.decState := rfl
@[simp] theorem drew_treeSrc (n : Nat) (s : State) : (s.drew n).treeSrc = s.treeSrc := rfl
@[simp] theorem drew_errCode (n : Nat) (s : State) : (s.drew n).errCode = s.errCode := rfl
@[simp] theorem drew_errInfo (n : Nat) (s : State) : (s.drew n).errInfo = s.errInfo := rfl
@[simp] theorem drew_magic (n : Nat) (s : State) : (s.drew n).magic = s.magic := rfl
@[simp] theorem drew_doneIe (n : Nat) (s : State) : (s.drew n).doneIe = s.doneIe := rfl
@[simp] theorem drew_errIe (n : Nat) (s : State) : (s.drew n).errIe = s.errIe := rfl
@[simp] theorem drew_doneIp (n : Nat) (s : State) : (s.drew n).doneIp = s.doneIp := rfl
@[simp] theorem drew_errIp (n : Nat) (s : State) : (s.drew n).errIp = s.errIp := rfl
@[simp] theorem drew_inCount (n : Nat) (s : State) : (s.drew n).inCount = s.inCount := rfl
@[simp] theorem drew_root (n : Nat) (s : State) : (s.drew n).root = s.root := rfl
@[simp] theorem drew_nodeCount (n : Nat) (s : State) : (s.drew n).nodeCount = s.nodeCount := rfl
@[simp] theorem drew_leafCount (n : Nat) (s : State) : (s.drew n).leafCount = s.leafCount := rfl
@[simp] theorem drew_walk (n : Nat) (s : State) : (s.drew n).walk = s.walk := rfl
@[simp] theorem drew_hdrBits (n : Nat) (s : State) : (s.drew n).hdrBits = s.hdrBits := rfl
@[simp] theorem drew_freq (n : Nat) (s : State) : (s.drew n).freq = s.freq := rfl
@[simp] theorem drew_node (n : Nat) (s : State) : (s.drew n).node = s.node := rfl
@[simp] theorem drew_code (n : Nat) (s : State) : (s.drew n).code = s.code := rfl
@[simp] theorem drew_heap (n : Nat) (s : State) : (s.drew n).heap = s.heap := rfl
@[simp] theorem drew_dstack (n : Nat) (s : State) : (s.drew n).dstack = s.dstack := rfl
@[simp] theorem drew_phase (n : Nat) (s : State) : (s.drew n).phase = s.phase := rfl
@[simp] theorem drew_unsent (n : Nat) (s : State) : (s.drew n).unsent = s.unsent := rfl
@[simp] theorem drew_inp (n : Nat) (s : State) : (s.drew n).inp = s.inp := rfl
@[simp] theorem drew_out (n : Nat) (s : State) : (s.drew n).out = s.out := rfl
@[simp] theorem drew_host (n : Nat) (s : State) : (s.drew n).host = s.host := rfl
@[simp] theorem drew_grants (n : Nat) (s : State) : (s.drew n).grants = s.grants := rfl
@[simp] theorem drew_reply (n : Nat) (s : State) : (s.drew n).reply = s.reply := rfl
@[simp] theorem drew_draws (n : Nat) (s : State) : (s.drew n).draws = s.draws + n := rfl

@[simp] theorem writeBits_seq (n v : Nat) (s : State) : (s.writeBits n v).seq = s.seq := rfl
@[simp] theorem writeBits_cmd (n v : Nat) (s : State) : (s.writeBits n v).cmd = s.cmd := rfl
@[simp] theorem writeBits_done (n v : Nat) (s : State) : (s.writeBits n v).done = s.done := rfl
@[simp] theorem writeBits_err (n v : Nat) (s : State) : (s.writeBits n v).err = s.err := rfl
@[simp] theorem writeBits_ovr (n v : Nat) (s : State) : (s.writeBits n v).ovr = s.ovr := rfl
@[simp] theorem writeBits_freqV (n v : Nat) (s : State) : (s.writeBits n v).freqV = s.freqV := rfl
@[simp] theorem writeBits_treeV (n v : Nat) (s : State) : (s.writeBits n v).treeV = s.treeV := rfl
@[simp] theorem writeBits_codeV (n v : Nat) (s : State) : (s.writeBits n v).codeV = s.codeV := rfl
@[simp] theorem writeBits_decState (n v : Nat) (s : State) : (s.writeBits n v).decState = s.decState := rfl
@[simp] theorem writeBits_treeSrc (n v : Nat) (s : State) : (s.writeBits n v).treeSrc = s.treeSrc := rfl
@[simp] theorem writeBits_errCode (n v : Nat) (s : State) : (s.writeBits n v).errCode = s.errCode := rfl
@[simp] theorem writeBits_errInfo (n v : Nat) (s : State) : (s.writeBits n v).errInfo = s.errInfo := rfl
@[simp] theorem writeBits_magic (n v : Nat) (s : State) : (s.writeBits n v).magic = s.magic := rfl
@[simp] theorem writeBits_doneIe (n v : Nat) (s : State) : (s.writeBits n v).doneIe = s.doneIe := rfl
@[simp] theorem writeBits_errIe (n v : Nat) (s : State) : (s.writeBits n v).errIe = s.errIe := rfl
@[simp] theorem writeBits_doneIp (n v : Nat) (s : State) : (s.writeBits n v).doneIp = s.doneIp := rfl
@[simp] theorem writeBits_errIp (n v : Nat) (s : State) : (s.writeBits n v).errIp = s.errIp := rfl
@[simp] theorem writeBits_inCount (n v : Nat) (s : State) : (s.writeBits n v).inCount = s.inCount := rfl
@[simp] theorem writeBits_root (n v : Nat) (s : State) : (s.writeBits n v).root = s.root := rfl
@[simp] theorem writeBits_nodeCount (n v : Nat) (s : State) : (s.writeBits n v).nodeCount = s.nodeCount := rfl
@[simp] theorem writeBits_leafCount (n v : Nat) (s : State) : (s.writeBits n v).leafCount = s.leafCount := rfl
@[simp] theorem writeBits_walk (n v : Nat) (s : State) : (s.writeBits n v).walk = s.walk := rfl
@[simp] theorem writeBits_hdrBits (n v : Nat) (s : State) : (s.writeBits n v).hdrBits = s.hdrBits := rfl
@[simp] theorem writeBits_freq (n v : Nat) (s : State) : (s.writeBits n v).freq = s.freq := rfl
@[simp] theorem writeBits_node (n v : Nat) (s : State) : (s.writeBits n v).node = s.node := rfl
@[simp] theorem writeBits_code (n v : Nat) (s : State) : (s.writeBits n v).code = s.code := rfl
@[simp] theorem writeBits_heap (n v : Nat) (s : State) : (s.writeBits n v).heap = s.heap := rfl
@[simp] theorem writeBits_dstack (n v : Nat) (s : State) : (s.writeBits n v).dstack = s.dstack := rfl
@[simp] theorem writeBits_phase (n v : Nat) (s : State) : (s.writeBits n v).phase = s.phase := rfl
@[simp] theorem writeBits_unsent (n v : Nat) (s : State) : (s.writeBits n v).unsent = s.unsent ++ natToBits n v := rfl
@[simp] theorem writeBits_inp (n v : Nat) (s : State) : (s.writeBits n v).inp = s.inp := rfl
@[simp] theorem writeBits_out (n v : Nat) (s : State) : (s.writeBits n v).out = s.out := rfl
@[simp] theorem writeBits_host (n v : Nat) (s : State) : (s.writeBits n v).host = s.host := rfl
@[simp] theorem writeBits_grants (n v : Nat) (s : State) : (s.writeBits n v).grants = s.grants := rfl
@[simp] theorem writeBits_reply (n v : Nat) (s : State) : (s.writeBits n v).reply = s.reply := rfl
@[simp] theorem writeBits_draws (n v : Nat) (s : State) : (s.writeBits n v).draws = s.draws := rfl

@[simp] theorem sendBit_seq (b : Bool) (rest : List Bool) (s : State) : (sendBit b rest s).seq = s.seq := rfl
@[simp] theorem sendBit_cmd (b : Bool) (rest : List Bool) (s : State) : (sendBit b rest s).cmd = s.cmd := rfl
@[simp] theorem sendBit_done (b : Bool) (rest : List Bool) (s : State) : (sendBit b rest s).done = s.done := rfl
@[simp] theorem sendBit_err (b : Bool) (rest : List Bool) (s : State) : (sendBit b rest s).err = s.err := rfl
@[simp] theorem sendBit_ovr (b : Bool) (rest : List Bool) (s : State) : (sendBit b rest s).ovr = s.ovr := rfl
@[simp] theorem sendBit_freqV (b : Bool) (rest : List Bool) (s : State) : (sendBit b rest s).freqV = s.freqV := rfl
@[simp] theorem sendBit_treeV (b : Bool) (rest : List Bool) (s : State) : (sendBit b rest s).treeV = s.treeV := rfl
@[simp] theorem sendBit_codeV (b : Bool) (rest : List Bool) (s : State) : (sendBit b rest s).codeV = s.codeV := rfl
@[simp] theorem sendBit_decState (b : Bool) (rest : List Bool) (s : State) : (sendBit b rest s).decState = s.decState := rfl
@[simp] theorem sendBit_treeSrc (b : Bool) (rest : List Bool) (s : State) : (sendBit b rest s).treeSrc = s.treeSrc := rfl
@[simp] theorem sendBit_errCode (b : Bool) (rest : List Bool) (s : State) : (sendBit b rest s).errCode = s.errCode := rfl
@[simp] theorem sendBit_errInfo (b : Bool) (rest : List Bool) (s : State) : (sendBit b rest s).errInfo = s.errInfo := rfl
@[simp] theorem sendBit_magic (b : Bool) (rest : List Bool) (s : State) : (sendBit b rest s).magic = s.magic := rfl
@[simp] theorem sendBit_doneIe (b : Bool) (rest : List Bool) (s : State) : (sendBit b rest s).doneIe = s.doneIe := rfl
@[simp] theorem sendBit_errIe (b : Bool) (rest : List Bool) (s : State) : (sendBit b rest s).errIe = s.errIe := rfl
@[simp] theorem sendBit_doneIp (b : Bool) (rest : List Bool) (s : State) : (sendBit b rest s).doneIp = s.doneIp := rfl
@[simp] theorem sendBit_errIp (b : Bool) (rest : List Bool) (s : State) : (sendBit b rest s).errIp = s.errIp := rfl
@[simp] theorem sendBit_inCount (b : Bool) (rest : List Bool) (s : State) : (sendBit b rest s).inCount = s.inCount := rfl
@[simp] theorem sendBit_root (b : Bool) (rest : List Bool) (s : State) : (sendBit b rest s).root = s.root := rfl
@[simp] theorem sendBit_nodeCount (b : Bool) (rest : List Bool) (s : State) : (sendBit b rest s).nodeCount = s.nodeCount := rfl
@[simp] theorem sendBit_leafCount (b : Bool) (rest : List Bool) (s : State) : (sendBit b rest s).leafCount = s.leafCount := rfl
@[simp] theorem sendBit_walk (b : Bool) (rest : List Bool) (s : State) : (sendBit b rest s).walk = s.walk := rfl
@[simp] theorem sendBit_hdrBits (b : Bool) (rest : List Bool) (s : State) : (sendBit b rest s).hdrBits = s.hdrBits := rfl
@[simp] theorem sendBit_freq (b : Bool) (rest : List Bool) (s : State) : (sendBit b rest s).freq = s.freq := rfl
@[simp] theorem sendBit_node (b : Bool) (rest : List Bool) (s : State) : (sendBit b rest s).node = s.node := rfl
@[simp] theorem sendBit_code (b : Bool) (rest : List Bool) (s : State) : (sendBit b rest s).code = s.code := rfl
@[simp] theorem sendBit_heap (b : Bool) (rest : List Bool) (s : State) : (sendBit b rest s).heap = s.heap := rfl
@[simp] theorem sendBit_dstack (b : Bool) (rest : List Bool) (s : State) : (sendBit b rest s).dstack = s.dstack := rfl
@[simp] theorem sendBit_phase (b : Bool) (rest : List Bool) (s : State) : (sendBit b rest s).phase = s.phase := rfl
@[simp] theorem sendBit_unsent (b : Bool) (rest : List Bool) (s : State) : (sendBit b rest s).unsent = rest := rfl
@[simp] theorem sendBit_inp (b : Bool) (rest : List Bool) (s : State) : (sendBit b rest s).inp = s.inp := rfl
@[simp] theorem sendBit_out (b : Bool) (rest : List Bool) (s : State) : (sendBit b rest s).out = s.out.writeBit b := rfl
@[simp] theorem sendBit_host (b : Bool) (rest : List Bool) (s : State) : (sendBit b rest s).host = s.host := rfl
@[simp] theorem sendBit_grants (b : Bool) (rest : List Bool) (s : State) : (sendBit b rest s).grants = s.grants := rfl
@[simp] theorem sendBit_reply (b : Bool) (rest : List Bool) (s : State) : (sendBit b rest s).reply = s.reply := rfl
@[simp] theorem sendBit_draws (b : Bool) (rest : List Bool) (s : State) : (sendBit b rest s).draws = s.draws := rfl

@[simp] theorem openBody_seq (s : State) : (openBody s).seq = s.seq := rfl
@[simp] theorem openBody_cmd (s : State) : (openBody s).cmd = s.cmd := rfl
@[simp] theorem openBody_done (s : State) : (openBody s).done = s.done := rfl
@[simp] theorem openBody_err (s : State) : (openBody s).err = s.err := rfl
@[simp] theorem openBody_ovr (s : State) : (openBody s).ovr = s.ovr := rfl
@[simp] theorem openBody_freqV (s : State) : (openBody s).freqV = s.freqV := rfl
@[simp] theorem openBody_treeV (s : State) : (openBody s).treeV = s.treeV := rfl
@[simp] theorem openBody_codeV (s : State) : (openBody s).codeV = s.codeV := rfl
@[simp] theorem openBody_decState (s : State) : (openBody s).decState = s.decState := rfl
@[simp] theorem openBody_treeSrc (s : State) : (openBody s).treeSrc = s.treeSrc := rfl
@[simp] theorem openBody_errCode (s : State) : (openBody s).errCode = s.errCode := rfl
@[simp] theorem openBody_errInfo (s : State) : (openBody s).errInfo = s.errInfo := rfl
@[simp] theorem openBody_magic (s : State) : (openBody s).magic = s.magic := rfl
@[simp] theorem openBody_doneIe (s : State) : (openBody s).doneIe = s.doneIe := rfl
@[simp] theorem openBody_errIe (s : State) : (openBody s).errIe = s.errIe := rfl
@[simp] theorem openBody_doneIp (s : State) : (openBody s).doneIp = s.doneIp := rfl
@[simp] theorem openBody_errIp (s : State) : (openBody s).errIp = s.errIp := rfl
@[simp] theorem openBody_inCount (s : State) : (openBody s).inCount = s.inCount := rfl
@[simp] theorem openBody_root (s : State) : (openBody s).root = s.root := rfl
@[simp] theorem openBody_nodeCount (s : State) : (openBody s).nodeCount = s.nodeCount := rfl
@[simp] theorem openBody_leafCount (s : State) : (openBody s).leafCount = s.leafCount := rfl
@[simp] theorem openBody_walk (s : State) : (openBody s).walk = s.walk := rfl
@[simp] theorem openBody_hdrBits (s : State) : (openBody s).hdrBits = s.hdrBits := rfl
@[simp] theorem openBody_freq (s : State) : (openBody s).freq = s.freq := rfl
@[simp] theorem openBody_node (s : State) : (openBody s).node = s.node := rfl
@[simp] theorem openBody_code (s : State) : (openBody s).code = s.code := rfl
@[simp] theorem openBody_heap (s : State) : (openBody s).heap = s.heap := rfl
@[simp] theorem openBody_dstack (s : State) : (openBody s).dstack = s.dstack := rfl
@[simp] theorem openBody_phase (s : State) : (openBody s).phase = s.phase := rfl
@[simp] theorem openBody_unsent (s : State) : (openBody s).unsent = s.unsent := rfl
@[simp] theorem openBody_inp (s : State) : (openBody s).inp = s.inp := rfl
@[simp] theorem openBody_out (s : State) : (openBody s).out = s.out.openOut := rfl
@[simp] theorem openBody_host (s : State) : (openBody s).host = s.host := rfl
@[simp] theorem openBody_grants (s : State) : (openBody s).grants = s.grants := rfl
@[simp] theorem openBody_reply (s : State) : (openBody s).reply = s.reply := rfl
@[simp] theorem openBody_draws (s : State) : (openBody s).draws = s.draws := rfl

@[simp] theorem clearBody_seq (s : State) : (clearBody s).seq = s.seq := rfl
@[simp] theorem clearBody_cmd (s : State) : (clearBody s).cmd = s.cmd := rfl
@[simp] theorem clearBody_done (s : State) : (clearBody s).done = s.done := rfl
@[simp] theorem clearBody_err (s : State) : (clearBody s).err = s.err := rfl
@[simp] theorem clearBody_ovr (s : State) : (clearBody s).ovr = false := rfl
@[simp] theorem clearBody_freqV (s : State) : (clearBody s).freqV = false := rfl
@[simp] theorem clearBody_treeV (s : State) : (clearBody s).treeV = false := rfl
@[simp] theorem clearBody_codeV (s : State) : (clearBody s).codeV = false := rfl
@[simp] theorem clearBody_decState (s : State) : (clearBody s).decState = .idle := rfl
@[simp] theorem clearBody_treeSrc (s : State) : (clearBody s).treeSrc = .build := rfl
@[simp] theorem clearBody_errCode (s : State) : (clearBody s).errCode = s.errCode := rfl
@[simp] theorem clearBody_errInfo (s : State) : (clearBody s).errInfo = s.errInfo := rfl
@[simp] theorem clearBody_magic (s : State) : (clearBody s).magic = s.magic := rfl
@[simp] theorem clearBody_doneIe (s : State) : (clearBody s).doneIe = s.doneIe := rfl
@[simp] theorem clearBody_errIe (s : State) : (clearBody s).errIe = s.errIe := rfl
@[simp] theorem clearBody_doneIp (s : State) : (clearBody s).doneIp = s.doneIp := rfl
@[simp] theorem clearBody_errIp (s : State) : (clearBody s).errIp = s.errIp := rfl
@[simp] theorem clearBody_inCount (s : State) : (clearBody s).inCount = 0#Config.cntW := rfl
@[simp] theorem clearBody_root (s : State) : (clearBody s).root = 0#Config.idxW := rfl
@[simp] theorem clearBody_nodeCount (s : State) : (clearBody s).nodeCount = 0#Config.idxW := rfl
@[simp] theorem clearBody_leafCount (s : State) : (clearBody s).leafCount = 0#9 := rfl
@[simp] theorem clearBody_walk (s : State) : (clearBody s).walk = 0#Config.idxW := rfl
@[simp] theorem clearBody_hdrBits (s : State) : (clearBody s).hdrBits = 0#32 := rfl
@[simp] theorem clearBody_freq (s : State) : (clearBody s).freq = [] := rfl
@[simp] theorem clearBody_node (s : State) : (clearBody s).node = [] := rfl
@[simp] theorem clearBody_code (s : State) : (clearBody s).code = [] := rfl
@[simp] theorem clearBody_heap (s : State) : (clearBody s).heap = s.heap := rfl
@[simp] theorem clearBody_dstack (s : State) : (clearBody s).dstack = s.dstack := rfl
@[simp] theorem clearBody_phase (s : State) : (clearBody s).phase = s.phase := rfl
@[simp] theorem clearBody_unsent (s : State) : (clearBody s).unsent = s.unsent := rfl
@[simp] theorem clearBody_inp (s : State) : (clearBody s).inp = s.inp.rewind := rfl
@[simp] theorem clearBody_out (s : State) : (clearBody s).out = s.out.openOut := rfl
@[simp] theorem clearBody_host (s : State) : (clearBody s).host = s.host := rfl
@[simp] theorem clearBody_grants (s : State) : (clearBody s).grants = s.grants := rfl
@[simp] theorem clearBody_reply (s : State) : (clearBody s).reply = s.reply := rfl
@[simp] theorem clearBody_draws (s : State) : (clearBody s).draws = s.draws := rfl

/-- A code is written as its bits (R94). -/
@[simp] theorem writeCode_eq (c : CodeEntry) (s : State) : writeCode c s = s.writeBits c.len.toNat c.bits.toNat := rfl

end Sys2Proof.Machine
end

