-- ==== Sys2Proof/Laws/Stages.lean ====
section
/-! SUPPORT. What one step of a stage can do: everything it can answer, and what it never touches. -/

namespace Sys2Proof.Machine

/-- The state a stage's step comes to, whatever the answer. -/
def StageResult.state : StageResult → State
  | .more s => s
  | .done s => s
  | .raise _ _ s => s

/-- What no stage of any command touches: SEQ, the lifecycle's registers, MAGIC, the interrupt registers, IN_DATA and the
environment (R19, R20, R35, R70). -/
def SameLifecycle (s t : State) : Prop :=
  t.seq = s.seq ∧ t.cmd = s.cmd ∧ t.done = s.done ∧ t.err = s.err ∧ t.errCode = s.errCode ∧ t.errInfo = s.errInfo ∧
  t.magic = s.magic ∧ t.doneIe = s.doneIe ∧ t.errIe = s.errIe ∧ t.doneIp = s.doneIp ∧ t.errIp = s.errIp ∧
  t.inp.data = s.inp.data ∧ t.host = s.host ∧ t.grants = s.grants ∧ t.reply = s.reply

theorem sameLifecycle_refl (s : State) : SameLifecycle s s :=
  ⟨rfl, rfl, rfl, rfl, rfl, rfl, rfl, rfl, rfl, rfl, rfl, rfl, rfl, rfl, rfl⟩

theorem readBits_data' {n : Nat} {p q : InPort} {r : ReadResult} (h : p.readBits n = (r, q)) : q.data = p.data := by
  have := readBits_data n p
  rwa [h] at this

/-- A stage's checks: the body, or an error that changes nothing (R71). -/
theorem checked_cases (stage : Instr) (s : State) (body : State → StageResult) :
    (precondition stage s = none ∧ checked stage s body = body s) ∨
    (∃ e, precondition stage s = some e ∧ checked stage s body = .raise e ((opcode stage).setWidth 32) s) := by
  unfold checked
  cases h : precondition stage s with
  | none => exact .inl ⟨rfl, rfl⟩
  | some e => exact .inr ⟨e, rfl, rfl⟩

theorem checked_same {stage : Instr} {s : State} {body : State → StageResult}
    (h : SameLifecycle s (body s).state) : SameLifecycle s (checked stage s body).state := by
  rcases checked_cases stage s body with ⟨-, h'⟩ | ⟨e, -, h'⟩ <;> rw [h']
  · exact h
  · exact sameLifecycle_refl s

/-- Closes `SameLifecycle s t` where `t` is `s` updated in fields SameLifecycle does not name, with IN_DATA kept. -/
theorem sameLifecycle_of {s t : State} (h : t.seq = s.seq ∧ t.cmd = s.cmd ∧ t.done = s.done ∧ t.err = s.err ∧
    t.errCode = s.errCode ∧ t.errInfo = s.errInfo ∧ t.magic = s.magic ∧ t.doneIe = s.doneIe ∧ t.errIe = s.errIe ∧
    t.doneIp = s.doneIp ∧ t.errIp = s.errIp ∧ t.host = s.host ∧ t.grants = s.grants ∧ t.reply = s.reply)
    (hd : t.inp.data = s.inp.data) : SameLifecycle s t := by
  obtain ⟨h1, h2, h3, h4, h5, h6, h7, h8, h9, h10, h11, h12, h13, h14⟩ := h
  exact ⟨h1, h2, h3, h4, h5, h6, h7, h8, h9, h10, h11, hd, h12, h13, h14⟩

theorem countIter_same (s : State) : SameLifecycle s (countIter s).state := by
  unfold countIter
  split
  · next p h => exact sameLifecycle_of (by simp [StageResult.state]) (readBits_data' h)
  · next p h => exact sameLifecycle_of (by simp [StageResult.state]) (readBits_data' h)
  · next v p h => split <;> exact sameLifecycle_of (by simp [StageResult.state]) (readBits_data' h)

theorem buildIter_same (L n : Nat) (s : State) : SameLifecycle s (buildIter L n s).state := by
  unfold buildIter
  repeat' split
  all_goals exact sameLifecycle_of (by simp [StageResult.state, buildFinish]) (by simp [StageResult.state, buildFinish])

theorem gencodeIter_same (s : State) : SameLifecycle s (gencodeIter s).state := by
  unfold gencodeIter
  split
  · exact sameLifecycle_of (by simp [StageResult.state]) rfl
  · dsimp only
    repeat' split
    all_goals exact sameLifecycle_of (by simp [StageResult.state]) rfl
  · exact sameLifecycle_of (by simp [StageResult.state]) rfl

theorem serializeIter_same (s : State) : SameLifecycle s (serializeIter s).state := by
  unfold serializeIter
  split
  · exact sameLifecycle_of (by simp [StageResult.state]) rfl
  · dsimp only
    split <;> exact sameLifecycle_of (by simp [StageResult.state]) rfl
  · exact sameLifecycle_of (by simp [StageResult.state]) rfl

theorem sameLifecycle_trans {s t u : State} (h : SameLifecycle s t) (k : SameLifecycle t u) : SameLifecycle s u := by
  obtain ⟨h1, h2, h3, h4, h5, h6, h7, h8, h9, h10, h11, h12, h13, h14, h15⟩ := h
  obtain ⟨k1, k2, k3, k4, k5, k6, k7, k8, k9, k10, k11, k12, k13, k14, k15⟩ := k
  exact ⟨k1.trans h1, k2.trans h2, k3.trans h3, k4.trans h4, k5.trans h5, k6.trans h6, k7.trans h7, k8.trans h8,
    k9.trans h9, k10.trans h10, k11.trans h11, k12.trans h12, k13.trans h13, k14.trans h14, k15.trans h15⟩

theorem deserializeRaise_same (e : ErrCode) (info : Word) (s : State) :
    SameLifecycle s (deserializeRaise e info s).state :=
  sameLifecycle_of (by simp [StageResult.state, deserializeRaise, treeUnspecified]) rfl

theorem deserializeLeaf_same (i : BitVec Config.idxW) (v : Nat) (s : State) : SameLifecycle s (deserializeLeaf i v s).state := by
  unfold deserializeLeaf
  dsimp only
  split <;> exact sameLifecycle_of (by simp [StageResult.state]) rfl

theorem deserializeField_same (i : BitVec Config.idxW) (s : State) : SameLifecycle s (deserializeField i s).state := by
  unfold deserializeField
  split
  · next p h =>
    exact sameLifecycle_trans (sameLifecycle_of (by simp) (readBits_data' h)) (deserializeRaise_same _ _ _)
  · next p h =>
    exact sameLifecycle_trans (sameLifecycle_of (by simp) (readBits_data' h)) (deserializeRaise_same _ _ _)
  · next v p h =>
    dsimp only
    split
    · exact sameLifecycle_trans (sameLifecycle_of (by simp) (readBits_data' h)) (deserializeRaise_same _ _ _)
    · exact sameLifecycle_trans (sameLifecycle_of (by simp) (readBits_data' h)) (deserializeLeaf_same _ _ _)

theorem deserializeIter_same (s : State) : SameLifecycle s (deserializeIter s).state := by
  unfold deserializeIter
  split
  · next p h =>
    exact sameLifecycle_trans (sameLifecycle_of (by simp) (readBits_data' h)) (deserializeRaise_same _ _ _)
  · next p h =>
    exact sameLifecycle_trans (sameLifecycle_of (by simp) (readBits_data' h)) (deserializeRaise_same _ _ _)
  · next b p h =>
    dsimp only
    split
    · exact sameLifecycle_trans (sameLifecycle_of (by simp) (readBits_data' h)) (deserializeRaise_same _ _ _)
    · split
      · exact sameLifecycle_of (by simp [StageResult.state]) (readBits_data' h)
      · exact sameLifecycle_of (by simp [StageResult.state, deserializeInternal]) (readBits_data' h)

theorem encbodyIter_same (s : State) : SameLifecycle s (encbodyIter s).state := by
  unfold encbodyIter
  split
  · next p h =>
    dsimp only
    split <;> exact sameLifecycle_of (by simp [StageResult.state]) (readBits_data' h)
  · next p h => exact sameLifecycle_of (by simp [StageResult.state]) (readBits_data' h)
  · next v p h =>
    dsimp only
    split <;> exact sameLifecycle_of (by simp [StageResult.state]) (readBits_data' h)

theorem rdmagicEnter_same (s : State) : SameLifecycle s (rdmagicEnter s).state := by
  unfold rdmagicEnter
  split
  · next p h => exact sameLifecycle_of (by simp [StageResult.state]) (readBits_data' h :)
  · next p h => exact sameLifecycle_of (by simp [StageResult.state]) (readBits_data' h :)
  · next v p h => split <;> exact sameLifecycle_of (by simp [StageResult.state]) (readBits_data' h :)

theorem decbodyAt_same (k : Nat) (i : BitVec Config.idxW) (s : State) : SameLifecycle s (decbodyAt k i s).state := by
  unfold decbodyAt
  dsimp only
  repeat' split
  all_goals exact sameLifecycle_of (by simp [StageResult.state]) rfl

theorem decbodyIter_same (k : Nat) (s : State) : SameLifecycle s (decbodyIter k s).state := by
  unfold decbodyIter
  split
  · next p h => exact sameLifecycle_of (by simp [StageResult.state]) (readBits_data' h)
  · next p h => exact sameLifecycle_of (by simp [StageResult.state]) (readBits_data' h)
  · next b p h =>
    exact sameLifecycle_trans (sameLifecycle_of (by simp) (readBits_data' h)) (decbodyAt_same _ _ _)

/-- Splits a stage's step at its arms: what every stage's pass has, `stageStep` has. -/
theorem stageStep_arms {P : Instr → State → StageResult → Prop} (ended : ∀ st s, P st s (.done s))
    (nop : ∀ s, P .nop s (.done s)) (clear : ∀ s, P .clear s (.done (clearBody s)))
    (opening : ∀ st s, P st s (.done (openBody s)))
    (countE : ∀ s, P .count s (countEnter s)) (countI : ∀ s, P .count s (countIter s))
    (buildI : ∀ L n s, P .build s (buildIter L n s)) (buildE : ∀ s, P .build s (buildEnter s))
    (gencodeE : ∀ s, P .gencode s (gencodeEnter s)) (gencodeI : ∀ s, P .gencode s (gencodeIter s))
    (wrmagic : ∀ s, P .wrmagic s (wrmagicEnter s))
    (serializeE : ∀ s, P .serialize s (serializeEnter s)) (serializeI : ∀ s, P .serialize s (serializeIter s))
    (encbodyE : ∀ s, P .encbody s (encbodyEnter s)) (encbodyI : ∀ s, P .encbody s (encbodyIter s))
    (close : ∀ s, P .close s (closeEnter s)) (rdmagic : ∀ s, P .rdmagic s (rdmagicEnter s))
    (deserializeE : ∀ s, P .deserialize s (deserializeEnter s))
    (deserializeF : ∀ i s, P .deserialize s (deserializeField i s))
    (deserializeI : ∀ s, P .deserialize s (deserializeIter s))
    (decbodyI : ∀ k s, P .decbody s (decbodyIter k s)) (decbodyE : ∀ s, P .decbody s (decbodyEnter s))
    (stage : Instr) (s : State) : P stage s (stageStep stage s) := by
  unfold stageStep
  split
  case h_1 => exact ended _ _
  case h_2 => exact nop _
  case h_3 => exact clear _
  case h_4 => exact opening _ _
  case h_5 => exact countE _
  case h_6 => exact countI _
  case h_7 => exact buildI _ _ _
  case h_8 => exact buildE _
  case h_9 => exact gencodeE _
  case h_10 => exact gencodeI _
  case h_11 => exact wrmagic _
  case h_12 => exact serializeE _
  case h_13 => exact serializeI _
  case h_14 => exact encbodyE _
  case h_15 => exact encbodyI _
  case h_16 => exact close _
  case h_17 => exact opening _ _
  case h_18 => exact rdmagic _
  case h_19 => exact deserializeE _
  case h_20 => exact deserializeF _ _
  case h_21 => exact deserializeI _
  case h_22 => exact decbodyI _ _
  case h_23 => exact decbodyE _
  case h_24 => exact opening _ _

/-- No step of any stage touches the lifecycle's registers, MAGIC, the interrupt registers, IN_DATA or the environment. -/
theorem stageStep_same (stage : Instr) (s : State) : SameLifecycle s (stageStep stage s).state := by
  refine stageStep_arms (P := fun _ s r => SameLifecycle s r.state) ?_ ?_ ?_ ?_ ?_ countIter_same buildIter_same ?_ ?_
    gencodeIter_same ?_ ?_ serializeIter_same ?_ encbodyIter_same ?_ rdmagicEnter_same ?_ deserializeField_same
    deserializeIter_same decbodyIter_same ?_ stage s
  · exact fun _ s => sameLifecycle_refl s
  · exact fun s => sameLifecycle_refl s
  · exact fun s => sameLifecycle_of (by simp [StageResult.state]) rfl
  · exact fun _ s => sameLifecycle_of (by simp [StageResult.state]) rfl
  · exact fun s => sameLifecycle_of (by simp [StageResult.state, countEnter]) rfl
  · exact fun s => checked_same (sameLifecycle_of (by simp [StageResult.state]) rfl)
  · exact fun s => checked_same (sameLifecycle_of (by simp [StageResult.state]) rfl)
  · exact fun s => checked_same (sameLifecycle_of (by simp [StageResult.state]) rfl)
  · exact fun s => checked_same (sameLifecycle_of (by simp [StageResult.state]) rfl)
  · exact fun s => checked_same (sameLifecycle_of (by simp [StageResult.state]) rfl)
  · exact fun s => checked_same (sameLifecycle_of (by simp [StageResult.state]) rfl)
  · exact fun s => sameLifecycle_of (by simp [StageResult.state, deserializeEnter]) rfl
  · intro s
    refine checked_same ?_
    dsimp only
    repeat' split
    all_goals exact sameLifecycle_of (by simp [StageResult.state]) rfl

/-! ## The bits a pass writes (R50) -/

/-- What a pass leaves under way: a raise nothing new, any other pass at most a code's bits, 511 by the width of LEN. -/
def Queued (s : State) : StageResult → Prop
  | .more t => ∃ bs, t.unsent = s.unsent ++ bs ∧ bs.length ≤ 511
  | .done t => ∃ bs, t.unsent = s.unsent ++ bs ∧ bs.length ≤ 511
  | .raise _ _ t => t.unsent = s.unsent

theorem queued_more {s t : State} (h : t.unsent = s.unsent) : Queued s (.more t) := ⟨[], by simp [h], by simp⟩

theorem queued_done {s t : State} (h : t.unsent = s.unsent) : Queued s (.done t) := ⟨[], by simp [h], by simp⟩

theorem queued_checked {stage : Instr} {s : State} {body : State → StageResult} (h : Queued s (body s)) :
    Queued s (checked stage s body) := by
  rcases checked_cases stage s body with ⟨-, h'⟩ | ⟨e, -, h'⟩ <;> rw [h']
  · exact h
  · rfl

theorem decbodyAt_queued (k : Nat) (i : BitVec Config.idxW) (s : State) : Queued s (decbodyAt k i s) := by
  unfold decbodyAt
  dsimp only
  split
  · split
    · exact queued_done rfl
    · exact ⟨_, rfl, by rw [natToBits_length]; decide⟩
  · exact queued_more rfl

/-- At most 511 bits are left under way by one pass of a stage, and none by a pass that raises. -/
theorem stageStep_queued (stage : Instr) (s : State) : Queued s (stageStep stage s) := by
  have code : ∀ (c : CodeEntry) (s : State), ∃ bs, (writeCode c s).unsent = s.unsent ++ bs ∧ bs.length ≤ 511 := fun c s =>
    ⟨_, rfl, by rw [natToBits_length]; omega⟩
  refine stageStep_arms (P := fun _ s r => Queued s r) ?_ ?_ ?_ ?_ ?_ ?_ ?_ ?_ ?_ ?_ ?_ ?_ ?_ ?_ ?_ ?_ ?_ ?_ ?_ ?_ ?_ ?_ stage s
  · exact fun _ s => queued_done rfl
  · exact fun s => queued_done rfl
  · exact fun s => queued_done rfl
  · exact fun _ s => queued_done rfl
  · exact fun s => queued_more rfl
  · intro s
    unfold countIter
    repeat' split
    exacts [queued_done rfl, rfl, rfl, queued_more rfl]
  · intro L n s
    unfold buildIter
    repeat' split
    exacts [queued_done rfl, queued_done rfl, queued_more rfl]
  · exact fun s => queued_checked (queued_more rfl)
  · exact fun s => queued_checked (queued_more rfl)
  · intro s
    unfold gencodeIter
    split
    · exact queued_done rfl
    · dsimp only
      repeat' split
      all_goals exact queued_more rfl
    · exact queued_more rfl
  · exact fun s => queued_checked ⟨_, rfl, by rw [natToBits_length]; decide⟩
  · exact fun s => queued_checked (queued_more rfl)
  · intro s
    unfold serializeIter
    split
    · exact queued_done rfl
    · dsimp only
      split
      · exact ⟨_, List.append_assoc _ _ _, by
          rw [List.length_append, natToBits_length, natToBits_length]; decide⟩
      · exact ⟨_, rfl, by rw [natToBits_length]; decide⟩
    · exact queued_more rfl
  · exact fun s => queued_checked (queued_more rfl)
  · intro s
    unfold encbodyIter
    split
    · dsimp only
      split
      · rfl
      · exact code _ _
    · rfl
    · dsimp only
      split
      · rfl
      · exact code _ _
  · exact fun s => queued_checked (queued_done rfl)
  · intro s
    unfold rdmagicEnter
    split
    · rfl
    · rfl
    · split
      · exact queued_done rfl
      · rfl
  · exact fun s => queued_more rfl
  · intro i s
    unfold deserializeField
    split
    · rfl
    · rfl
    · dsimp only
      split
      · rfl
      · unfold deserializeLeaf
        dsimp only
        split
        · exact queued_done rfl
        · exact queued_more rfl
  · intro s
    unfold deserializeIter
    split
    · rfl
    · rfl
    · dsimp only
      split
      · rfl
      · split
        · exact queued_more rfl
        · exact queued_more rfl
  · intro k s
    unfold decbodyIter
    split
    · rfl
    · rfl
    · exact decbodyAt_queued _ _ _
  · intro s
    refine queued_checked ?_
    dsimp only
    split
    · split
      · exact queued_done rfl
      · rfl
    · exact queued_more rfl

end Sys2Proof.Machine
end

