-- ==== Sys2Proof/Laws/Sequencer.lean ====
section
/-! SUPPORT. The sequencer: running for a number of steps, a pass of a stage with the bits it writes, running one stage, and a
command run to its end. -/

namespace Sys2Proof.Machine

theorem busy_running {s : State} {cmd stage : Instr} (h : s.seq = .running cmd stage) : s.busy = true := by
  simp [State.busy, h]

theorem busy_idle {s : State} (h : s.seq = .idle) : s.busy = false := by simp [State.busy, h]

theorem idle_of_not_busy {s : State} (h : s.busy = false) : s.seq = .idle := by simpa [State.busy] using h

/-- While BUSY = 1 a stage runs, or an illegal word is about to be rejected. -/
theorem busy_cases {s : State} (h : s.busy = true) : s.seq = .rejecting ∨ ∃ cmd stage, s.seq = .running cmd stage := by
  cases hs : s.seq with
  | idle => rw [busy_idle hs] at h; cases h
  | running c st => exact .inr ⟨c, st, rfl⟩
  | rejecting => exact .inl rfl

theorem runFor_idle (n : Nat) {s : State} (h : s.seq = .idle) : runFor n s = s := by
  cases n with
  | zero => rfl
  | succ n => simp [runFor, busy_idle h]

theorem runFor_busy (n : Nat) {s : State} (h : s.busy = true) : runFor (n + 1) s = runFor n (microStep s) := by
  simp [runFor, h]

/-- Running on is running further: where the host's moves land does not change what the sequencer does (R73). -/
theorem runFor_add (m n : Nat) (s : State) : runFor (m + n) s = runFor n (runFor m s) := by
  induction m generalizing s with
  | zero => simp [runFor]
  | succ m ih =>
    rw [Nat.add_right_comm]
    by_cases h : s.busy = true
    · simp [runFor, h, ih]
    · rw [Bool.not_eq_true] at h
      rw [runFor_idle _ (idle_of_not_busy h), runFor_idle _ (idle_of_not_busy h), runFor_idle _ (idle_of_not_busy h)]

/-- A run that has reached IDLE stays as it is. -/
theorem runFor_mono {m n : Nat} {s t : State} (h : runFor m s = t) (ht : t.seq = .idle) (hmn : m ≤ n) :
    runFor n s = t := by
  obtain ⟨k, rfl⟩ := Nat.exists_eq_add_of_le hmn
  rw [runFor_add, h, runFor_idle _ ht]

/-- Anything each step of a running command keeps, a run of it keeps. -/
theorem runFor_induction {P : State → Prop} (hstep : ∀ s, P s → s.busy = true → P (microStep s)) (n : Nat) {s : State}
    (h : P s) : P (runFor n s) := by
  induction n generalizing s with
  | zero => exact h
  | succ n ih =>
    simp only [runFor]
    split
    · next hb => exact ih (hstep s h hb)
    · exact h

/-- Everything a step of the sequencer can do while BUSY = 1: reject an illegal word, append a bit, or make a pass. -/
theorem microStep_cases {s : State} (h : s.busy = true) :
    (s.seq = .rejecting ∧ microStep s = raiseError .eIllegalCmd s.cmd s) ∨
    (∃ cmd stage, s.seq = .running cmd stage ∧
      ((∃ b rest, s.unsent = b :: rest ∧ microStep s = sendBit b rest s) ∨
        (s.unsent = [] ∧ microStep s = settle cmd stage (stageStep stage s)))) := by
  rcases busy_cases h with hq | ⟨c, st, hq⟩
  · exact .inl ⟨hq, by simp [microStep, hq]⟩
  · refine .inr ⟨c, st, hq, ?_⟩
    cases hu : s.unsent with
    | nil => exact .inr ⟨rfl, by simp [microStep, hq, hu]⟩
    | cons b rest => exact .inl ⟨b, rest, rfl, by simp [microStep, hq, hu]⟩

/-- With no bits under way the step is a pass. -/
theorem microStep_pass {s : State} {cmd stage : Instr} (h : s.seq = .running cmd stage) (hu : s.unsent = []) :
    microStep s = settle cmd stage (stageStep stage s) := by
  simp [microStep, h, hu]

/-! ## A pass with the bits it writes (R50) -/

/-- The bits under way appended, all of them. -/
def drain (s : State) : State := { s with out := s.out.push s.unsent, unsent := [] }

@[simp] theorem drain_unsent (s : State) : (drain s).unsent = [] := rfl

@[simp] theorem drain_seq (s : State) : (drain s).seq = s.seq := rfl

theorem drain_of_nil {s : State} (h : s.unsent = []) : drain s = s := by
  cases s
  simp only at h
  subst h
  rfl

/-- A run of bits and what goes on after it. -/
theorem runFor_drain {s : State} {cmd stage : Instr} (h : s.seq = .running cmd stage) (m : Nat) :
    runFor (s.unsent.length + m) s = runFor m (drain s) := by
  generalize hw : s.unsent = w
  induction w generalizing s with
  | nil => rw [drain_of_nil hw]; simp
  | cons b w ih =>
    have hm : microStep s = sendBit b w s := by simp [microStep, h, hw]
    rw [List.length_cons, Nat.add_right_comm, runFor_busy _ (busy_running h), hm, ih (s := sendBit b w s) h rfl]
    simp [drain, hw]

/-- A pass's result, its bits appended. -/
def StageResult.drained : StageResult → StageResult
  | .more s => .more (drain s)
  | .done s => .done (drain s)
  | .raise e info s => .raise e info (drain s)

/-- A pass of a stage with the bits it writes. -/
def passStep (stage : Instr) (s : State) : StageResult := (stageStep stage s).drained

/-- A pass that writes nothing. -/
theorem passStep_of {stage : Instr} {s : State} {r : StageResult} (h : stageStep stage s = r) (hu : r.state.unsent = []) :
    passStep stage s = r := by
  rw [passStep, h]
  cases r with
  | more t => exact congrArg StageResult.more (drain_of_nil hu)
  | done t => exact congrArg StageResult.done (drain_of_nil hu)
  | raise e i t => exact congrArg (StageResult.raise e i) (drain_of_nil hu)

/-- WriteBits(n, v) with no bits before it under way, once all its bits are appended (R50). -/
theorem drain_writeBits {s : State} (h : s.unsent = []) (n v : Nat) :
    drain (s.writeBits n v) = { s with out := s.out.push (natToBits n v) } := by
  cases s
  simp only at h
  subst h
  rfl

/-- The end of a stage whose bits are appended: the next stage, or complete(). -/
theorem settle_done {cmd stage : Instr} {t : State} (h : t.unsent = []) :
    settle cmd stage (.done t) = stageEnded cmd stage t := by
  simp [settle, h]

/-- The sequencer makes a pass in at most 513 steps: the pass, at most 511 bits, and the stage's end after them. -/
theorem runFor_pass {cmd stage : Instr} {s : State} (hs : s.seq = .running cmd stage) (hu : s.unsent = []) :
    ∃ k ≤ 513, ∀ m, runFor (k + m) s = runFor m (settle cmd stage (passStep stage s)) := by
  have hseq := (stageStep_same stage s).1
  have hq := stageStep_queued stage s
  have hstep : ∀ m, runFor (1 + m) s = runFor m (settle cmd stage (stageStep stage s)) := fun m => by
    rw [Nat.add_comm, runFor_busy _ (busy_running hs), microStep_pass hs hu]
  rw [passStep]
  cases hr : stageStep stage s with
  | more t =>
    rw [hr] at hstep hseq hq
    obtain ⟨bs, h1, h2⟩ := hq
    rw [hu, List.nil_append] at h1
    refine ⟨1 + t.unsent.length, by rw [h1]; omega, fun m => ?_⟩
    rw [Nat.add_assoc, hstep]
    exact runFor_drain (hseq.trans hs) m
  | raise e i t =>
    rw [hr] at hstep hq
    refine ⟨1, by omega, fun m => ?_⟩
    rw [hstep, StageResult.drained, drain_of_nil (hq.trans hu)]
  | done t =>
    rw [hr] at hstep hseq hq
    obtain ⟨bs, h1, h2⟩ := hq
    rw [hu, List.nil_append] at h1
    by_cases ht : t.unsent = []
    · exact ⟨1, by omega, fun m => by rw [hstep, StageResult.drained, drain_of_nil ht]⟩
    · refine ⟨1 + (t.unsent.length + 1), by rw [h1]; omega, fun m => ?_⟩
      rw [Nat.add_assoc, hstep]
      simp only [settle, if_neg ht, StageResult.drained, drain_unsent, if_true]
      generalize he : ({ t with phase := Phase.ended } : State) = u
      have hus : u.seq = .running cmd stage := by rw [← he]; exact hseq.trans hs
      have hud : drain u = { drain t with phase := .ended } := by rw [← he]; rfl
      have huu : u.unsent = t.unsent := by rw [← he]
      rw [← huu, Nat.add_assoc, runFor_drain hus, hud, Nat.add_comm 1 m,
        runFor_busy _ (busy_running (cmd := cmd) (stage := stage) (by exact hseq.trans hs))]
      congr 1
      have hst : stageStep stage { drain t with phase := .ended } = .done { drain t with phase := .ended } := by
        simp [stageStep]
      rw [microStep_pass (s := { drain t with phase := .ended }) (hseq.trans hs) rfl, hst, settle_done rfl, stageEnded,
        stageEnded]
      split <;> rfl

/-- At most `n` passes of one stage, up to its end or its error. -/
def stageRun (stage : Instr) : Nat → State → StageResult
  | 0, s => .more s
  | n + 1, s =>
    match passStep stage s with
    | .more s' => stageRun stage n s'
    | .done s' => .done s'
    | .raise e info s' => .raise e info s'

theorem stageRun_more {stage : Instr} {s s' : State} (n : Nat) (h : passStep stage s = .more s') :
    stageRun stage (n + 1) s = stageRun stage n s' := by
  simp [stageRun, h]

theorem stageRun_end {stage : Instr} {s : State} {r : StageResult} (n : Nat) (h : passStep stage s = r)
    (hr : ∀ s', r ≠ .more s') : stageRun stage (n + 1) s = r := by
  cases r with
  | more s' => exact absurd rfl (hr s')
  | done s' => simp [stageRun, h]
  | raise e i s' => simp [stageRun, h]

/-- A stage that comes to its end, or to an error, within `n` passes leaves the sequencer as `settle` says, with at least
the rest of the steps still to go. -/
theorem runFor_stageRun {cmd stage : Instr} {r : StageResult} (hr : ∀ s', r ≠ .more s') (n : Nat) {s : State}
    (hs : s.seq = .running cmd stage) (hu : s.unsent = []) (h : stageRun stage n s = r) :
    ∃ k ≤ 513 * n, ∀ m, runFor (k + m) s = runFor m (settle cmd stage r) := by
  induction n generalizing s with
  | zero => exact absurd h.symm (hr s)
  | succ n ih =>
    obtain ⟨k, hk, hrun⟩ := runFor_pass hs hu
    cases hst : passStep stage s with
    | more s' =>
      rw [stageRun_more n hst] at h
      have hseq := (stageStep_same stage s).1
      have h' : s'.seq = .running cmd stage ∧ s'.unsent = [] := by
        rw [passStep] at hst
        generalize stageStep stage s = x at hst hseq
        cases x with
        | more t => cases hst; exact ⟨hseq.trans hs, rfl⟩
        | done t => cases hst
        | raise e i t => cases hst
      obtain ⟨j, hj, hrun'⟩ := ih h'.1 h'.2 h
      refine ⟨k + j, by omega, fun m => ?_⟩
      rw [Nat.add_assoc, hrun, hst, ← hrun' m]
      rfl
    | done s' =>
      rw [stageRun_end n hst (by simp)] at h
      exact ⟨k, by omega, fun m => by rw [hrun, hst, h]⟩
    | raise e i s' =>
      rw [stageRun_end n hst (by simp)] at h
      exact ⟨k, by omega, fun m => by rw [hrun, hst, h]⟩

/-! ## Commands -/

theorem exec_eq_command (i : Instr) (s : State) : exec i s = .next (command i s) := by
  cases i <;> rfl

theorem command_busy (i : Instr) {s : State} (h : s.busy = true) : command i s = overrun s := by
  simp [command, h]

theorem command_ready (i : Instr) {s : State} (h : Ready s) :
    command i s = runFor (8192 * s.inp.data.length + 2097152) (accept i s) := by
  simp [command, busy_idle h.1, runTurn, h.2, stepBound]

/-- An illegal word, undisturbed (R62, R70). -/
theorem rejectWord_ready (w : Word) {s : State} (h : Ready s) :
    rejectWord w s = raiseError .eIllegalCmd w (acceptIllegal w s) := by
  have hm : runFor 1 (acceptIllegal w s) = raiseError .eIllegalCmd w (acceptIllegal w s) := rfl
  simp only [rejectWord, busy_idle h.1, runTurn, acceptIllegal_grants, h.2, Bool.false_eq_true, if_false]
  exact runFor_mono hm rfl (by simp only [stepBound]; omega)

theorem passStep_unsent {stage : Instr} {s : State} : (passStep stage s).state.unsent = [] := by
  rw [passStep]
  cases stageStep stage s <;> rfl

/-- However a stage's run comes out, no bits are left under way. -/
theorem stageRun_unsent {stage : Instr} (n : Nat) {s : State} {r : StageResult} (hu : s.unsent = [])
    (h : stageRun stage n s = r) : r.state.unsent = [] := by
  induction n generalizing s with
  | zero => rw [← h]; exact hu
  | succ n ih =>
    have hp := passStep_unsent (stage := stage) (s := s)
    rw [stageRun] at h
    cases hst : passStep stage s with
    | more s' => rw [hst] at h hp; exact ih hp h
    | done s' => rw [hst] at h hp; rw [← h]; exact hp
    | raise e i s' => rw [hst] at h hp; rw [← h]; exact hp

/-- A command of one stage, undisturbed, whose stage comes to its end. -/
theorem command_done {i : Instr} {s t : State} {n : Nat} (h : Ready s) (hl : nextStage i i = none)
    (hn : 513 * n ≤ 8192 * s.inp.data.length + 2097152) (hr : stageRun i n (accept i s) = .done t) :
    command i s = complete t := by
  obtain ⟨k, hk, hrun⟩ := runFor_stageRun (cmd := i) (by simp) n rfl rfl hr
  rw [command_ready i h]
  have := hrun 0
  rw [settle_done (t := t) (stageRun_unsent n rfl hr)] at this
  simp only [Nat.add_zero, stageEnded, hl, runFor] at this
  exact runFor_mono this rfl (by omega)

/-- A command of one stage, undisturbed, whose stage comes to an error. -/
theorem command_raise {i : Instr} {s t : State} {e : ErrCode} {info : Word} {n : Nat} (h : Ready s)
    (hn : 513 * n ≤ 8192 * s.inp.data.length + 2097152) (hr : stageRun i n (accept i s) = .raise e info t) :
    command i s = raiseError e info t := by
  obtain ⟨k, hk, hrun⟩ := runFor_stageRun (cmd := i) (by simp) n rfl rfl hr
  rw [command_ready i h]
  have := hrun 0
  simp only [Nat.add_zero, settle, runFor] at this
  exact runFor_mono this rfl (by omega)

/-- A command of one stage whose stage's first pass is its last. -/
theorem command_done_at_once {i : Instr} {s t : State} (h : Ready s) (hl : nextStage i i = none)
    (hr : passStep i (accept i s) = .done t) : command i s = complete t :=
  command_done (n := 1) h hl (by omega) (stageRun_end 0 hr (by simp))

/-- A command whose stage's first pass raises. -/
theorem command_raise_at_once {i : Instr} {s t : State} {e : ErrCode} {info : Word} (h : Ready s)
    (hr : passStep i (accept i s) = .raise e info t) : command i s = raiseError e info t :=
  command_raise (n := 1) h (by omega) (stageRun_end 0 hr (by simp))

end Sys2Proof.Machine
end

