-- ==== Sys2Proof/Laws/Trees.lean ====
section
/-! SUPPORT. Huffman trees as data: sizes, depths, headers and paths (R65, R85 to R87). -/

namespace Sys2Proof.Machine

/-- Longest path of a tree. -/
def HTree.depth : HTree → Nat
  | .leaf _ => 0
  | .node l r => max l.depth r.depth + 1

/-- Leaves of a tree. -/
def HTree.leaves (T : HTree) : Nat := T.syms.length

/-- A full tree has one record less than twice its leaves (R30 d). -/
theorem HTree.size_eq (T : HTree) : T.size + 1 = 2 * T.leaves := by
  induction T with
  | leaf v => rfl
  | node l r hl hr =>
    have : (HTree.node l r).leaves = l.leaves + r.leaves := by simp [HTree.leaves, HTree.syms]
    rw [this, HTree.size]
    omega

theorem HTree.leaves_pos (T : HTree) : 0 < T.leaves := by
  have := T.size_eq
  omega

/-- A tree's depth is less than its leaves (R87). -/
theorem HTree.depth_lt_leaves (T : HTree) : T.depth < T.leaves := by
  induction T with
  | leaf v => exact Nat.zero_lt_one
  | node l r hl hr =>
    have : (HTree.node l r).leaves = l.leaves + r.leaves := by simp [HTree.leaves, HTree.syms]
    rw [this, HTree.depth]
    omega

/-- A tree that fits NODE is at most 256 deep (R87). -/
theorem HTree.depth_le (T : HTree) (h : T.size ≤ 513) : T.depth ≤ 256 := by
  have := T.size_eq
  have := T.depth_lt_leaves
  omega

/-- The header is 10 bits a leaf and 1 bit an internal node (R65). -/
theorem HTree.header_length (T : HTree) : T.header.length + 1 = 11 * T.leaves := by
  induction T with
  | leaf v => simp [HTree.header, HTree.leaves, HTree.syms, Config.leafBits]
  | node l r hl hr =>
    have : (HTree.node l r).leaves = l.leaves + r.leaves := by simp [HTree.leaves, HTree.syms]
    rw [this]
    simp only [HTree.header, List.length_cons, List.length_append]
    omega

/-- The symbols of the paths are the symbols of the leaves, in order. -/
theorem HTree.paths_fst (T : HTree) : T.paths.map Prod.fst = T.syms := by
  induction T with
  | leaf v => rfl
  | node l r hl hr => simp [HTree.paths, HTree.syms, ← hl, ← hr, Function.comp_def]

theorem HTree.paths_length_le (T : HTree) : ∀ p ∈ T.paths, p.2.length ≤ T.depth := by
  induction T with
  | leaf v => simp [HTree.paths]
  | node l r hl hr =>
    intro p hp
    simp only [HTree.paths, List.mem_append, List.mem_map] at hp
    simp only [HTree.depth]
    rcases hp with ⟨q, hq, rfl⟩ | ⟨q, hq, rfl⟩
    · have := hl q hq; simp; omega
    · have := hr q hq; simp; omega

/-- Every path of a tree with an internal root has at least one bit. -/
theorem HTree.paths_ne_nil {l r : HTree} : ∀ p ∈ (HTree.node l r).paths, p.2 ≠ [] := by
  intro p hp
  simp only [HTree.paths, List.mem_append, List.mem_map] at hp
  rcases hp with ⟨q, -, rfl⟩ | ⟨q, -, rfl⟩ <;> simp

/-- No path is a prefix of another leaf's path (R86 b): of two paths of a tree, one a prefix of the other, both are the
same leaf's. -/
theorem HTree.paths_prefix (T : HTree) : ∀ p ∈ T.paths, ∀ q ∈ T.paths, p.2 <+: q.2 → p = q := by
  induction T with
  | leaf v => simp [HTree.paths]
  | node l r hl hr =>
    intro p hp q hq h
    simp only [HTree.paths, List.mem_append, List.mem_map] at hp hq
    rcases hp with ⟨a, ha, rfl⟩ | ⟨a, ha, rfl⟩ <;> rcases hq with ⟨b, hb, rfl⟩ | ⟨b, hb, rfl⟩ <;>
      simp only [List.cons_prefix_cons, false_and, true_and, Bool.true_eq_false, Bool.false_eq_true] at h
    · rw [hl a ha b hb h]
    · rw [hr a ha b hb h]

/-- The code of a symbol is a path of one of its leaves. -/
theorem HTree.code_mem {T : HTree} {v : Nat} {c : List Bool} (h : T.code v = some c) : (v, c) ∈ T.paths ∧ c ≠ [] := by
  have := List.mem_of_getLast? h
  simp only [List.mem_map, List.mem_filter, Bool.and_eq_true, beq_iff_eq, bne_iff_ne] at this
  obtain ⟨⟨w, d⟩, ⟨hm, rfl, hd⟩, rfl⟩ := this
  exact ⟨hm, hd⟩

/-- Below an internal root every symbol with a leaf has a code. -/
theorem HTree.code_isSome {l r : HTree} {v : Nat} (h : v ∈ (HTree.node l r).syms) :
    ∃ c, (HTree.node l r).code v = some c := by
  rw [← HTree.paths_fst, List.mem_map] at h
  obtain ⟨p, hp, rfl⟩ := h
  have : p.2 ∈ (((HTree.node l r).paths.filter fun q => q.1 == p.1 && q.2 != []).map Prod.snd) := by
    refine List.mem_map.2 ⟨p, List.mem_filter.2 ⟨hp, ?_⟩, rfl⟩
    simpa using HTree.paths_ne_nil p hp
  cases hc : (HTree.node l r).code p.1 with
  | some c => exact ⟨c, rfl⟩
  | none =>
    rw [HTree.code, List.getLast?_eq_none_iff] at hc
    rw [hc] at this
    cases this

/-! ## Trees in NODE -/

/-- `treeAt` at a leaf. -/
theorem treeAt_leaf {t : Table NodeRec} {v i : Nat} (h : treeAt t (.leaf v) i = true) :
    (nodeIn t i).leaf = true ∧ (nodeIn t i).value.toNat = v := by
  simpa [treeAt] using h

/-- `treeAt` at an internal node. -/
theorem treeAt_node {t : Table NodeRec} {l r : HTree} {i : Nat} (h : treeAt t (.node l r) i = true) :
    (nodeIn t i).leaf = false ∧ treeAt t l (nodeIn t i).left.toNat = true ∧ treeAt t r (nodeIn t i).right.toNat = true := by
  simpa [treeAt, and_assoc] using h

/-- Every symbol of a tree in NODE fits the 9-bit VALUE field. -/
theorem treeAt_syms_lt {t : Table NodeRec} {T : HTree} {i : Nat} (h : treeAt t T i = true) : ∀ v ∈ T.syms, v < 512 := by
  induction T generalizing i with
  | leaf v =>
    intro w hw
    simp only [HTree.syms, List.mem_singleton] at hw
    rw [hw, ← (treeAt_leaf h).2]
    exact (nodeIn t i).value.isLt
  | node l r hl hr =>
    obtain ⟨-, h1, h2⟩ := treeAt_node h
    intro w hw
    rcases List.mem_append.1 hw with hw | hw
    · exact hl h1 w hw
    · exact hr h2 w hw

/-- The tree at an index is determined by NODE. -/
theorem treeAt_unique {t : Table NodeRec} {T U : HTree} {i : Nat} (h : treeAt t T i = true) (k : treeAt t U i = true) :
    T = U := by
  induction T generalizing U i with
  | leaf v =>
    cases U with
    | leaf w => rw [← (treeAt_leaf h).2, ← (treeAt_leaf k).2]
    | node l r => have := (treeAt_leaf h).1; rw [(treeAt_node k).1] at this; cases this
  | node l r hl hr =>
    cases U with
    | leaf w => have := (treeAt_leaf k).1; rw [(treeAt_node h).1] at this; cases this
    | node l' r' =>
      rw [hl (treeAt_node h).2.1 (treeAt_node k).2.1, hr (treeAt_node h).2.2 (treeAt_node k).2.2]

/-! ## DSTACK (R33) -/

/-- Entries that DSTACK has room for stand on it in front of the others. -/
theorem pushFrames_of_le {fs st : List Frame} (h : fs.length + st.length ≤ 257) : pushFrames fs st = fs ++ st := by
  rw [pushFrames, List.take_of_length_le]
  simpa [Config.dstackCap] using h

/-- DSTACK never holds more than 257 entries (R33). -/
theorem pushFrames_length (fs st : List Frame) : (pushFrames fs st).length ≤ 257 := by
  simp [pushFrames, Config.dstackCap]

end Sys2Proof.Machine
end

