-- ==== Sys2Proof/Laws/CodeTable.lean ====
section
/-! SUPPORT. GENCODE (R85 to R89) over a tree in NODE: the code table it leaves. -/

namespace Sys2Proof.Machine

/-- One binding of Visit (R85): a path of no bits binds nothing. -/
def bindPath (c : Table CodeEntry) (p : Nat × List Bool) : Table CodeEntry :=
  if p.2 = [] then c else tableSet Config.nsym c p.1 (entryOf (some p.2))

/-- What the bindings of a list of paths leave for a symbol: the last one's, if there is one. -/
theorem tableGet_bindAll (ps : List (Nat × List Bool)) (c : Table CodeEntry) (v : Nat) (hv : v < 257) :
    tableGet (ps.foldl bindPath c) v =
      match ((ps.filter fun p => p.1 == v && p.2 != []).map Prod.snd).getLast? with
      | some q => some (entryOf (some q))
      | none => tableGet c v := by
  induction ps using List.reverseRecOn with
  | nil => rfl
  | append_singleton ps p ih =>
    rw [List.foldl_append, List.foldl_cons, List.foldl_nil, List.filter_append, List.map_append]
    by_cases hp : (p.1 == v && p.2 != []) = true
    · rw [List.filter_cons_of_pos (by simpa using hp)]
      simp only [Bool.and_eq_true, beq_iff_eq, bne_iff_ne] at hp
      simp [bindPath, hp.2, hp.1, tableGet_set_same _ _ (show v < Config.nsym from hv)]
    · rw [List.filter_cons_of_neg (by simpa using hp)]
      simp only [List.filter_nil, List.map_nil, List.append_nil, ← ih]
      simp only [Bool.and_eq_true, beq_iff_eq, bne_iff_ne, not_and, Decidable.not_not] at hp
      unfold bindPath
      split
      · rfl
      · next h2 => exact tableGet_set_ne _ _ _ fun h => h2 (hp h.symm)

theorem stageStep_gencode_body {s : State} (h : s.phase = .body) : stageStep .gencode s = gencodeIter s := by
  simp [stageStep, h]

theorem shift_len (p : List Bool) (b : Bool) :
    BitVec.ofNat 9 p.length + 1#9 = BitVec.ofNat 9 (p ++ [b]).length := by
  apply BitVec.eq_of_toNat_eq; simp

theorem shift_bits_false (p : List Bool) :
    BitVec.ofNat 256 (bitsToNat p) <<< 1 = BitVec.ofNat 256 (bitsToNat (p ++ [false])) := by
  rw [bitsToNat_append]
  apply BitVec.eq_of_toNat_eq
  simp [bitsToNat, Nat.shiftLeft_eq]

theorem shift_bits_true (p : List Bool) :
    BitVec.ofNat 256 (bitsToNat p) <<< 1 ||| 1#256 = BitVec.ofNat 256 (bitsToNat (p ++ [true])) := by
  have h : BitVec.ofNat 256 (bitsToNat p) <<< 1 ||| 1#256 = BitVec.ofNat 256 (bitsToNat p) <<< 1 + 1#256 := by
    rw [eq_comm]
    apply BitVec.add_eq_or_of_and_eq_zero
    apply BitVec.eq_of_getLsbD_eq
    intro i hi
    cases i <;> simp
  rw [h, bitsToNat_append]
  apply BitVec.eq_of_toNat_eq
  simp [bitsToNat, Nat.shiftLeft_eq]

/-- Visit of one subtree: it binds the subtree's paths, each after the path `p` to the subtree, and leaves the rest of
DSTACK as it was (R85). -/
theorem gencode_visit (T : HTree) (s : State) (i : BitVec 10) (p : List Bool) (rest : List Frame) (n : Nat)
    (hp : s.phase = .body) (hu : s.unsent = []) (hT : treeAt s.node T i.toNat = true) (hd : p.length + T.depth ≤ 256)
    (hk : rest.length + T.depth ≤ 256) (hs : s.dstack = .visit i (BitVec.ofNat 9 p.length) (BitVec.ofNat 256 (bitsToNat p)) :: rest) :
    stageRun .gencode (T.size + n) s =
      stageRun .gencode n { s with
        dstack := rest, code := (T.paths.map fun q => (q.1, p ++ q.2)).foldl bindPath s.code } := by
  induction T generalizing s i p rest n with
  | leaf v =>
    obtain ⟨h1, h2⟩ := treeAt_leaf hT
    rw [HTree.size, Nat.add_comm]
    refine stageRun_more n (passStep_of ?_ hu)
    rw [stageStep_gencode_body hp, gencodeIter, hs]
    dsimp only
    rw [if_pos (show (nodeAt s i.toNat).leaf = true from h1), show (nodeAt s i.toNat).value.toNat = v from h2]
    simp only [HTree.paths, List.map_cons, List.map_nil, List.foldl_cons, List.foldl_nil, bindPath, List.append_nil]
    by_cases hl : p = []
    · simp [hl]
    · have : BitVec.ofNat 9 p.length ≠ 0#9 := by
        intro h
        have h' := congrArg BitVec.toNat h
        simp only [BitVec.toNat_ofNat] at h'
        have := List.length_pos_iff.2 hl
        omega
      rw [if_neg this, if_neg hl]
      rfl
  | node l r hl hr =>
    obtain ⟨h1, h2, h3⟩ := treeAt_node hT
    simp only [HTree.depth] at hd hk
    rw [HTree.size, show l.size + r.size + 1 + n = (l.size + (r.size + n)) + 1 by omega]
    rw [stageRun_more (s' := { s with
        dstack := .visit (nodeAt s i.toNat).left (BitVec.ofNat 9 (p ++ [false]).length) (BitVec.ofNat 256 (bitsToNat (p ++ [false]))) ::
          .visit (nodeAt s i.toNat).right (BitVec.ofNat 9 (p ++ [true]).length) (BitVec.ofNat 256 (bitsToNat (p ++ [true]))) :: rest })]
    · generalize hs1 : ({ s with dstack := _ } : State) = s1
      rw [hl s1 (nodeAt s i.toNat).left (p ++ [false]) (.visit (nodeAt s i.toNat).right _ _ :: rest) _
        (by rw [← hs1]; exact hp) (by rw [← hs1]; exact hu) (by rw [← hs1]; exact h2) (by simp; omega)
        (by rw [List.length_cons]; omega) (by rw [← hs1])]
      generalize hs2 : ({ s1 with dstack := _, code := _ } : State) = s2
      rw [hr s2 (nodeAt s i.toNat).right (p ++ [true]) rest _
        (by rw [← hs2, ← hs1]; exact hp) (by rw [← hs2, ← hs1]; exact hu) (by rw [← hs2, ← hs1]; exact h3) (by simp; omega)
        (by omega) (by rw [← hs2])]
      simp [← hs2, ← hs1, HTree.paths, Function.comp_def]
    · refine passStep_of ?_ hu
      rw [stageStep_gencode_body hp, gencodeIter, hs]
      dsimp only
      rw [if_neg (show ¬ (nodeAt s i.toNat).leaf = true by simpa [nodeAt] using h1),
        pushFrames_of_le (by simp only [List.length_cons, List.length_nil]; omega)]
      rw [← shift_len, ← shift_len, ← shift_bits_false, ← shift_bits_true]
      rfl

/-- The code table of a tree (R85): what Visit leaves. -/
def codeTable (T : HTree) : Table CodeEntry := T.paths.foldl bindPath codeInit

theorem tableGet_codeTable (T : HTree) (v : Nat) (hv : v < 257) :
    tableGet (codeTable T) v = some (entryOf (T.code v)) := by
  rw [codeTable, tableGet_bindAll _ _ _ hv, tableGet_codeInit, if_pos hv, HTree.code]
  split
  · next h => rw [h]
  · next h => rw [h]; rfl

theorem codeTable_wf (T : HTree) : tableWf Config.nsym (codeTable T) = true := by
  rw [codeTable]
  generalize T.paths = ps
  induction ps using List.reverseRecOn with
  | nil => exact codeInit_wf
  | append_singleton ps p ih =>
    rw [List.foldl_append, List.foldl_cons, List.foldl_nil, bindPath]
    split
    · exact ih
    · exact tableSet_wf _ _ _ ih

/-- GENCODE over the tree at ROOT (R85). -/
theorem gencode_stage (s : State) (T : HTree) (hp : s.phase = .enter) (hu : s.unsent = []) (hv : s.treeV = true)
    (hz : T.size ≤ 513) (hT : treeAt s.node T s.root.toNat = true) :
    stageRun .gencode (T.size + 2) s = .done { s with codeV := true, code := codeTable T, dstack := [], phase := .body } := by
  have hd := T.depth_le hz
  rw [stageRun_more (T.size + 1) (s' := { s with codeV := false, code := codeInit, dstack := [.visit s.root 0#9 0#256], phase := .body })]
  · generalize hs1 : ({ s with codeV := _, code := _, dstack := _, phase := _ } : State) = s1
    rw [gencode_visit T s1 s.root [] [] 1 (by rw [← hs1]) (by rw [← hs1]; exact hu) (by rw [← hs1]; exact hT)
      (by simpa using hd) (by simpa using hd) (by rw [← hs1]; rfl), ← hs1]
    refine stageRun_end 0 (passStep_of ?_ hu) (by simp)
    simp [stageStep, gencodeIter, codeTable]
  · refine passStep_of ?_ hu
    simp [stageStep, hp, gencodeEnter, checked, precondition, hv]

/-- The bit string of an entry made from a path of at most 256 bits is that path (R31). -/
theorem codeBits_entryOf (c : List Bool) (h : c.length ≤ 256) : codeBits (entryOf (some c)) = c := by
  have h1 := bitsToNat_lt c
  have h2 : bitsToNat c < 2 ^ 256 := lt_of_lt_of_le h1 (Nat.pow_le_pow_right (by decide) h)
  have h3 : c.length % 2 ^ 9 = c.length := Nat.mod_eq_of_lt (by omega)
  simp only [codeBits, entryOf, BitVec.toNat_ofNat, Nat.mod_eq_of_lt h2, h3]
  exact natToBits_bitsToNat c

end Sys2Proof.Machine
end

