-- ==== Sys2Proof/Laws/Count.lean ====
section
/-! SUPPORT. The Frequency Counter (R77, R78): the state of COUNT's loop after k bytes, and each way the loop goes on or
ends from it. -/

namespace Sys2Proof.Machine

theorem take_streamOf (data : List Byte) (k : Nat) (h : k < data.length) :
    ((streamOf data).drop (8 * k)).take 8 = byteBits data[k] := by
  induction data generalizing k with
  | nil => simp at h
  | cons b bs ih =>
    cases k with
    | zero => simp [byteBits_length]
    | succ k =>
      rw [streamOf_cons, show 8 * (k + 1) = (byteBits b).length + 8 * k by rw [byteBits_length]; omega,
        List.drop_append, List.drop_eq_nil_of_le (by omega)]
      simpa using ih k (by simpa using h)

/-- ReadBits(8) at a byte boundary answers the byte there (R47, R48). -/
theorem readBits_byte (p : InPort) (k : Nat) (hp : p.pos.toNat = 8 * k) (hk : k < p.data.length)
    (hd : p.ioDraws.headD false = false) :
    p.readBits 8 = (.val p.data[k].toNat, { p with pos := p.pos + 8#40, ioDraws := p.ioDraws.tail }) := by
  rw [readBits_val 8 p hd (by omega), inRest, hp, take_streamOf _ _ hk, byteBits, bitsToNat_natToBits,
    Nat.mod_eq_of_lt (p.data[k].isLt)]

theorem tableGet_freqOf (bytes : List Byte) (i : Nat) :
    tableGet (freqOf bytes) i =
      if i < 256 then some (BitVec.ofNat 32 (bytes.count (BitVec.ofNat 8 i)))
      else if i = 256 then some 1#32 else none := by
  rw [freqOf, List.range_eq_range', tableGet_range']
  simp only [Config.alphSize, Config.pseudoEof, tableGet, Nat.zero_le, true_and, Nat.zero_add]
  split
  · rfl
  · simp only [eq_comm]

theorem freqOf_wf (bytes : List Byte) : tableWf Config.nsym (freqOf bytes) = true := by
  rw [tableWf, freqOf, List.range_eq_range']
  exact tableWfFrom_range' _ _ _ (by decide) (by decide)

theorem freqOf_nil : freqOf [] = countInit := by
  simp [freqOf, countInit]

/-- Counting one byte more (R77). -/
theorem freqOf_snoc (bytes : List Byte) (b : Byte) :
    freqOf (bytes ++ [b]) =
      tableSet Config.nsym (freqOf bytes) b.toNat (((tableGet (freqOf bytes) b.toNat).getD (Config.freeFreq b.toNat)) + 1#32) := by
  have hb := b.isLt
  refine table_ext (lo := 0) (freqOf_wf _) (tableSet_wf _ _ _ (freqOf_wf _)) fun i => ?_
  by_cases hi : i = b.toNat
  · subst hi
    rw [tableGet_set_same _ _ (by simp [Config.nsym]; omega), tableGet_freqOf, tableGet_freqOf, if_pos (by omega),
      if_pos (by omega)]
    simp [List.count_append, BitVec.ofNat_add]
  · rw [tableGet_set_ne _ _ _ hi, tableGet_freqOf, tableGet_freqOf]
    split
    · next h =>
      have : ¬ b = BitVec.ofNat 8 i := fun hc => hi (by rw [hc]; simp; omega)
      simp [List.count_append, this]
    · rfl

/-- COUNT's loop after `k` bytes of `s`'s input. -/
def countState (s : State) (k : Nat) : State :=
  { s with
    freqV := false, phase := .body, freq := freqOf (s.inp.data.take k), inCount := BitVec.ofNat 32 k
    inp := ⟨s.inp.data, BitVec.ofNat 40 (8 * k), s.inp.ioDraws.drop k⟩ }

theorem headD_drop (l : List Bool) (k : Nat) : (l.drop k).headD false = l.getD k false := by
  simp

theorem tail_drop (l : List Bool) (k : Nat) : (l.drop k).tail = l.drop (k + 1) := by simp

theorem countEnter_eq (s : State) : countEnter s = .more (countState s 0) := by
  simp [countEnter, countState, freqOf_nil, InPort.rewind]

/-- One byte counted. -/
theorem countIter_more (s : State) (k : Nat) (hk : k < s.inp.data.length)
    (hd : s.inp.ioDraws.getD k false = false) (hm : k < 2 ^ 32 - 2) :
    countIter (countState s k) = .more (countState s (k + 1)) := by
  have hr := readBits_byte (countState s k).inp k (by simp [countState]; omega) hk (by simpa [countState] using hd)
  have hne : BitVec.ofNat 32 k ≠ Config.maxIn := by
    intro h
    have := congrArg BitVec.toNat h
    simp [Config.maxIn] at this
    omega
  simp only [countIter, Config.bitsPerWord, hr]
  simp only [countState, hne, if_false, tail_drop, freqAt, StageResult.more.injEq, Config.nsym]
  have e1 : BitVec.ofNat 40 (8 * k) + 8#40 = BitVec.ofNat 40 (8 * (k + 1)) := by
    apply BitVec.eq_of_toNat_eq; simp; omega
  have e2 : BitVec.ofNat 32 k + 1#32 = BitVec.ofNat 32 (k + 1) := by
    apply BitVec.eq_of_toNat_eq; simp
  have e3 : s.inp.data.take (k + 1) = s.inp.data.take k ++ [s.inp.data[k]] := List.take_succ_eq_append_getElem hk
  rw [e1, e2, e3, freqOf_snoc]
  rfl

/-- The end of the input: FREQ holds the count of all of it. -/
theorem countIter_eos (s : State) (hf : s.inp.data.length ≤ Config.maxAttach)
    (hd : s.inp.ioDraws.getD s.inp.data.length false = false) :
    countIter (countState s s.inp.data.length) =
      .done { countState s s.inp.data.length with
        freqV := true
        inp := ⟨s.inp.data, BitVec.ofNat 40 (8 * s.inp.data.length), s.inp.ioDraws.drop (s.inp.data.length + 1)⟩ } := by
  simp only [Config.maxAttach] at hf
  have hr := readBits_eos 8 (countState s s.inp.data.length).inp (by simpa [countState] using hd)
    (by simp [countState]; omega)
  simp only [countIter, Config.bitsPerWord, hr]
  simp [countState]

/-- A read failure of the source. -/
theorem countIter_io (s : State) (k : Nat) (hd : s.inp.ioDraws.getD k false = true) :
    countIter (countState s k) =
      .raise .eFmtIo 0#32 { countState s k with
        inp := ⟨s.inp.data, BitVec.ofNat 40 (8 * k), s.inp.ioDraws.drop (k + 1)⟩ } := by
  have hr := readBits_ioErr 8 (countState s k).inp (by simpa [countState] using hd)
  simp only [countIter, Config.bitsPerWord, hr]
  simp [countState]

/-- One byte more than MAX_IN (R78). -/
theorem countIter_overflow (s : State)
    (hk : 2 ^ 32 - 2 < s.inp.data.length) (hd : s.inp.ioDraws.getD (2 ^ 32 - 2) false = false) :
    countIter (countState s (2 ^ 32 - 2)) =
      .raise .eOverflow Config.maxIn { countState s (2 ^ 32 - 2) with
        inp := ⟨s.inp.data, BitVec.ofNat 40 (8 * (2 ^ 32 - 1)), s.inp.ioDraws.drop (2 ^ 32 - 1)⟩ } := by
  have hr := readBits_byte (countState s (2 ^ 32 - 2)).inp (2 ^ 32 - 2) (by simp [countState]) hk
    (by simpa [countState] using hd)
  simp only [countIter, Config.bitsPerWord, hr]
  simp [countState, Config.maxIn]

theorem stageStep_count_body (s : State) (k : Nat) : stageStep .count (countState s k) = countIter (countState s k) := rfl

/-- `k` bytes counted. -/
theorem count_run (s : State) (n k : Nat) (hu : s.unsent = []) (hk : k ≤ s.inp.data.length)
    (hd : ∀ j < k, s.inp.ioDraws.getD j false = false) (hm : k ≤ 2 ^ 32 - 2) :
    stageRun .count (k + n) (countState s 0) = stageRun .count n (countState s k) := by
  induction k generalizing n with
  | zero => simp
  | succ k ih =>
    rw [Nat.add_right_comm, Nat.add_assoc, ih (n + 1) (by omega) (fun j hj => hd j (by omega)) (by omega)]
    refine stageRun_more n (passStep_of ?_ hu)
    rw [stageStep_count_body, countIter_more s k (by omega) (hd k (by omega)) (by omega)]

theorem passStep_count_enter {s : State} (h : s.phase = .enter) (hu : s.unsent = []) :
    passStep .count s = .more (countState s 0) :=
  passStep_of (by simp [stageStep, h, countEnter_eq]) hu

/-- COUNT from its entry to the end its loop comes to after `k` bytes. -/
theorem count_end (s : State) (k : Nat) (r : StageResult) (hp : s.phase = .enter) (hu : s.unsent = [])
    (hk : k ≤ s.inp.data.length) (hd : ∀ j < k, s.inp.ioDraws.getD j false = false) (hm : k ≤ 2 ^ 32 - 2)
    (hr : countIter (countState s k) = r) (hm' : ∀ t, r ≠ .more t) (hru : r.state.unsent = []) :
    stageRun .count (k + 2) s = r := by
  rw [stageRun_more _ (passStep_count_enter hp hu), count_run s 1 k hu hk hd hm]
  exact stageRun_end 0 (passStep_of ((stageStep_count_body s k).trans hr) hru) hm'

/-- COUNT over a whole input of at most MAX_IN bytes, the source not failing (R77). -/
theorem count_stage (s : State) (hp : s.phase = .enter) (hu : s.unsent = []) (hf : s.inp.data.length ≤ 2 ^ 32 - 2)
    (hd : ∀ j ≤ s.inp.data.length, s.inp.ioDraws.getD j false = false) :
    stageRun .count (s.inp.data.length + 2) s =
      .done { s with
        freqV := true, phase := .body, freq := freqOf s.inp.data, inCount := BitVec.ofNat 32 s.inp.data.length
        inp := ⟨s.inp.data, BitVec.ofNat 40 (8 * s.inp.data.length), s.inp.ioDraws.drop (s.inp.data.length + 1)⟩ } := by
  have hf' : s.inp.data.length ≤ Config.maxAttach := by simp only [Config.maxAttach]; omega
  rw [count_end s _ _ hp hu (Nat.le_refl _) (fun j hj => hd j (by omega)) hf
    (countIter_eos s hf' (hd _ (Nat.le_refl _))) (by simp) hu]
  simp [countState]

/-- COUNT where the source fails at read `k` (R77, R108). -/
theorem count_stage_io (s : State) (k : Nat) (hp : s.phase = .enter) (hu : s.unsent = []) (hk : k ≤ s.inp.data.length)
    (hm : k ≤ 2 ^ 32 - 2) (hd : ∀ j < k, s.inp.ioDraws.getD j false = false) (hi : s.inp.ioDraws.getD k false = true) :
    stageRun .count (k + 2) s = .raise .eFmtIo 0#32 { countState s k with
      inp := ⟨s.inp.data, BitVec.ofNat 40 (8 * k), s.inp.ioDraws.drop (k + 1)⟩ } :=
  count_end s k _ hp hu hk hd hm (countIter_io s k hi) (by simp) hu

/-- COUNT over more than MAX_IN bytes (R78). -/
theorem count_stage_overflow (s : State) (hp : s.phase = .enter) (hu : s.unsent = []) (hf : 2 ^ 32 - 2 < s.inp.data.length)
    (hd : ∀ j ≤ 2 ^ 32 - 2, s.inp.ioDraws.getD j false = false) :
    stageRun .count (2 ^ 32 - 2 + 2) s = .raise .eOverflow Config.maxIn { countState s (2 ^ 32 - 2) with
      inp := ⟨s.inp.data, BitVec.ofNat 40 (8 * (2 ^ 32 - 1)), s.inp.ioDraws.drop (2 ^ 32 - 1)⟩ } :=
  count_end s _ _ hp hu (by omega) (fun j hj => hd j (by omega)) (by omega)
    (countIter_overflow s hf (hd _ (Nat.le_refl _))) (by simp) hu

end Sys2Proof.Machine
end

