-- ==== Sys2Proof/Laws/TreeHeader.lean ====
section
/-! SUPPORT. SERIALIZE and DESERIALIZE (R90 to R92): the header written from a tree in NODE, and the tree read from a header. -/

namespace Sys2Proof.Machine

/-! ## SERIALIZE -/

theorem stageStep_serialize_body {s : State} (h : s.phase = .body) : stageStep .serialize s = serializeIter s := by
  simp [stageStep, h]

/-- Put of one subtree writes its header (R65, R90). -/
theorem serialize_put (T : HTree) (s : State) (i : BitVec 10) (rest : List Frame) (n : Nat)
    (hp : s.phase = .body) (hu : s.unsent = []) (hT : treeAt s.node T i.toNat = true) (hk : rest.length + T.depth ≤ 256)
    (hs : s.dstack = .put i :: rest) :
    stageRun .serialize (T.size + n) s =
      stageRun .serialize n { s with
        dstack := rest, out := s.out.push T.header, hdrBits := s.hdrBits + BitVec.ofNat 32 T.header.length } := by
  induction T generalizing s i rest n with
  | leaf v =>
    obtain ⟨h1, h2⟩ := treeAt_leaf hT
    rw [HTree.size, Nat.add_comm]
    refine stageRun_more n ?_
    rw [passStep, stageStep_serialize_body hp, serializeIter, hs]
    dsimp only
    rw [if_pos (show (nodeAt s i.toNat).leaf = true from h1), show (nodeAt s i.toNat).value.toNat = v from h2]
    simp [StageResult.drained, drain, State.writeBits, hu, HTree.header, Config.leafBits, natToBits_succ 0]
  | node l r hl hr =>
    obtain ⟨h1, h2, h3⟩ := treeAt_node hT
    simp only [HTree.depth] at hk
    rw [HTree.size, show l.size + r.size + 1 + n = (l.size + (r.size + n)) + 1 by omega]
    rw [stageRun_more (s' := { s with
        out := s.out.push [false], hdrBits := s.hdrBits + 1#32
        dstack := .put (nodeAt s i.toNat).left :: .put (nodeAt s i.toNat).right :: rest })]
    · generalize hs1 : ({ s with out := _, hdrBits := _, dstack := _ } : State) = s1
      rw [hl s1 (nodeAt s i.toNat).left (.put (nodeAt s i.toNat).right :: rest) _
        (by rw [← hs1]; exact hp) (by rw [← hs1]; exact hu) (by rw [← hs1]; exact h2) (by rw [List.length_cons]; omega)
        (by rw [← hs1])]
      generalize hs2 : ({ s1 with dstack := _, out := _, hdrBits := _ } : State) = s2
      rw [hr s2 (nodeAt s i.toNat).right rest _
        (by rw [← hs2, ← hs1]; exact hp) (by rw [← hs2, ← hs1]; exact hu) (by rw [← hs2, ← hs1]; exact h3) (by omega)
        (by rw [← hs2])]
      have e : s.hdrBits + 1#32 + BitVec.ofNat 32 l.header.length + BitVec.ofNat 32 r.header.length =
          s.hdrBits + BitVec.ofNat 32 (HTree.node l r).header.length := by
        simp only [HTree.header, List.length_cons, List.length_append, BitVec.ofNat_add]
        ac_rfl
      have eo : ((s.out.push [false]).push l.header).push r.header = s.out.push (HTree.node l r).header := by
        rw [push_push, push_push]
        simp [HTree.header]
      rw [← hs2, ← hs1, ← e, ← eo]
    · rw [passStep, stageStep_serialize_body hp, serializeIter, hs]
      dsimp only
      rw [if_neg (show ¬ (nodeAt s i.toNat).leaf = true by simpa [nodeAt] using h1),
        pushFrames_of_le (by simp only [List.length_cons, List.length_nil]; omega)]
      simp [StageResult.drained, drain, State.writeBits, hu, natToBits_succ 0]

/-- SERIALIZE of the tree at ROOT (R90). -/
theorem serialize_stage (s : State) (T : HTree) (hp : s.phase = .enter) (hu : s.unsent = []) (hv : s.treeV = true)
    (ho : s.out.isOpen = true) (hz : T.size ≤ 513) (hT : treeAt s.node T s.root.toNat = true) :
    stageRun .serialize (T.size + 2) s =
      .done { s with
        hdrBits := BitVec.ofNat 32 T.header.length, dstack := [], phase := .body, out := s.out.push T.header } := by
  have hd := T.depth_le hz
  rw [stageRun_more (T.size + 1) (s' := { s with hdrBits := 0#32, dstack := [.put s.root], phase := .body })]
  · generalize hs1 : ({ s with hdrBits := _, dstack := _, phase := _ } : State) = s1
    rw [serialize_put T s1 s.root [] 1 (by rw [← hs1]) (by rw [← hs1]; exact hu) (by rw [← hs1]; exact hT)
      (by simpa using hd) (by rw [← hs1]), ← hs1]
    refine stageRun_end 0 (passStep_of ?_ hu) (by simp)
    simp [stageStep, serializeIter]
  · refine passStep_of ?_ hu
    simp [stageStep, hp, serializeEnter, checked, precondition, hv, ho]

/-! ## DESERIALIZE -/

theorem nodeIn_set_same {t : Table NodeRec} {i : Nat} (r : NodeRec) (h : i < 513) :
    nodeIn (tableSet Config.nodeCap t i r) i = r := by
  simp [nodeIn, tableGet_set_same t r (show i < Config.nodeCap from h)]

theorem nodeIn_set_ne {t : Table NodeRec} {i j : Nat} (r : NodeRec) (h : j ≠ i) :
    nodeIn (tableSet Config.nodeCap t i r) j = nodeIn t j := by
  simp [nodeIn, tableGet_set_ne Config.nodeCap t r h]

/-- The tree `T` stands in NODE in pre-order from index `i` on: its records are `i .. i + T.size − 1`, each internal
record's children inside (R91, R92 c). -/
def preAt (t : Table NodeRec) : HTree → Nat → Prop
  | .leaf v, i => nodeIn t i = ⟨true, BitVec.ofNat 9 v, 0#32, 0#10, 0#10⟩
  | .node l r, i =>
    nodeIn t i = ⟨false, 0#9, 0#32, BitVec.ofNat 10 (i + 1), BitVec.ofNat 10 (i + 1 + l.size)⟩ ∧
    preAt t l (i + 1) ∧ preAt t r (i + 1 + l.size)

theorem HTree.size_pos (T : HTree) : 0 < T.size := by cases T <;> simp [HTree.size]

/-- A pre-order tree depends on its own records only. -/
theorem preAt_congr {t u : Table NodeRec} (T : HTree) (i : Nat) (h : ∀ j, i ≤ j → j < i + T.size → nodeIn u j = nodeIn t j)
    (hT : preAt t T i) : preAt u T i := by
  induction T generalizing i with
  | leaf v =>
    simp only [preAt] at hT ⊢
    rw [h i (Nat.le_refl _) (by simp [HTree.size]), hT]
  | node l r hl hr =>
    have := l.size_pos
    simp only [HTree.size] at h
    obtain ⟨h1, h2, h3⟩ := hT
    refine ⟨?_, hl (i + 1) (fun j h4 h5 => h j (by omega) (by omega)) h2,
      hr (i + 1 + l.size) (fun j h4 h5 => h j (by omega) (by omega)) h3⟩
    rw [h i (Nat.le_refl _) (by omega), h1]

/-- A pre-order tree within NODE is a tree of NODE. -/
theorem treeAt_of_preAt {t : Table NodeRec} (T : HTree) (i : Nat) (hi : i + T.size ≤ 1024) (hv : ∀ v ∈ T.syms, v < 512)
    (hT : preAt t T i) : treeAt t T i = true := by
  induction T generalizing i with
  | leaf v =>
    simp only [preAt] at hT
    have := hv v (by simp [HTree.syms])
    simp [treeAt, hT]
    omega
  | node l r hl hr =>
    have := r.size_pos
    simp only [HTree.size] at hi
    obtain ⟨h1, h2, h3⟩ := hT
    have e1 : (i + 1) % 1024 = i + 1 := by have := l.size_pos; omega
    have e2 : (i + 1 + l.size) % 1024 = i + 1 + l.size := by omega
    simp only [treeAt, h1, BitVec.toNat_ofNat, Bool.and_eq_true, Bool.not_false, true_and]
    rw [show (2 : Nat) ^ 10 = 1024 from rfl, e1, e2]
    exact ⟨hl _ (by omega) (fun v hv' => hv v (by simp [HTree.syms, hv'])) h2,
      hr _ (by omega) (fun v hv' => hv v (by simp [HTree.syms, hv'])) h3⟩

/-- What DESERIALIZE comes to when record `i` is returned: the state `s` with the tables `t`, going on for `n` steps, or
ended where nothing waits (R91). -/
def returned (n : Nat) (i : BitVec 10) (st : List Frame) (t : Table NodeRec) (s : State) : StageResult :=
  match returnNode i st t with
  | (t', st', some r) => .done { s with node := t', dstack := st', root := r, treeSrc := .deserialize, treeV := true }
  | (t', st', none) => stageRun .deserialize n { s with node := t', dstack := st' }

/-! The records that wait for their left subtree: each leaf ends the wait of one, or is the whole tree's last (R91). -/

theorem waitingLefts_le (st : List Frame) : waitingLefts st ≤ st.length := by
  induction st with
  | nil => exact Nat.le_refl _
  | cons f st ih => cases f <;> simp only [waitingLefts, List.length_cons] <;> omega

/-- What DSTACK loses at its bottom (R33) is at most an entry for each entry it has no room for. -/
theorem waitingLefts_take (k : Nat) (st : List Frame) :
    waitingLefts st ≤ waitingLefts (st.take k) + (st.length - k) ∧
    min k st.length ≤ waitingLefts (st.take k) + (st.length - waitingLefts st) := by
  induction st generalizing k with
  | nil => simp [waitingLefts]
  | cons f st ih =>
    have hl := waitingLefts_le st
    cases k with
    | zero => cases f <;> simp [waitingLefts] <;> omega
    | succ k =>
      obtain ⟨h1, h2⟩ := ih k
      cases f <;> simp only [List.take_succ_cons, waitingLefts, List.length_cons] <;> omega

/-- What a return does to the waits: with no record waiting for its left subtree the tree is whole, else one wait ends. -/
theorem returnNode_lefts (i : BitVec 10) (st : List Frame) (t : Table NodeRec) :
    (waitingLefts st = 0 ∧ ∃ t' r, returnNode i st t = (t', [], some r)) ∨
    ∃ t' st', returnNode i st t = (t', st', none) ∧ waitingLefts st' + 1 = waitingLefts st ∧ st'.length ≤ st.length := by
  induction st generalizing i t with
  | nil => exact .inl ⟨rfl, t, i, rfl⟩
  | cons f st ih =>
    have skip : ∀ j u, returnNode i (f :: st) t = returnNode j st u → waitingLefts (f :: st) = waitingLefts st →
        (waitingLefts (f :: st) = 0 ∧ ∃ t' r, returnNode i (f :: st) t = (t', [], some r)) ∨
        ∃ t' st', returnNode i (f :: st) t = (t', st', none) ∧ waitingLefts st' + 1 = waitingLefts (f :: st) ∧
          st'.length ≤ (f :: st).length := by
      intro j u h1 h2
      rw [h1, h2]
      refine (ih j u).imp id ?_
      rintro ⟨t', st', k1, k2, k3⟩
      exact ⟨t', st', k1, k2, k3.trans (Nat.le_succ _)⟩
    cases f with
    | put j => exact skip _ _ rfl rfl
    | visit j a b => exact skip _ _ rfl rfl
    | awaitLeft p => exact .inr ⟨t, .awaitRight p i :: st, rfl, rfl, Nat.le_refl _⟩
    | awaitRight p l => exact skip _ _ rfl rfl

theorem stageStep_deserialize_body {s : State} (h : s.phase = .body) : stageStep .deserialize s = deserializeIter s := by
  simp [stageStep, h]

/-- The state of DESERIALIZE after a subtree of `b` header bits in `d` reads was read (R91). -/
def afterGet (T : HTree) (d : Nat) (s : State) : State :=
  { s with
    inp := ⟨s.inp.data, s.inp.pos + BitVec.ofNat 40 T.header.length, s.inp.ioDraws.drop d⟩
    hdrBits := s.hdrBits + BitVec.ofNat 32 T.header.length
    nodeCount := s.nodeCount + BitVec.ofNat 10 T.size
    leafCount := s.leafCount + BitVec.ofNat 9 T.leaves }

/-- The reads Get makes for a subtree: one for each record, one more for each leaf. -/
def HTree.reads (T : HTree) : Nat := T.size + T.leaves

theorem readBits_prefix (n : Nat) (p : InPort) (w rest : List Bool) (hw : w.length = n) (hp : p.pos.toNat ≤ 8 * p.data.length)
    (hr : inRest p = w ++ rest) (hd : p.ioDraws.getD 0 false = false) :
    p.readBits n = (.val (bitsToNat w), ⟨p.data, p.pos + BitVec.ofNat 40 n, p.ioDraws.tail⟩) := by
  have hl : p.pos.toNat + n ≤ 8 * p.data.length := by
    have := congrArg List.length hr
    rw [inRest_length, List.length_append, hw] at this
    omega
  rw [readBits_val n p (by cases h : p.ioDraws <;> simp_all) hl, hr, ← hw]
  simp

/-- What is left after reading a prefix. -/
theorem inRest_after (p : InPort) (w rest : List Bool) (hf : p.data.length ≤ Config.maxAttach)
    (hp : p.pos.toNat ≤ 8 * p.data.length) (hr : inRest p = w ++ rest) (d : List Bool) :
    inRest ⟨p.data, p.pos + BitVec.ofNat 40 w.length, d⟩ = rest ∧
    (p.pos + BitVec.ofNat 40 w.length).toNat = p.pos.toNat + w.length ∧
    p.pos.toNat + w.length ≤ 8 * p.data.length := by
  simp only [Config.maxAttach] at hf
  have hl : p.pos.toNat + w.length ≤ 8 * p.data.length := by
    have := congrArg List.length hr
    rw [inRest_length, List.length_append] at this
    omega
  refine ⟨?_, ?_, hl⟩
  · have := inRest_advance p w.length d (by omega)
    rw [hr] at this
    simpa using this
  · simp; omega

theorem getD_tail (l : List Bool) (j : Nat) : l.tail.getD j false = l.getD (j + 1) false := by
  cases l <;> simp

theorem stageStep_deserialize_field {s : State} {i : BitVec 10} (h : s.phase = .field i) :
    stageStep .deserialize s = deserializeField i s := by
  simp [stageStep, h]

/-- Get of a leaf: one pass for its node bit, one for its field (R91). -/
theorem deserializeIter_leaf (s : State) (v : Nat) (rest : List Bool) (n : Nat) (hp : s.phase = .body) (hu : s.unsent = [])
    (hf : s.inp.data.length ≤ Config.maxAttach) (hpos : s.inp.pos.toNat ≤ 8 * s.inp.data.length)
    (hr : inRest s.inp = (HTree.leaf v).header ++ rest) (hd : ∀ j < 2, s.inp.ioDraws.getD j false = false)
    (hv : v ≤ 256) (hn : s.nodeCount.toNat < 513) :
    stageRun .deserialize (n + 2) s =
      returned n s.nodeCount s.dstack (tableSet Config.nodeCap s.node s.nodeCount.toNat ⟨true, BitVec.ofNat 9 v, 0#32, 0#10, 0#10⟩)
        (afterGet (.leaf v) 2 s) := by
  have h1 := readBits_prefix 1 s.inp [true] (natToBits 9 v ++ rest) rfl hpos hr (hd 0 (by omega))
  obtain ⟨k1, k2, k3⟩ := inRest_after s.inp [true] (natToBits 9 v ++ rest) hf hpos hr s.inp.ioDraws.tail
  have h2 := readBits_prefix 9 ⟨s.inp.data, s.inp.pos + BitVec.ofNat 40 1, s.inp.ioDraws.tail⟩ (natToBits 9 v) rest (by simp)
    ((le_of_eq k2).trans k3) k1 (by rw [getD_tail]; exact hd 1 (by omega))
  have hv' : bitsToNat (natToBits 9 v) = v := by rw [bitsToNat_natToBits]; omega
  have e1 : BitVec.ofNat 40 1 + BitVec.ofNat 40 9 = BitVec.ofNat 40 10 := rfl
  have e2 : (1#32 + BitVec.ofNat 32 9 : Word) = 10#32 := rfl
  have hst : passStep .deserialize s = .more
      { s with
        inp := ⟨s.inp.data, s.inp.pos + BitVec.ofNat 40 1, s.inp.ioDraws.tail⟩
        hdrBits := s.hdrBits + 1#32, nodeCount := s.nodeCount + 1#10, phase := .field s.nodeCount } := by
    refine passStep_of ?_ hu
    rw [stageStep_deserialize_body hp]
    simp only [deserializeIter, h1]
    rw [if_neg (by simp only [Config.nodeCap]; omega), if_pos (by rfl)]
  rw [show n + 2 = (n + 1) + 1 from rfl, stageRun_more _ hst]
  generalize hs1 : ({ s with inp := _, hdrBits := _, nodeCount := _, phase := _ } : State) = s1
  have hst1 : stageStep .deserialize s1 = deserializeLeaf s.nodeCount v
      { s with
        inp := ⟨s.inp.data, s.inp.pos + BitVec.ofNat 40 10, s.inp.ioDraws.tail.tail⟩
        hdrBits := s.hdrBits + 10#32, nodeCount := s.nodeCount + 1#10, phase := .field s.nodeCount } := by
    rw [stageStep_deserialize_field (i := s.nodeCount) (by rw [← hs1]), ← hs1]
    simp only [deserializeField, Config.leafBits, h2, hv']
    rw [if_neg (by simp only [Config.pseudoEof]; omega), BitVec.add_assoc, BitVec.add_assoc, e1, e2]
  have hg : afterGet (.leaf v) 2 s = { s with
      inp := ⟨s.inp.data, s.inp.pos + BitVec.ofNat 40 10, s.inp.ioDraws.tail.tail⟩
      hdrBits := s.hdrBits + 10#32, nodeCount := s.nodeCount + 1#10, leafCount := s.leafCount + 1#9 } := by
    rw [show s.inp.ioDraws.tail.tail = s.inp.ioDraws.drop 2 by simp [← List.drop_one]]
    simp [afterGet, HTree.header, HTree.size, HTree.leaves, HTree.syms, Config.leafBits]
  rw [hg, returned]
  rw [deserializeLeaf] at hst1
  dsimp only at hst1
  generalize hx : returnNode s.nodeCount s.dstack _ = x at hst1 ⊢
  obtain ⟨t', st', o⟩ := x
  cases o with
  | none => exact (stageRun_more n (passStep_of hst1 hu)).trans (by rw [← hp])
  | some r => exact (stageRun_end n (passStep_of hst1 hu) (by simp)).trans (by rw [← hp])

/-- Get of one subtree: the tree whose header comes next stands in NODE in pre-order from NODE_COUNT on, no other record
changes, and its first record is returned (R91, R92). -/
theorem deserialize_get (T : HTree) (s : State) (rest : List Bool) (n : Nat) (hp : s.phase = .body) (hu : s.unsent = [])
    (hk : s.dstack.length + T.depth ≤ 257) (hf : s.inp.data.length ≤ Config.maxAttach) (hpos : s.inp.pos.toNat ≤ 8 * s.inp.data.length)
    (hr : inRest s.inp = T.header ++ rest) (hd : ∀ j < T.reads, s.inp.ioDraws.getD j false = false)
    (hv : ∀ v ∈ T.syms, v ≤ 256) (hn : s.nodeCount.toNat + T.size ≤ 513) :
    ∃ t, preAt t T s.nodeCount.toNat ∧
      (∀ j, j < s.nodeCount.toNat ∨ s.nodeCount.toNat + T.size ≤ j → nodeIn t j = nodeIn s.node j) ∧
      (tableWf Config.nodeCap s.node = true → tableWf Config.nodeCap t = true) ∧
      stageRun .deserialize (T.reads + n) s = returned n s.nodeCount s.dstack t (afterGet T T.reads s) := by
  induction T generalizing s rest n with
  | leaf v =>
    simp only [HTree.size] at hn
    refine ⟨tableSet Config.nodeCap s.node s.nodeCount.toNat ⟨true, BitVec.ofNat 9 v, 0#32, 0#10, 0#10⟩, ?_, ?_,
      fun hw => tableSet_wf _ _ _ hw, ?_⟩
    · rw [preAt, nodeIn_set_same _ (by omega)]
    · intro j hj
      simp only [HTree.size] at hj
      exact nodeIn_set_ne _ (by omega)
    · rw [show (HTree.leaf v).reads + n = n + 2 by simp [HTree.reads, HTree.size, HTree.leaves, HTree.syms, Nat.add_comm]]
      exact deserializeIter_leaf s v rest n hp hu hf hpos hr (fun j hj => hd j (by simpa [HTree.reads, HTree.size, HTree.leaves, HTree.syms] using hj))
        (hv v (by simp [HTree.syms])) (by omega)
  | node l r hl hr' =>
    have hlp := l.size_pos
    have hrp := r.size_pos
    have hreads : (HTree.node l r).reads = 1 + l.reads + r.reads := by
      simp [HTree.reads, HTree.size, HTree.leaves, HTree.syms]; omega
    simp only [HTree.size] at hn
    simp only [HTree.depth] at hk
    have hr1 : inRest s.inp = [false] ++ (l.header ++ (r.header ++ rest)) := by rw [hr]; simp [HTree.header]
    have h1 := readBits_prefix 1 s.inp [false] _ rfl hpos hr1 (hd 0 (by omega))
    obtain ⟨k1, k2, k3⟩ := inRest_after s.inp [false] _ hf hpos hr1 s.inp.ioDraws.tail
    -- the internal record
    rw [hreads, show 1 + l.reads + r.reads + n = (l.reads + (r.reads + n)) + 1 by omega]
    rw [stageRun_more (s' := { s with
        inp := ⟨s.inp.data, s.inp.pos + BitVec.ofNat 40 1, s.inp.ioDraws.tail⟩
        hdrBits := s.hdrBits + 1#32, nodeCount := s.nodeCount + 1#10
        node := tableSet Config.nodeCap s.node s.nodeCount.toNat ⟨false, 0#9, 0#32, 0#10, 0#10⟩
        dstack := .awaitLeft s.nodeCount :: s.dstack })]
    swap
    · refine passStep_of ?_ hu
      rw [stageStep_deserialize_body hp]
      simp only [deserializeIter, h1]
      rw [if_neg (by simp only [Config.nodeCap]; omega), if_neg (by simp [bitsToNat]), deserializeInternal,
        pushFrames_of_le (by simp only [List.length_cons, List.length_nil]; omega)]
      rfl
    generalize hs1 : ({ s with inp := _, hdrBits := _, nodeCount := _, node := _, dstack := _ } : State) = s1
    have hc1 : s1.nodeCount.toNat = s.nodeCount.toNat + 1 := by rw [← hs1]; simp; omega
    -- the left subtree
    obtain ⟨t1, p1, q1, w1, e1⟩ := hl s1 (r.header ++ rest) (r.reads + n) (by rw [← hs1]; exact hp) (by rw [← hs1]; exact hu)
      (by rw [← hs1]; simp only [List.length_cons]; omega) (by rw [← hs1]; exact hf)
      (by rw [← hs1]; exact (le_of_eq k2).trans k3) (by rw [← hs1]; exact k1)
      (fun j hj => by rw [← hs1]; show s.inp.ioDraws.tail.getD j false = false; rw [getD_tail]; exact hd _ (by omega))
      (fun v hv' => hv v (by simp [HTree.syms, hv'])) (by omega)
    have hd1 : s1.dstack = .awaitLeft s.nodeCount :: s.dstack := by rw [← hs1]
    rw [e1, hd1, returned]
    simp only [returnNode]
    generalize hs2 : ({ afterGet l l.reads s1 with node := t1, dstack := _ } : State) = s2
    have hc2 : s2.nodeCount.toNat = s.nodeCount.toNat + 1 + l.size := by
      rw [← hs2]; simp [afterGet, hc1]; omega
    have hdata2 : s2.inp.data = s.inp.data := by rw [← hs2, ← hs1]; rfl
    -- the right subtree
    obtain ⟨m1, m2, m3⟩ := inRest_after s1.inp l.header (r.header ++ rest) (by rw [← hs1]; exact hf)
      (by rw [← hs1]; exact (le_of_eq k2).trans k3) (by rw [← hs1]; exact k1) (s1.inp.ioDraws.drop l.reads)
    obtain ⟨t2, p2, q2, w2, e2⟩ := hr' s2 rest n (by rw [← hs2, ← hs1]; exact hp) (by rw [← hs2, ← hs1]; exact hu)
      (by rw [← hs2]; simp only [List.length_cons]; omega) (by rw [hdata2]; exact hf)
      (by rw [← hs2]; show (s1.inp.pos + BitVec.ofNat 40 l.header.length).toNat ≤ 8 * s1.inp.data.length; rw [m2]; exact m3)
      (by rw [← hs2]; exact m1)
      (fun j hj => by
        rw [← hs2, ← hs1]
        show (s.inp.ioDraws.tail.drop l.reads).getD j false = false
        have := hd (1 + l.reads + j) (by omega)
        rw [show s.inp.ioDraws.tail = s.inp.ioDraws.drop 1 by simp, List.drop_drop]
        simpa [List.getD_eq_getElem?_getD, Nat.add_assoc] using this)
      (fun v hv' => hv v (by simp [HTree.syms, hv'])) (by omega)
    have hd2 : s2.dstack = .awaitRight s.nodeCount s1.nodeCount :: s.dstack := by rw [← hs2]
    have hn2 : s2.node = t1 := by rw [← hs2]
    have hn1 : s1.node = tableSet Config.nodeCap s.node s.nodeCount.toNat ⟨false, 0#9, 0#32, 0#10, 0#10⟩ := by rw [← hs1]
    rw [e2, hd2, returned]
    simp only [returnNode]
    have hbase : nodeIn t2 s.nodeCount.toNat = ⟨false, 0#9, 0#32, 0#10, 0#10⟩ := by
      rw [q2 _ (.inl (by omega)), hn2, q1 _ (.inl (by omega)), hn1, nodeIn_set_same _ (by omega)]
    rw [hbase]
    refine ⟨tableSet Config.nodeCap t2 s.nodeCount.toNat ⟨false, 0#9, 0#32, s1.nodeCount, s2.nodeCount⟩, ?_, ?_,
      fun hw => tableSet_wf _ _ _ (w2 (by rw [hn2]; exact w1 (by rw [hn1]; exact tableSet_wf _ _ _ hw))), ?_⟩
    · refine ⟨?_, ?_, ?_⟩
      · rw [nodeIn_set_same _ (by omega)]
        congr 1
        · apply BitVec.eq_of_toNat_eq; simp [hc1]; omega
        · apply BitVec.eq_of_toNat_eq; simp [hc2]; omega
      · refine preAt_congr l _ (fun j h3 h4 => ?_) (by rw [← hc1]; exact p1)
        rw [nodeIn_set_ne _ (by omega), q2 j (.inl (by omega)), hn2]
      · refine preAt_congr r _ (fun j h3 h4 => ?_) (by rw [← hc2]; exact p2)
        rw [nodeIn_set_ne _ (by omega)]
    · intro j hj
      simp only [HTree.size] at hj
      rw [nodeIn_set_ne _ (by omega), q2 j (by omega), hn2, q1 j (by omega), hn1, nodeIn_set_ne _ (by omega)]
    · rw [returned]
      have hg : ∀ a b, ({ afterGet r r.reads s2 with node := a, dstack := b } : State) =
          { afterGet (.node l r) (1 + l.reads + r.reads) s with node := a, dstack := b } := by
        intro a b
        rw [← hs2, ← hs1]
        simp only [afterGet, HTree.header, HTree.size, HTree.leaves, HTree.syms, List.length_cons, List.length_append,
          BitVec.ofNat_add]
        have d1 : List.drop r.reads (List.drop l.reads s.inp.ioDraws.tail) = List.drop (1 + l.reads + r.reads) s.inp.ioDraws := by
          rw [show s.inp.ioDraws.tail = s.inp.ioDraws.drop 1 by simp, List.drop_drop, List.drop_drop, Nat.add_assoc]
        rw [d1]
        congr 1
        · ac_rfl
        · ac_rfl
        · ac_rfl
        · congr 1
          ac_rfl
      generalize returnNode s.nodeCount s.dstack _ = x
      obtain ⟨t', st', o⟩ := x
      cases o with
      | none => simp only [hg]
      | some rt =>
        simp only [StageResult.done.injEq]
        have := hg t' st'
        simp only [State.mk.injEq] at this ⊢
        simp_all

/-- DESERIALIZE of the header of a tree (R91). -/
theorem deserialize_stage (s : State) (T : HTree) (rest : List Bool) (hp : s.phase = .enter) (hu : s.unsent = [])
    (hf : s.inp.data.length ≤ Config.maxAttach) (hpos : s.inp.pos.toNat ≤ 8 * s.inp.data.length)
    (hr : inRest s.inp = T.header ++ rest) (hd : ∀ j < T.reads, s.inp.ioDraws.getD j false = false) (hT : T.fits) :
    ∃ t, preAt t T 0 ∧ (tableWf Config.nodeCap s.node = true → tableWf Config.nodeCap t = true) ∧
      (∀ j, T.size ≤ j → nodeIn t j = nodeIn s.node j) ∧
      stageRun .deserialize (T.reads + 1) s = .done { s with
        treeV := true, codeV := false, decState := .idle, treeSrc := .deserialize, dstack := [], phase := .body
        node := t, root := 0#10, nodeCount := BitVec.ofNat 10 T.size, leafCount := BitVec.ofNat 9 T.leaves
        hdrBits := BitVec.ofNat 32 T.header.length
        inp := ⟨s.inp.data, s.inp.pos + BitVec.ofNat 40 T.header.length, s.inp.ioDraws.drop T.reads⟩ } := by
  rw [stageRun_more T.reads (s' := { s with
      treeV := false, codeV := false, decState := .idle, nodeCount := 0#10, leafCount := 0#9, hdrBits := 0#32
      dstack := [], phase := .body }) (passStep_of (by simp [stageStep, hp, deserializeEnter]) hu)]
  generalize hs1 : ({ s with treeV := _, codeV := _, decState := _, nodeCount := _, leafCount := _, hdrBits := _, dstack := _, phase := _ } : State) = s1
  have hc : s1.nodeCount = 0#10 := by rw [← hs1]
  have hd1 : s1.dstack = [] := by rw [← hs1]
  have hn1 : s1.node = s.node := by rw [← hs1]
  obtain ⟨t, p, q, w, e⟩ := deserialize_get T s1 rest 0 (by rw [← hs1]) (by rw [← hs1]; exact hu)
    (by rw [hd1]; have := T.depth_le hT.1; simp only [List.length_nil]; omega) (by rw [← hs1]; exact hf) (by rw [← hs1]; exact hpos)
    (by rw [← hs1]; exact hr) (by rw [← hs1]; exact hd) hT.2 (by rw [hc]; simpa [Config.nodeCap] using hT.1)
  rw [hc] at p q e
  rw [hn1] at q w
  refine ⟨t, p, w, fun j hj => q j (.inr (by simpa using hj)), ?_⟩
  rw [Nat.add_zero] at e
  rw [e, hd1, returned]
  simp only [returnNode, afterGet, ← hs1, BitVec.zero_add]

end Sys2Proof.Machine
end

