-- ==== Sys2Proof/Laws/StreamCodec.lean ====
section
/-! SUPPORT. The Stream Codec's stages (R93 to R100): the body ENCBODY writes, and what DECBODY makes of a body. -/

namespace Sys2Proof.Machine

/-! ## WRMAGIC, CLOSE, RDMAGIC -/

theorem wrmagic_pass {s : State} (hu : s.unsent = []) (hp : s.phase = .enter) (ho : s.out.isOpen = true) :
    passStep .wrmagic s = .done { s with out := s.out.push (natToBits 32 s.magic.toNat) } := by
  have h : stageStep .wrmagic s = .done (s.writeBits 32 s.magic.toNat) := by
    simp [stageStep, hp, wrmagicEnter, checked, precondition, ho, Config.magicBits]
  rw [passStep, h, StageResult.drained, drain_writeBits hu]

theorem close_pass {s : State} (hu : s.unsent = []) (hp : s.phase = .enter) (ho : s.out.isOpen = true) :
    passStep .close s = .done { s with out := s.out.closeOut } := by
  refine passStep_of ?_ hu
  simp [stageStep, hp, closeEnter, checked, precondition, ho]

/-- RDMAGIC over an input that begins with the magic field (R97). -/
theorem rdmagic_pass {s : State} (hu : s.unsent = []) (hp : s.phase = .enter) (rest : List Bool) (hr : streamOf s.inp.data = natToBits 32 s.magic.toNat ++ rest)
    (hd : s.inp.ioDraws.getD 0 false = false) :
    passStep .rdmagic s = .done { s with inp := ⟨s.inp.data, 32#40, s.inp.ioDraws.tail⟩ } := by
  refine passStep_of ?_ hu
  have h := readBits_prefix 32 s.inp.rewind (natToBits 32 s.magic.toNat) rest (by simp) (by simp [InPort.rewind])
    (by simpa [inRest, InPort.rewind] using hr) (by simpa [InPort.rewind] using hd)
  simp only [stageStep, hp, rdmagicEnter, Config.magicBits, h, bitsToNat_natToBits]
  rw [Nat.mod_eq_of_lt s.magic.isLt, BitVec.ofNat_toNat, BitVec.setWidth_eq, if_pos rfl]
  simp [InPort.rewind]

/-! ## ENCBODY -/

/-- ENCBODY's loop after `k` bytes of `s`'s input (R94). -/
def bodyState (s : State) (k : Nat) : State :=
  { s with
    phase := .body
    inp := ⟨s.inp.data, BitVec.ofNat 40 (8 * k), s.inp.ioDraws.drop k⟩
    out := s.out.push ((s.inp.data.take k).flatMap fun b => codeBits (codeAt s b.toNat)) }

theorem encbody_enter {s : State} (hu : s.unsent = []) (hp : s.phase = .enter) (hv : s.codeV = true)
    (ho : s.out.isOpen = true) : passStep .encbody s = .more (bodyState s 0) := by
  refine passStep_of ?_ hu
  simp [stageStep, hp, encbodyEnter, checked, precondition, hv, ho, bodyState, InPort.rewind]

theorem stageStep_encbody_body (s : State) (k : Nat) : stageStep .encbody (bodyState s k) = encbodyIter (bodyState s k) := rfl

/-- A pass of ENCBODY's loop that reads a byte (R94). -/
theorem encbody_pass_val {s : State} {k v : Nat} {p : InPort} (hu : s.unsent = [])
    (h : (bodyState s k).inp.readBits 8 = (.val v, p)) :
    passStep .encbody (bodyState s k) =
      if (codeAt s v).len = 0#9 then .raise .eNoCode (BitVec.ofNat 32 v) { bodyState s k with inp := p }
      else .more { bodyState s k with inp := p, out := (bodyState s k).out.push (codeBits (codeAt s v)) } := by
  have e : encbodyIter (bodyState s k) = if (codeAt s v).len = 0#9 then .raise .eNoCode (BitVec.ofNat 32 v) { bodyState s k with inp := p }
      else .more (writeCode (codeAt s v) { bodyState s k with inp := p }) := by
    simp only [encbodyIter, Config.bitsPerWord, h]
    rfl
  rw [passStep, stageStep_encbody_body, e]
  split
  · exact congrArg (StageResult.raise _ _) (drain_of_nil hu)
  · exact congrArg StageResult.more (drain_writeBits (s := { bodyState s k with inp := p }) hu _ _)

/-- The pass of ENCBODY's loop that finds the end of the input (R94). -/
theorem encbody_pass_end {s : State} {k : Nat} {p : InPort} (hu : s.unsent = [])
    (h : (bodyState s k).inp.readBits 8 = (.eos, p)) :
    passStep .encbody (bodyState s k) =
      if (codeAt s 256).len = 0#9 then .raise .eNoCode 256#32 { bodyState s k with inp := p }
      else .done { bodyState s k with inp := p, out := (bodyState s k).out.push (codeBits (codeAt s 256)) } := by
  have e : encbodyIter (bodyState s k) = if (codeAt s 256).len = 0#9 then .raise .eNoCode 256#32 { bodyState s k with inp := p }
      else .done (writeCode (codeAt s 256) { bodyState s k with inp := p }) := by
    simp only [encbodyIter, Config.bitsPerWord, h]
    rfl
  rw [passStep, stageStep_encbody_body, e]
  split
  · exact congrArg (StageResult.raise _ _) (drain_of_nil hu)
  · exact congrArg StageResult.done (drain_writeBits (s := { bodyState s k with inp := p }) hu _ _)

/-- The source's failure at read `k` of ENCBODY (R94, R108). -/
theorem encbody_pass_io (s : State) (k : Nat) (hu : s.unsent = []) (hd : s.inp.ioDraws.getD k false = true) :
    passStep .encbody (bodyState s k) = .raise .eFmtIo 0#32 { bodyState s k with
      inp := ⟨s.inp.data, BitVec.ofNat 40 (8 * k), s.inp.ioDraws.drop (k + 1)⟩ } := by
  have hr := readBits_ioErr 8 (bodyState s k).inp (by simpa [bodyState] using hd)
  refine passStep_of ?_ hu
  rw [stageStep_encbody_body]
  simp only [encbodyIter, Config.bitsPerWord, hr]
  simp [bodyState]

/-- One byte's code written (R94). -/
theorem encbody_pass_more (s : State) (k : Nat) (hu : s.unsent = []) (hk : k < s.inp.data.length) (hf : s.inp.data.length ≤ Config.maxAttach)
    (hd : s.inp.ioDraws.getD k false = false) (hc : (codeAt s s.inp.data[k].toNat).len ≠ 0#9) :
    passStep .encbody (bodyState s k) = .more (bodyState s (k + 1)) := by
  simp only [Config.maxAttach] at hf
  have hr : (bodyState s k).inp.readBits 8 = (.val s.inp.data[k].toNat,
      ⟨s.inp.data, BitVec.ofNat 40 (8 * k) + 8#40, (s.inp.ioDraws.drop k).tail⟩) :=
    readBits_byte (bodyState s k).inp k (by simp [bodyState]; omega) hk (by simpa [bodyState] using hd)
  have e1 : BitVec.ofNat 40 (8 * k) + 8#40 = BitVec.ofNat 40 (8 * (k + 1)) := by
    apply BitVec.eq_of_toNat_eq; simp; omega
  rw [encbody_pass_val hu hr, if_neg hc]
  simp only [bodyState, push_push, StageResult.more.injEq, e1, tail_drop]
  rw [List.take_succ_eq_append_getElem hk, List.flatMap_append]
  simp [codeAt]

/-- The end of the input: the sentinel's code ends the body (R94). -/
theorem encbody_pass_eos (s : State) (hu : s.unsent = []) (hf : s.inp.data.length ≤ Config.maxAttach)
    (hd : s.inp.ioDraws.getD s.inp.data.length false = false) (hc : (codeAt s 256).len ≠ 0#9) :
    passStep .encbody (bodyState s s.inp.data.length) = .done { s with
      phase := .body
      inp := ⟨s.inp.data, BitVec.ofNat 40 (8 * s.inp.data.length), s.inp.ioDraws.drop (s.inp.data.length + 1)⟩
      out := s.out.push (bodyBits (fun v => codeBits (codeAt s v)) s.inp.data) } := by
  simp only [Config.maxAttach] at hf
  have hr := readBits_eos 8 (bodyState s s.inp.data.length).inp (by simpa [bodyState] using hd) (by simp [bodyState]; omega)
  rw [encbody_pass_end hu hr, if_neg hc]
  simp [bodyState, push_push, bodyBits, codeAt, Config.pseudoEof]

/-- The end of the input where the sentinel has no code (R94). -/
theorem encbody_pass_eos_noCode (s : State) (hu : s.unsent = []) (hf : s.inp.data.length ≤ Config.maxAttach)
    (hd : s.inp.ioDraws.getD s.inp.data.length false = false) (hc : (codeAt s 256).len = 0#9) :
    passStep .encbody (bodyState s s.inp.data.length) = .raise .eNoCode 256#32 { bodyState s s.inp.data.length with
      inp := ⟨s.inp.data, BitVec.ofNat 40 (8 * s.inp.data.length), s.inp.ioDraws.drop (s.inp.data.length + 1)⟩ } := by
  simp only [Config.maxAttach] at hf
  have hr := readBits_eos 8 (bodyState s s.inp.data.length).inp (by simpa [bodyState] using hd) (by simp [bodyState]; omega)
  rw [encbody_pass_end hu hr, if_pos hc]
  simp [bodyState]

/-- A byte with no code (R94). -/
theorem encbody_pass_noCode (s : State) (k : Nat) (hu : s.unsent = []) (hk : k < s.inp.data.length) (hf : s.inp.data.length ≤ Config.maxAttach)
    (hd : s.inp.ioDraws.getD k false = false) (hc : (codeAt s s.inp.data[k].toNat).len = 0#9) :
    passStep .encbody (bodyState s k) = .raise .eNoCode (s.inp.data[k].setWidth 32) { bodyState s k with
      inp := ⟨s.inp.data, BitVec.ofNat 40 (8 * (k + 1)), s.inp.ioDraws.drop (k + 1)⟩ } := by
  simp only [Config.maxAttach] at hf
  have hr : (bodyState s k).inp.readBits 8 = (.val s.inp.data[k].toNat,
      ⟨s.inp.data, BitVec.ofNat 40 (8 * k) + 8#40, (s.inp.ioDraws.drop k).tail⟩) :=
    readBits_byte (bodyState s k).inp k (by simp [bodyState]; omega) hk (by simpa [bodyState] using hd)
  have e1 : BitVec.ofNat 40 (8 * k) + 8#40 = BitVec.ofNat 40 (8 * (k + 1)) := by
    apply BitVec.eq_of_toNat_eq; simp; omega
  rw [encbody_pass_val hu hr, if_pos hc]
  simp [bodyState, e1]

/-- `k` bytes written. -/
theorem encbody_run (s : State) (n k : Nat) (hu : s.unsent = []) (hk : k ≤ s.inp.data.length) (hf : s.inp.data.length ≤ Config.maxAttach)
    (hd : ∀ j < k, s.inp.ioDraws.getD j false = false)
    (hc : ∀ j, ∀ h : j < s.inp.data.length, j < k → (codeAt s s.inp.data[j].toNat).len ≠ 0#9) :
    stageRun .encbody (k + n) (bodyState s 0) = stageRun .encbody n (bodyState s k) := by
  induction k generalizing n with
  | zero => simp
  | succ k ih =>
    rw [Nat.add_right_comm, Nat.add_assoc, ih (n + 1) (by omega) (fun j hj => hd j (by omega)) (fun j h hj => hc j h (by omega))]
    exact stageRun_more n (encbody_pass_more s k hu (by omega) hf (hd k (by omega)) (hc k (by omega) (by omega)))

/-- ENCBODY from its entry to the end its loop comes to after `k` bytes. -/
theorem encbody_end (s : State) (k : Nat) (r : StageResult) (hp : s.phase = .enter) (hu : s.unsent = []) (hv : s.codeV = true)
    (ho : s.out.isOpen = true) (hk : k ≤ s.inp.data.length) (hf : s.inp.data.length ≤ Config.maxAttach)
    (hd : ∀ j < k, s.inp.ioDraws.getD j false = false)
    (hc : ∀ b ∈ s.inp.data.take k, (codeAt s b.toNat).len ≠ 0#9)
    (hr : passStep .encbody (bodyState s k) = r) (hm : ∀ t, r ≠ .more t) : stageRun .encbody (k + 2) s = r := by
  rw [stageRun_more _ (encbody_enter hu hp hv ho), encbody_run s 1 k hu hk hf hd (fun j h hj => hc _ ?_)]
  · exact stageRun_end 0 hr hm
  · rw [List.mem_take_iff_getElem]
    exact ⟨j, by omega, rfl⟩

/-- ENCBODY where every byte of the input and the sentinel have a code (R94, R67). -/
theorem encbody_stage (s : State) (hp : s.phase = .enter) (hu : s.unsent = []) (hv : s.codeV = true)
    (ho : s.out.isOpen = true) (hf : s.inp.data.length ≤ Config.maxAttach)
    (hd : ∀ j ≤ s.inp.data.length, s.inp.ioDraws.getD j false = false)
    (hc : ∀ b ∈ s.inp.data, (codeAt s b.toNat).len ≠ 0#9) (he : (codeAt s 256).len ≠ 0#9) :
    stageRun .encbody (s.inp.data.length + 2) s = .done { s with
      phase := .body
      inp := ⟨s.inp.data, BitVec.ofNat 40 (8 * s.inp.data.length), s.inp.ioDraws.drop (s.inp.data.length + 1)⟩
      out := s.out.push (bodyBits (fun v => codeBits (codeAt s v)) s.inp.data) } :=
  encbody_end s _ _ hp hu hv ho (Nat.le_refl _) hf (fun j hj => hd j (by omega)) (fun b hb => hc b (List.mem_of_mem_take hb))
    (encbody_pass_eos s hu hf (hd _ (Nat.le_refl _)) he) (by simp)

/-! ## DECBODY -/

theorem stageStep_decbody_walk {s : State} {k : Nat} (h : s.phase = .walk k) : stageStep .decbody s = decbodyIter k s := by
  simp [stageStep, h]

@[simp] theorem walkPath_nil (t : Table NodeRec) (i : BitVec 10) : walkPath t i [] = i := rfl

theorem walkPath_cons (t : Table NodeRec) (i : BitVec 10) (b : Bool) (c : List Bool) :
    walkPath t i (b :: c) = walkPath t (if b then (nodeIn t i.toNat).right else (nodeIn t i.toNat).left) c := rfl

/-- One bit read by the walker (R98): the child it moves to. -/
theorem decbodyIter_bit (s : State) (k : Nat) (b : Bool) (rest : List Bool) (hpos : s.inp.pos.toNat ≤ 8 * s.inp.data.length)
    (hr : inRest s.inp = [b] ++ rest) (hd : s.inp.ioDraws.getD 0 false = false) :
    decbodyIter k s = decbodyAt k (walkPath s.node s.walk [b])
      { s with inp := ⟨s.inp.data, s.inp.pos + 1#40, s.inp.ioDraws.tail⟩ } := by
  have h := readBits_prefix 1 s.inp [b] rest rfl hpos hr hd
  simp only [decbodyIter, h]
  cases b <;> rfl

/-- A pass that moves to a record: on from an internal one, done at the sentinel, the byte written at any other leaf (R98). -/
theorem decbody_pass_at {s : State} {k : Nat} {i : BitVec 10} {u : State} (hu : u.unsent = [])
    (h : stageStep .decbody s = decbodyAt k i u) :
    passStep .decbody s =
      if (nodeIn u.node i.toNat).leaf then
        if (nodeIn u.node i.toNat).value.toNat = 256 then .done { u with walk := i, decState := .done }
        else .more { u with out := u.out.push (natToBits 8 (nodeIn u.node i.toNat).value.toNat), walk := u.root, phase := .walk (k + 1) }
      else .more { u with walk := i } := by
  have e : decbodyAt k i u =
      if (nodeIn u.node i.toNat).leaf then
        if (nodeIn u.node i.toNat).value.toNat = 256 then .done { u with walk := i, decState := .done }
        else .more (State.writeBits 8 (nodeIn u.node i.toNat).value.toNat { u with walk := u.root, phase := .walk (k + 1) })
      else .more { u with walk := i } := rfl
  rw [passStep, h, e]
  split
  · split
    · exact congrArg StageResult.done (drain_of_nil (s := { u with walk := i, decState := .done }) hu)
    · exact congrArg StageResult.more (drain_writeBits (s := { u with walk := u.root, phase := .walk (k + 1) }) hu _ _)
  · exact congrArg StageResult.more (drain_of_nil (s := { u with walk := i }) hu)

/-- What DECBODY comes to at the leaf of a path (R98): done at the sentinel, else the byte is written and the walk goes on
from the root. -/
def leafReached (n k v : Nat) (s : State) : StageResult :=
  if v = 256 then .done { s with decState := .done }
  else stageRun .decbody n { s with out := s.out.push (natToBits 8 v), walk := s.root, phase := .walk (k + 1) }

/-- The walk down one path to its leaf (R98, R99): one bit a step. -/
theorem decbody_walk (U : HTree) (s : State) (k v n : Nat) (c rest : List Bool) (hp : s.phase = .walk k) (hu : s.unsent = [])
    (hU : treeAt s.node U s.walk.toNat = true) (hm : (v, c) ∈ U.paths) (hne : c ≠ [])
    (hf : s.inp.data.length ≤ Config.maxAttach) (hpos : s.inp.pos.toNat ≤ 8 * s.inp.data.length)
    (hr : inRest s.inp = c ++ rest) (hd : ∀ j < c.length, s.inp.ioDraws.getD j false = false) :
    stageRun .decbody (c.length + n) s = leafReached n k v { s with
      inp := ⟨s.inp.data, s.inp.pos + BitVec.ofNat 40 c.length, s.inp.ioDraws.drop c.length⟩
      walk := walkPath s.node s.walk c } := by
  induction U generalizing s c with
  | leaf w => simp [HTree.paths] at hm; exact absurd hm.2 hne
  | node l r hl hr' =>
    obtain ⟨h1, h2, h3⟩ := treeAt_node hU
    -- the first bit, the subtree it leads to, and the rest of the path
    obtain ⟨b, c', V, rfl, hm', hV, ih⟩ : ∃ b c' V, c = b :: c' ∧ (v, c') ∈ HTree.paths V ∧
        treeAt s.node V (walkPath s.node s.walk [b]).toNat = true ∧ (V = l ∨ V = r) := by
      simp only [HTree.paths, List.mem_append, List.mem_map, Prod.mk.injEq] at hm
      rcases hm with ⟨q, hq, rfl, rfl⟩ | ⟨q, hq, rfl, rfl⟩
      · exact ⟨false, q.2, l, rfl, hq, h2, .inl rfl⟩
      · exact ⟨true, q.2, r, rfl, hq, h3, .inr rfl⟩
    have hIH := hl
    have hr1 : inRest s.inp = [b] ++ (c' ++ rest) := by simpa using hr
    have hd0 := hd 0 (by simp)
    obtain ⟨k1, k2, k3⟩ := inRest_after s.inp [b] _ hf hpos hr1 s.inp.ioDraws.tail
    have hstep := decbody_pass_at (s := s) (u := { s with inp := ⟨s.inp.data, s.inp.pos + 1#40, s.inp.ioDraws.tail⟩ }) hu
      ((stageStep_decbody_walk hp).trans (decbodyIter_bit s k b _ hpos hr1 hd0))
    rw [List.length_cons, show c'.length + 1 + n = (c'.length + n) + 1 by omega]
    cases V with
    | leaf w =>
      simp only [HTree.paths, List.mem_singleton, Prod.mk.injEq] at hm'
      obtain ⟨rfl, rfl⟩ := hm'
      obtain ⟨g1, g2⟩ := treeAt_leaf hV
      rw [if_pos g1, g2] at hstep
      simp only [leafReached, List.length_nil, Nat.zero_add, List.drop_one]
      by_cases hv : v = 256
      · rw [if_pos hv] at hstep ⊢
        exact stageRun_end n hstep (by simp)
      · rw [if_neg hv] at hstep ⊢
        exact stageRun_more n hstep
    | node a b' =>
      have g1 := (treeAt_node hV).1
      rw [if_neg (by simpa using g1)] at hstep
      rw [stageRun_more _ hstep]
      have hne' : c' ≠ [] := HTree.paths_ne_nil _ hm'
      generalize hs1 : ({ s with inp := _, walk := _ } : State) = s1
      have key : stageRun .decbody (c'.length + n) s1 = leafReached n k v { s1 with
          inp := ⟨s1.inp.data, s1.inp.pos + BitVec.ofNat 40 c'.length, s1.inp.ioDraws.drop c'.length⟩
          walk := walkPath s1.node s1.walk c' } := by
        have hd' : ∀ j < c'.length, s1.inp.ioDraws.getD j false = false := by
          intro j hj
          rw [← hs1]
          show s.inp.ioDraws.tail.getD j false = false
          rw [getD_tail]; exact hd _ (by simpa using hj)
        have hp1 : s1.phase = .walk k := by rw [← hs1]; exact hp
        have hu1 : s1.unsent = [] := by rw [← hs1]; exact hu
        have hf1 : s1.inp.data.length ≤ Config.maxAttach := by rw [← hs1]; exact hf
        have hpos1 : s1.inp.pos.toNat ≤ 8 * s1.inp.data.length := by rw [← hs1]; exact (le_of_eq k2).trans k3
        have hr2 : inRest s1.inp = c' ++ rest := by rw [← hs1]; exact k1
        have hV1 : treeAt s1.node (.node a b') s1.walk.toNat = true := by rw [← hs1]; exact hV
        rcases ih with rfl | rfl
        · exact hl s1 c' hp1 hu1 hV1 hm' hne' hf1 hpos1 hr2 hd'
        · exact hr' s1 c' hp1 hu1 hV1 hm' hne' hf1 hpos1 hr2 hd'
      rw [key, ← hs1]
      have e1 : s.inp.pos + 1#40 + BitVec.ofNat 40 c'.length = s.inp.pos + BitVec.ofNat 40 (c'.length + 1) := by
        rw [Nat.add_comm, BitVec.ofNat_add, BitVec.add_assoc]
      have e2 : s.inp.ioDraws.tail.drop c'.length = s.inp.ioDraws.drop (c'.length + 1) := by
        rw [show s.inp.ioDraws.tail = s.inp.ioDraws.drop 1 by simp, List.drop_drop, Nat.add_comm]
      simp only [e1, e2]
      rfl

/-- DECBODY's loop after the leaves of `ps` were reached and their bytes written, at the root again (R98). -/
def walked (s : State) (k : Nat) (ps : List (Nat × List Bool)) : State :=
  { s with
    inp := ⟨s.inp.data, s.inp.pos + BitVec.ofNat 40 (ps.flatMap Prod.snd).length, s.inp.ioDraws.drop (ps.flatMap Prod.snd).length⟩
    out := s.out.push (ps.flatMap fun p => natToBits 8 p.1)
    walk := s.root, phase := .walk (k + ps.length) }

/-- A run of whole codes of other symbols than the sentinel (R98). -/
theorem decbody_run (T : HTree) (ps : List (Nat × List Bool)) (s : State) (k n : Nat) (rest : List Bool)
    (hp : s.phase = .walk k) (hu : s.unsent = []) (hw : s.walk = s.root) (hT : treeAt s.node T s.root.toNat = true)
    (hm : ∀ p ∈ ps, p ∈ T.paths ∧ p.2 ≠ [] ∧ p.1 ≠ 256)
    (hf : s.inp.data.length ≤ Config.maxAttach) (hpos : s.inp.pos.toNat ≤ 8 * s.inp.data.length)
    (hr : inRest s.inp = ps.flatMap Prod.snd ++ rest)
    (hd : ∀ j < (ps.flatMap Prod.snd).length, s.inp.ioDraws.getD j false = false) :
    stageRun .decbody ((ps.flatMap Prod.snd).length + n) s = stageRun .decbody n (walked s k ps) := by
  induction ps generalizing s k with
  | nil =>
    have : walked s k [] = s := by
      cases s
      simp_all [walked]
    rw [this]
    simp
  | cons p ps ih =>
    obtain ⟨h1, h2, h3⟩ := hm p (by simp)
    have hr1 : inRest s.inp = p.2 ++ (ps.flatMap Prod.snd ++ rest) := by simpa using hr
    simp only [List.flatMap_cons, List.length_append] at hd ⊢
    obtain ⟨k1, k2, k3⟩ := inRest_after s.inp p.2 _ hf hpos hr1 (s.inp.ioDraws.drop p.2.length)
    rw [Nat.add_assoc, decbody_walk T s k p.1 _ p.2 _ hp hu (by rw [hw]; exact hT) h1 h2 hf hpos hr1 (fun j hj => hd j (by omega)),
      leafReached, if_neg h3]
    generalize hs1 : ({ s with inp := _, out := _, walk := _, phase := _ } : State) = s1
    rw [ih s1 (k + 1) (by rw [← hs1]) (by rw [← hs1]; exact hu) (by rw [← hs1]) (by rw [← hs1]; exact hT) (fun q hq => hm q (by simp [hq]))
      (by rw [← hs1]; exact hf) (by rw [← hs1]; exact (le_of_eq k2).trans k3) (by rw [← hs1]; exact k1)
      (fun j hj => by
        rw [← hs1]
        have := hd (p.2.length + j) (by omega)
        simpa [List.getD_eq_getElem?_getD] using this)]
    congr 1
    rw [← hs1]
    simp only [walked, List.flatMap_cons, List.length_append, List.length_cons, push_push, List.drop_drop, BitVec.ofNat_add,
      BitVec.add_assoc]
    rw [Nat.add_assoc k 1, Nat.add_comm 1]

/-- DECBODY's entry over an internal root (R98). -/
theorem decbody_enter {s : State} (hp : s.phase = .enter) (hu : s.unsent = []) (hv : s.treeV = true) (ho : s.out.isOpen = true)
    (hT : (nodeIn s.node s.root.toNat).leaf = false) :
    passStep .decbody s = .more { s with decState := .walking, walk := s.root, phase := .walk 0 } := by
  refine passStep_of ?_ hu
  simp [stageStep, hp, decbodyEnter, checked, precondition, hv, ho, nodeAt, hT]

/-- DECBODY over a body: codes of byte leaves, then the sentinel's (R98, R68 c). -/
theorem decbody_stage (l r : HTree) (ps : List (Nat × List Bool)) (q : List Bool) (s : State) (rest : List Bool)
    (hp : s.phase = .enter) (hu : s.unsent = []) (hv : s.treeV = true) (ho : s.out.isOpen = true)
    (hT : treeAt s.node (.node l r) s.root.toNat = true)
    (hm : ∀ p ∈ ps, p ∈ (HTree.node l r).paths ∧ p.1 ≠ 256) (hq : (256, q) ∈ (HTree.node l r).paths)
    (hf : s.inp.data.length ≤ Config.maxAttach) (hpos : s.inp.pos.toNat ≤ 8 * s.inp.data.length)
    (hr : inRest s.inp = ps.flatMap Prod.snd ++ q ++ rest)
    (hd : ∀ j < (ps.flatMap Prod.snd ++ q).length, s.inp.ioDraws.getD j false = false) :
    stageRun .decbody ((ps.flatMap Prod.snd ++ q).length + 1) s = .done { s with
      decState := .done, walk := walkPath s.node s.root q, phase := .walk ps.length
      inp := ⟨s.inp.data, s.inp.pos + BitVec.ofNat 40 (ps.flatMap Prod.snd ++ q).length,
        s.inp.ioDraws.drop (ps.flatMap Prod.snd ++ q).length⟩
      out := s.out.push (ps.flatMap fun p => natToBits 8 p.1) } := by
  have hq1 : q ≠ [] := HTree.paths_ne_nil _ hq
  rw [stageRun_more _ (decbody_enter hp hu hv ho (treeAt_node hT).1)]
  generalize hs1 : ({ s with decState := _, walk := _, phase := _ } : State) = s1
  have hr1 : inRest s1.inp = ps.flatMap Prod.snd ++ (q ++ rest) := by rw [← hs1]; simpa using hr
  have hpos1 : s1.inp.pos.toNat ≤ 8 * s1.inp.data.length := by rw [← hs1]; exact hpos
  have hf1 : s1.inp.data.length ≤ Config.maxAttach := by rw [← hs1]; exact hf
  simp only [List.length_append] at hd ⊢
  rw [decbody_run (.node l r) ps s1 0 q.length (q ++ rest) (by rw [← hs1]) (by rw [← hs1]; exact hu) (by rw [← hs1]) (by rw [← hs1]; exact hT)
    (fun p h => ⟨(hm p h).1, HTree.paths_ne_nil _ (hm p h).1, (hm p h).2⟩) hf1 hpos1 hr1
    (fun j hj => by rw [← hs1]; exact hd j (by omega))]
  obtain ⟨k1, k2, k3⟩ := inRest_after s1.inp (ps.flatMap Prod.snd) _ hf1 hpos1 hr1 (s1.inp.ioDraws.drop (ps.flatMap Prod.snd).length)
  generalize hs2 : walked s1 0 ps = s2
  have h := decbody_walk (.node l r) s2 ps.length 256 0 q rest (by rw [← hs2]; simp [walked])
    (by rw [← hs2, ← hs1]; exact hu) (by rw [← hs2, ← hs1]; exact hT) hq hq1 (by rw [← hs2]; exact hf1) (by rw [← hs2]; exact (le_of_eq k2).trans k3)
    (by rw [← hs2]; exact k1)
    (fun j hj => by
      rw [← hs2, ← hs1]
      have := hd ((ps.flatMap Prod.snd).length + j) (by omega)
      simpa [walked, List.getD_eq_getElem?_getD] using this)
  rw [Nat.add_zero] at h
  rw [h, leafReached, if_pos rfl, ← hs2, ← hs1]
  simp only [walked, List.drop_drop, BitVec.ofNat_add, BitVec.add_assoc, Nat.zero_add]

/-- The walk along a proper prefix of a path: no leaf is met, nothing is written (R98, R99). -/
theorem decbody_prefix (U : HTree) (s : State) (k n : Nat) (c rest : List Bool) (hp : s.phase = .walk k) (hu : s.unsent = [])
    (hU : treeAt s.node U s.walk.toNat = true) (hc : ∃ p ∈ U.paths, c <+: p.2 ∧ c ≠ p.2)
    (hf : s.inp.data.length ≤ Config.maxAttach) (hpos : s.inp.pos.toNat ≤ 8 * s.inp.data.length)
    (hr : inRest s.inp = c ++ rest) (hd : ∀ j < c.length, s.inp.ioDraws.getD j false = false) :
    stageRun .decbody (c.length + n) s = stageRun .decbody n { s with
      inp := ⟨s.inp.data, s.inp.pos + BitVec.ofNat 40 c.length, s.inp.ioDraws.drop c.length⟩
      walk := walkPath s.node s.walk c } := by
  induction c generalizing s U with
  | nil =>
    rw [List.length_nil, Nat.zero_add]
    congr 1
    cases s
    simp
  | cons b c ih =>
    obtain ⟨p, hm, hpre, hne⟩ := hc
    cases U with
    | leaf w =>
      simp only [HTree.paths, List.mem_singleton] at hm
      rw [hm] at hpre
      simp at hpre
    | node l r =>
      obtain ⟨h1, h2, h3⟩ := treeAt_node hU
      obtain ⟨V, hV, p', hp', hpre', hne'⟩ : ∃ V, treeAt s.node V (walkPath s.node s.walk [b]).toNat = true ∧
          ∃ p' ∈ HTree.paths V, c <+: p'.2 ∧ c ≠ p'.2 := by
        simp only [HTree.paths, List.mem_append, List.mem_map] at hm
        rcases hm with ⟨q, hq, rfl⟩ | ⟨q, hq, rfl⟩ <;> simp only [List.cons_prefix_cons] at hpre <;> obtain ⟨rfl, hpre⟩ := hpre
        · exact ⟨l, h2, q, hq, hpre, fun h => hne (by rw [h])⟩
        · exact ⟨r, h3, q, hq, hpre, fun h => hne (by rw [h])⟩
      have hleaf : (nodeIn s.node (walkPath s.node s.walk [b]).toNat).leaf = false := by
        cases V with
        | leaf w =>
          simp only [HTree.paths, List.mem_singleton] at hp'
          rw [hp'] at hpre' hne'
          exact absurd (List.prefix_nil.1 hpre') hne'
        | node a b' => exact (treeAt_node hV).1
      have hr1 : inRest s.inp = [b] ++ (c ++ rest) := by simpa using hr
      obtain ⟨k1, k2, k3⟩ := inRest_after s.inp [b] _ hf hpos hr1 s.inp.ioDraws.tail
      have hstep := decbody_pass_at (s := s) (u := { s with inp := ⟨s.inp.data, s.inp.pos + 1#40, s.inp.ioDraws.tail⟩ }) hu
        ((stageStep_decbody_walk hp).trans (decbodyIter_bit s k b _ hpos hr1 (hd 0 (by simp))))
      rw [if_neg (by simpa using hleaf)] at hstep
      rw [List.length_cons, show c.length + 1 + n = (c.length + n) + 1 by omega, stageRun_more _ hstep]
      generalize hs1 : ({ s with inp := _, walk := _ } : State) = s1
      rw [ih V s1 (by rw [← hs1]; exact hp) (by rw [← hs1]; exact hu) (by rw [← hs1]; exact hV) ⟨p', hp', hpre', hne'⟩
        (by rw [← hs1]; exact hf) (by rw [← hs1]; exact (le_of_eq k2).trans k3) (by rw [← hs1]; exact k1)
        (fun j hj => by
          rw [← hs1]
          show s.inp.ioDraws.tail.getD j false = false
          rw [getD_tail]; exact hd _ (by simpa using hj)), ← hs1]
      have e1 : s.inp.pos + 1#40 + BitVec.ofNat 40 c.length = s.inp.pos + BitVec.ofNat 40 (c.length + 1) := by
        rw [Nat.add_comm, BitVec.ofNat_add, BitVec.add_assoc]
      have e2 : s.inp.ioDraws.tail.drop c.length = s.inp.ioDraws.drop (c.length + 1) := by
        rw [show s.inp.ioDraws.tail = s.inp.ioDraws.drop 1 by simp, List.drop_drop, Nat.add_comm]
      simp only [e1, e2]
      rfl

/-- DECBODY's read where no bit is left (R98, R100). -/
theorem decbody_pass_eos {s : State} {k : Nat} (hp : s.phase = .walk k) (hu : s.unsent = [])
    (hpos : 8 * s.inp.data.length ≤ s.inp.pos.toNat) (hd : s.inp.ioDraws.headD false = false) :
    passStep .decbody s = .raise .eFmtBodyTrunc (BitVec.ofNat 32 k) { s with inp := { s.inp with ioDraws := s.inp.ioDraws.tail } } := by
  refine passStep_of ?_ hu
  rw [stageStep_decbody_walk hp]
  simp only [decbodyIter, readBits_eos 1 s.inp hd (by omega)]

/-- DECBODY's read where the source fails (R98, R108). -/
theorem decbody_pass_io {s : State} {k : Nat} (hp : s.phase = .walk k) (hu : s.unsent = [])
    (hd : s.inp.ioDraws.headD false = true) :
    passStep .decbody s = .raise .eFmtIo 0#32 { s with inp := { s.inp with ioDraws := s.inp.ioDraws.tail } } := by
  refine passStep_of ?_ hu
  rw [stageStep_decbody_walk hp]
  simp only [decbodyIter, readBits_ioErr 1 s.inp hd]

/-- DECBODY from its entry to the read after the codes of byte leaves and a proper prefix of a path: where it stands (R98). -/
theorem decbody_upto (l r : HTree) (ps : List (Nat × List Bool)) (c : List Bool) (s : State) (rest : List Bool) (n : Nat)
    (hp : s.phase = .enter) (hu : s.unsent = []) (hv : s.treeV = true) (ho : s.out.isOpen = true)
    (hT : treeAt s.node (.node l r) s.root.toNat = true)
    (hm : ∀ p ∈ ps, p ∈ (HTree.node l r).paths ∧ p.1 ≠ 256) (hc : ∃ p ∈ (HTree.node l r).paths, c <+: p.2 ∧ c ≠ p.2)
    (hf : s.inp.data.length ≤ Config.maxAttach) (hpos : s.inp.pos.toNat ≤ 8 * s.inp.data.length)
    (hr : inRest s.inp = ps.flatMap Prod.snd ++ c ++ rest)
    (hd : ∀ j < (ps.flatMap Prod.snd ++ c).length, s.inp.ioDraws.getD j false = false) :
    stageRun .decbody ((ps.flatMap Prod.snd ++ c).length + 1 + n) s = stageRun .decbody n { s with
      decState := .walking, walk := walkPath s.node s.root c, phase := .walk ps.length
      inp := ⟨s.inp.data, s.inp.pos + BitVec.ofNat 40 (ps.flatMap Prod.snd ++ c).length,
        s.inp.ioDraws.drop (ps.flatMap Prod.snd ++ c).length⟩
      out := s.out.push (ps.flatMap fun p => natToBits 8 p.1) } := by
  rw [Nat.add_right_comm, stageRun_more _ (decbody_enter hp hu hv ho (treeAt_node hT).1)]
  generalize hs1 : ({ s with decState := _, walk := _, phase := _ } : State) = s1
  have hr1 : inRest s1.inp = ps.flatMap Prod.snd ++ (c ++ rest) := by rw [← hs1]; simpa using hr
  have hpos1 : s1.inp.pos.toNat ≤ 8 * s1.inp.data.length := by rw [← hs1]; exact hpos
  have hf1 : s1.inp.data.length ≤ Config.maxAttach := by rw [← hs1]; exact hf
  simp only [List.length_append] at hd ⊢
  rw [Nat.add_assoc, decbody_run (.node l r) ps s1 0 (c.length + n) (c ++ rest) (by rw [← hs1]) (by rw [← hs1]; exact hu)
    (by rw [← hs1]) (by rw [← hs1]; exact hT)
    (fun p h => ⟨(hm p h).1, HTree.paths_ne_nil _ (hm p h).1, (hm p h).2⟩) hf1 hpos1 hr1
    (fun j hj => by rw [← hs1]; exact hd j (by omega))]
  obtain ⟨k1, k2, k3⟩ := inRest_after s1.inp (ps.flatMap Prod.snd) _ hf1 hpos1 hr1 (s1.inp.ioDraws.drop (ps.flatMap Prod.snd).length)
  generalize hs2 : walked s1 0 ps = s2
  rw [decbody_prefix (.node l r) s2 ps.length n c rest (by rw [← hs2]; simp [walked])
    (by rw [← hs2, ← hs1]; exact hu) (by rw [← hs2, ← hs1]; exact hT) hc (by rw [← hs2]; exact hf1)
    (by rw [← hs2]; exact (le_of_eq k2).trans k3) (by rw [← hs2]; exact k1)
    (fun j hj => by
      rw [← hs2, ← hs1]
      have := hd ((ps.flatMap Prod.snd).length + j) (by omega)
      simpa [walked, List.getD_eq_getElem?_getD] using this)]
  congr 1
  rw [← hs2, ← hs1]
  simp only [walked, List.drop_drop, BitVec.ofNat_add, BitVec.add_assoc, Nat.zero_add]

end Sys2Proof.Machine
end

