-- ==== Sys2Proof/Laws/TreeBuilder.lean ====
section
/-! SUPPORT. BUILD (R80 to R84): the forest its loop keeps, and the tree it leaves. -/

namespace Sys2Proof.Machine

/-! ## The priority order (R80) -/

theorem keyLt_iff {t : Table NodeRec} {i j : Nat} :
    keyLt t i j = true ↔ (nodeIn t i).weight.toNat < (nodeIn t j).weight.toNat ∨
      ((nodeIn t i).weight.toNat = (nodeIn t j).weight.toNat ∧ i < j) := by
  simp [keyLt]

/-- heapMin answers the element of least key (R80). -/
theorem heapMin_spec {t : Table NodeRec} {h : List Nat} {m : Nat} (hm : heapMin t h = some m) :
    m ∈ h ∧ ∀ j ∈ h, j ≠ m → keyLt t m j = true := by
  induction h generalizing m with
  | nil => cases hm
  | cons i h ih =>
    rw [heapMin] at hm
    cases hh : heapMin t h with
    | none =>
      rw [hh] at hm
      have : h = [] := by
        cases h with
        | nil => rfl
        | cons k h => rw [heapMin] at hh; split at hh <;> (try split at hh) <;> cases hh
      simp only [Option.some.injEq] at hm
      subst hm this
      simp
    | some k =>
      rw [hh] at hm
      obtain ⟨h1, h2⟩ := ih hh
      dsimp only at hm
      split at hm
      · next hlt =>
        simp only [Option.some.injEq] at hm
        subst hm
        refine ⟨by simp, fun j hj hne => ?_⟩
        rcases List.mem_cons.1 hj with rfl | hj
        · exact absurd rfl hne
        · by_cases hjk : j = k
          · rw [hjk]; exact hlt
          · have := h2 j hj hjk
            rw [keyLt_iff] at *
            omega
      · next hlt =>
        simp only [Option.some.injEq] at hm
        subst hm
        refine ⟨by simp [h1], fun j hj hne => ?_⟩
        rcases List.mem_cons.1 hj with rfl | hj
        · rw [keyLt_iff] at *
          omega
        · exact h2 j hj hne

theorem heapMin_isSome {t : Table NodeRec} {h : List Nat} (hne : h ≠ []) : ∃ m, heapMin t h = some m := by
  cases h with
  | nil => exact absurd rfl hne
  | cons i h =>
    rw [heapMin]
    split
    · exact ⟨_, rfl⟩
    · split <;> exact ⟨_, rfl⟩

/-! ## The leaves (R81) -/

theorem writeLeaves_spec (s : State) (k : Nat) (S : List Nat) (t : Table NodeRec) (h : k + S.length ≤ 513) :
    (∀ j, ∀ hj : j < S.length, nodeIn (writeLeaves s k S t) (k + j) = leafRec s S[j]) ∧
    (∀ j, j < k ∨ k + S.length ≤ j → nodeIn (writeLeaves s k S t) j = nodeIn t j) ∧
    (tableWf Config.nodeCap t = true → tableWf Config.nodeCap (writeLeaves s k S t) = true) := by
  induction S generalizing k t with
  | nil => simp [writeLeaves]
  | cons v S ih =>
    simp only [List.length_cons] at h
    obtain ⟨h1, h2, h3⟩ := ih (k + 1) (tableSet Config.nodeCap t k (leafRec s v)) (by omega)
    refine ⟨fun j hj => ?_, fun j hj => ?_, fun hw => h3 (tableSet_wf _ _ _ hw)⟩
    · cases j with
      | zero =>
        show nodeIn (writeLeaves s (k + 1) S _) k = _
        rw [h2 k (.inl (by omega)), nodeIn_set_same _ (by omega)]
        rfl
      | succ j =>
        have := h1 j (by simpa using hj)
        rw [writeLeaves, show k + (j + 1) = k + 1 + j by omega, this]
        rfl
    · simp only [List.length_cons] at hj
      rw [writeLeaves, h2 j (by omega), nodeIn_set_ne _ (by omega)]

/-! ## The forest (R81) -/

/-- `j` is a child of record `m`. -/
def Child (t : Table NodeRec) (m j : Nat) : Prop := (nodeIn t m).left.toNat = j ∨ (nodeIn t m).right.toNat = j

/-- What BUILD's loop keeps: the leaves of `S` at 0 .. L − 1, internal records from L to n − 1 each over the two records of
least key not yet used, HEAP the records not yet used, and trees whose leaves are together those of `S`. -/
structure Forest (s : State) (S : List Nat) (t : Table NodeRec) (heap : List Nat) (n : Nat) : Prop where
  len     : heap.length + n = 2 * S.length
  le      : S.length ≤ n
  nodup   : heap.Nodup
  below   : ∀ j ∈ heap, j < n
  leaves  : ∀ k, ∀ h : k < S.length, nodeIn t k = leafRec s S[k]
  inner   : ∀ m, S.length ≤ m → m < n → ∃ a b, a < m ∧ b < m ∧ keyLt t a b = true ∧
              nodeIn t m = ⟨false, 0#9, (nodeIn t a).weight + (nodeIn t b).weight, BitVec.ofNat 10 a, BitVec.ofNat 10 b⟩ ∧
              (nodeIn t m).weight.toNat = (nodeIn t a).weight.toNat + (nodeIn t b).weight.toNat
  cover   : ∀ j < n, j ∈ heap ∨ ∃ m, S.length ≤ m ∧ m < n ∧ Child t m j
  used    : ∀ m, S.length ≤ m → m < n → ∀ j, Child t m j → j ∉ heap ∧ j < m
  once    : ∀ m m' j, S.length ≤ m → m < n → S.length ≤ m' → m' < n → Child t m j → Child t m' j → m = m'
  greedy  : ∀ m, S.length ≤ m → m < n → ∀ j < m, (∀ m', S.length ≤ m' → m' ≤ m → ¬ Child t m' j) →
              keyLt t (nodeIn t m).right.toNat j = true
  trees   : ∃ F : Nat → HTree, (∀ j < n, treeAt t (F j) j = true ∧
              (nodeIn t j).weight.toNat = ((F j).syms.map fun v => (freqAt s v).toNat).sum) ∧
              (heap.flatMap fun j => (F j).syms).Perm S

/-- A tree whose records all lie below `n`, children included, depends on those alone. -/
theorem treeAt_congr_below {t u : Table NodeRec} {n : Nat} (hc : ∀ m < n, (nodeIn t m).leaf = false →
    (nodeIn t m).left.toNat < n ∧ (nodeIn t m).right.toNat < n) (hu : ∀ m < n, nodeIn u m = nodeIn t m) (T : HTree) (j : Nat)
    (hj : j < n) (h : treeAt t T j = true) : treeAt u T j = true := by
  induction T generalizing j with
  | leaf v => simpa [treeAt, hu j hj] using h
  | node l r hl hr =>
    obtain ⟨h1, h2, h3⟩ := treeAt_node h
    have := hc j hj h1
    simp only [treeAt, hu j hj, h1, Bool.not_false, Bool.true_and, Bool.and_eq_true]
    exact ⟨hl _ this.1 h2, hr _ this.2 h3⟩

theorem Forest.start (s : State) (S : List Nat) (t : Table NodeRec) (hL : S.length ≤ 257) (hS : ∀ v ∈ S, v < 512) :
    Forest s S (writeLeaves s 0 S t) (List.range S.length) S.length where
  len := by simp; omega
  le := Nat.le_refl _
  nodup := List.nodup_range
  below := by simp
  leaves k h := by simpa using (writeLeaves_spec s 0 S t (by omega)).1 k h
  inner m h1 h2 := by omega
  cover j hj := .inl (by simpa using hj)
  used m h1 h2 := by omega
  once m m' j h1 h2 := by omega
  greedy m h1 h2 := by omega
  trees := by
    refine ⟨fun j => .leaf (S.getD j 0), fun j hj => ?_, ?_⟩
    · have := (writeLeaves_spec s 0 S t (by omega)).1 j hj
      rw [Nat.zero_add] at this
      have hb := hS _ (List.getElem_mem hj)
      simp [treeAt, this, leafRec, HTree.syms, List.getD_eq_getElem?_getD, hj]
      omega
    · have : (List.range S.length).flatMap (fun j => (HTree.leaf (S.getD j 0)).syms) = S := by
        have h2 : (List.range S.length).flatMap (fun j => (HTree.leaf (S.getD j 0)).syms) =
            (List.range S.length).map (fun j => S.getD j 0) := by
          simp only [HTree.syms, List.map_eq_flatMap]
        rw [h2]
        apply List.ext_getElem
        · simp
        · intro i h3 h4
          simp [List.getD_eq_getElem?_getD, h4]
      rw [this]

theorem Forest.closed {s : State} {S : List Nat} {t : Table NodeRec} {heap : List Nat} {n : Nat} (F : Forest s S t heap n) :
    ∀ m < n, (nodeIn t m).leaf = false → (nodeIn t m).left.toNat < n ∧ (nodeIn t m).right.toNat < n := by
  intro m hm hl
  by_cases h : m < S.length
  · rw [F.leaves m h] at hl; cases hl
  · have h1 := (F.used m (by omega) hm _ (.inl rfl)).2
    have h2 := (F.used m (by omega) hm _ (.inr rfl)).2
    omega

/-- One merge (R81): the two records of least key under a new one. -/
theorem Forest.merge {s : State} {S : List Nat} {t : Table NodeRec} {heap : List Nat} {n a b : Nat} (F : Forest s S t heap n)
    (hL : S.length ≤ 257) (hsum : (S.map fun v => (freqAt s v).toNat).sum < 2 ^ 32)
    (ha : heapMin t heap = some a) (hb : heapMin t (heap.erase a) = some b) :
    Forest s S (tableSet Config.nodeCap t n (mergeRec t a b)) ((heap.erase a).erase b ++ [n]) (n + 1) := by
  obtain ⟨a1, a2⟩ := heapMin_spec ha
  obtain ⟨b1, b2⟩ := heapMin_spec hb
  have hnd := F.nodup
  have hba : b ≠ a := fun h => by rw [h] at b1; exact (hnd.not_mem_erase) b1
  have b3 : b ∈ heap := List.mem_of_mem_erase b1
  have hab := a2 b b3 hba
  have han := F.below a a1
  have hbn := F.below b b3
  have hlen : (heap.erase a).length = heap.length - 1 := List.length_erase_of_mem a1
  have hlen2 : ((heap.erase a).erase b).length = heap.length - 1 - 1 := by rw [List.length_erase_of_mem b1, hlen]
  have hpos : 0 < (heap.erase a).length := List.length_pos_of_mem b1
  have hn : n < 513 := by have := F.len; omega
  have hlen0 := F.len
  have hmem : ∀ j, j ∈ (heap.erase a).erase b ↔ j ∈ heap ∧ j ≠ a ∧ j ≠ b := by
    intro j
    rw [(hnd.erase a).mem_erase_iff, hnd.mem_erase_iff]
    tauto
  set u := tableSet Config.nodeCap t n (mergeRec t a b) with hu
  have hne : ∀ j, j ≠ n → nodeIn u j = nodeIn t j := fun j hj => nodeIn_set_ne _ hj
  have hnew : nodeIn u n = mergeRec t a b := nodeIn_set_same _ hn
  have hchild : ∀ m, m ≠ n → ∀ j, Child u m j ↔ Child t m j := fun m hm j => by simp only [Child, hne m hm]
  have hchildn : ∀ j, Child u n j ↔ j = a ∨ j = b := by
    intro j
    have e1 : a % 2 ^ 10 = a := Nat.mod_eq_of_lt (by omega)
    have e2 : b % 2 ^ 10 = b := Nat.mod_eq_of_lt (by omega)
    simp only [Child, hnew, mergeRec, BitVec.toNat_ofNat, e1, e2, eq_comm]
  have hkey : ∀ i j, i ≠ n → j ≠ n → keyLt u i j = keyLt t i j := by
    intro i j hi hj
    simp only [keyLt, hne i hi, hne j hj]
  obtain ⟨G, g1, g2⟩ := F.trees
  -- the heap's trees, the two merged ones first
  have hperm : heap.Perm (a :: b :: (heap.erase a).erase b) :=
    (List.perm_cons_erase a1).trans ((List.perm_cons_erase b1).cons a)
  have hsyms : ((G a).syms ++ (G b).syms ++ ((heap.erase a).erase b).flatMap fun j => (G j).syms).Perm S := by
    refine List.Perm.trans ?_ g2
    have := (hperm.flatMap_right (fun j => (G j).syms)).symm
    simpa [List.flatMap_cons, List.append_assoc] using this
  have hw : (nodeIn t a).weight.toNat + (nodeIn t b).weight.toNat < 2 ^ 32 := by
    rw [(g1 a han).2, (g1 b hbn).2]
    have := (hsyms.map fun v => (freqAt s v).toNat).sum_eq
    simp only [List.map_append, List.sum_append] at this
    omega
  have hwn : ((nodeIn t a).weight + (nodeIn t b).weight).toNat = (nodeIn t a).weight.toNat + (nodeIn t b).weight.toNat := by
    rw [BitVec.toNat_add, Nat.mod_eq_of_lt hw]
  refine ⟨?_, ?_, ?_, ?_, ?_, ?_, ?_, ?_, ?_, ?_, ?_⟩
  · simp only [List.length_append, List.length_singleton, hlen2]
    omega
  · have := F.le; omega
  · rw [List.nodup_append]
    refine ⟨(hnd.erase a).erase b, by simp, ?_⟩
    intro x hx y hy
    have := F.below x ((hmem x).1 hx).1
    simp only [List.mem_singleton] at hy
    omega
  · intro j hj
    rcases List.mem_append.1 hj with hj | hj
    · have := F.below j ((hmem j).1 hj).1; omega
    · simp only [List.mem_singleton] at hj; omega
  · intro k hk
    have := F.le
    rw [hne k (by omega), F.leaves k hk]
  · intro m h1 h2
    by_cases hm : m = n
    · subst hm
      refine ⟨a, b, han, hbn, by rw [hkey a b (by omega) (by omega)]; exact hab, ?_, ?_⟩
      · rw [hnew, hne a (by omega), hne b (by omega), mergeRec]
      · rw [hnew, hne a (by omega), hne b (by omega), mergeRec, hwn]
    · obtain ⟨c, d, h3, h4, h5, h6, h7⟩ := F.inner m h1 (by omega)
      refine ⟨c, d, h3, h4, by rw [hkey c d (by omega) (by omega)]; exact h5, ?_, ?_⟩
      · rw [hne m hm, hne c (by omega), hne d (by omega), h6]
      · rw [hne m hm, hne c (by omega), hne d (by omega), h7]
  · intro j hj
    by_cases hjn : j = n
    · exact .inl (by simp [hjn])
    · rcases F.cover j (by omega) with h | ⟨m, h1, h2, h3⟩
      · by_cases hja : j = a ∨ j = b
        · exact .inr ⟨n, F.le, by omega, (hchildn j).2 hja⟩
        · exact .inl (List.mem_append_left _ ((hmem j).2 ⟨h, fun h => hja (.inl h), fun h => hja (.inr h)⟩))
      · exact .inr ⟨m, h1, by omega, (hchild m (by omega) j).2 h3⟩
  · intro m h1 h2 j hj
    by_cases hm : m = n
    · subst hm
      rcases (hchildn j).1 hj with rfl | rfl
      · refine ⟨?_, han⟩
        rw [List.mem_append, hmem]
        simp; omega
      · refine ⟨?_, hbn⟩
        rw [List.mem_append, hmem]
        simp; omega
    · obtain ⟨h3, h4⟩ := F.used m h1 (by omega) j ((hchild m hm j).1 hj)
      refine ⟨?_, h4⟩
      rw [List.mem_append, hmem]
      simp only [List.mem_singleton]
      rintro (h | h)
      · exact h3 h.1
      · omega
  · intro m m' j h1 h2 h3 h4 h5 h6
    by_cases hm : m = n <;> by_cases hm' : m' = n
    · omega
    · subst hm
      have := (F.used m' h3 (by omega) j ((hchild m' hm' j).1 h6)).1
      rcases (hchildn j).1 h5 with rfl | rfl
      · exact absurd a1 this
      · exact absurd b3 this
    · subst hm'
      have := (F.used m h1 (by omega) j ((hchild m hm j).1 h5)).1
      rcases (hchildn j).1 h6 with rfl | rfl
      · exact absurd a1 this
      · exact absurd b3 this
    · exact F.once m m' j h1 (by omega) h3 (by omega) ((hchild m hm j).1 h5) ((hchild m' hm' j).1 h6)
  · intro m h1 h2 j hj hno
    by_cases hm : m = n
    · subst hm
      have hjab : ¬ (j = a ∨ j = b) := fun h => hno m F.le (Nat.le_refl _) ((hchildn j).2 h)
      have hjh : j ∈ heap := by
        rcases F.cover j hj with h | ⟨m', k1, k2, k3⟩
        · exact h
        · exact absurd ((hchild m' (by omega) j).2 k3) (hno m' k1 (by omega))
      have hje : j ∈ heap.erase a := (hnd.mem_erase_iff).2 ⟨fun h => hjab (.inl h), hjh⟩
      have e2 : (nodeIn u m).right.toNat = b := by
        rw [hnew]
        simp only [mergeRec, BitVec.toNat_ofNat, idxW_eq]
        exact Nat.mod_eq_of_lt (by omega)
      rw [e2, hkey b j (by omega) (by omega)]
      exact b2 j hje (fun h => hjab (.inr h))
    · have hr := (F.used m h1 (by omega) _ (.inr rfl)).2
      rw [hne m hm, hkey _ _ (by omega) (by omega)]
      exact F.greedy m h1 (by omega) j hj (fun m' k1 k2 k3 => hno m' k1 k2 ((hchild m' (by omega) j).2 k3))
  · refine ⟨fun j => if j = n then .node (G a) (G b) else G j, fun j hj => ?_, ?_⟩
    · have hold : ∀ j < n, treeAt u (G j) j = true := fun j hj =>
        treeAt_congr_below F.closed (fun m hm => hne m (by omega)) (G j) j hj (g1 j hj).1
      by_cases hjn : j = n
      · subst hjn
        have e1 : a % 2 ^ 10 = a := Nat.mod_eq_of_lt (by omega)
        have e2 : b % 2 ^ 10 = b := Nat.mod_eq_of_lt (by omega)
        simp only [if_true, treeAt, hnew, mergeRec, BitVec.toNat_ofNat, e1, e2, hold a han, hold b hbn, hwn, HTree.syms,
          List.map_append, List.sum_append, (g1 a han).2, (g1 b hbn).2, Bool.not_false, Bool.and_self, and_self]
      · simp only [if_neg hjn, hne j hjn]
        exact ⟨hold j (by omega), (g1 j (by omega)).2⟩
    · have e : ((heap.erase a).erase b).flatMap (fun j => (if j = n then HTree.node (G a) (G b) else G j).syms) =
          ((heap.erase a).erase b).flatMap fun j => (G j).syms := by
        rw [List.flatMap_def, List.flatMap_def]
        congr 1
        refine List.map_congr_left fun j hj => ?_
        have := F.below j ((hmem j).1 hj).1
        rw [if_neg (by omega)]
      rw [List.flatMap_append, e]
      simp only [List.flatMap_cons, List.flatMap_nil, if_true, HTree.syms, List.append_nil]
      exact List.perm_append_comm.trans hsyms

theorem stageStep_build_merge {s : State} {L n : Nat} (h : s.phase = .merge L n) : stageStep .build s = buildIter L n s := by
  simp [stageStep, h]

/-- BUILD's loop, from any number of records in HEAP down to one (R81). -/
theorem build_run (s0 : State) (S : List Nat) (hL : S.length ≤ 257) (hsum : (S.map fun v => (freqAt s0 v).toNat).sum < 2 ^ 32)
    (k : Nat) (s : State) (n : Nat) (hp : s.phase = .merge S.length n) (hu : s.unsent = []) (hk : s.heap.length = k + 1)
    (F : Forest s0 S s.node s.heap n) :
    ∃ t, Forest s0 S t [2 * S.length - 2] (2 * S.length - 1) ∧
      (tableWf Config.nodeCap s.node = true → tableWf Config.nodeCap t = true) ∧
      (∀ j, 2 * S.length - 1 ≤ j → nodeIn t j = nodeIn s.node j) ∧
      stageRun .build (k + 1) s = .done { s with
        node := t, heap := [2 * S.length - 2], phase := .merge S.length (2 * S.length - 1)
        root := BitVec.ofNat 10 (2 * S.length - 2), nodeCount := BitVec.ofNat 10 (2 * S.length - 1)
        leafCount := BitVec.ofNat 9 S.length, treeSrc := .build, treeV := true } := by
  induction k generalizing s n with
  | zero =>
    have hlen := F.len
    have hn : n = 2 * S.length - 1 := by omega
    obtain ⟨r, hr⟩ := List.length_eq_one_iff.1 hk
    have hrn : r = n - 1 := by
      rcases F.cover (n - 1) (by omega) with h | ⟨m, h1, h2, h3⟩
      · rw [hr] at h; simp at h; omega
      · have := (F.used m h1 h2 _ h3).2; omega
    have hr2 : s.heap = [2 * S.length - 2] := by rw [hr, hrn, hn]; rfl
    refine ⟨s.node, ?_, id, fun _ _ => rfl, ?_⟩
    · rw [← hr2, ← hn]; exact F
    · refine stageRun_end 0 (passStep_of ?_ hu) (by simp)
      rw [stageStep_build_merge hp]
      simp only [buildIter, extractMin, hr2, heapMin, Option.map_some, List.erase_cons_head, Option.map_none, buildFinish]
      rw [hp.trans (by rw [hn] : Phase.merge S.length n = Phase.merge S.length (2 * S.length - 1))] at *
      cases s
      simp_all
  | succ k ih =>
    obtain ⟨a, ha⟩ := heapMin_isSome (t := s.node) (h := s.heap) (by intro h; rw [h] at hk; simp at hk)
    have ham := (heapMin_spec ha).1
    have hlen1 : (s.heap.erase a).length = k + 1 := by rw [List.length_erase_of_mem ham, hk]; rfl
    obtain ⟨b, hb⟩ := heapMin_isSome (t := s.node) (h := s.heap.erase a) (by intro h; rw [h] at hlen1; simp at hlen1)
    have hbm := (heapMin_spec hb).1
    have hM := F.merge hL hsum ha hb
    have hstep : stageStep .build s = .more { s with
        node := tableSet Config.nodeCap s.node n (mergeRec s.node a b)
        heap := (s.heap.erase a).erase b ++ [n], phase := .merge S.length (n + 1) } := by
      rw [stageStep_build_merge hp]
      simp only [buildIter, extractMin, ha, Option.map_some, hb]
    rw [stageRun_more _ (passStep_of hstep hu)]
    generalize hs1 : ({ s with node := _, heap := _, phase := _ } : State) = s1
    have hlen2 : ((s.heap.erase a).erase b).length = k := by rw [List.length_erase_of_mem hbm, hlen1]; rfl
    obtain ⟨t, t1, t2, t3, t4⟩ := ih s1 (n + 1) (by rw [← hs1]) (by rw [← hs1]; exact hu) (by rw [← hs1]; simp [hlen2]) (by rw [← hs1]; exact hM)
    have hlen := F.len
    refine ⟨t, t1, fun hw => t2 (by rw [← hs1]; exact tableSet_wf _ _ _ hw), fun j hj => ?_, ?_⟩
    · rw [t3 j hj, ← hs1]
      exact nodeIn_set_ne _ (by omega)
    · rw [t4, ← hs1]

/-- BUILD where its symbols are at least two and their counts fit a word (R81). -/
theorem build_stage (s : State) (hp : s.phase = .enter) (hu : s.unsent = []) (hv : s.freqV = true) (h2 : 2 ≤ (buildSymbols s).length)
    (hL : (buildSymbols s).length ≤ 257) (hS : ∀ v ∈ buildSymbols s, v < 512)
    (hsum : ((buildSymbols s).map fun v => (freqAt s v).toNat).sum < 2 ^ 32) :
    ∃ t, Forest s (buildSymbols s) t [2 * (buildSymbols s).length - 2] (2 * (buildSymbols s).length - 1) ∧
      (tableWf Config.nodeCap s.node = true → tableWf Config.nodeCap t = true) ∧
      (∀ j, 2 * (buildSymbols s).length - 1 ≤ j → nodeIn t j = nodeIn s.node j) ∧
      stageRun .build ((buildSymbols s).length + 1) s = .done { s with
        treeV := true, codeV := false, decState := .idle, treeSrc := .build, node := t
        heap := [2 * (buildSymbols s).length - 2], phase := .merge (buildSymbols s).length (2 * (buildSymbols s).length - 1)
        root := BitVec.ofNat 10 (2 * (buildSymbols s).length - 2), nodeCount := BitVec.ofNat 10 (2 * (buildSymbols s).length - 1)
        leafCount := BitVec.ofNat 9 (buildSymbols s).length } := by
  generalize hSy : buildSymbols s = S at *
  have hstep : stageStep .build s = .more { s with
      treeV := false, codeV := false, decState := .idle
      node := writeLeaves s 0 S s.node, heap := List.range S.length, phase := .merge S.length S.length } := by
    simp [stageStep, hp, buildEnter, checked, precondition, hv, hSy]
  obtain ⟨k, hk⟩ : ∃ k, S.length = k + 1 := ⟨S.length - 1, by omega⟩
  obtain ⟨w1, w2, w3⟩ := writeLeaves_spec s 0 S s.node (by omega)
  rw [stageRun_more _ (passStep_of hstep hu)]
  generalize hs1 : ({ s with treeV := _, codeV := _, decState := _, node := _, heap := _, phase := _ } : State) = s1
  obtain ⟨t, t1, t2, t3, t4⟩ := build_run s S hL hsum k s1 S.length (by rw [← hs1]) (by rw [← hs1]; exact hu) (by rw [← hs1]; simp [hk])
    (by rw [← hs1]; exact Forest.start s S s.node hL hS)
  refine ⟨t, t1, fun hw => t2 (by rw [← hs1]; exact w3 hw), fun j hj => ?_, ?_⟩
  · rw [t3 j hj, ← hs1]
    exact w2 j (.inr (by omega))
  · rw [hk, t4, ← hs1, hk]

/-! ## The symbols of a count (R81, R82) -/

/-- The symbols with a count, ascending. -/
def counted (s : State) : List Nat := (List.range Config.nsym).filter fun i => freqAt s i != 0#32

theorem sum_filter_ne_zero (f : Nat → Nat) (p : Nat → Bool) (hp : ∀ i, p i = false → f i = 0) (l : List Nat) :
    ((l.filter p).map f).sum = (l.map f).sum := by
  induction l with
  | nil => rfl
  | cons i l ih =>
    by_cases h : p i = true
    · rw [List.filter_cons_of_pos h, List.map_cons, List.sum_cons, ih, List.map_cons, List.sum_cons]
    · rw [List.filter_cons_of_neg h, ih, List.map_cons, List.sum_cons, hp i (by simpa using h), Nat.zero_add]

theorem counted_sum (s : State) : ((counted s).map fun v => (freqAt s v).toNat).sum = freqTotal s := by
  refine sum_filter_ne_zero _ _ (fun i hi => ?_) _
  have : freqAt s i = 0#32 := by simpa using hi
  rw [this]
  rfl

theorem mem_counted {s : State} {v : Nat} : v ∈ counted s ↔ v < 257 ∧ freqAt s v ≠ 0#32 := by
  simp [counted, Config.nsym]

theorem counted_nodup (s : State) : (counted s).Nodup := List.Nodup.filter _ List.nodup_range

theorem counted_length (s : State) : (counted s).length ≤ 257 := by
  refine (List.length_filter_le _ _).trans ?_
  simp [Config.nsym]

/-- What BUILD needs of FREQ, and all of it that FREQ_V stands for (R28, R81, R82, R84). -/
theorem buildSymbols_of_countHolds {s : State} (h : countHolds s) :
    2 ≤ (buildSymbols s).length ∧ (buildSymbols s).length ≤ 257 ∧ (∀ v ∈ buildSymbols s, v ≤ 256) ∧
    (buildSymbols s).Nodup ∧ 256 ∈ buildSymbols s ∧
    ((buildSymbols s).map fun v => (freqAt s v).toNat).sum = s.inCount.toNat + 1 := by
  obtain ⟨h1, h2, h3, h4⟩ := h
  have hs := counted_sum s
  have hm : 256 ∈ counted s := by
    rw [mem_counted]
    exact ⟨by omega, by rw [show freqAt s 256 = 1#32 from h2]; simp⟩
  have hpos := List.length_pos_of_mem hm
  have hb : buildSymbols s = if (counted s).length = 1 then 0 :: counted s else counted s := rfl
  by_cases hl : (counted s).length = 1
  · rw [hb, if_pos hl]
    obtain ⟨v, hv⟩ := List.length_eq_one_iff.1 hl
    have hv2 : v = 256 := by rw [hv, List.mem_singleton] at hm; exact hm.symm
    have h0 : 0 ∉ counted s := by rw [hv, hv2]; simp
    have hz : freqAt s 0 = 0#32 := by
      rw [mem_counted] at h0
      by_contra hne
      exact h0 ⟨by omega, hne⟩
    refine ⟨by simp [hl], by simp [hl], ?_, ?_, by simp [hm], ?_⟩
    · intro w hw
      rcases List.mem_cons.1 hw with rfl | hw
      · omega
      · have := (mem_counted.1 hw).1; omega
    · exact List.nodup_cons.2 ⟨h0, counted_nodup s⟩
    · rw [List.map_cons, List.sum_cons, hs, h3, hz]
      simp
  · rw [hb, if_neg hl]
    refine ⟨by omega, counted_length s, ?_, counted_nodup s, hm, by rw [hs, h3]⟩
    intro w hw
    have := (mem_counted.1 hw).1
    omega

/-- The tree BUILD leaves at ROOT: its leaves are the symbols, each once, and its records are all of them (R83 d, R30 d). -/
theorem Forest.tree {s : State} {S : List Nat} {t : Table NodeRec} (F : Forest s S t [2 * S.length - 2] (2 * S.length - 1))
    (h2 : 2 ≤ S.length) :
    ∃ l r, treeAt t (.node l r) (2 * S.length - 2) = true ∧ (HTree.node l r).syms.Perm S ∧
      (HTree.node l r).size = 2 * S.length - 1 := by
  obtain ⟨G, g1, g2⟩ := F.trees
  have hlt : 2 * S.length - 2 < 2 * S.length - 1 := by omega
  have hroot := (g1 _ hlt).1
  simp only [List.flatMap_cons, List.flatMap_nil, List.append_nil] at g2
  have hsize := (G (2 * S.length - 2)).size_eq
  rw [HTree.leaves, g2.length_eq] at hsize
  cases hG : G (2 * S.length - 2) with
  | leaf v => rw [hG] at hsize; simp [HTree.size] at hsize; omega
  | node l r => rw [hG] at hroot g2 hsize; exact ⟨l, r, hroot, g2, by omega⟩

/-- COUNT's table is what R28 says of FREQ. -/
theorem sum_count_bytes (bytes : List Byte) :
    ((List.range 256).map fun i => bytes.count (BitVec.ofNat 8 i)).sum = bytes.length := by
  induction bytes with
  | nil =>
    have : ∀ l : List Nat, (l.map fun i => ([] : List Byte).count (BitVec.ofNat 8 i)).sum = 0 := by
      intro l; induction l <;> simp_all
    exact this _
  | cons b bs ih =>
    have : ∀ l : List Nat, (∀ i ∈ l, i < 256) → l.Nodup →
        (l.map fun i => (b :: bs).count (BitVec.ofNat 8 i)).sum =
          (l.map fun i => bs.count (BitVec.ofNat 8 i)).sum + if b.toNat ∈ l then 1 else 0 := by
      intro l
      induction l with
      | nil => simp
      | cons i l ihl =>
        intro h1 h2
        have hi := h1 i (by simp)
        rw [List.nodup_cons] at h2
        rw [List.map_cons, List.sum_cons, ihl (fun j hj => h1 j (by simp [hj])) h2.2, List.map_cons, List.sum_cons,
          List.count_cons]
        simp only [List.mem_cons]
        by_cases hb : b.toNat = i
        · have h3 : b = BitVec.ofNat 8 i := by rw [← hb]; simp
          have h4 : (b == BitVec.ofNat 8 i) = true := by rw [← h3]; simp
          rw [if_pos h4, if_neg (by rw [hb]; exact h2.1), if_pos (.inl hb)]
          omega
        · have h3 : ¬ b = BitVec.ofNat 8 i := fun h => hb (by rw [h]; simp; omega)
          simp [h3, hb]
          omega
    rw [this _ (by simp) List.nodup_range, ih]
    have hb : b.toNat < 256 := b.isLt
    simp [hb]

theorem countHolds_freqOf {s : State} {bytes : List Byte} (hl : bytes.length ≤ 2 ^ 32 - 2) (hf : s.freq = freqOf bytes)
    (hc : s.inCount = BitVec.ofNat 32 bytes.length) : countHolds s := by
  have hn : s.inCount.toNat = bytes.length := by rw [hc, BitVec.toNat_ofNat, cntW_eq]; omega
  refine ⟨fun i hi => ?_, ?_, ?_, by rw [hn]; simp [Config.maxIn]; omega⟩
  · simp only [Config.nsym] at hi
    rw [hf, tableGet_freqOf]
    split
    · rfl
    · rw [if_pos (by omega)]; rfl
  · rw [freqAt, hf, tableGet_freqOf]; rfl
  · have h1 : freqTotal s = ((List.range 256).map fun i => (freqAt s i).toNat).sum + (freqAt s 256).toNat := by
      rw [freqTotal, show Config.nsym = 256 + 1 from rfl, List.range_succ, List.map_append, List.sum_append]
      rfl
    have h2 : freqAt s 256 = 1#32 := by rw [freqAt, hf, tableGet_freqOf]; rfl
    have h3 : (List.range 256).map (fun i => (freqAt s i).toNat) =
        (List.range 256).map fun i => bytes.count (BitVec.ofNat 8 i) := by
      refine List.map_congr_left fun i hi => ?_
      have := List.mem_range.1 hi
      have hle : bytes.count (BitVec.ofNat 8 i) ≤ bytes.length := List.count_le_length
      rw [freqAt, hf, tableGet_freqOf, if_pos this, Option.getD_some, BitVec.toNat_ofNat, cntW_eq]
      omega
    rw [h1, h2, h3, sum_count_bytes, hn]
    rfl

end Sys2Proof.Machine
end

