-- ==== Sys2Proof/Laws/Composites.lean ====
section
/-! SUPPORT. Running one stage after another (R96, R101, R126): what a stage's end means for the run of the command. -/

namespace Sys2Proof.Machine

/-- The sequencer takes `s` to `t` in at most the steps of `n` passes, whatever it does after. -/
def Leads (n : Nat) (s t : State) : Prop := ∃ k ≤ 513 * n, ∀ m, runFor (k + m) s = runFor m t

theorem Leads.trans {m n : Nat} {s t u : State} (h : Leads m s t) (k : Leads n t u) : Leads (m + n) s u := by
  obtain ⟨a, ha, h⟩ := h
  obtain ⟨b, hb, k⟩ := k
  exact ⟨a + b, by omega, fun c => by rw [Nat.add_assoc, h, k]⟩

/-- A command that leads to an idle state ends there. -/
theorem command_of_leads {i : Instr} {s t : State} {n : Nat} (h : Ready s) (hl : Leads n (accept i s) t)
    (hn : 513 * n ≤ 8192 * s.inp.data.length + 2097152) (ht : t.seq = .idle) : command i s = t := by
  obtain ⟨k, hk, hrun⟩ := hl
  rw [command_ready i h]
  exact runFor_mono (hrun 0) ht (by omega)

/-- A stage that is not the last of its command enters the next one (R96 Stage(op)). -/
theorem leads_next {cmd stage st : Instr} {s t : State} {n : Nat} (hs : s.seq = .running cmd stage)
    (hu : s.unsent = []) (hr : stageRun stage n s = .done t) (hn : nextStage cmd stage = some st) :
    Leads n s { t with seq := .running cmd st, phase := .enter } := by
  obtain ⟨k, hk, h⟩ := runFor_stageRun (cmd := cmd) (by simp) n hs hu hr
  refine ⟨k, hk, fun m => ?_⟩
  rw [h m, settle_done (t := t) (stageRun_unsent n hu hr), stageEnded, hn]

/-- The last stage of a command completes it (R72). -/
theorem leads_complete {cmd stage : Instr} {s t : State} {n : Nat} (hs : s.seq = .running cmd stage)
    (hu : s.unsent = []) (hr : stageRun stage n s = .done t) (hn : nextStage cmd stage = none) : Leads n s (complete t) := by
  obtain ⟨k, hk, h⟩ := runFor_stageRun (cmd := cmd) (by simp) n hs hu hr
  refine ⟨k, hk, fun m => ?_⟩
  rw [h m, settle_done (t := t) (stageRun_unsent n hu hr), stageEnded, hn]

/-- A stage that raises ends its command (R106). -/
theorem leads_raise {cmd stage : Instr} {s t : State} {n : Nat} {e : ErrCode} {info : Word} (hs : s.seq = .running cmd stage)
    (hu : s.unsent = []) (hr : stageRun stage n s = .raise e info t) : Leads n s (raiseError e info t) := by
  obtain ⟨k, hk, h⟩ := runFor_stageRun (cmd := cmd) (by simp) n hs hu hr
  exact ⟨k, hk, h⟩

end Sys2Proof.Machine
end

