-- ==== Sys2Proof/Laws/HeaderScan.lean ====
section
/-! SUPPORT. DESERIALIZE over a header that does not end whole (R91, R108): the passes of Get one by one, and where `scanHeader`
says the reading ends, the error, the header bits consumed and the reads made are those of the machine. -/

namespace Sys2Proof.Machine

/-- DESERIALIZE at `u`, `b` header bits and `r` reads after `s`: what else it changed is the tree and the scratch. -/
def ReadOn (s u : State) (b r : Nat) : Prop :=
  u = { s with
    hdrBits := s.hdrBits + BitVec.ofNat 32 b
    inp := ⟨s.inp.data, s.inp.pos + BitVec.ofNat 40 b, s.inp.ioDraws.drop r⟩
    node := u.node, nodeCount := u.nodeCount, leafCount := u.leafCount, dstack := u.dstack, phase := u.phase }

theorem ReadOn.trans {s u v : State} {b c q r : Nat} (h : ReadOn s u b q) (k : ReadOn u v c r) : ReadOn s v (b + c) (q + r) := by
  rw [ReadOn] at h k ⊢
  rw [h] at k
  simp only [List.drop_drop] at k
  rw [k, BitVec.ofNat_add, BitVec.ofNat_add, BitVec.add_assoc, BitVec.add_assoc]

/-- What DSTACK says of the subtrees still to be read, `k` of them, before record `n`: one for the record itself and one for
each record waiting for its left subtree, or too many for NODE (R33). -/
def Waits (st : List Frame) (n k : Nat) : Prop :=
  st.length ≤ 257 ∧ 1 + waitingLefts st ≤ k ∧
  ((k = 1 + waitingLefts st ∧ 2 * st.length ≤ n + waitingLefts st) ∨ 513 < n + 1 + waitingLefts st)

/-- An internal record has one more subtree wait. -/
theorem Waits.internal {st : List Frame} {n k : Nat} {i : BitVec 10} (h : Waits st n k) :
    Waits (pushFrames [.awaitLeft i] st) (n + 1) (k + 1) := by
  obtain ⟨h1, h2, h3⟩ := h
  refine ⟨pushFrames_length _ _, ?_, ?_⟩
  · have := (waitingLefts_take 256 st).1
    have h4 : waitingLefts (st.take 256) ≤ waitingLefts st := by
      clear this h1 h2 h3
      generalize 256 = m
      induction st generalizing m with
      | nil => simp
      | cons f st ih =>
        cases m with
        | zero => simp [waitingLefts]
        | succ m => have := ih m; cases f <;> simp only [List.take_succ_cons, waitingLefts] <;> omega
    have e : pushFrames [.awaitLeft i] st = .awaitLeft i :: st.take 256 := rfl
    rw [e, waitingLefts]
    omega
  · have e : pushFrames [.awaitLeft i] st = .awaitLeft i :: st.take 256 := rfl
    have h5 := waitingLefts_take 256 st
    have h6 := waitingLefts_le st
    rw [e, waitingLefts, List.length_cons, List.length_take]
    by_cases hl : st.length ≤ 256
    · have e2 : st.take 256 = st := List.take_of_length_le hl
      rw [e2] at h5 ⊢
      omega
    · omega

/-- A leaf ends one wait, unless it is the last record of the whole tree. -/
theorem Waits.leaf {st : List Frame} {n k : Nat} (h : Waits st n (k + 1)) (hn : n < 513) (hk : 0 < k) (i : BitVec 10)
    (t : Table NodeRec) : ∃ t' st', returnNode i st t = (t', st', none) ∧ Waits st' (n + 1) k := by
  obtain ⟨h1, h2, h3⟩ := h
  rcases returnNode_lefts i st t with ⟨h0, -⟩ | ⟨t', st', k1, k2, k3⟩
  · omega
  · exact ⟨t', st', k1, by omega, by omega, by omega⟩

/-! ## The passes of Get (R91) -/

section Passes

variable {s : State} {i : BitVec 10}

theorem deserialize_pass_io (hp : s.phase = .body) (hu : s.unsent = []) (hd : s.inp.ioDraws.headD false = true) :
    passStep .deserialize s =
      deserializeRaise .eFmtIo 0#32 { s with inp := { s.inp with ioDraws := s.inp.ioDraws.tail } } := by
  refine passStep_of ?_ hu
  rw [stageStep_deserialize_body hp, deserializeIter, readBits_ioErr 1 s.inp hd]

theorem deserialize_pass_eos (hp : s.phase = .body) (hu : s.unsent = []) (hd : s.inp.ioDraws.headD false = false)
    (hl : 8 * s.inp.data.length < s.inp.pos.toNat + 1) :
    passStep .deserialize s =
      deserializeRaise .eFmtHdrTrunc s.hdrBits { s with inp := { s.inp with ioDraws := s.inp.ioDraws.tail } } := by
  refine passStep_of ?_ hu
  rw [stageStep_deserialize_body hp, deserializeIter, readBits_eos 1 s.inp hd hl]

/-- The node bit of one record too many. -/
theorem deserialize_bit_full (hp : s.phase = .body) (hu : s.unsent = []) (hd : s.inp.ioDraws.getD 0 false = false)
    (hpos : s.inp.pos.toNat ≤ 8 * s.inp.data.length) {b : Bool} {w : List Bool} (hr : inRest s.inp = [b] ++ w)
    (hn : s.nodeCount.toNat = Config.nodeCap) :
    passStep .deserialize s = deserializeRaise .eFmtTreeTooLarge 513#32
      { s with inp := ⟨s.inp.data, s.inp.pos + BitVec.ofNat 40 1, s.inp.ioDraws.tail⟩, hdrBits := s.hdrBits + 1#32 } := by
  have h := readBits_prefix 1 s.inp [b] w rfl hpos hr hd
  refine passStep_of ?_ hu
  rw [stageStep_deserialize_body hp]
  simp only [deserializeIter, h]
  exact if_pos hn

/-- The node bit of an internal record. -/
theorem deserialize_bit_internal (hp : s.phase = .body) (hu : s.unsent = []) (hd : s.inp.ioDraws.getD 0 false = false)
    (hpos : s.inp.pos.toNat ≤ 8 * s.inp.data.length) {w : List Bool} (hr : inRest s.inp = [false] ++ w)
    (hn : s.nodeCount.toNat ≠ Config.nodeCap) :
    passStep .deserialize s = .more { s with
      inp := ⟨s.inp.data, s.inp.pos + BitVec.ofNat 40 1, s.inp.ioDraws.tail⟩, hdrBits := s.hdrBits + 1#32
      nodeCount := s.nodeCount + 1#10
      node := tableSet Config.nodeCap s.node s.nodeCount.toNat ⟨false, 0#9, 0#32, 0#10, 0#10⟩
      dstack := pushFrames [.awaitLeft s.nodeCount] s.dstack } := by
  have h := readBits_prefix 1 s.inp [false] w rfl hpos hr hd
  refine passStep_of ?_ hu
  rw [stageStep_deserialize_body hp]
  simp only [deserializeIter, h]
  rw [if_neg hn]
  rfl

/-- The node bit of a leaf. -/
theorem deserialize_bit_leaf (hp : s.phase = .body) (hu : s.unsent = []) (hd : s.inp.ioDraws.getD 0 false = false)
    (hpos : s.inp.pos.toNat ≤ 8 * s.inp.data.length) {w : List Bool} (hr : inRest s.inp = [true] ++ w)
    (hn : s.nodeCount.toNat ≠ Config.nodeCap) :
    passStep .deserialize s = .more { s with
      inp := ⟨s.inp.data, s.inp.pos + BitVec.ofNat 40 1, s.inp.ioDraws.tail⟩, hdrBits := s.hdrBits + 1#32
      nodeCount := s.nodeCount + 1#10, phase := .field s.nodeCount } := by
  have h := readBits_prefix 1 s.inp [true] w rfl hpos hr hd
  refine passStep_of ?_ hu
  rw [stageStep_deserialize_body hp]
  simp only [deserializeIter, h]
  rw [if_neg hn]
  rfl

theorem deserialize_field_io (hp : s.phase = .field i) (hu : s.unsent = []) (hd : s.inp.ioDraws.headD false = true) :
    passStep .deserialize s =
      deserializeRaise .eFmtIo 0#32 { s with inp := { s.inp with ioDraws := s.inp.ioDraws.tail } } := by
  refine passStep_of ?_ hu
  rw [stageStep_deserialize_field hp, deserializeField, Config.leafBits, readBits_ioErr 9 s.inp hd]

theorem deserialize_field_eos (hp : s.phase = .field i) (hu : s.unsent = []) (hd : s.inp.ioDraws.headD false = false)
    (hl : 8 * s.inp.data.length < s.inp.pos.toNat + 9) :
    passStep .deserialize s =
      deserializeRaise .eFmtHdrTrunc s.hdrBits { s with inp := { s.inp with ioDraws := s.inp.ioDraws.tail } } := by
  refine passStep_of ?_ hu
  rw [stageStep_deserialize_field hp, deserializeField, Config.leafBits, readBits_eos 9 s.inp hd hl]

/-- The leaf field of no Symbol (R66, R91). -/
theorem deserialize_field_bad (hp : s.phase = .field i) (hu : s.unsent = []) (hd : s.inp.ioDraws.getD 0 false = false)
    (hpos : s.inp.pos.toNat ≤ 8 * s.inp.data.length) {f w : List Bool} (hf : f.length = 9) (hr : inRest s.inp = f ++ w)
    (hv : bitsToNat f > 256) :
    passStep .deserialize s = deserializeRaise .eFmtBadLeaf (BitVec.ofNat 32 (bitsToNat f))
      { s with inp := ⟨s.inp.data, s.inp.pos + BitVec.ofNat 40 9, s.inp.ioDraws.tail⟩, hdrBits := s.hdrBits + 9#32 } := by
  have h := readBits_prefix 9 s.inp f w hf hpos hr hd
  refine passStep_of ?_ hu
  rw [stageStep_deserialize_field hp]
  simp only [deserializeField, Config.leafBits, h]
  exact if_pos hv

/-- The leaf field of a Symbol: the leaf's record and the return, where something still waits (R91). -/
theorem deserialize_field_leaf (hp : s.phase = .field i) (hu : s.unsent = []) (hd : s.inp.ioDraws.getD 0 false = false)
    (hpos : s.inp.pos.toNat ≤ 8 * s.inp.data.length) {f w : List Bool} (hf : f.length = 9) (hr : inRest s.inp = f ++ w)
    (hv : bitsToNat f ≤ 256) {t' : Table NodeRec} {st' : List Frame}
    (hst : returnNode i s.dstack (tableSet Config.nodeCap s.node i.toNat ⟨true, BitVec.ofNat 9 (bitsToNat f), 0#32, 0#10, 0#10⟩) =
      (t', st', none)) :
    passStep .deserialize s = .more { s with
      inp := ⟨s.inp.data, s.inp.pos + BitVec.ofNat 40 9, s.inp.ioDraws.tail⟩, hdrBits := s.hdrBits + 9#32
      node := t', dstack := st', leafCount := s.leafCount + 1#9, phase := .body } := by
  have h := readBits_prefix 9 s.inp f w hf hpos hr hd
  refine passStep_of ?_ hu
  rw [stageStep_deserialize_field hp]
  simp only [deserializeField, Config.leafBits, h, deserializeLeaf]
  rw [if_neg (show ¬ bitsToNat f > Config.pseudoEof from Nat.not_lt.2 hv), hst]

end Passes

theorem headD_eq_getD (l : List Bool) : l.headD false = l.getD 0 false := by cases l <;> rfl

/-- A read that moves nothing (R48). -/
theorem readOn_fail (s : State) : ReadOn s { s with inp := { s.inp with ioDraws := s.inp.ioDraws.tail } } 0 1 := by
  simp [ReadOn]

theorem stageRun_raise {s v : State} {e : ErrCode} {info : Word} (j : Nat)
    (h : passStep .deserialize s = deserializeRaise e info v) :
    stageRun .deserialize (1 + j) s = deserializeRaise e info v := by
  rw [Nat.add_comm]
  exact stageRun_end j h (by simp [deserializeRaise])

/-- A read that moves on by `b` bits. -/
theorem readOn_some (s : State) (b r : Nat) {d : List Bool} (hd : d = s.inp.ioDraws.drop r) :
    ReadOn s { s with
      inp := ⟨s.inp.data, s.inp.pos + BitVec.ofNat 40 b, d⟩, hdrBits := s.hdrBits + BitVec.ofNat 32 b } b r := by
  subst hd
  rfl

/-- What `scanHeader` says where a leaf's node bit was read, in the machine's terms. -/
theorem leafBit {F : Nat → Bool} {n r : Nat} {bit : Bool} {w : List Bool} {s : State} (hF : ¬ F r = true)
    (hn1 : ¬ n = Config.nodeCap) (hb : ¬ (!bit) = true) (hn : s.nodeCount.toNat = n)
    (hd : ∀ j, s.inp.ioDraws.getD j false = F (r + j)) (hr : inRest s.inp = bit :: w) :
    s.nodeCount.toNat ≠ Config.nodeCap ∧ s.inp.ioDraws.getD 0 false = false ∧ inRest s.inp = [true] ++ w := by
  refine ⟨by rw [hn]; exact hn1, by rw [hd 0]; simpa using hF, ?_⟩
  have : bit = true := by simpa using hb
  rw [hr, this]
  rfl

/-- Where the reading of a header does not end whole, DESERIALIZE raises as it says: the same error, header bits and reads
(R91, R25, R108 4). The reads bound the passes. -/
theorem deserialize_scan (F : Nat → Bool) (k n b r : Nat) (w : List Bool) (s : State) (hp : s.phase = .body)
    (hu : s.unsent = []) (hf : s.inp.data.length ≤ Config.maxAttach)
    (hr : inRest s.inp = w) (hd : ∀ j, s.inp.ioDraws.getD j false = F (r + j)) (hh : s.hdrBits = BitVec.ofNat 32 b)
    (hn : s.nodeCount.toNat = n) (hn5 : n ≤ 513)
    (hw : Waits s.dstack n k) (he : (scanHeader F k n b r w).ending ≠ .whole) :
    b ≤ (scanHeader F k n b r w).bits ∧ r < (scanHeader F k n b r w).reads ∧
    (scanHeader F k n b r w).reads + 2 * n ≤ r + 1028 ∧
    ∀ j, ∃ u, ReadOn s u ((scanHeader F k n b r w).bits - b) ((scanHeader F k n b r w).reads - r) ∧
      stageRun .deserialize ((scanHeader F k n b r w).reads - r + j) s =
        deserializeRaise (scanHeader F k n b r w).ending.error ((scanHeader F k n b r w).ending.info (scanHeader F k n b r w).bits) u := by
  have e1 : ∀ a : Nat, a + 1 - a = 1 := fun a => by omega
  have e2 : ∀ a : Nat, a + 2 - a = 2 := fun a => by omega
  have ew : ∀ {s : State}, inRest s.inp = [] → 8 * s.inp.data.length < s.inp.pos.toNat + 1 := fun h => by
    have := congrArg List.length h
    rw [inRest_length, List.length_nil] at this
    omega
  have ep : ∀ {s : State} {c : Bool} {w : List Bool}, inRest s.inp = c :: w → s.inp.pos.toNat ≤ 8 * s.inp.data.length :=
    fun h => by
      have := congrArg List.length h
      rw [inRest_length, List.length_cons] at this
      omega
  fun_induction scanHeader F k n b r w generalizing s with
  | case1 => exact absurd rfl he
  | case2 n x b r =>
    have h0 := hd 0
    rw [Nat.add_zero, ← headD_eq_getD] at h0
    refine ⟨Nat.le_refl _, Nat.lt_succ_self _, by dsimp only; omega, fun j => ?_⟩
    simp only [Nat.sub_self, e1]
    refine ⟨_, readOn_fail s, stageRun_raise j ?_⟩
    cases hF : F r with
    | true => rw [if_pos rfl]; exact deserialize_pass_io hp hu (h0.trans hF)
    | false => rw [if_neg (by decide)]; rw [HeaderEnd.info, ← hh]; exact deserialize_pass_eos hp hu (h0.trans hF) (ew hr)
  | case3 k n b r bit w hF =>
    have h0 := hd 0
    rw [Nat.add_zero, ← headD_eq_getD] at h0
    refine ⟨Nat.le_refl _, Nat.lt_succ_self _, by dsimp only; omega, fun j => ?_⟩
    simp only [Nat.sub_self, e1]
    exact ⟨_, readOn_fail s, stageRun_raise j (deserialize_pass_io hp hu (h0.trans hF))⟩
  | case4 k b r bit w hF =>
    have hpos := ep hr
    have h0 : s.inp.ioDraws.getD 0 false = false := by rw [hd 0]; simpa using hF
    refine ⟨Nat.le_succ _, Nat.lt_succ_self _, by dsimp only [Config.nodeCap]; omega, fun j => ?_⟩
    simp only [e1]
    exact ⟨_, readOn_some s 1 1 (by simp), stageRun_raise j (deserialize_bit_full hp hu h0 hpos hr hn)⟩
  | case5 k n b r bit w hF hn1 hb ih =>
    have hpos := ep hr
    simp only [Config.nodeCap] at hn1
    have hb' : bit = false := by simpa using hb
    subst hb'
    have h0 : s.inp.ioDraws.getD 0 false = false := by rw [hd 0]; simpa using hF
    have hpass := deserialize_bit_internal hp hu h0 hpos hr (by rw [hn]; exact hn1)
    obtain ⟨k1, k2, k3⟩ := inRest_after s.inp [false] w hf hpos hr s.inp.ioDraws.tail
    generalize hs1 : ({ s with inp := _, hdrBits := _, nodeCount := _, node := _, dstack := _ } : State) = s1 at hpass
    have hon : ReadOn s s1 1 1 := by rw [← hs1]; simp [ReadOn]
    obtain ⟨i1, i2, i3, i4⟩ := ih s1 (by rw [← hs1]; exact hp) (by rw [← hs1]; exact hu) (by rw [← hs1]; exact hf)
      (by rw [← hs1]; exact k1)
      (fun j => by
        rw [← hs1]
        show s.inp.ioDraws.tail.getD j false = _
        rw [getD_tail, hd (j + 1)]
        congr 1
        omega)
      (by rw [← hs1, BitVec.ofNat_add, ← hh])
      (by rw [← hs1]; simp [BitVec.toNat_add]; omega) (by omega) (by rw [← hs1]; exact hw.internal) he
    refine ⟨by omega, by omega, by omega, fun j => ?_⟩
    obtain ⟨u, u1, u2⟩ := i4 j
    refine ⟨u, ?_, ?_⟩
    · have := hon.trans u1
      rwa [show 1 + ((scanHeader F (k + 2) (n + 1) (b + 1) (r + 1) w).bits - (b + 1)) =
          (scanHeader F (k + 2) (n + 1) (b + 1) (r + 1) w).bits - b by omega,
        show 1 + ((scanHeader F (k + 2) (n + 1) (b + 1) (r + 1) w).reads - (r + 1)) =
          (scanHeader F (k + 2) (n + 1) (b + 1) (r + 1) w).reads - r by omega] at this
    · rw [show (scanHeader F (k + 2) (n + 1) (b + 1) (r + 1) w).reads - r + j =
        ((scanHeader F (k + 2) (n + 1) (b + 1) (r + 1) w).reads - (r + 1) + j) + 1 by omega, stageRun_more _ hpass, u2]
  | case6 k n b r bit w hF hn1 hb hF1 =>
    have hpos := ep hr
    obtain ⟨hn', h0, hr1⟩ := leafBit hF hn1 hb hn hd hr
    have hpass := deserialize_bit_leaf hp hu h0 hpos hr1 hn'
    generalize hs1 : ({ s with inp := _, hdrBits := _, nodeCount := _, phase := _ } : State) = s1 at hpass
    have hon : ReadOn s s1 1 1 := by rw [← hs1]; simp [ReadOn]
    refine ⟨Nat.le_succ _, by dsimp only; omega, by dsimp only; omega, fun j => ?_⟩
    simp only [e1, e2]
    refine ⟨_, hon.trans (readOn_fail s1), ?_⟩
    rw [show 2 + j = (1 + j) + 1 by omega, stageRun_more _ hpass]
    refine stageRun_raise j (deserialize_field_io (i := s.nodeCount) (by rw [← hs1]) (by rw [← hs1]; exact hu) ?_)
    rw [← hs1, headD_eq_getD]
    show s.inp.ioDraws.tail.getD 0 false = true
    rw [getD_tail, hd]
    exact hF1
  | case7 k n b r bit hF hn1 hb hF1 b8 b7 b6 b5 b4 b3 b2 b1 b0 rest v hv =>
    have hpos := ep hr
    obtain ⟨hn', h0, hr1⟩ := leafBit hF hn1 hb hn hd hr
    have hpass := deserialize_bit_leaf hp hu h0 hpos hr1 hn'
    obtain ⟨k1, k2, k3⟩ := inRest_after s.inp [true] _ hf hpos hr1 s.inp.ioDraws.tail
    generalize hs1 : ({ s with inp := _, hdrBits := _, nodeCount := _, phase := _ } : State) = s1 at hpass
    have hon : ReadOn s s1 1 1 := by rw [← hs1]; simp [ReadOn]
    refine ⟨by dsimp only [Config.leafBits]; omega, by dsimp only; omega, by dsimp only; omega, fun j => ?_⟩
    have hbad := deserialize_field_bad (s := s1) (i := s.nodeCount) (f := [b8, b7, b6, b5, b4, b3, b2, b1, b0]) (w := rest)
      (by rw [← hs1]) (by rw [← hs1]; exact hu)
      (by rw [← hs1]; show s.inp.ioDraws.tail.getD 0 false = false; rw [getD_tail, hd]; simpa using hF1)
      (by rw [← hs1]; exact (le_of_eq k2).trans k3) rfl (by rw [← hs1]; exact k1) hv
    have hon2 : ReadOn s1 { s1 with
        inp := ⟨s1.inp.data, s1.inp.pos + BitVec.ofNat 40 9, s1.inp.ioDraws.tail⟩, hdrBits := s1.hdrBits + 9#32 } 9 1 := by
      simp [ReadOn]
    simp only [Config.leafBits, show b + 1 + 9 - b = 1 + 9 by omega, e2]
    refine ⟨_, hon.trans hon2, ?_⟩
    rw [show 2 + j = (1 + j) + 1 by omega, stageRun_more _ hpass]
    exact stageRun_raise j hbad
  | case8 k n b r bit hF hn1 hb hF1 b8 b7 b6 b5 b4 b3 b2 b1 b0 rest v hv ih =>
    have hpos := ep hr
    obtain ⟨hn', h0, hr1⟩ := leafBit hF hn1 hb hn hd hr
    simp only [Config.nodeCap] at hn1
    have hpass := deserialize_bit_leaf hp hu h0 hpos hr1 hn'
    obtain ⟨k1, k2, k3⟩ := inRest_after s.inp [true] _ hf hpos hr1 s.inp.ioDraws.tail
    generalize hs1 : ({ s with inp := _, hdrBits := _, nodeCount := _, phase := _ } : State) = s1 at hpass
    have hon : ReadOn s s1 1 1 := by rw [← hs1]; simp [ReadOn]
    have hk : 0 < k := by
      rcases Nat.eq_zero_or_pos k with h | h
      · subst h
        rw [scanHeader] at he
        exact absurd rfl he
      · exact h
    obtain ⟨t', st', hst, hw'⟩ := hw.leaf (by omega) hk s.nodeCount
      (tableSet Config.nodeCap s1.node s.nodeCount.toNat ⟨true, BitVec.ofNat 9 v, 0#32, 0#10, 0#10⟩)
    have hpos1 : s1.inp.pos.toNat ≤ 8 * s1.inp.data.length := by rw [← hs1]; exact (le_of_eq k2).trans k3
    have hr2 : inRest s1.inp = [b8, b7, b6, b5, b4, b3, b2, b1, b0] ++ rest := by rw [← hs1]; exact k1
    have hf1 : s1.inp.data.length ≤ Config.maxAttach := by rw [← hs1]; exact hf
    have hleaf := deserialize_field_leaf (s := s1) (i := s.nodeCount) (f := [b8, b7, b6, b5, b4, b3, b2, b1, b0]) (w := rest)
      (by rw [← hs1]) (by rw [← hs1]; exact hu)
      (by rw [← hs1]; show s.inp.ioDraws.tail.getD 0 false = false; rw [getD_tail, hd]; simpa using hF1)
      hpos1 rfl hr2 (Nat.le_of_not_lt hv) (by rw [← hs1] at hst ⊢; exact hst)
    obtain ⟨m1, m2, m3⟩ := inRest_after s1.inp [b8, b7, b6, b5, b4, b3, b2, b1, b0] rest hf1 hpos1 hr2 s1.inp.ioDraws.tail
    generalize hs2 : ({ s1 with inp := _, hdrBits := _, node := _, dstack := _, leafCount := _, phase := _ } : State) = s2 at hleaf
    have hon2 : ReadOn s1 s2 9 1 := by rw [← hs2]; simp [ReadOn]
    obtain ⟨i1, i2, i3, i4⟩ := ih s2 (by rw [← hs2]) (by rw [← hs2, ← hs1]; exact hu) (by rw [← hs2]; exact hf1)
      (by rw [← hs2]; exact m1)
      (fun j => by
        rw [← hs2, ← hs1]
        show s.inp.ioDraws.tail.tail.getD j false = _
        rw [getD_tail, getD_tail, hd]
        congr 1
        omega)
      (by rw [← hs2, ← hs1, BitVec.ofNat_add, BitVec.ofNat_add, ← hh]; rfl)
      (by rw [← hs2, ← hs1]; simp [BitVec.toNat_add]; omega) (by omega) (by rw [← hs2]; exact hw') he
    simp only [Config.leafBits] at i1 i2 i3 i4 ⊢
    refine ⟨by omega, by omega, by omega, fun j => ?_⟩
    obtain ⟨u, u1, u2⟩ := i4 j
    refine ⟨u, ?_, ?_⟩
    · have := (hon.trans hon2).trans u1
      rwa [show 1 + 9 + ((scanHeader F k (n + 1) (b + 1 + 9) (r + 2) rest).bits - (b + 1 + 9)) =
          (scanHeader F k (n + 1) (b + 1 + 9) (r + 2) rest).bits - b by omega,
        show 1 + 1 + ((scanHeader F k (n + 1) (b + 1 + 9) (r + 2) rest).reads - (r + 2)) =
          (scanHeader F k (n + 1) (b + 1 + 9) (r + 2) rest).reads - r by omega] at this
    · rw [show (scanHeader F k (n + 1) (b + 1 + 9) (r + 2) rest).reads - r + j =
        ((scanHeader F k (n + 1) (b + 1 + 9) (r + 2) rest).reads - (r + 2) + j) + 1 + 1 by omega, stageRun_more _ hpass,
        stageRun_more _ hleaf, u2]
  | case9 k n b r bit w hF hn1 hb hF1 hshort =>
    have hpos := ep hr
    obtain ⟨hn', h0, hr1⟩ := leafBit hF hn1 hb hn hd hr
    have hpass := deserialize_bit_leaf hp hu h0 hpos hr1 hn'
    obtain ⟨k1, k2, k3⟩ := inRest_after s.inp [true] _ hf hpos hr1 s.inp.ioDraws.tail
    generalize hs1 : ({ s with inp := _, hdrBits := _, nodeCount := _, phase := _ } : State) = s1 at hpass
    have hon : ReadOn s s1 1 1 := by rw [← hs1]; simp [ReadOn]
    refine ⟨Nat.le_succ _, by dsimp only; omega, by dsimp only; omega, fun j => ?_⟩
    simp only [e1, e2]
    refine ⟨_, hon.trans (readOn_fail s1), ?_⟩
    rw [show 2 + j = (1 + j) + 1 by omega, stageRun_more _ hpass]
    have hinfo : HeaderEnd.cut.info (b + 1) = s1.hdrBits := by rw [← hs1, HeaderEnd.info, BitVec.ofNat_add, ← hh]
    rw [hinfo]
    refine stageRun_raise j (deserialize_field_eos (i := s.nodeCount) (by rw [← hs1]) (by rw [← hs1]; exact hu) ?_ ?_)
    · rw [← hs1, headD_eq_getD]
      show s.inp.ioDraws.tail.getD 0 false = false
      rw [getD_tail, hd]
      simpa using hF1
    · have hw9 : w.length < 9 := by
        by_contra hc
        match w, hshort with
        | b8 :: b7 :: b6 :: b5 :: b4 :: b3 :: b2 :: b1 :: b0 :: rest, h => exact h _ _ _ _ _ _ _ _ _ _ rfl
        | [], _ => simp at hc
        | [_], _ => simp at hc
        | [_, _], _ => simp at hc
        | [_, _, _], _ => simp at hc
        | [_, _, _, _], _ => simp at hc
        | [_, _, _, _, _], _ => simp at hc
        | [_, _, _, _, _, _], _ => simp at hc
        | [_, _, _, _, _, _, _], _ => simp at hc
        | [_, _, _, _, _, _, _, _], _ => simp at hc
      have hl : 8 * s.inp.data.length - (s.inp.pos + BitVec.ofNat 40 1).toNat = w.length := by
        rw [← k1, inRest_length]
        rfl
      rw [← hs1]
      show 8 * s.inp.data.length < (s.inp.pos + BitVec.ofNat 40 1).toNat + 9
      omega

/-- DESERIALIZE over a header that does not end whole (R91, R23, R108). -/
theorem deserialize_stage_fails (s : State) (hp : s.phase = .enter) (hu : s.unsent = [])
    (hf : s.inp.data.length ≤ Config.maxAttach) (he : (headerScan s.inp).ending ≠ .whole) :
    (headerScan s.inp).reads ≤ 1028 ∧ ∃ t, t = { s with
        treeV := false, codeV := false, decState := .idle, hdrBits := BitVec.ofNat 32 (headerScan s.inp).bits
        inp := ⟨s.inp.data, s.inp.pos + BitVec.ofNat 40 (headerScan s.inp).bits, s.inp.ioDraws.drop (headerScan s.inp).reads⟩
        node := t.node, root := t.root, nodeCount := t.nodeCount, leafCount := t.leafCount, draws := t.draws
        dstack := t.dstack, phase := t.phase } ∧
      stageRun .deserialize ((headerScan s.inp).reads + 1) s = .raise (headerScan s.inp).ending.error
        ((headerScan s.inp).ending.info (headerScan s.inp).bits) t := by
  have hen : passStep .deserialize s = .more { s with
      treeV := false, codeV := false, decState := .idle, nodeCount := 0#10, leafCount := 0#9, hdrBits := 0#32
      dstack := [], phase := .body } := passStep_of (by simp [stageStep, hp, deserializeEnter]) hu
  rw [stageRun_more _ hen]
  generalize hs1 : ({ s with treeV := _, codeV := _, decState := _, nodeCount := _, leafCount := _, hdrBits := _, dstack := _, phase := _ } : State) = s1
  have hi : s1.inp = s.inp := by rw [← hs1]
  obtain ⟨h1, h2, h3, h4⟩ := deserialize_scan s1.inp.fails 1 0 0 0 (inRest s1.inp) s1 (by rw [← hs1]) (by rw [← hs1]; exact hu)
    (by rw [hi]; exact hf) rfl (fun j => by rw [Nat.zero_add]; rfl) (by rw [← hs1])
    (by rw [← hs1]; rfl) (Nat.zero_le _)
    (by rw [← hs1]; exact ⟨Nat.zero_le _, Nat.le_refl _, .inl ⟨rfl, Nat.le_refl _⟩⟩) (by rw [hi]; exact he)
  rw [hi] at h3 h4
  change (headerScan s.inp).reads + 2 * 0 ≤ 0 + 1028 at h3
  obtain ⟨u, u1, u2⟩ := h4 0
  change ReadOn s1 u ((headerScan s.inp).bits - 0) ((headerScan s.inp).reads - 0) at u1
  change stageRun .deserialize ((headerScan s.inp).reads - 0 + 0) s1 =
    deserializeRaise (headerScan s.inp).ending.error ((headerScan s.inp).ending.info (headerScan s.inp).bits) u at u2
  simp only [Nat.sub_zero, Nat.add_zero] at u1 u2
  refine ⟨by omega, treeUnspecified u, ?_, u2⟩
  rw [ReadOn] at u1
  simp only [treeUnspecified, State.drew]
  rw [u1, ← hs1]
  simp

end Sys2Proof.Machine
end

