-- ==== Sys2Proof/Laws/Invariants.lean ====
section
/-! SUPPORT. Every memory operation keeps the canonical form of FREQ, NODE and CODE, and HEAP and DSTACK within their sizes
(R32, R33); every write of bits leaves at most seven of them pending (R34); so does each step of each stage. -/

namespace Sys2Proof.Machine

/-- The memories canonical, HEAP and DSTACK within their sizes, and at most seven bits pending. -/
def Kept (s : State) : Prop :=
  tableWf Config.nsym s.freq = true ∧ tableWf Config.nodeCap s.node = true ∧ tableWf Config.nsym s.code = true ∧
  s.out.acc.length ≤ 7 ∧ s.heap.length ≤ 257 ∧ s.dstack.length ≤ 257

theorem memory_wf_iff {s : State} : Memory.wf s = true ↔
    tableWf Config.nsym s.freq = true ∧ tableWf Config.nodeCap s.node = true ∧ tableWf Config.nsym s.code = true := by
  simp [Memory.wf, and_assoc]

theorem reset_memory_wf : Memory.wf State.reset = true := by decide

theorem reset_kept : Kept State.reset := ⟨rfl, rfl, rfl, by decide, by decide, by decide⟩

theorem writeLeaves_wf (s : State) (k : Nat) (S : List Nat) (t : Table NodeRec) (h : tableWf Config.nodeCap t = true) :
    tableWf Config.nodeCap (writeLeaves s k S t) = true := by
  induction S generalizing k t with
  | nil => exact h
  | cons v S ih => exact ih _ _ (tableSet_wf _ _ _ h)

theorem buildSymbols_length (s : State) : (buildSymbols s).length ≤ 257 := by
  unfold buildSymbols
  dsimp only
  split
  · next h => rw [List.length_cons, h]; decide
  · exact le_trans (List.length_filter_le _ _) (by simp [Config.nsym])

theorem returnNode_wf (i : BitVec 10) (st : List Frame) (t : Table NodeRec) (h : tableWf Config.nodeCap t = true) :
    tableWf Config.nodeCap (returnNode i st t).1 = true := by
  induction st generalizing i t with
  | nil => exact h
  | cons f st ih =>
    cases f with
    | put j => exact ih i t h
    | visit j a b => exact ih i t h
    | awaitLeft j => exact h
    | awaitRight j l => exact ih j _ (tableSet_wf _ _ _ h)

/-- A return never makes DSTACK longer. -/
theorem returnNode_length (i : BitVec 10) (st : List Frame) (t : Table NodeRec) : (returnNode i st t).2.1.length ≤ st.length := by
  induction st generalizing i t with
  | nil => exact Nat.le_refl _
  | cons f st ih =>
    cases f with
    | put j => exact (ih i t).trans (Nat.le_succ _)
    | visit j a b => exact (ih i t).trans (Nat.le_succ _)
    | awaitLeft j => exact Nat.le_refl _
    | awaitRight j l => exact (ih j _).trans (Nat.le_succ _)

theorem writeBit_acc (o : OutPort) (b : Bool) (h : o.acc.length ≤ 7) : (o.writeBit b).acc.length ≤ 7 := (writeBit_spec o b h).2.1

theorem closeOut_acc (o : OutPort) (h : o.acc.length ≤ 7) : o.closeOut.acc.length ≤ 7 := by
  rw [(closeOut_spec o h).2.1]
  simp

theorem checked_kept {stage : Instr} {s : State} {body : State → StageResult} (h : Kept s) (hb : Kept (body s).state) :
    Kept (checked stage s body).state := by
  rcases checked_cases stage s body with ⟨-, h'⟩ | ⟨e, -, h'⟩ <;> rw [h']
  · exact hb
  · exact h

theorem deserializeRaise_kept (e : ErrCode) (info : Word) (s : State) (h : Kept s) : Kept (deserializeRaise e info s).state :=
  ⟨h.1, rfl, h.2.2⟩

theorem deserializeLeaf_kept (i : BitVec 10) (v : Nat) (s : State) (h : Kept s) : Kept (deserializeLeaf i v s).state := by
  obtain ⟨h1, h2, h3, h4, h5, h6⟩ := h
  have hw := returnNode_wf i s.dstack _ (tableSet_wf s.node i.toNat ⟨true, BitVec.ofNat 9 v, 0#32, 0#10, 0#10⟩ h2)
  have hl := returnNode_length i s.dstack (tableSet Config.nodeCap s.node i.toNat ⟨true, BitVec.ofNat 9 v, 0#32, 0#10, 0#10⟩)
  unfold deserializeLeaf
  dsimp only
  generalize returnNode i s.dstack _ = x at hw hl ⊢
  obtain ⟨t', st', o⟩ := x
  cases o with
  | none => exact ⟨h1, hw, h3, h4, h5, hl.trans h6⟩
  | some r => exact ⟨h1, hw, h3, h4, h5, hl.trans h6⟩

theorem decbodyAt_kept (k : Nat) (i : BitVec 10) (s : State) (h : Kept s) : Kept (decbodyAt k i s).state := by
  unfold decbodyAt
  dsimp only
  split
  · split
    · exact h
    · exact h
  · exact h

/-- Every pass of every stage keeps them. -/
theorem stageStep_kept (stage : Instr) (s : State) (h : Kept s) : Kept (stageStep stage s).state := by
  revert h
  refine stageStep_arms (P := fun _ s r => Kept s → Kept r.state) ?_ ?_ ?_ ?_ ?_ ?_ ?_ ?_ ?_ ?_ ?_ ?_ ?_ ?_ ?_ ?_ ?_ ?_ ?_ ?_ ?_ ?_
    stage s
  · exact fun _ s h => h
  · exact fun s h => h
  · rintro s ⟨h1, h2, h3, h4, h5⟩
    exact ⟨rfl, rfl, rfl, Nat.zero_le _, h5⟩
  · rintro _ s ⟨h1, h2, h3, h4, h5⟩
    exact ⟨h1, h2, h3, Nat.zero_le _, h5⟩
  · rintro s ⟨h1, h⟩
    simp only [countEnter, StageResult.state, Kept]
    exact ⟨countInit_wf, h⟩
  · rintro s ⟨h1, h⟩
    unfold countIter
    split
    · exact ⟨h1, h⟩
    · exact ⟨h1, h⟩
    · split
      · exact ⟨h1, h⟩
      · exact ⟨tableSet_wf _ _ _ h1, h⟩
  · rintro L n s ⟨h1, h2, h3, h4, h5, h6⟩
    unfold buildIter
    split
    · exact ⟨h1, h2, h3, h4, h5, h6⟩
    · next a h ha =>
      split
      · exact ⟨h1, h2, h3, h4, h5, h6⟩
      · next b h' hb =>
        obtain ⟨x, hx, hxe⟩ := Option.map_eq_some_iff.1 ha
        obtain ⟨y, hy, hye⟩ := Option.map_eq_some_iff.1 hb
        obtain ⟨-, rfl⟩ := Prod.mk.inj hxe
        obtain ⟨-, rfl⟩ := Prod.mk.inj hye
        have hm := (heapMin_spec hy).1
        have hp := List.length_pos_of_mem hm
        refine ⟨h1, tableSet_wf _ _ _ h2, h3, h4, ?_, h6⟩
        simp only [StageResult.state, List.length_append, List.length_erase_of_mem hm, List.length_singleton]
        have := List.length_erase_le (a := x) (l := s.heap)
        omega
  · rintro s h
    refine checked_kept h ⟨h.1, writeLeaves_wf _ _ _ _ h.2.1, h.2.2.1, h.2.2.2.1, ?_, h.2.2.2.2.2⟩
    simpa [StageResult.state] using buildSymbols_length s
  · rintro s h
    refine checked_kept h ?_
    simp only [StageResult.state, Kept]
    exact ⟨h.1, h.2.1, codeInit_wf, h.2.2.2.1, h.2.2.2.2.1, by simp⟩
  · rintro s ⟨h1, h2, h3, h4, h5, h6⟩
    unfold gencodeIter
    split
    · exact ⟨h1, h2, h3, h4, h5, h6⟩
    · next i len bits rest hs =>
      have hr : rest.length ≤ 257 := by rw [hs, List.length_cons] at h6; omega
      dsimp only
      split
      · split
        · exact ⟨h1, h2, h3, h4, h5, hr⟩
        · exact ⟨h1, h2, tableSet_wf _ _ _ h3, h4, h5, hr⟩
      · exact ⟨h1, h2, h3, h4, h5, pushFrames_length _ _⟩
    · next f rest _ hs =>
      exact ⟨h1, h2, h3, h4, h5, by rw [hs, List.length_cons] at h6; show rest.length ≤ 257; omega⟩
  · exact fun s h => checked_kept h h
  · exact fun s h => checked_kept h ⟨h.1, h.2.1, h.2.2.1, h.2.2.2.1, h.2.2.2.2.1, by simp [StageResult.state]⟩
  · rintro s ⟨h1, h2, h3, h4, h5, h6⟩
    unfold serializeIter
    split
    · exact ⟨h1, h2, h3, h4, h5, h6⟩
    · next i rest hs =>
      have hr : rest.length ≤ 257 := by rw [hs, List.length_cons] at h6; omega
      dsimp only
      split
      · exact ⟨h1, h2, h3, h4, h5, hr⟩
      · exact ⟨h1, h2, h3, h4, h5, pushFrames_length _ _⟩
    · next f rest _ hs =>
      exact ⟨h1, h2, h3, h4, h5, by rw [hs, List.length_cons] at h6; show rest.length ≤ 257; omega⟩
  · exact fun s h => checked_kept h h
  · intro s h
    unfold encbodyIter
    split
    · dsimp only
      split <;> exact h
    · exact h
    · dsimp only
      split <;> exact h
  · exact fun s h => checked_kept h ⟨h.1, h.2.1, h.2.2.1, closeOut_acc _ h.2.2.2.1, h.2.2.2.2⟩
  · intro s h
    unfold rdmagicEnter
    split
    · exact h
    · exact h
    · split <;> exact h
  · exact fun s h => ⟨h.1, h.2.1, h.2.2.1, h.2.2.2.1, h.2.2.2.2.1, Nat.zero_le _⟩
  · intro i s h
    unfold deserializeField
    split
    · exact deserializeRaise_kept _ _ _ h
    · exact deserializeRaise_kept _ _ _ h
    · dsimp only
      split
      · exact deserializeRaise_kept _ _ _ h
      · exact deserializeLeaf_kept _ _ _ h
  · rintro s h
    unfold deserializeIter
    split
    · exact deserializeRaise_kept _ _ _ h
    · exact deserializeRaise_kept _ _ _ h
    · dsimp only
      split
      · exact deserializeRaise_kept _ _ _ h
      · split
        · exact h
        · exact ⟨h.1, tableSet_wf _ _ _ h.2.1, h.2.2.1, h.2.2.2.1, h.2.2.2.2.1, pushFrames_length _ _⟩
  · intro k s h
    unfold decbodyIter
    split
    · exact h
    · exact h
    · exact decbodyAt_kept _ _ _ h
  · intro s h
    refine checked_kept h ?_
    dsimp only
    repeat' split
    all_goals exact h

/-- A step of the sequencer keeps them too. -/
theorem microStep_kept (s : State) (h : Kept s) : Kept (microStep s) := by
  have scratch : ∀ t : State, Kept t → Kept (endRun t) := fun _ h =>
    ⟨h.1, h.2.1, h.2.2.1, h.2.2.2.1, Nat.zero_le _, Nat.zero_le _⟩
  unfold microStep
  split
  · exact h
  · exact scratch s h
  · next cmd stage _ =>
    split
    · exact ⟨h.1, h.2.1, h.2.2.1, writeBit_acc _ _ h.2.2.2.1, h.2.2.2.2⟩
    · have := stageStep_kept stage s h
      revert this
      cases stageStep stage s with
      | more t => exact id
      | done t =>
        intro k
        unfold settle
        dsimp only
        split
        · unfold stageEnded
          split
          · exact k
          · exact scratch t k
        · exact k
      | raise e i t => exact fun k => scratch t k

theorem runTurn_kept (s : State) (h : Kept s) : Kept (runTurn s) := by
  unfold runTurn
  split
  · exact runFor_induction (fun t ht _ => microStep_kept t ht) _ h
  · exact runFor_induction (fun t ht _ => microStep_kept t ht) _ h

end Sys2Proof.Machine
end

