-- ==== Sys2Proof/Laws/PerInstr.lean ====
section
/-! SUPPORT. Statements made per instruction: the word the encoder gives each command is a legal command word by the ranges
of R62, its reserved field 0 and its opcode field the command's. And the decoder accepts the words those ranges leave. -/

namespace Sys2Proof

/-- The decoder, written from R61, accepts exactly the words the ranges of R62 leave. -/
theorem wordLegal_iff_decode (w : Word) : wordLegal w = true ↔ ∃ i, decode w = .ok i := by
  have ops : ∀ op : BitVec 8, (!(decide (3 ≤ op.toNat) && decide (op.toNat ≤ 15)) &&
      !(decide (23 ≤ op.toNat) && decide (op.toNat ≤ 30)) && !(decide (35 ≤ op.toNat) && decide (op.toNat ≤ 46)) &&
      !decide (48 ≤ op.toNat)) = (ofOpcode op.toNat).isSome := by decide +revert
  unfold wordLegal decode
  generalize CmdFields.ofWord w = f
  obtain ⟨op, rsv⟩ := f
  dsimp only
  by_cases hr : rsv = 0
  · subst hr
    simp only [CmdFields.wellFormed, CmdFields.rsvClear, CmdFields.opAssigned, ops op, beq_self_eq_true, Bool.true_and, ne_eq,
      not_true_eq_false, if_false]
    cases ofOpcode op.toNat <;> simp
  · have hr' : rsv ≠ 0#24 := hr
    simp [CmdFields.wellFormed, CmdFields.rsvClear, hr']

/-- A word the decoder rejects is illegal (R62, R63). -/
theorem wordLegal_of_decode_error {w : Word} {e : DecodeError} (h : decode w = .error e) : wordLegal w = false := by
  cases hw : wordLegal w with
  | false => rfl
  | true =>
    obtain ⟨i, hi⟩ := (wordLegal_iff_decode w).1 hw
    rw [h] at hi
    cases hi

end Sys2Proof

namespace Sys2Proof.Laws

/-- The encoder gives a word of format CW that R62 calls legal (R60, R62). -/
def EncodesLegalWord.Statement (i : Instr) : Prop :=
  (CmdFields.ofWord (encode i)).rsv = 0#24 ∧ (CmdFields.ofWord (encode i)).op = opcode i ∧ wordLegal (encode i) = true

theorem EncodesLegalWord.nop : EncodesLegalWord.Statement .nop := by
  refine ⟨?_, ?_, ?_⟩ <;> decide

theorem EncodesLegalWord.clear : EncodesLegalWord.Statement .clear := by
  refine ⟨?_, ?_, ?_⟩ <;> decide

theorem EncodesLegalWord.openout : EncodesLegalWord.Statement .openout := by
  refine ⟨?_, ?_, ?_⟩ <;> decide

theorem EncodesLegalWord.count : EncodesLegalWord.Statement .count := by
  refine ⟨?_, ?_, ?_⟩ <;> decide

theorem EncodesLegalWord.build : EncodesLegalWord.Statement .build := by
  refine ⟨?_, ?_, ?_⟩ <;> decide

theorem EncodesLegalWord.gencode : EncodesLegalWord.Statement .gencode := by
  refine ⟨?_, ?_, ?_⟩ <;> decide

theorem EncodesLegalWord.wrmagic : EncodesLegalWord.Statement .wrmagic := by
  refine ⟨?_, ?_, ?_⟩ <;> decide

theorem EncodesLegalWord.serialize : EncodesLegalWord.Statement .serialize := by
  refine ⟨?_, ?_, ?_⟩ <;> decide

theorem EncodesLegalWord.encbody : EncodesLegalWord.Statement .encbody := by
  refine ⟨?_, ?_, ?_⟩ <;> decide

theorem EncodesLegalWord.close : EncodesLegalWord.Statement .close := by
  refine ⟨?_, ?_, ?_⟩ <;> decide

theorem EncodesLegalWord.encode : EncodesLegalWord.Statement .encode := by
  refine ⟨?_, ?_, ?_⟩ <;> decide

theorem EncodesLegalWord.rdmagic : EncodesLegalWord.Statement .rdmagic := by
  refine ⟨?_, ?_, ?_⟩ <;> decide

theorem EncodesLegalWord.deserialize : EncodesLegalWord.Statement .deserialize := by
  refine ⟨?_, ?_, ?_⟩ <;> decide

theorem EncodesLegalWord.decbody : EncodesLegalWord.Statement .decbody := by
  refine ⟨?_, ?_, ?_⟩ <;> decide

theorem EncodesLegalWord.decode : EncodesLegalWord.Statement .decode := by
  refine ⟨?_, ?_, ?_⟩ <;> decide

end Sys2Proof.Laws
end

