-- ==== Sys2Proof/Laws/Step.lean ====
section
/-! SUPPORT. Everything a step of the machine can do, said once as an induction: what the sequencer's step, the acceptance of
a command and the host's moves keep, a step keeps. And the frame of a command: what no stage of it writes, it does not
change, whether it ends or not. -/

namespace Sys2Proof.Machine

/-- The sequencer touches neither the host's moves nor IN_DATA nor the grants. -/
theorem microStep_env (s : State) :
    (microStep s).host = s.host ∧ (microStep s).inp.data = s.inp.data ∧ (microStep s).grants = s.grants := by
  unfold microStep
  split
  · exact ⟨rfl, rfl, rfl⟩
  · exact ⟨rfl, rfl, rfl⟩
  · next c st h =>
    split
    · exact ⟨rfl, rfl, rfl⟩
    obtain ⟨-, -, -, -, -, -, -, -, -, -, -, h1, h2, h3, -⟩ := stageStep_same st s
    generalize stageStep st s = r at *
    cases r with
    | more v => exact ⟨h2, h1, h3⟩
    | done v =>
      simp only [settle, stageEnded]
      repeat' split
      all_goals exact ⟨h2, h1, h3⟩
    | raise e i v => exact ⟨h2, h1, h3⟩

theorem runFor_env (n : Nat) (s : State) :
    (runFor n s).host = s.host ∧ (runFor n s).inp.data = s.inp.data ∧ (runFor n s).grants = s.grants :=
  runFor_induction (P := fun t => t.host = s.host ∧ t.inp.data = s.inp.data ∧ t.grants = s.grants)
    (fun t h _ => ⟨(microStep_env t).1.trans h.1, (microStep_env t).2.1.trans h.2.1, (microStep_env t).2.2.trans h.2.2⟩)
    n ⟨rfl, rfl, rfl⟩

/-- What a property of states must survive to survive every step: a step of the sequencer, the acceptance of a command, the
environment's own fields, an overrun, the acceptance of an illegal word, reset, the three writable registers, ATTACH and TAKE. -/
structure Survives (P : State → Prop) : Prop where
  micro : ∀ s, P s → s.busy = true → P (microStep s)
  accepts : ∀ s i, P s → s.busy = false → P (accept i s)
  env : ∀ s g h r d, P s → P { s with grants := g, host := h, reply := r, draws := d }
  overruns : ∀ s, P s → P (overrun s)
  illegal : ∀ s w, P s → s.busy = false → wordLegal w = false → P (acceptIllegal w s)
  resets : ∀ s, P s → P (applyReset s)
  irqEn : ∀ s v, P s → P (writeIrqEn v s)
  irqStat : ∀ s v, P s → P (writeIrqStat v s)
  magic : ∀ s v, P s → P (writeMagic v s)
  attaches : ∀ s b, P s → s.busy = false → b.length ≤ Config.maxAttach → P { s with inp := { s.inp with data := b } }
  takes : ∀ s, P s → s.busy = false → P { s with out := { s.out with data := [] } }

theorem runTurn_survives {P : State → Prop} (hP : Survives P) {s : State} (h : P s) : P (runTurn s) := by
  unfold runTurn
  split
  · exact runFor_induction hP.micro _ h
  · next n rest _ => exact runFor_induction hP.micro _ (hP.env s rest s.host s.reply s.draws h)

theorem exec_survives {P : State → Prop} (hP : Survives P) {i : Instr} {s t : State} (h : P s) (he : exec i s = .next t) :
    P t := by
  rw [exec_eq_command] at he
  injection he with he
  subst he
  unfold command
  split
  · exact hP.overruns s h
  · next hb => exact runTurn_survives hP (hP.accepts s i h (by simpa using hb))

theorem busRead_survives {P : State → Prop} (hP : Survives P) {s : State} (h : P s) (off : BitVec 16) (w : Nat) :
    P (busRead off w s) := by
  unfold busRead
  split
  · split
    · exact hP.env s s.grants s.host _ s.draws h
    · exact hP.env s s.grants s.host _ _ h
  · exact hP.env s s.grants s.host _ s.draws h

theorem writeSlot_survives {P : State → Prop} (hP : Survives P) {s : State} (h : P s) (v : Word) (sl : Slot) :
    P (writeSlot v s sl) := by
  unfold writeSlot
  split
  · exact hP.magic s v h
  · exact hP.irqEn s v h
  · exact hP.irqStat s v h
  all_goals exact h

theorem busWrite_survives {P : State → Prop} (hP : Survives P) {off : BitVec 16} {w : Nat} {v : Word} {s t : State} (h : P s)
    (he : busWrite off w v s = .next t) : P t := by
  unfold busWrite at he
  split at he
  · split at he
    · unfold writeCmd at he
      have h' := hP.env s s.grants s.host .written s.draws h
      split at he
      · exact exec_survives hP h' he
      · next _ hd =>
        injection he with he
        subst he
        unfold rejectWord
        split
        · exact hP.overruns _ h'
        · next hb => exact runTurn_survives hP (hP.illegal _ v h' (by simpa using hb) (wordLegal_of_decode_error hd))
    · injection he with he
      subst he
      have k := writeSlot_survives hP h v (slotOf off)
      exact hP.env _ (writeSlot v s _).grants (writeSlot v s _).host _ (writeSlot v s _).draws k
  · injection he with he
    subst he
    exact hP.env s s.grants s.host _ s.draws h

theorem hostMove_survives {P : State → Prop} (hP : Survives P) {m : HostMove} {s t : State} (h : P s)
    (he : hostMove m s = .next t) : P t := by
  cases m with
  | read off w =>
    injection he with he
    subst he
    exact busRead_survives hP h off w
  | write off w v => exact busWrite_survives hP h he
  | attach b =>
    simp only [hostMove, attach] at he
    split at he
    · cases he
    · next hb =>
      split at he
      · cases he
      · next hl =>
        injection he with he
        subst he
        exact hP.attaches s b h (by simpa using hb) (Nat.le_of_not_gt hl)
  | take =>
    simp only [hostMove, take] at he
    split at he
    · cases he
    · next hb =>
      injection he with he
      subst he
      exact hP.env _ s.grants s.host _ s.draws (hP.takes s h (by simpa using hb))
  | wait =>
    injection he with he
    subst he
    unfold waitRead
    dsimp only
    split
    · exact hP.env s s.grants _ _ s.draws h
    · exact hP.env s s.grants s.host _ s.draws h
  | reset =>
    injection he with he
    subst he
    exact hP.resets s h

/-- A property that survives each of the things a step is made of survives the step. -/
theorem step_survives {P : State → Prop} (hP : Survives P) {s t : State} (h : P s) (hst : step s = .next t) : P t := by
  simp only [step, machineStep] at hst
  split at hst
  · injection hst with hst
    subst hst
    split
    · exact runTurn_survives hP h
    · exact h
  · next m rest hh =>
    have h' := hP.env s s.grants rest s.reply s.draws h
    cases hm' : hostMove m { s with host := rest } with
    | next u =>
      rw [hm'] at hst
      have hu := hostMove_survives hP h' hm'
      simp only [thenTurn] at hst
      injection hst with hst
      subst hst
      split
      · exact runTurn_survives hP hu
      · exact hu
    | fault r => rw [hm'] at hst; cases hst
    | refused r => rw [hm'] at hst; cases hst

/-- A step: the sequencer's turn alone, or the host's oldest move and, where a command ran and runs on, the turn after it. -/
theorem step_cases {s t : State} (h : step s = .next t) :
    (s.host = [] ∧ t = if s.busy then runTurn s else s) ∨
    ∃ m rest u, s.host = m :: rest ∧ hostMove m { s with host := rest } = .next u ∧
      t = if s.busy && u.busy then runTurn u else u := by
  simp only [step, machineStep] at h
  split at h
  · next hh =>
    injection h with h
    exact .inl ⟨hh, h.symm⟩
  · next m rest hh =>
    cases hm : hostMove m { s with host := rest } with
    | next u =>
      rw [hm] at h
      simp only [thenTurn] at h
      injection h with h
      exact .inr ⟨m, rest, u, hh, hm, h.symm⟩
    | fault r => rw [hm] at h; cases h
    | refused r => rw [hm] at h; cases h

/-- A view of the state that the lifecycle's registers, the scratch and the grants do not show in. -/
def OffLifecycle {α : Type} (f : State → α) : Prop :=
  ∀ (s : State) q c d e o ec ei di ri ph hp ds un gr, f { s with
    seq := q, cmd := c, done := d, err := e, ovr := o, errCode := ec, errInfo := ei
    doneIp := di, errIp := ri, phase := ph, heap := hp, dstack := ds, unsent := un, grants := gr } = f s

theorem checked_keeps {α : Type} (f : State → α) {stage : Instr} {s : State} {body : State → StageResult}
    (h : f (body s).state = f s) : f (checked stage s body).state = f s := by
  rcases checked_cases stage s body with ⟨-, h'⟩ | ⟨e, -, h'⟩ <;> rw [h']
  · exact h
  · rfl

/-- A view that none of the command's stages changes, nor an appended bit where a stage writes bits at all, the command does
not change, undisturbed or not (R73, R107). -/
theorem exec_keeps {α : Type} (f : State → α) (hf : OffLifecycle f) (i : Instr) (L : List Instr) (hi : i ∈ L)
    (hL : ∀ st ∈ L, ∀ st', nextStage i st = some st' → st' ∈ L) (hs : ∀ st ∈ L, ∀ s, f (stageStep st s).state = f s)
    (hb : (∀ s b rest, f (sendBit b rest s) = f s) ∨ ∀ st ∈ L, ∀ s, (stageStep st s).state.unsent = s.unsent)
    (s t : State) (h : exec i s = .next t) : f t = f s := by
  rw [exec_eq_command] at h
  cases h
  unfold command
  split
  · exact hf s s.seq s.cmd s.done s.err true s.errCode s.errInfo s.doneIp s.errIp s.phase s.heap s.dstack s.unsent s.grants
  · let P : State → Prop := fun u => (u.seq = .idle ∨ ∃ st ∈ L, u.seq = .running i st) ∧ f u = f s ∧
      ((∀ s b rest, f (sendBit b rest s) = f s) ∨ u.unsent = [])
    have hstep : ∀ u : State, P u → u.busy = true → P (microStep u) := by
      rintro u ⟨h1, h2, h3⟩ hbu
      rcases h1 with h1 | ⟨st, hst, h1⟩
      · rw [busy_idle h1] at hbu
        cases hbu
      · rcases microStep_cases hbu with ⟨hr, -⟩ | ⟨c, st', hq, ⟨b, rest, hu, hm⟩ | ⟨hu, hm⟩⟩
        · rw [h1] at hr
          cases hr
        · rw [hm]
          rcases h3 with h3 | h3
          · exact ⟨.inr ⟨st, hst, h1⟩, (h3 u b rest).trans h2, .inl h3⟩
          · rw [hu] at h3
            cases h3
        · rw [h1] at hq
          cases hq
          rw [hm]
          have e := hs st hst u
          have sq := (stageStep_same st u).1
          have hq : (∀ s b rest, f (sendBit b rest s) = f s) ∨ (stageStep st u).state.unsent = [] :=
            hb.imp id fun k => (k st hst u).trans hu
          generalize stageStep st u = r at e sq hq
          cases r with
          | more v => exact ⟨.inr ⟨st, hst, sq.trans h1⟩, e.trans h2, hq⟩
          | done v =>
            simp only [settle, stageEnded]
            split
            · split
              · next st' hn =>
                exact ⟨.inr ⟨st', hL st hst st' hn, rfl⟩,
                  (hf v _ v.cmd v.done v.err v.ovr v.errCode v.errInfo v.doneIp v.errIp _ v.heap v.dstack v.unsent v.grants).trans
                    (e.trans h2), hq⟩
              · exact ⟨.inl rfl, (hf v _ v.cmd _ v.err v.ovr v.errCode v.errInfo _ v.errIp _ _ _ _ v.grants).trans (e.trans h2),
                  .inr rfl⟩
            · exact ⟨.inr ⟨st, hst, sq.trans h1⟩,
                (hf v v.seq v.cmd v.done v.err v.ovr v.errCode v.errInfo v.doneIp v.errIp _ v.heap v.dstack v.unsent
                  v.grants).trans (e.trans h2), hq⟩
          | raise x y v =>
            exact ⟨.inl rfl, (hf v _ v.cmd v.done _ v.ovr _ _ v.doneIp _ _ _ _ _ v.grants).trans (e.trans h2), .inr rfl⟩
    have ha : f (accept i s) = f s := hf s (.running i i) _ _ _ s.ovr _ _ s.doneIp s.errIp _ s.heap s.dstack _ s.grants
    unfold runTurn
    split
    · exact (runFor_induction (P := P) hstep _ ⟨.inr ⟨i, hi, rfl⟩, ha, .inr rfl⟩).2.1
    · next n rest _ =>
      refine (runFor_induction (P := P) hstep _ ⟨.inr ⟨i, hi, rfl⟩, ?_, .inr rfl⟩).2.1
      exact (hf (accept i s) _ _ _ _ _ _ _ _ _ _ _ _ _ rest).trans ha

end Sys2Proof.Machine
end

