-- ==== Sys2Proof/Laws/TreeInvariant.lean ====
section
/-! SUPPORT. The tree invariant (R30) through the loops of BUILD and DESERIALIZE, and the stages that leave the tree alone. -/

namespace Sys2Proof.Machine

/-! ## Stages that leave the tree alone -/

/-- The tree's records, registers and flags are the same. -/
def SameTree (s t : State) : Prop :=
  t.node = s.node ∧ t.root = s.root ∧ t.nodeCount = s.nodeCount ∧ t.leafCount = s.leafCount ∧ t.treeSrc = s.treeSrc ∧
  t.treeV = s.treeV

theorem sameTree_refl (s : State) : SameTree s s := ⟨rfl, rfl, rfl, rfl, rfl, rfl⟩

theorem sameTree_holds {s t : State} (h : SameTree s t) : treeHolds s ↔ treeHolds t := by
  obtain ⟨h1, h2, h3, h4, h5, -⟩ := h
  simp only [treeHolds, h1, h2, h3, h4, h5]

theorem sameTree_checked {stage : Instr} {s : State} {body : State → StageResult} (h : SameTree s (body s).state) :
    SameTree s (checked stage s body).state := by
  rcases checked_cases stage s body with ⟨-, h'⟩ | ⟨e, -, h'⟩ <;> rw [h']
  · exact h
  · exact sameTree_refl s

theorem sameTree_decbodyAt (k : Nat) (i : BitVec 10) (s : State) : SameTree s (decbodyAt k i s).state := by
  unfold decbodyAt
  dsimp only
  split
  · split <;> exact ⟨rfl, rfl, rfl, rfl, rfl, rfl⟩
  · exact ⟨rfl, rfl, rfl, rfl, rfl, rfl⟩

theorem sameTree_stage {stage : Instr} (h1 : stage ≠ .build) (h2 : stage ≠ .deserialize) (h3 : stage ≠ .clear) (s : State) :
    SameTree s (stageStep stage s).state := by
  unfold stageStep
  split
  case h_3 => exact absurd rfl h3
  case h_7 => exact absurd rfl h1
  case h_8 => exact absurd rfl h1
  case h_19 => exact absurd rfl h2
  case h_20 => exact absurd rfl h2
  case h_21 => exact absurd rfl h2
  case h_6 => unfold countIter; repeat' split
              all_goals exact sameTree_refl s
  case h_10 => unfold gencodeIter; dsimp only; repeat' split
               all_goals exact ⟨rfl, rfl, rfl, rfl, rfl, rfl⟩
  case h_13 => unfold serializeIter; dsimp only; repeat' split
               all_goals exact sameTree_refl s
  case h_15 => unfold encbodyIter; dsimp only; repeat' split
               all_goals exact sameTree_refl s
  case h_18 => unfold rdmagicEnter; repeat' split
               all_goals exact sameTree_refl s
  case h_22 => unfold decbodyIter; split
               · exact sameTree_refl s
               · exact sameTree_refl s
               · exact sameTree_decbodyAt _ _ _
  case h_23 => refine sameTree_checked ?_; dsimp only; repeat' split
               all_goals exact sameTree_refl s
  case h_9 => exact sameTree_checked ⟨rfl, rfl, rfl, rfl, rfl, rfl⟩
  case h_11 => exact sameTree_checked ⟨rfl, rfl, rfl, rfl, rfl, rfl⟩
  case h_12 => exact sameTree_checked ⟨rfl, rfl, rfl, rfl, rfl, rfl⟩
  case h_14 => exact sameTree_checked ⟨rfl, rfl, rfl, rfl, rfl, rfl⟩
  case h_16 => exact sameTree_checked ⟨rfl, rfl, rfl, rfl, rfl, rfl⟩
  all_goals exact ⟨rfl, rfl, rfl, rfl, rfl, rfl⟩

/-! ## BUILD -/

theorem forest_start {s t : State} (h : countHolds s) (hn : t.node = writeLeaves s 0 (buildSymbols s) s.node)
    (hh : t.heap = List.range (buildSymbols s).length) :
    forestHolds (buildSymbols s).length (buildSymbols s).length t := by
  obtain ⟨h2, hL, hS, -⟩ := buildSymbols_of_countHolds h
  generalize buildSymbols s = S at *
  obtain ⟨w1, -, -⟩ := writeLeaves_spec s 0 S s.node (by omega)
  rw [← hn] at w1
  have hleaf : ∀ j < S.length, (nodeIn t.node j).leaf = true := by
    intro j hj
    have := w1 j hj
    rw [Nat.zero_add] at this
    rw [this]
    rfl
  refine ⟨le_refl _, by omega, hL, by rw [hh, List.length_range]; omega, by rw [hh]; exact List.nodup_range,
    fun j hj h => absurd (hleaf j hj) (by rw [h]; simp), fun j hj h => absurd (hleaf j hj) (by rw [h]; simp),
    fun j => .leaf (S.getD j 0), fun j hj => ?_, ?_⟩
  · rw [hh, List.mem_range] at hj
    have := w1 j hj
    rw [Nat.zero_add] at this
    have hb := hS _ (List.getElem_mem hj)
    have e : S.getD j 0 = S[j] := by simp [List.getD_eq_getElem?_getD, hj]
    refine ⟨hj, ?_, ?_⟩
    · rw [treeAt, this, e]
      simp [leafRec]
      omega
    · intro v hv
      simp only [HTree.syms, List.mem_singleton] at hv
      rw [hv, e]
      exact hb
  · rw [hh]
    simp [HTree.size]

/-- One merge (R81). -/
theorem forest_merge {L n a b : Nat} {s t : State} (F : forestHolds L n s) (ha : heapMin s.node s.heap = some a)
    (hb : heapMin s.node (s.heap.erase a) = some b) (hn : t.node = tableSet Config.nodeCap s.node n (mergeRec s.node a b))
    (hh : t.heap = (s.heap.erase a).erase b ++ [n]) : forestHolds L (n + 1) t := by
  obtain ⟨f1, f2, f3, f4, f5, f6, f7, G, f8, f9⟩ := F
  simp only [Config.nsym] at f3
  have a1 := (heapMin_spec ha).1
  have b1 := (heapMin_spec hb).1
  have b3 : b ∈ s.heap := List.mem_of_mem_erase b1
  obtain ⟨han, hat, has⟩ := f8 a a1
  obtain ⟨hbn, hbt, hbs⟩ := f8 b b3
  have hlen : (s.heap.erase a).length = s.heap.length - 1 := List.length_erase_of_mem a1
  have hlen2 : ((s.heap.erase a).erase b).length = s.heap.length - 1 - 1 := by rw [List.length_erase_of_mem b1, hlen]
  have hpos : 0 < (s.heap.erase a).length := List.length_pos_of_mem b1
  have hmem : ∀ j, j ∈ (s.heap.erase a).erase b → j ∈ s.heap := fun j hj =>
    List.mem_of_mem_erase (List.mem_of_mem_erase hj)
  have hne : ∀ j, j ≠ n → nodeIn t.node j = nodeIn s.node j := fun j hj => by rw [hn]; exact nodeIn_set_ne _ hj
  have hnew : nodeIn t.node n = mergeRec s.node a b := by rw [hn]; exact nodeIn_set_same _ (by omega)
  have ea : (BitVec.ofNat 10 a).toNat = a := by simp; omega
  have eb : (BitVec.ofNat 10 b).toNat = b := by simp; omega
  have hold : ∀ T j, j < n → treeAt s.node T j = true → treeAt t.node T j = true := fun T j hj h =>
    treeAt_congr_below f6 (fun m hm => hne m (by omega)) T j hj h
  refine ⟨by omega, by omega, f3, ?_, ?_, ?_, ?_, fun j => if j = n then .node (G a) (G b) else G j, ?_, ?_⟩
  · rw [hh, List.length_append, List.length_singleton, hlen2]
    omega
  · rw [hh, List.nodup_append]
    refine ⟨(f5.erase a).erase b, by simp, ?_⟩
    intro x hx y hy
    have := (f8 x (hmem x hx)).1
    simp only [List.mem_singleton] at hy
    omega
  · intro j hj hl
    by_cases hjn : j = n
    · subst hjn
      rw [hnew, mergeRec]
      dsimp only
      rw [ea, eb]
      omega
    · rw [hne j hjn] at hl ⊢
      have := f6 j (by omega) hl
      omega
  · intro j hj hl
    by_cases hjn : j = n
    · subst hjn
      rw [hnew, mergeRec]
      dsimp only
      rw [ea, eb, hne a (by omega), hne b (by omega)]
    · rw [hne j hjn] at hl ⊢
      have := f6 j (by omega) hl
      rw [hne _ (by omega), hne _ (by omega)]
      exact f7 j (by omega) hl
  · intro j hj
    rw [hh] at hj
    rcases List.mem_append.1 hj with hj | hj
    · obtain ⟨k1, k2, k3⟩ := f8 j (hmem j hj)
      dsimp only
      rw [if_neg (by omega)]
      exact ⟨by omega, hold _ _ k1 k2, k3⟩
    · simp only [List.mem_singleton] at hj
      subst hj
      dsimp only
      rw [if_pos rfl]
      refine ⟨by omega, ?_, ?_⟩
      · rw [treeAt, hnew, mergeRec]
        dsimp only
        rw [ea, eb, hold _ a han hat, hold _ b hbn hbt]
        rfl
      · intro v hv
        rcases List.mem_append.1 hv with hv | hv
        · exact has v hv
        · exact hbs v hv
  · have hperm : s.heap.Perm (a :: b :: (s.heap.erase a).erase b) :=
      (List.perm_cons_erase a1).trans ((List.perm_cons_erase b1).cons a)
    have hsum := (hperm.map fun j => (G j).size).sum_eq
    rw [f9, List.map_cons, List.map_cons, List.sum_cons, List.sum_cons] at hsum
    have e : ((s.heap.erase a).erase b).map (fun j => (if j = n then HTree.node (G a) (G b) else G j).size) =
        ((s.heap.erase a).erase b).map fun j => (G j).size := by
      refine List.map_congr_left fun j hj => ?_
      have := (f8 j (hmem j hj)).1
      rw [if_neg (by omega)]
    rw [hh, List.map_append, List.sum_append, e]
    simp only [List.map_cons, List.map_nil, List.sum_cons, List.sum_nil, if_true, HTree.size]
    omega

/-- The end of BUILD's loop (R81, R83): the one element of HEAP is the root of a tree over all the records. -/
theorem forest_end {L n r : Nat} {s t : State} (F : forestHolds L n s) (hr : s.heap = [r]) (hn : t.node = s.node)
    (h1 : t.root = BitVec.ofNat 10 r) (h2 : t.nodeCount = BitVec.ofNat 10 n) (h3 : t.leafCount = BitVec.ofNat 9 L) :
    treeHolds t := by
  obtain ⟨f1, f2, f3, f4, f5, f6, f7, G, f8, f9⟩ := F
  simp only [Config.nsym] at f3
  rw [hr] at f4 f9
  simp only [List.length_singleton, List.map_cons, List.map_nil, List.sum_cons, List.sum_nil, Nat.add_zero] at f4 f9
  obtain ⟨hrn, hrt, hrs⟩ := f8 r (by rw [hr]; simp)
  have e1 : t.root.toNat = r := by rw [h1]; simp; omega
  have e2 : t.nodeCount.toNat = n := by rw [h2]; simp; omega
  have e3 : t.leafCount.toNat = L := by rw [h3]; simp; omega
  refine ⟨⟨G r, ?_, ?_, ?_, ?_, hrs⟩, ?_, ?_, ?_⟩
  · rw [hn, e1]; exact hrt
  · rw [e2]; exact f9
  · have := (G r).size_eq
    rw [HTree.leaves] at this
    rw [e3]
    omega
  · simp only [Config.nodeCap]; omega
  · omega
  · rw [hn, e2]; exact f6
  · intro _
    rw [hn, e2]
    exact f7

/-- Everything a pass of BUILD's loop can come to (R81). -/
theorem forest_iter {L n : Nat} {s : State} (F : forestHolds L n s) :
    (∃ u, buildIter L n s = .more u ∧ u.treeV = s.treeV ∧ u.phase = .merge L (n + 1) ∧ forestHolds L (n + 1) u) ∨
    (∃ u, buildIter L n s = .done u ∧ treeHolds u) := by
  have F' := F
  obtain ⟨f1, f2, f3, f4, f5, -⟩ := F'
  obtain ⟨a, ha⟩ := heapMin_isSome (t := s.node) (h := s.heap) (by intro h; rw [h] at f4; simp at f4; omega)
  cases hb : heapMin s.node (s.heap.erase a) with
  | some b =>
    left
    refine ⟨{ s with
      node := tableSet Config.nodeCap s.node n (mergeRec s.node a b)
      heap := (s.heap.erase a).erase b ++ [n], phase := .merge L (n + 1) },
      by simp only [buildIter, extractMin, ha, Option.map_some, hb], rfl, rfl, ?_⟩
    exact forest_merge F ha hb rfl rfl
  | none =>
    right
    have he : s.heap.erase a = [] := by
      by_contra hne
      obtain ⟨m, hm⟩ := heapMin_isSome (t := s.node) hne
      rw [hm] at hb
      cases hb
    have ha1 := (heapMin_spec ha).1
    have hr : s.heap = [a] := by
      have := List.perm_cons_erase ha1
      rw [he] at this
      exact List.perm_singleton.1 this
    refine ⟨buildFinish L n (BitVec.ofNat 10 a) s,
      by simp only [buildIter, extractMin, ha, Option.map_some, hb, Option.map_none], ?_⟩
    exact forest_end F hr rfl rfl rfl rfl

/-! ## DESERIALIZE -/

theorem treeSpan_congr {t u : Table NodeRec} {T : HTree} {a b : Nat} (h : treeSpan t T a b)
    (hu : ∀ j, a ≤ j → j < b → nodeIn u j = nodeIn t j) : treeSpan u T a b := by
  obtain ⟨h1, h2, h3, h4⟩ := h
  refine ⟨?_, h2, h3, fun j hj1 hj2 hl => by rw [hu j hj1 hj2] at hl ⊢; exact h4 j hj1 hj2 hl⟩
  have key : ∀ (U : HTree) (j : Nat), a ≤ j → j < b → treeAt t U j = true → treeAt u U j = true := by
    intro U
    induction U with
    | leaf v =>
      intro j hj1 hj2 hj
      simpa [treeAt, hu j hj1 hj2] using hj
    | node l r hl hr =>
      intro j hj1 hj2 hj
      obtain ⟨k1, k2, k3⟩ := treeAt_node hj
      obtain ⟨m1, m2, m3, m4⟩ := h4 j hj1 hj2 k1
      simp only [treeAt, hu j hj1 hj2, k1, Bool.not_false, Bool.true_and, Bool.and_eq_true]
      exact ⟨hl _ m1 m2 k2, hr _ m3 m4 k3⟩
  have := T.size_pos
  exact key T a (le_refl _) (by omega) h1

/-- Each waiting record comes before the next record to be read. -/
theorem waitingHolds_congr {t u : Table NodeRec} (st : List Frame) {n k : Nat} (h : waitingHolds t st n k)
    (hu : ∀ j < n, nodeIn u j = nodeIn t j) : waitingHolds u st n k := by
  induction st generalizing n k with
  | nil => exact h
  | cons f st ih =>
    cases f with
    | put i => exact h
    | visit i a b => exact h
    | awaitLeft i =>
      obtain ⟨h1, h2, h3⟩ := h
      exact ⟨h1, by rw [hu _ (by omega)]; exact h2, ih h3 (fun j hj => hu j (by omega))⟩
    | awaitRight i l =>
      obtain ⟨h1, h2, T, k', h3, h4, h5⟩ := h
      have := h3.2.1
      refine ⟨h1, by rw [hu _ (by omega)]; exact h2, T, k', treeSpan_congr h3 (fun j _ hj => hu j hj), h4,
        ih h5 (fun j hj => hu j (by omega))⟩

/-- The leaves read so far, where `n` records are read, are fewer than half of them: each waits for a right neighbour. -/
theorem waitingHolds_leaves {t : Table NodeRec} (st : List Frame) {n k : Nat} (h : waitingHolds t st n k) : 2 * k ≤ n := by
  induction st generalizing n k with
  | nil => obtain ⟨h1, h2⟩ := h; omega
  | cons f st ih =>
    cases f with
    | put i => exact absurd h id
    | visit i a b => exact absurd h id
    | awaitLeft i =>
      obtain ⟨h1, -, h3⟩ := h
      have := ih h3
      omega
    | awaitRight i l =>
      obtain ⟨h1, -, T, k', h3, h4, h5⟩ := h
      have := ih h5
      have h6 := h3.2.1
      have h7 := T.size_eq
      rw [HTree.leaves] at h7
      omega

/-- The return of a subtree `T` at the records `i` to `m − 1` (R91): either something still waits, for the record `m`, or `T`
has grown to the whole tree with its root at 0. -/
theorem returnNode_holds (st : List Frame) (t : Table NodeRec) (i : BitVec 10) (T : HTree) (m k : Nat) (hm : m ≤ 513)
    (hT : treeSpan t T i.toNat m) (h : waitingHolds t st i.toNat k) :
    (∃ t' st', returnNode i st t = (t', st', none) ∧ waitingHolds t' st' m (T.syms.length + k)) ∨
    ∃ t' st' r T', returnNode i st t = (t', st', some r) ∧ r = 0#10 ∧ treeSpan t' T' 0 m ∧ T'.syms.length = T.syms.length + k := by
  induction st generalizing t i T k with
  | nil =>
    obtain ⟨h1, h2⟩ := h
    have hi : i = 0#10 := BitVec.eq_of_toNat_eq h1
    rw [h1] at hT
    exact .inr ⟨t, [], i, T, rfl, hi, hT, by omega⟩
  | cons f st ih =>
    cases f with
    | put j => exact absurd h id
    | visit j a b => exact absurd h id
    | awaitLeft p =>
      obtain ⟨h1, h2, h3⟩ := h
      exact .inl ⟨t, .awaitRight p i :: st, rfl, h1, h2, T, k, hT, rfl, h3⟩
    | awaitRight p l =>
      obtain ⟨h1, h2, U, k', h3, h4, h5⟩ := h
      have hU := h3.2.1
      have hTs := hT.2.1
      have hUp := U.size_pos
      have hTp := T.size_pos
      rw [returnNode]
      generalize hu : tableSet Config.nodeCap t p.toNat { nodeIn t p.toNat with left := l, right := i } = u
      have hne : ∀ j, j ≠ p.toNat → nodeIn u j = nodeIn t j := fun j hj => by rw [← hu]; exact nodeIn_set_ne _ hj
      have hnew : nodeIn u p.toNat = { nodeIn t p.toNat with left := l, right := i } := by
        rw [← hu]; exact nodeIn_set_same _ (by omega)
      have hUu := treeSpan_congr h3 (u := u) (fun j hj _ => hne j (by omega))
      have hTu := treeSpan_congr hT (u := u) (fun j hj _ => hne j (by omega))
      have hspan : treeSpan u (.node U T) p.toNat m := by
        refine ⟨?_, ?_, ?_, ?_⟩
        · rw [treeAt, hnew]
          dsimp only
          rw [h2, hUu.1, hTu.1]
          rfl
        · simp only [HTree.size]; omega
        · intro v hv
          rcases List.mem_append.1 hv with hv | hv
          · exact hUu.2.2.1 v hv
          · exact hTu.2.2.1 v hv
        · intro j hj1 hj2 hl
          by_cases hjp : j = p.toNat
          · subst hjp
            rw [hnew]
            dsimp only
            omega
          · by_cases hji : j < i.toNat
            · have := hUu.2.2.2 j (by omega) hji hl
              omega
            · have := hTu.2.2.2 j (by omega) hj2 hl
              omega
      have := ih u p (.node U T) k' hspan (waitingHolds_congr st h5 (fun j hj => hne j (by omega)))
      have e : (HTree.node U T).syms.length + k' = T.syms.length + k := by
        simp only [HTree.syms, List.length_append]; omega
      rw [e] at this
      exact this

/-- A waiting record stands for itself, one whose left subtree is read for at least two (R91). -/
theorem waitingHolds_length {t : Table NodeRec} (st : List Frame) {n k : Nat} (h : waitingHolds t st n k) :
    2 * st.length ≤ n + waitingLefts st := by
  induction st generalizing n k with
  | nil => exact Nat.zero_le _
  | cons f st ih =>
    cases f with
    | put i => exact absurd h id
    | visit i a b => exact absurd h id
    | awaitLeft i =>
      obtain ⟨h1, -, h3⟩ := h
      have := ih h3
      simp only [List.length_cons, waitingLefts]
      omega
    | awaitRight i l =>
      obtain ⟨h1, -, T, k', h3, h4, h5⟩ := h
      have := ih h5
      have := h3.2.1
      have := T.size_pos
      simp only [List.length_cons, waitingLefts]
      omega

/-- The internal record read, whose left subtree is awaited (R91): DSTACK waits for the next record, or the header is too
large whatever comes (R33). -/
theorem reading_internal {s t : State} {n : Nat} {i : BitVec 10} (h : readingHolds s n) (hi : i.toNat = n) (hn : n < 513)
    (hN : t.node = tableSet Config.nodeCap s.node n ⟨false, 0#9, 0#32, 0#10, 0#10⟩)
    (hD : t.dstack = pushFrames [.awaitLeft i] s.dstack) (hL : t.leafCount = s.leafCount) : readingHolds t (n + 1) := by
  have e : pushFrames [.awaitLeft i] s.dstack = .awaitLeft i :: s.dstack.take 256 := rfl
  have h5 := waitingLefts_take 256 s.dstack
  have h6 := waitingLefts_le s.dstack
  have hlen : (s.dstack.take 256).length = min 256 s.dstack.length := List.length_take
  rcases h with h | ⟨h1, h2⟩
  · have h7 := waitingHolds_length _ h
    by_cases hl : s.dstack.length ≤ 256
    · left
      rw [hD, e, List.take_of_length_le hl, hN, hL]
      refine ⟨by rw [hi], ?_, ?_⟩
      · rw [hi, nodeIn_set_same _ hn]
      · rw [hi]
        exact waitingHolds_congr s.dstack h fun j hj => nodeIn_set_ne _ (by omega)
    · right
      rw [hD, e]
      simp only [List.length_cons, waitingLefts, Config.dstackCap, Config.nodeCap]
      omega
  · right
    rw [hD, e]
    simp only [List.length_cons, waitingLefts, Config.dstackCap, Config.nodeCap] at h1 h2 ⊢
    omega

/-- The leaf read (R91): the tree is whole, or DSTACK waits for the next record, or the header is too large whatever comes. -/
theorem reading_leaf {s : State} {i : BitVec 10} {v : Nat} (hv : v ≤ 256) (hi : i.toNat < 513) (h : readingHolds s i.toNat) :
    (∃ u, deserializeLeaf i v s = .more u ∧ u.treeV = s.treeV ∧ u.nodeCount = s.nodeCount ∧ u.phase = .body ∧
      readingHolds u (i.toNat + 1)) ∨
    ∃ u, deserializeLeaf i v s = .done u ∧ (s.nodeCount.toNat = i.toNat + 1 → treeHolds u) := by
  generalize hu : tableSet Config.nodeCap s.node i.toNat ⟨true, BitVec.ofNat 9 v, 0#32, 0#10, 0#10⟩ = t
  have hne : ∀ j, j ≠ i.toNat → nodeIn t j = nodeIn s.node j := fun j hj => by
    rw [← hu]; exact nodeIn_set_ne _ hj
  have hnew : nodeIn t i.toNat = ⟨true, BitVec.ofNat 9 v, 0#32, 0#10, 0#10⟩ := by
    rw [← hu]; exact nodeIn_set_same _ hi
  have hleaf : deserializeLeaf i v s = match returnNode i s.dstack t with
      | (t', st, some r) => .done { s with leafCount := s.leafCount + 1#9, phase := .body, node := t', dstack := st, root := r, treeSrc := .deserialize, treeV := true }
      | (t', st, none) => .more { s with leafCount := s.leafCount + 1#9, phase := .body, node := t', dstack := st } := by
    rw [← hu]
    rfl
  rw [hleaf]
  rcases h with h | ⟨h1, h2⟩
  · have hk := waitingHolds_leaves s.dstack h
    have hlc : (s.leafCount + 1#9).toNat = 1 + s.leafCount.toNat := by
      rw [BitVec.toNat_add]; simp; omega
    have hspan : treeSpan t (.leaf v) i.toNat (i.toNat + 1) := by
      refine ⟨?_, rfl, by simp [HTree.syms, Config.pseudoEof]; omega, ?_⟩
      · rw [treeAt, hnew]; simp; omega
      · intro j hj1 hj2 hl
        have : j = i.toNat := by omega
        rw [this, hnew] at hl
        cases hl
    have hw := waitingHolds_congr s.dstack h (u := t) (fun j hj => hne j (by omega))
    rcases returnNode_holds s.dstack t i (.leaf v) _ _ (by omega) hspan hw with
      ⟨t', st', e, hw'⟩ | ⟨t', st', r, T', e, hr, hs', hk⟩
    · rw [e]
      left
      refine ⟨_, rfl, rfl, rfl, rfl, .inl ?_⟩
      dsimp only
      rw [hlc]
      exact hw'
    · rw [e]
      right
      refine ⟨_, rfl, fun hn1 => ?_⟩
      have h0 := hs'.2.1
      have hsz := T'.size_eq
      rw [HTree.leaves] at hsz
      refine ⟨⟨T', ?_, ?_, ?_, ?_, hs'.2.2.1⟩, ?_, ?_, fun h => by cases h⟩
      · dsimp only; rw [hr]; exact hs'.1
      · dsimp only; rw [hn1]; omega
      · dsimp only; rw [hlc, hk]; rfl
      · simp only [Config.nodeCap]; omega
      · dsimp only; rw [hr, hn1]; simp
      · dsimp only
        intro j hj hl
        rw [hn1] at hj ⊢
        have := hs'.2.2.2 j (Nat.zero_le _) hj hl
        exact ⟨this.2.1, this.2.2.2⟩
  · simp only [Config.nodeCap, Config.dstackCap] at h1 h2
    rcases returnNode_lefts i s.dstack t with ⟨h0, -⟩ | ⟨t', st', e, k1, k2⟩
    · omega
    · rw [e]
      left
      refine ⟨_, rfl, rfl, rfl, rfl, .inr ?_⟩
      simp only [Config.nodeCap, Config.dstackCap]
      omega

/-- Everything one pass for a node bit can come to (R91), as far as the tree goes. -/
theorem reading_iter {s : State} (hv : s.treeV = false) (hc : s.nodeCount.toNat ≤ 513) (hp : s.phase = .body)
    (h : readingHolds s s.nodeCount.toNat) :
    (∃ u, deserializeIter s = .more u ∧ u.treeV = false ∧ u.nodeCount.toNat ≤ 513 ∧
      ((u.phase = .body ∧ readingHolds u u.nodeCount.toNat) ∨
        ∃ i, u.phase = .field i ∧ u.nodeCount.toNat = i.toNat + 1 ∧ readingHolds u i.toNat)) ∨
    ∃ e info u, deserializeIter s = .raise e info u ∧ u.treeV = false := by
  have hraise : ∀ (e : ErrCode) (info : Word) (u : State), u.treeV = false →
      ∃ e' info' u', deserializeRaise e info u = .raise e' info' u' ∧ u'.treeV = false := fun e info u hu => ⟨_, _, _, rfl, hu⟩
  unfold deserializeIter
  split
  · exact .inr (hraise _ _ _ hv)
  · exact .inr (hraise _ _ _ hv)
  · next b p _ =>
    dsimp only
    split
    · exact .inr (hraise _ _ _ hv)
    · next hlt =>
      simp only [Config.nodeCap] at hlt
      have hn1 : (s.nodeCount + 1#10).toNat = s.nodeCount.toNat + 1 := by
        rw [BitVec.toNat_add]; simp; omega
      left
      split
      · exact ⟨_, rfl, hv, by dsimp only; rw [hn1]; omega, .inr ⟨s.nodeCount, rfl, hn1, h⟩⟩
      · refine ⟨_, rfl, hv, by dsimp only; rw [hn1]; omega, .inl ⟨hp, ?_⟩⟩
        dsimp only
        rw [hn1]
        exact reading_internal h rfl (by omega) rfl rfl rfl

/-- Everything the pass for a leaf's field can come to (R91), as far as the tree goes. -/
theorem reading_field {s : State} {i : BitVec 10} (hv : s.treeV = false) (hc : s.nodeCount.toNat ≤ 513)
    (hi : s.nodeCount.toNat = i.toNat + 1) (h : readingHolds s i.toNat) :
    (∃ u, deserializeField i s = .more u ∧ u.treeV = false ∧ u.nodeCount.toNat ≤ 513 ∧ u.phase = .body ∧
      readingHolds u u.nodeCount.toNat) ∨
    (∃ u, deserializeField i s = .done u ∧ treeHolds u) ∨ ∃ e info u, deserializeField i s = .raise e info u ∧ u.treeV = false := by
  have hraise : ∀ (e : ErrCode) (info : Word) (u : State), u.treeV = false →
      ∃ e' info' u', deserializeRaise e info u = .raise e' info' u' ∧ u'.treeV = false := fun e info u hu => ⟨_, _, _, rfl, hu⟩
  unfold deserializeField
  split
  · exact .inr (.inr (hraise _ _ _ hv))
  · exact .inr (.inr (hraise _ _ _ hv))
  · next v q _ =>
    dsimp only
    split
    · exact .inr (.inr (hraise _ _ _ hv))
    · next hv256 =>
      simp only [Config.pseudoEof] at hv256
      have h' : readingHolds { s with inp := q, hdrBits := s.hdrBits + BitVec.ofNat 32 Config.leafBits } i.toNat := h
      rcases reading_leaf (v := v) (by omega) (by omega) h' with ⟨u, e, u1, u2, u3, u4⟩ | ⟨u, e, u1⟩
      · refine .inl ⟨u, e, u1.trans hv, by rw [u2]; exact hc, u3, ?_⟩
        rw [u2]
        show readingHolds u s.nodeCount.toNat
        rw [hi]
        exact u4
      · exact .inr (.inl ⟨u, e, u1 hi⟩)

end Sys2Proof.Machine
end

