-- ==== Sys2Proof/Tests/Slice0.lean ====
section
/-! SUPPORT. The model's own tests: the refused words, each command's word, the vectors of spec/95_test_vectors.md for single
commands, and a witness of the hypotheses of every statement that has any. Expected values are those of the spec's vectors. -/

namespace Sys2Proof.Tests

open Sys2Proof.Machine

/-! ## Ill-formed words (R62): one for each check, and the decoder's refusal -/

theorem test_wf_refuses_opcode : CmdFields.opAssigned ⟨0x03#8, 0#24⟩ = false ∧ CmdFields.rsvClear ⟨0x03#8, 0#24⟩ = true := by
  decide

theorem test_wf_refuses_reserved : CmdFields.rsvClear ⟨0x00#8, 1#24⟩ = false ∧ CmdFields.opAssigned ⟨0x00#8, 1#24⟩ = true := by
  decide

theorem test_decode_refuses_by_name :
    decode 0x00000103#32 = .error .reservedBits ∧ decode 0x0000001E#32 = .error .unassignedOpcode := ⟨rfl, rfl⟩

/-! ## Every command's word, written out from R60 and R61 -/

theorem test_decode_control : decode 0x00000000#32 = .ok .nop ∧ decode 0x00000001#32 = .ok .clear ∧
    decode 0x00000002#32 = .ok .openout := ⟨rfl, rfl, rfl⟩

theorem test_decode_encode_side : decode 0x00000010#32 = .ok .count ∧ decode 0x00000011#32 = .ok .build ∧
    decode 0x00000012#32 = .ok .gencode ∧ decode 0x00000013#32 = .ok .wrmagic ∧ decode 0x00000014#32 = .ok .serialize ∧
    decode 0x00000015#32 = .ok .encbody ∧ decode 0x00000016#32 = .ok .close ∧ decode 0x0000001F#32 = .ok .encode :=
  ⟨rfl, rfl, rfl, rfl, rfl, rfl, rfl, rfl⟩

theorem test_decode_decode_side : decode 0x00000020#32 = .ok .rdmagic ∧ decode 0x00000021#32 = .ok .deserialize ∧
    decode 0x00000022#32 = .ok .decbody ∧ decode 0x0000002F#32 = .ok .decode := ⟨rfl, rfl, rfl, rfl⟩

theorem test_table_words : decodeTableWord 32 0x00000014 = some .serialize ∧ decodeTableWord 32 0x00000114 = none ∧
    decodeTableWord 32 0x100000014 = none := ⟨rfl, rfl, rfl⟩

/-! ## Small states -/

/-- The state a command leaves. -/
def after (i : Instr) (s : State) : State :=
  match exec i s with
  | .next t => t
  | .fault _ => s
  | .refused _ => s

/-- After reset with the bytes attached. -/
def withInput (bytes : List Byte) : State := { State.reset with inp := ⟨bytes, 0#40, []⟩ }

/-- "AAB" (W1). -/
def aab : List Byte := [0x41, 0x41, 0x42]

/-- After COUNT of `bytes` (R77). -/
def counted (bytes : List Byte) : State :=
  { withInput bytes with freqV := true, freq := freqOf bytes, inCount := BitVec.ofNat 32 bytes.length }

/-- The tree of V-BLD-1. -/
def aabTree : HTree := .node (.leaf 65) (.node (.leaf 66) (.leaf 256))

/-- The records of V-BLD-1. -/
def aabNodes : Table NodeRec :=
  [(0, ⟨true, 65, 2, 0, 0⟩), (1, ⟨true, 66, 1, 0, 0⟩), (2, ⟨true, 256, 1, 0, 0⟩), (3, ⟨false, 0, 2, 1, 2⟩),
   (4, ⟨false, 0, 4, 0, 3⟩)]

/-- After BUILD of "AAB" (V-BLD-1). -/
def built : State := { counted aab with treeV := true, node := aabNodes, root := 4, nodeCount := 5, leafCount := 3 }

/-- After GENCODE of V-BLD-1 (V-GEN-1), as far as "AAB" reads CODE. -/
def coded : State := { built with codeV := true, code := [(65, ⟨1, 0⟩), (66, ⟨2, 2⟩), (256, ⟨2, 3⟩)] }

/-- The container of V-ENC-1. -/
def aabContainer : List Byte := [0xFA, 0xCE, 0x82, 0x01, 0x48, 0x29, 0x0B, 0x00, 0x2C]

/-- A root leaf of symbol `v`, as DESERIALIZE leaves it (R100). -/
def rootLeaf (v : BitVec 9) : State :=
  { State.reset with treeV := true, treeSrc := .deserialize, node := [(0, ⟨true, v, 0, 0, 0⟩)], nodeCount := 1, leafCount := 1 }

/-! ## Vectors -/

theorem test_nop : after .nop State.reset = { State.reset with done := true, doneIp := true } := by decide

theorem test_illegal_word : writeCmd 0x00000103#32 State.reset =
    .next { State.reset with cmd := 0x103, err := true, errCode := .eIllegalCmd, errInfo := 0x103, errIp := true } := rfl

/-- V-CTL-2. -/
theorem test_clear :
    let t := after .clear built
    statusWord t = 0x82 ∧ t.root = 0 ∧ t.nodeCount = 0 ∧ t.inCount = 0 := by decide +kernel

/-- V-CTL-4. -/
theorem test_openout :
    let t := after .openout { State.reset with out := ⟨[false, true, false], [], 5, 3, true⟩ }
    t.out = ⟨[], [], 0, 0, true⟩ := by decide +kernel

/-- V-CNT-1. -/
theorem test_count_aab :
    let t := after .count (withInput aab)
    freqAt t 65 = 2 ∧ freqAt t 66 = 1 ∧ freqAt t 256 = 1 ∧ freqAt t 0 = 0 ∧ t.inCount = 3 ∧ t.inp.pos = 24 ∧
      statusWord t = 0x92 := by decide +kernel

/-- V-CNT-8. -/
theorem test_count_ioerr :
    let t := after .count { State.reset with inp := ⟨[0x41], 0#40, [true]⟩ }
    t.errCode.toBits = 0x08 ∧ t.errInfo = 0 ∧ t.inp.pos = 0 ∧ t.freqV = false := by decide +kernel

/-- V-BLD-1. -/
theorem test_build_aab :
    let t := after .build (counted aab)
    t.node = aabNodes ∧ t.root = 4 ∧ t.nodeCount = 5 ∧ t.leafCount = 3 := by decide +kernel

/-- V-BLD-6, the tie vector. -/
theorem test_build_ties :
    let t := after .build (counted [0x41, 0x42, 0x43, 0x44])
    (t.node.drop 5).map (fun p => (p.2.left, p.2.right, p.2.weight)) = [(0, 1, 2), (2, 3, 2), (4, 5, 3), (6, 7, 5)] := by
  decide +kernel

/-- V-GEN-1. -/
theorem test_gencode_aab :
    let t := after .gencode built
    codeAt t 65 = ⟨1, 0⟩ ∧ codeAt t 66 = ⟨2, 2⟩ ∧ codeAt t 256 = ⟨2, 3⟩ ∧ codeAt t 67 = ⟨0, 0⟩ := by decide +kernel

/-- V-GEN-9: the later of two leaves with one symbol. -/
theorem test_gencode_duplicate :
    let t := after .gencode { State.reset with
      treeV := true, nodeCount := 3, leafCount := 2
      node := [(0, ⟨false, 0, 0, 1, 2⟩), (1, ⟨true, 65, 0, 0, 0⟩), (2, ⟨true, 65, 0, 0, 0⟩)] }
    codeAt t 65 = ⟨1, 1⟩ ∧ codeAt t 256 = ⟨0, 0⟩ := by decide +kernel

/-- V-ENC-S1. -/
theorem test_wrmagic :
    (after .wrmagic State.reset).out = ⟨[], [0xFA, 0xCE, 0x82, 0x01], 4, 32, true⟩ := by decide +kernel

/-- V-HDR-1. -/
theorem test_serialize :
    let t := after .serialize built
    t.out.data = [0x48, 0x29, 0x0B, 0x00] ∧ t.hdrBits = 32 ∧ t.out.acc = [] := by decide +kernel

/-- V-ENC-S2. -/
theorem test_encbody :
    let t := after .encbody coded
    t.out.acc = [false, false, true, false, true, true] ∧ t.out.bits = 6 ∧ t.inp.pos = 24 := by decide +kernel

/-- V-ENC-S3. -/
theorem test_close :
    (after .close { State.reset with out := ⟨[true, true, false], [], 0, 3, true⟩ }).out = ⟨[], [0xC0], 1, 3, false⟩ := by
  decide +kernel

/-- V-ENC-1. -/
theorem test_encode_aab :
    let t := after .encode (withInput aab)
    t.out = ⟨[], aabContainer, 9, 70, false⟩ ∧ statusWord t = 0x72 ∧ t.hdrBits = 32 ∧ t.inp.pos = 24 := by decide +kernel

/-- V-ENC-2. -/
theorem test_encode_empty :
    (after .encode State.reset).out.data = [0xFA, 0xCE, 0x82, 0x01, 0x40, 0x18, 0x04] := by decide +kernel

/-- V-DEC-E1 and V-DEC-E2, as RDMAGIC. -/
theorem test_rdmagic :
    let t := after .rdmagic (withInput [0, 0, 0, 0])
    let u := after .rdmagic (withInput [0xFA, 0xCE, 0x82])
    t.errCode.toBits = 0x01 ∧ t.errInfo = 0 ∧ t.inp.pos = 32 ∧ u.errCode.toBits = 0x02 ∧ u.inp.pos = 0 := by
  decide +kernel

/-- V-HDR-5. -/
theorem test_deserialize :
    let t := after .deserialize { State.reset with inp := ⟨aabContainer, 32#40, []⟩ }
    t.node = [(0, ⟨false, 0, 0, 1, 2⟩), (1, ⟨true, 65, 0, 0, 0⟩), (2, ⟨false, 0, 0, 3, 4⟩), (3, ⟨true, 66, 0, 0, 0⟩),
      (4, ⟨true, 256, 0, 0, 0⟩)] ∧ t.inp.pos = 64 ∧ statusWord t = 0x4A2 := by decide +kernel

/-- V-DEC-E5, as DESERIALIZE. -/
theorem test_deserialize_bad_leaf :
    let t := after .deserialize (withInput [0xC0, 0x40])
    t.errCode.toBits = 0x04 ∧ t.errInfo = 0x101 ∧ t.hdrBits = 10 := by decide +kernel

/-- The body of V-ENC-1 over the tree of V-BLD-1 (R98). -/
theorem test_decbody :
    let t := after .decbody { built with inp := ⟨[0x2C], 0#40, []⟩ }
    t.out.data = aab ∧ t.inp.pos = 6 ∧ t.walk = 2 ∧ t.decState = .done := by decide +kernel

/-- V-DEC-E7, as DECBODY. -/
theorem test_decbody_degenerate :
    let t := after .decbody (rootLeaf 65)
    t.errCode.toBits = 0x07 ∧ t.errInfo = 0x41 ∧ statusWord t = 0x5A4 := by decide +kernel

/-- V-DEC-1. -/
theorem test_decode_aab :
    let t := after .decode (withInput aabContainer)
    t.out = ⟨[], aab, 3, 24, false⟩ ∧ statusWord t = 0x622 ∧ t.inp.pos = 70 ∧ t.walk = 4 := by decide +kernel

/-- V-DEC-E8. -/
theorem test_decode_truncated :
    let t := after .decode (withInput [0xFA, 0xCE, 0x82, 0x01, 0x48, 0x29, 0x0B, 0x00])
    t.errCode.toBits = 0x06 ∧ t.errInfo = 0 ∧ t.inp.pos = 64 ∧ statusWord t = 0x5A4 := by decide +kernel

/-- The window words R46 gives for code `10`, and those R45 gives for a leaf. -/
theorem test_windows :
    (busRead (BitVec.ofNat 16 (0x4000 + 64 * 66)) 4 coded).reply = .data 2 ∧
    (busRead (BitVec.ofNat 16 (0x4000 + 64 * 66 + 4)) 4 coded).reply = .data 2 ∧
    (busRead 0x1020 4 coded).reply = .data 0x80000100 ∧ (busRead 0x1024 4 coded).reply = .data 1 := by decide +kernel

/-- R119, R50: a reset after the twelfth bit of WRMAGIC, the sink holding the first byte; no completion, no error. -/
theorem test_reset_inside_wrmagic :
    let t := after .wrmagic { State.reset with host := [.reset], grants := [13] }
    t.out = ⟨[true, true, false, false], [0xFA#8], 1, 12, true⟩ ∧ t.busy = true ∧
      step t = .next { State.reset with out := ⟨[], [0xFA#8], 0, 0, true⟩ } := ⟨rfl, rfl, rfl⟩

/-- R70: BUSY is 1 from the acceptance of an illegal word to its error. -/
theorem test_illegal_word_busy :
    writeCmd 0x00000103#32 { State.reset with grants := [0] } = .next { State.reset with cmd := 0x103, seq := .rejecting } ∧
    step { State.reset with cmd := 0x103, seq := .rejecting } =
      .next { State.reset with cmd := 0x103, err := true, errCode := .eIllegalCmd, errInfo := 0x103, errIp := true } := ⟨rfl, rfl⟩

/-- V-BUS-1 to V-BUS-4. -/
theorem test_bus :
    (busRead 0x002 4 State.reset).reply = .busError 0 ∧ (busRead 0x00C 2 State.reset).reply = .busError 0 ∧
    (busRead 0x0050 4 State.reset).reply = .data 0 ∧ (busRead 0x8080 4 State.reset).reply = .data 0 ∧
    busWrite 0x00C 4 0xFFFFFFFF State.reset = .next { State.reset with reply := .written } := ⟨rfl, rfl, rfl, rfl, rfl⟩

/-- V-IRQ-1. -/
theorem test_irq : statusWord (after .nop { State.reset with doneIe := true, errIe := true }) = 0x882 := by decide

/-- The word placed for the next step runs (R59). -/
theorem test_step_runs_placed_word :
    step (State.reset.withFetchWord 32 0x00000002) =
      .next { State.reset with cmd := 2, done := true, doneIp := true, reply := .written } := rfl

/-! ## Witnesses: states and operands that meet each statement's hypotheses -/

theorem ready_reset : Ready State.reset := ⟨rfl, rfl⟩

theorem sourceOk_none {s : State} (h : s.inp.ioDraws = []) : SourceOk s := by
  intro b hb
  rw [h] at hb
  cases hb

theorem exec_after (i : Instr) (s : State) : exec i s = .next (after i s) := by
  rw [after, exec_eq_command]

/-- After reset with a `COUNT` in its loop. -/
def busyCount : State := { State.reset with seq := .running .count .count, phase := .body }

/-- After reset, the output closed. -/
def closed (s : State) : State := { s with out := { s.out with isOpen := false } }

theorem witness_IllegalWordRaises : Ready State.reset ∧ wordLegal 0x00000103#32 = false ∧ wordLegal 0x00000003#32 = false ∧
    wordLegal 0x0000000F#32 = false ∧ wordLegal 0x00000017#32 = false ∧ wordLegal 0x0000001E#32 = false ∧
    wordLegal 0x00000023#32 = false ∧ wordLegal 0x0000002E#32 = false ∧ wordLegal 0x00000030#32 = false ∧
    wordLegal 0x000000FF#32 = false := ⟨⟨rfl, rfl⟩, by decide⟩

theorem witness_BusyCommandOverruns : busyCount.busy = true := rfl

theorem witness_StepRunsDecodedCommand :
    ({ busyCount with host := [.write 0x008 4 0x11#32] } : State).host = .write 0x008 4 0x11#32 :: [] ∧
    decode 0x11#32 = .ok .build ∧ State.reset.busy = false := ⟨rfl, rfl, rfl⟩

theorem witness_NopCompletes : Ready State.reset := ready_reset

theorem witness_ClearCompletes : Ready built := ⟨rfl, rfl⟩

theorem witness_OpenoutCompletes : Ready (closed built) := ⟨rfl, rfl⟩

theorem witness_StagePreconditions :
    Ready State.reset ∧ State.reset.freqV = false ∧ State.reset.treeV = false ∧ State.reset.codeV = false ∧
    Ready (closed coded) ∧ (closed coded).treeV = true ∧ (closed coded).codeV = true ∧ (closed coded).out.isOpen = false :=
  ⟨⟨rfl, rfl⟩, rfl, rfl, rfl, ⟨rfl, rfl⟩, rfl, rfl, rfl⟩

/-- After reset with `n` zero bytes attached. -/
def zeros (n : Nat) : State := withInput (List.replicate n 0#8)

theorem zeros_length (n : Nat) : (zeros n).inp.data.length = n := List.length_replicate

theorem witness_CountCompletes (n : Nat) (h : n ≤ 2 ^ 32 - 2) :
    Ready (zeros n) ∧ SourceOk (zeros n) ∧ (zeros n).inp.data.length ≤ 2 ^ 32 - 2 :=
  ⟨⟨rfl, rfl⟩, sourceOk_none rfl, (zeros_length n).le.trans h⟩

theorem witness_CountCompletes_most :
    Ready (zeros (2 ^ 32 - 2)) ∧ SourceOk (zeros (2 ^ 32 - 2)) ∧ (zeros (2 ^ 32 - 2)).inp.data.length ≤ 2 ^ 32 - 2 :=
  witness_CountCompletes _ (by decide)

/-- `n` zero bytes, the source failing at read `k`. -/
def failing (n k : Nat) : State := { State.reset with inp := ⟨List.replicate n 0#8, 0#40, List.replicate k false ++ [true]⟩ }

theorem failing_draws (n k : Nat) : (∀ j < k, (failing n k).inp.ioDraws.getD j false = false) ∧
    (failing n k).inp.ioDraws.getD k false = true := by
  refine ⟨fun j hj => ?_, ?_⟩
  · simp [failing, List.getD_eq_getElem?_getD, List.getElem?_append, hj]
  · simp [failing, List.getD_eq_getElem?_getD]

theorem failing_length (n k : Nat) : (failing n k).inp.data.length = n := List.length_replicate

theorem failing_meets (n k : Nat) (h : k ≤ n) : Ready (failing n k) ∧ k ≤ (failing n k).inp.data.length ∧
    (∀ j < k, (failing n k).inp.ioDraws.getD j false = false) ∧ (failing n k).inp.ioDraws.getD k false = true :=
  ⟨⟨rfl, rfl⟩, (failing_length n k).symm ▸ h, failing_draws n k⟩

theorem zeros_overflow : Ready (zeros (2 ^ 32 - 1)) ∧ (∀ j ≤ 2 ^ 32 - 2, (zeros (2 ^ 32 - 1)).inp.ioDraws.getD j false = false) ∧
    2 ^ 32 - 2 < (zeros (2 ^ 32 - 1)).inp.data.length :=
  ⟨⟨rfl, rfl⟩, fun _ _ => rfl, by rw [zeros_length]; decide⟩

theorem witness_CountFailures :
    ((Ready (failing 3 1) ∧ 1 ≤ (failing 3 1).inp.data.length ∧
      (∀ j < 1, (failing 3 1).inp.ioDraws.getD j false = false) ∧ (failing 3 1).inp.ioDraws.getD 1 false = true) ∧
    Ready (failing (2 ^ 32 - 2) (2 ^ 32 - 2)) ∧ 2 ^ 32 - 2 ≤ (failing (2 ^ 32 - 2) (2 ^ 32 - 2)).inp.data.length ∧
    (∀ j < 2 ^ 32 - 2, (failing (2 ^ 32 - 2) (2 ^ 32 - 2)).inp.ioDraws.getD j false = false) ∧
    (failing (2 ^ 32 - 2) (2 ^ 32 - 2)).inp.ioDraws.getD (2 ^ 32 - 2) false = true) ∧
    Ready (zeros (2 ^ 32 - 1)) ∧ (∀ j ≤ 2 ^ 32 - 2, (zeros (2 ^ 32 - 1)).inp.ioDraws.getD j false = false) ∧
      2 ^ 32 - 2 < (zeros (2 ^ 32 - 1)).inp.data.length :=
  ⟨⟨failing_meets 3 1 (by decide), failing_meets _ _ le_rfl⟩, zeros_overflow⟩

theorem counted_meets (bytes : List Byte) (h : bytes.length ≤ 2 ^ 32 - 2) :
    Ready (counted bytes) ∧ (counted bytes).freqV = true ∧ countHolds (counted bytes) :=
  ⟨⟨rfl, rfl⟩, rfl, countHolds_freqOf h rfl rfl⟩

theorem witness_BuildCompletes :
    (Ready State.reset ∧ State.reset.freqV = false) ∧
    (Ready (counted aab) ∧ (counted aab).freqV = true ∧ countHolds (counted aab)) ∧
    Ready (counted []) ∧ (counted []).freqV = true ∧ countHolds (counted []) :=
  ⟨⟨ready_reset, rfl⟩, counted_meets aab (by decide), counted_meets [] (by decide)⟩

theorem witness_BuildTreeProperties : Ready (counted aab) ∧ (counted aab).freqV = true ∧ countHolds (counted aab) :=
  counted_meets aab (by decide)

theorem witness_BuildEmptyInput : (Ready (counted []) ∧ (counted []).freqV = true ∧ countHolds (counted [])) ∧
    (counted []).inCount = 0#32 := ⟨counted_meets [] (by decide), rfl⟩

/-- A tree of `n` internal nodes in a chain to the right, `2n + 1` records, its last leaf of symbol `last`. -/
def comb (last : Nat) : Nat → HTree
  | 0 => .leaf last
  | n + 1 => .node (.leaf 65) (comb last n)

/-- The records of `comb last n` from index `i` on, in DESERIALIZE's numbering. -/
def combNodes (last : BitVec 9) : Nat → Nat → Table NodeRec
  | 0, i => [(i, ⟨true, last, 0, 0, 0⟩)]
  | n + 1, i => (i, ⟨false, 0, 0, BitVec.ofNat 10 (i + 1), BitVec.ofNat 10 (i + 2)⟩) :: (i + 1, ⟨true, 65, 0, 0, 0⟩) ::
      combNodes last n (i + 2)

/-- A tree of all 513 records. -/
def full : State := { State.reset with treeV := true, node := combNodes 256 256 0, nodeCount := 513, leafCount := 257 }

theorem combNodes_tree (last : BitVec 9) (t : Table NodeRec) (n i : Nat) (hn : i + 2 * n < 1024)
    (ht : ∀ j, i ≤ j → tableGet t j = tableGet (combNodes last n i) j) : treeAt t (comb last.toNat n) i = true := by
  induction n generalizing i with
  | zero => simp [comb, treeAt, nodeIn, ht i le_rfl, combNodes, tableGet]
  | succ n ih =>
    have h0 : nodeIn t i = ⟨false, 0, 0, BitVec.ofNat 10 (i + 1), BitVec.ofNat 10 (i + 2)⟩ := by
      simp [nodeIn, ht i le_rfl, combNodes, tableGet]
    have h1 : nodeIn t (i + 1) = ⟨true, 65, 0, 0, 0⟩ := by
      simp [nodeIn, ht (i + 1) (Nat.le_succ i), combNodes, tableGet]
    have h2 := ih (i + 2) (by omega) fun j hj => by
      rw [ht j (by omega), combNodes, tableGet, if_neg (by omega), tableGet, if_neg (by omega)]
    have e1 : (i + 1) % 1024 = i + 1 := Nat.mod_eq_of_lt (by omega)
    have e2 : (i + 2) % 1024 = i + 2 := Nat.mod_eq_of_lt (by omega)
    simp [comb, treeAt, h0, h1, h2, e1, e2]

theorem full_tree : treeAt full.node (comb 256 256) 0 = true :=
  combNodes_tree 256 full.node 256 0 (by decide) fun _ _ => rfl

theorem comb_size (n last : Nat) : (comb last n).size = 2 * n + 1 := by
  induction n with
  | zero => rfl
  | succ n ih => simp only [comb, HTree.size, ih]; omega

theorem comb_syms (n last : Nat) : ∀ v ∈ (comb last n).syms, v = 65 ∨ v = last := by
  induction n with
  | zero => simp [comb, HTree.syms]
  | succ n ih => simpa [comb, HTree.syms] using ih

theorem witness_GencodeCompletes : (Ready State.reset ∧ State.reset.treeV = false) ∧
    (Ready built ∧ built.treeV = true ∧ treeAt built.node aabTree built.root.toNat = true ∧ aabTree.size ≤ Config.nodeCap) ∧
    (Ready (rootLeaf 256) ∧ (rootLeaf 256).treeV = true ∧
      treeAt (rootLeaf 256).node (.leaf 256) (rootLeaf 256).root.toNat = true) ∧
    Ready full ∧ full.treeV = true ∧ treeAt full.node (comb 256 256) full.root.toNat = true ∧
      (comb 256 256).size ≤ Config.nodeCap :=
  ⟨⟨ready_reset, rfl⟩, ⟨⟨rfl, rfl⟩, rfl, by decide, by decide⟩, ⟨⟨rfl, rfl⟩, rfl, by decide⟩, ⟨rfl, rfl⟩, rfl, full_tree,
    (comb_size 256 256).le⟩

theorem witness_CodesPrefixFree : Ready built ∧ built.treeV = true ∧
    treeAt built.node (.node (.leaf 65) (.node (.leaf 66) (.leaf 256))) built.root.toNat = true ∧
    (HTree.node (.leaf 65) (.node (.leaf 66) (.leaf 256))).size ≤ Config.nodeCap := ⟨⟨rfl, rfl⟩, rfl, by decide, by decide⟩

/-- After reset with seven bits pending in the output port. -/
def pending7 (s : State) : State := { s with out := { s.out with acc := [true, false, true, true, false, false, true] } }

theorem witness_WrmagicCompletes : Ready (pending7 State.reset) ∧ (pending7 State.reset).out.isOpen = true ∧
    (pending7 State.reset).out.acc.length ≤ 7 ∧ Ready (closed State.reset) ∧ (closed State.reset).out.isOpen = false :=
  ⟨⟨rfl, rfl⟩, rfl, by decide, ⟨rfl, rfl⟩, rfl⟩

theorem witness_SerializeCompletes : (Ready State.reset ∧ State.reset.treeV = false) ∧
    (Ready (closed coded) ∧ (closed coded).treeV = true ∧ (closed coded).out.isOpen = false) ∧ Ready (pending7 full) ∧ (pending7 full).treeV = true ∧ (pending7 full).out.isOpen = true ∧
    (pending7 full).out.acc.length ≤ 7 ∧ treeAt (pending7 full).node (comb 256 256) (pending7 full).root.toNat = true ∧
    (comb 256 256).size ≤ Config.nodeCap :=
  ⟨⟨ready_reset, rfl⟩, ⟨⟨rfl, rfl⟩, rfl, rfl⟩, ⟨rfl, rfl⟩, rfl, rfl, by decide, full_tree, (comb_size 256 256).le⟩

theorem fits_small {s : State} (h : s.inp.data.length ≤ 100) : InputFits s := h.trans (by decide)

theorem witness_EncbodyCompletes : Ready coded ∧ SourceOk coded ∧ InputFits coded ∧ coded.codeV = true ∧
    coded.out.isOpen = true ∧ coded.out.acc.length ≤ 7 ∧ (∀ b ∈ coded.inp.data, (codeAt coded b.toNat).len ≠ 0#9) ∧
    (codeAt coded 256).len ≠ 0#9 :=
  ⟨⟨rfl, rfl⟩, sourceOk_none rfl, fits_small (by decide), rfl, rfl, by decide, by decide, by decide⟩

/-- CODE with codes for 65 and 66 only. -/
def noCodes : State := { coded with
  code := [(65, ⟨1, 0⟩), (66, ⟨2, 2⟩), (67, ⟨0, 0⟩), (256, ⟨0, 0⟩)], inp := ⟨[0x41, 0x43], 0#40, []⟩ }

theorem witness_EncbodyNoCode :
    (Ready noCodes ∧ SourceOk noCodes ∧ InputFits noCodes ∧ noCodes.codeV = true ∧ noCodes.out.isOpen = true ∧
      noCodes.out.acc.length ≤ 7 ∧ noCodes.inp.data[1]? = some 0x43#8 ∧
      (∀ c ∈ noCodes.inp.data.take 1, (codeAt noCodes c.toNat).len ≠ 0#9) ∧ (codeAt noCodes 0x43).len = 0#9) ∧
    let s := { noCodes with inp := ⟨aab, 0#40, []⟩ }
    Ready s ∧ SourceOk s ∧ InputFits s ∧ s.codeV = true ∧ s.out.isOpen = true ∧ s.out.acc.length ≤ 7 ∧
      (∀ c ∈ s.inp.data, (codeAt s c.toNat).len ≠ 0#9) ∧ (codeAt s 256).len = 0#9 :=
  ⟨⟨⟨rfl, rfl⟩, sourceOk_none rfl, fits_small (by decide), rfl, rfl, by decide, rfl, by decide, by decide⟩,
    ⟨rfl, rfl⟩, sourceOk_none rfl, fits_small (by decide), rfl, rfl, by decide, by decide, by decide⟩

theorem witness_CloseCompletes : Ready (pending7 State.reset) ∧ (pending7 State.reset).out.isOpen = true ∧
    (pending7 State.reset).out.acc.length ≤ 7 ∧ Ready State.reset ∧ State.reset.out.isOpen = true ∧
    Ready (closed State.reset) ∧ (closed State.reset).out.isOpen = false :=
  ⟨⟨rfl, rfl⟩, rfl, by decide, ⟨rfl, rfl⟩, rfl, ⟨rfl, rfl⟩, rfl⟩

theorem witness_EncodeCompletes : (Ready (withInput aab) ∧ SourceOk (withInput aab) ∧ (withInput aab).inp.data.length ≤ 2 ^ 32 - 2) ∧
    Ready (zeros (2 ^ 32 - 2)) ∧ SourceOk (zeros (2 ^ 32 - 2)) ∧ (zeros (2 ^ 32 - 2)).inp.data.length ≤ 2 ^ 32 - 2 :=
  ⟨⟨⟨rfl, rfl⟩, sourceOk_none rfl, by decide⟩, witness_CountCompletes_most⟩

theorem witness_RdmagicOutcomes :
    let s := withInput [0xFA, 0xCE, 0x82, 0x01]
    let u := withInput [0, 0, 0, 0]
    let v := withInput [0xFA, 0xCE, 0x82]
    (Ready s ∧ s.inp.ioDraws.headD false = false ∧ 32 ≤ 8 * s.inp.data.length ∧
      bitsToNat ((streamOf s.inp.data).take 32) = s.magic.toNat) ∧
    (Ready u ∧ u.inp.ioDraws.headD false = false ∧ 32 ≤ 8 * u.inp.data.length ∧
      bitsToNat ((streamOf u.inp.data).take 32) ≠ u.magic.toNat) ∧
    (Ready v ∧ v.inp.ioDraws.headD false = false ∧ 8 * v.inp.data.length < 32) ∧
    Ready (failing 0 0) ∧ (failing 0 0).inp.ioDraws.headD false = true :=
  ⟨⟨⟨rfl, rfl⟩, rfl, by decide, by decide⟩, ⟨⟨rfl, rfl⟩, rfl, by decide, by decide⟩, ⟨⟨rfl, rfl⟩, rfl, by decide⟩,
    ⟨rfl, rfl⟩, rfl⟩

theorem fits_of {T : HTree} (h : T.size ≤ 513) (k : T.syms.all (fun v => decide (v ≤ 256)) = true) : T.fits :=
  ⟨h, by simpa [Config.pseudoEof] using k⟩

theorem comb_fits : (comb 256 256).fits :=
  ⟨(comb_size 256 256).le, fun v hv => by rcases comb_syms _ _ v hv with rfl | rfl <;> decide⟩

/-- Bytes whose stream starts with `bits`, zero bits after them. -/
def packed (bits : List Bool) : List Byte := ((⟨[], [], 0, 0, true⟩ : OutPort).push bits).closeOut.data

theorem packed_stream (bits : List Bool) : streamOf (packed bits) = bits ++ padBits bits := by
  have h := push_wrote (⟨[], [], 0, 0, true⟩ : OutPort) bits (by decide)
  have k := (closeOut_spec ((⟨[], [], 0, 0, true⟩ : OutPort).push bits) h.2.1).1
  have e : outStream ((⟨[], [], 0, 0, true⟩ : OutPort).push bits) = bits := by simpa [outStream, streamOf] using h.1
  rw [packed, k, e]

theorem inRest_packed (bits : List Bool) : inRest (withInput (packed bits)).inp = bits ++ padBits bits := packed_stream bits

theorem packed_fits {bits : List Bool} (h : bits.length ≤ 2 ^ 20) : InputFits (withInput (packed bits)) := by
  have k := congrArg List.length (packed_stream bits)
  have e : (streamOf (packed bits)).length = 8 * (packed bits).length := streamOf_length _
  rw [e, List.length_append, padBits, List.length_replicate] at k
  simp only [InputFits, withInput, Config.maxAttach]
  omega

theorem witness_DeserializeCompletes :
    (let s := withInput [0x48, 0x29, 0x0B, 0x00]
     Ready s ∧ SourceOk s ∧ InputFits s ∧ aabTree.fits ∧ inRest s.inp = aabTree.header ++ []) ∧
    let s := withInput (packed (comb 256 256).header)
    Ready s ∧ SourceOk s ∧ InputFits s ∧ (comb 256 256).fits ∧
      inRest s.inp = (comb 256 256).header ++ padBits (comb 256 256).header :=
  ⟨⟨⟨rfl, rfl⟩, sourceOk_none rfl, fits_small (by decide), fits_of (by decide) (by decide), by decide⟩,
    ⟨rfl, rfl⟩, sourceOk_none rfl, packed_fits (by decide +kernel), comb_fits, inRest_packed _⟩

/-- After reset with the bytes attached and the source's answers. -/
def source (bytes : List Byte) (draws : List Bool) : State := { State.reset with inp := ⟨bytes, 0#40, draws⟩ }

/-- Inside a leaf's field; nothing at all; a node bit missing; three hundred records that wait, then the end. -/
theorem witness_DeserializeTruncated :
    (Ready (source [0x48] []) ∧ InputFits (source [0x48] []) ∧ headerScan (source [0x48] []).inp = ⟨.cut, 2, 3⟩) ∧
    (Ready (source [] []) ∧ InputFits (source [] []) ∧ headerScan (source [] []).inp = ⟨.cut, 0, 1⟩) ∧
    (Ready (source [0x48, 0x29] []) ∧ InputFits (source [0x48, 0x29] []) ∧
      headerScan (source [0x48, 0x29] []).inp = ⟨.cut, 13, 6⟩) ∧
    let s := source (List.replicate 38 0#8) []
    Ready s ∧ InputFits s ∧ headerScan s.inp = ⟨.cut, 304, 305⟩ :=
  ⟨⟨⟨rfl, rfl⟩, fits_small (by decide), by decide⟩, ⟨⟨rfl, rfl⟩, fits_small (by decide), by decide⟩,
    ⟨⟨rfl, rfl⟩, fits_small (by decide), by decide⟩, ⟨rfl, rfl⟩, fits_small (by decide), by decide +kernel⟩

/-- The reading of a chain's header, up to its last `j` records, where the source does not fail. -/
theorem scan_comb (last j n k m b r : Nat) (w : List Bool) (h : m + 2 * n ≤ 513) :
    scanHeader (fun _ => false) (k + 1) m b r ((comb last (j + n)).header ++ w) =
      scanHeader (fun _ => false) (k + 1) (m + 2 * n) (b + 11 * n) (r + 3 * n) ((comb last j).header ++ w) := by
  induction n generalizing m b r with
  | zero => rfl
  | succ n ih =>
    have e : (comb last (j + (n + 1))).header = false :: true :: false :: false :: true :: false :: false :: false :: false ::
        false :: true :: (comb last (j + n)).header := rfl
    have h1 : ¬ m = 513 := by omega
    have h2 : ¬ m + 1 = 513 := by omega
    have h3 : ¬ bitsToNat [false, false, true, false, false, false, false, false, true] > 256 := by decide
    simp only [e, List.cons_append, scanHeader, Config.nodeCap, h1, h2, Bool.not_false, Bool.not_true, if_true, if_false,
      Bool.false_eq_true, Config.pseudoEof, h3, Config.leafBits]
    rw [ih _ _ _ (by omega)]
    congr 1 <;> omega

theorem headerScan_packed (bits : List Bool) : headerScan (source (packed bits) []).inp =
    scanHeader (fun _ => false) 1 0 0 0 (bits ++ padBits bits) := by rw [← packed_stream bits]; rfl

/-- A root leaf of 257 and of 511; the last leaf of 513 records; a bad leaf in a header too large for NODE, cut after it. -/
theorem witness_DeserializeBadLeaf :
    (Ready (source [0xC0, 0x40] []) ∧ InputFits (source [0xC0, 0x40] []) ∧
      headerScan (source [0xC0, 0x40] []).inp = ⟨.badLeaf 257, 10, 2⟩) ∧
    (Ready (source [0xFF, 0xFF] []) ∧ InputFits (source [0xFF, 0xFF] []) ∧
      headerScan (source [0xFF, 0xFF] []).inp = ⟨.badLeaf 511, 10, 2⟩) ∧
    (let s := source (packed (comb 511 256).header) []
     Ready s ∧ InputFits s ∧ headerScan s.inp = ⟨.badLeaf 511, 2826, 770⟩) ∧
    let s := source (packed (List.replicate 300 false ++ true :: natToBits 9 511)) []
    Ready s ∧ InputFits s ∧ headerScan s.inp = ⟨.badLeaf 511, 310, 302⟩ :=
  ⟨⟨⟨rfl, rfl⟩, fits_small (by decide), by decide⟩, ⟨⟨rfl, rfl⟩, fits_small (by decide), by decide⟩,
    ⟨⟨rfl, rfl⟩, packed_fits (by decide +kernel),
      ((headerScan_packed _).trans (scan_comb 511 0 256 0 0 0 0 _ (by decide))).trans rfl⟩,
    ⟨rfl, rfl⟩, packed_fits (by decide +kernel), by decide +kernel⟩

/-- The 514th record a leaf; the 514th node bit the last bit but six of the input, every record waiting. -/
theorem witness_DeserializeTooLarge :
    (let s := source (packed (comb 256 257).header) []
     Ready s ∧ InputFits s ∧ headerScan s.inp = ⟨.tooLarge, 2818, 770⟩) ∧
    let s := source (packed (List.replicate 513 false ++ [true])) []
    Ready s ∧ InputFits s ∧ headerScan s.inp = ⟨.tooLarge, 514, 514⟩ :=
  ⟨⟨⟨rfl, rfl⟩, packed_fits (by decide +kernel),
      ((headerScan_packed _).trans (scan_comb 256 1 256 0 0 0 0 _ (by decide))).trans rfl⟩,
    ⟨rfl, rfl⟩, packed_fits (by decide +kernel), by decide +kernel⟩

theorem witness_HeaderRoundTrip :
    let u := withInput [0x48, 0x29, 0x0B, 0x00]
    Ready built ∧ built.treeV = true ∧ built.out.isOpen = true ∧ built.out.acc.length ≤ 7 ∧ aabTree.fits ∧
      treeAt built.node aabTree built.root.toNat = true ∧ Ready u ∧ SourceOk u ∧ InputFits u ∧
      inRest u.inp = aabTree.header ++ [] :=
  ⟨⟨rfl, rfl⟩, rfl, rfl, by decide, fits_of (by decide) (by decide), by decide, ⟨rfl, rfl⟩, sourceOk_none rfl, fits_small (by decide),
    by decide⟩

theorem witness_DecbodyCompletes :
    let s := { built with inp := ⟨[0x2C], 0#40, []⟩ }
    let ps := [(65, [false]), (65, [false]), (66, [true, false])]
    Ready s ∧ SourceOk s ∧ InputFits s ∧ s.treeV = true ∧ s.out.isOpen = true ∧ s.out.acc.length ≤ 7 ∧
      treeAt s.node aabTree s.root.toNat = true ∧ (∀ p ∈ ps, p ∈ aabTree.paths ∧ p.1 < 256) ∧
      (256, [true, true]) ∈ aabTree.paths ∧ inRest s.inp = ps.flatMap Prod.snd ++ [true, true] ++ [false, false] :=
  ⟨⟨rfl, rfl⟩, sourceOk_none rfl, fits_small (by decide), rfl, rfl, by decide, by decide, by decide, by decide, by decide⟩

theorem witness_DecbodyTruncated :
    (let s := { built with inp := ⟨[0x01], 0#40, []⟩ }
     let ps := List.replicate 7 (65, [false])
     Ready s ∧ SourceOk s ∧ InputFits s ∧ s.treeV = true ∧ s.out.isOpen = true ∧ s.out.acc.length ≤ 7 ∧
       treeAt s.node aabTree s.root.toNat = true ∧
       (∀ p ∈ ps, p ∈ aabTree.paths ∧ p.1 < 256) ∧ (66, [true, false]) ∈ aabTree.paths ∧ [true] <+: [true, false] ∧ [true] ≠ [true, false] ∧
       inRest s.inp = ps.flatMap Prod.snd ++ [true]) ∧
    let s := { built with inp := ⟨[0x00], 0#40, []⟩ }
    let ps := List.replicate 8 (65, [false])
    Ready s ∧ SourceOk s ∧ InputFits s ∧ s.treeV = true ∧ s.out.isOpen = true ∧ s.out.acc.length ≤ 7 ∧
      treeAt s.node aabTree s.root.toNat = true ∧
      (∀ p ∈ ps, p ∈ aabTree.paths ∧ p.1 < 256) ∧ (66, [true, false]) ∈ aabTree.paths ∧ [] <+: [true, false] ∧ [] ≠ [true, false] ∧
      inRest s.inp = ps.flatMap Prod.snd ++ [] :=
  ⟨⟨⟨rfl, rfl⟩, sourceOk_none rfl, fits_small (by decide), rfl, rfl, by decide, by decide, by decide, by decide, by decide, by decide,
      by decide⟩,
    ⟨rfl, rfl⟩, sourceOk_none rfl, fits_small (by decide), rfl, rfl, by decide, by decide, by decide, by decide, by decide, by decide,
    by decide⟩

theorem witness_DecbodyRootLeaf (v : BitVec 9) : Ready (rootLeaf v) ∧ (rootLeaf v).treeV = true ∧ (rootLeaf v).out.isOpen = true ∧
    (nodeAt (rootLeaf v) (rootLeaf v).root.toNat).leaf = true ∧ (nodeAt (rootLeaf v) (rootLeaf v).root.toNat).value = v :=
  ⟨⟨rfl, rfl⟩, rfl, rfl, rfl, rfl⟩

/-- The container of V-ENC-1, and the sentinel as a root leaf (V-DEC-5). -/
theorem witness_DecodeCompletes :
    (let s := withInput aabContainer
     let ps := [(65, [false]), (65, [false]), (66, [true, false])]
     Ready s ∧ SourceOk s ∧ InputFits s ∧ aabTree.fits ∧ (∀ p ∈ ps, p ∈ aabTree.paths ∧ p.1 < 256) ∧
       (256, [true, true]) ∈ aabTree.paths ∧ streamOf s.inp.data =
         natToBits 32 s.magic.toNat ++ aabTree.header ++ ps.flatMap Prod.snd ++ [true, true] ++ [false, false]) ∧
    let s := withInput [0xFA, 0xCE, 0x82, 0x01, 0xC0, 0x00]
    Ready s ∧ SourceOk s ∧ InputFits s ∧
      streamOf s.inp.data = natToBits 32 s.magic.toNat ++ (HTree.leaf 256).header ++ List.replicate 6 false :=
  ⟨⟨⟨rfl, rfl⟩, sourceOk_none rfl, fits_small (by decide), fits_of (by decide) (by decide), by decide, by decide, by decide +kernel⟩,
    ⟨rfl, rfl⟩, sourceOk_none rfl, fits_small (by decide), by decide +kernel⟩

/-- COUNT's second read; MAX_IN + 1 bytes; ENCBODY's second read, and the read that would find the end. -/
theorem witness_EncodeFailures :
    (Ready (failing 3 1) ∧ 1 ≤ (failing 3 1).inp.data.length ∧
      (∀ j < 1, (failing 3 1).inp.ioDraws.getD j false = false) ∧ (failing 3 1).inp.ioDraws.getD 1 false = true) ∧
    (Ready (zeros (2 ^ 32 - 1)) ∧ (∀ j ≤ 2 ^ 32 - 2, (zeros (2 ^ 32 - 1)).inp.ioDraws.getD j false = false) ∧
      2 ^ 32 - 2 < (zeros (2 ^ 32 - 1)).inp.data.length) ∧
    ∀ k ∈ [1, 3], Ready (failing 3 (3 + 1 + k)) ∧ (failing 3 (3 + 1 + k)).inp.data.length = 3 ∧ k ≤ 3 ∧
      (∀ j < 3 + 1 + k, (failing 3 (3 + 1 + k)).inp.ioDraws.getD j false = false) ∧
      (failing 3 (3 + 1 + k)).inp.ioDraws.getD (3 + 1 + k) false = true :=
  ⟨failing_meets 3 1 (by decide), zeros_overflow, fun k hk => ⟨⟨rfl, rfl⟩, rfl, by simp at hk; omega, failing_draws 3 _⟩⟩

/-- DECODE's magic, its header (one case for each way of ending), its body (the end and the source), its root leaf. -/
theorem witness_DecodeFailures :
    ((let u := withInput [0, 0, 0, 0]
      Ready u ∧ u.inp.ioDraws.headD false = false ∧ 32 ≤ 8 * u.inp.data.length ∧
        bitsToNat ((streamOf u.inp.data).take 32) ≠ u.magic.toNat) ∧
      (let v := withInput [0xFA, 0xCE, 0x82]
       Ready v ∧ v.inp.ioDraws.headD false = false ∧ 8 * v.inp.data.length < 32) ∧
      Ready (failing 0 0) ∧ (failing 0 0).inp.ioDraws.headD false = true) ∧
    (∀ c ∈ [(source [0xFA, 0xCE, 0x82, 0x01] [], HeaderEnd.cut, 0, 1),
        (source [0xFA, 0xCE, 0x82, 0x01, 0x48] [false, false, false, true], .ioErr, 2, 3),
        (source [0xFA, 0xCE, 0x82, 0x01, 0xC0, 0x40] [], .badLeaf 257, 10, 2),
        (source ([0xFA, 0xCE, 0x82, 0x01] ++ List.replicate 65 0#8) [], .tooLarge, 514, 514)],
      Ready c.1 ∧ InputFits c.1 ∧ c.1.inp.ioDraws.headD false = false ∧ 32 ≤ 8 * c.1.inp.data.length ∧
        bitsToNat ((streamOf c.1.inp.data).take 32) = c.1.magic.toNat ∧
        headerScan ⟨c.1.inp.data, 32#40, c.1.inp.ioDraws.tail⟩ = ⟨c.2.1, c.2.2.1, c.2.2.2⟩ ∧ c.2.1 ≠ .whole) ∧
    (∀ c ∈ [(source [0xFA, 0xCE, 0x82, 0x01, 0x48, 0x29, 0x0B, 0x00, 0x01] [], List.replicate 7 (65, [false]), [true], [], false),
        (source [0xFA, 0xCE, 0x82, 0x01, 0x48, 0x29, 0x0B, 0x00] [], [], [], [], false),
        (source aabContainer (List.replicate 11 false ++ [true]), [(65, [false]), (65, [false])], [],
          [true, false, true, true, false, false], true),
        (source [0xFA, 0xCE, 0x82, 0x01, 0x48, 0x29, 0x0B, 0x00] (List.replicate 9 false ++ [true]), [], [], [], true)],
      Ready c.1 ∧ InputFits c.1 ∧ aabTree.fits ∧ (∀ p ∈ c.2.1, p ∈ aabTree.paths ∧ p.1 < 256) ∧ (66, [true, false]) ∈ aabTree.paths ∧
        c.2.2.1 <+: [true, false] ∧ c.2.2.1 ≠ [true, false] ∧
        streamOf c.1.inp.data =
          natToBits 32 c.1.magic.toNat ++ aabTree.header ++ (c.2.1.flatMap Prod.snd ++ c.2.2.1) ++ c.2.2.2.1 ∧
        (let reads := 1 + aabTree.size + (aabTree.size + 1) / 2 + (c.2.1.flatMap Prod.snd ++ c.2.2.1).length
         (∀ j < reads, c.1.inp.ioDraws.getD j false = false) ∧ c.1.inp.ioDraws.getD reads false = c.2.2.2.2) ∧
        (c.2.2.2.2 = true ∨ c.2.2.2.1 = [])) ∧
    let s := source [0xFA, 0xCE, 0x82, 0x01, 0x90, 0x40] []
    Ready s ∧ InputFits s ∧ (∀ j < 3, s.inp.ioDraws.getD j false = false) ∧ 65 < 256 ∧
      streamOf s.inp.data = natToBits 32 s.magic.toNat ++ (HTree.leaf 65).header ++ List.replicate 6 false := by
  refine ⟨⟨⟨⟨rfl, rfl⟩, rfl, by decide, by decide⟩, ⟨⟨rfl, rfl⟩, rfl, by decide⟩, ⟨rfl, rfl⟩, rfl⟩, fun c hc => ?_, fun c hc => ?_,
    ⟨rfl, rfl⟩, fits_small (by decide), fun _ _ => rfl, by decide, by decide +kernel⟩
  · simp only [List.mem_cons, List.not_mem_nil, or_false] at hc
    rcases hc with rfl | rfl | rfl | rfl <;>
      exact ⟨⟨rfl, rfl⟩, fits_small (by decide), rfl, by decide, by decide +kernel, by decide +kernel, by decide⟩
  · simp only [List.mem_cons, List.not_mem_nil, or_false] at hc
    rcases hc with rfl | rfl | rfl | rfl <;>
      exact ⟨⟨rfl, rfl⟩, fits_small (by decide), fits_of (by decide) (by decide), by decide, by decide, by decide, by decide,
        by decide +kernel, by decide +kernel, by decide⟩

theorem witness_RoundTrip :
    let s := withInput aab
    let u := withInput aabContainer
    Ready s ∧ SourceOk s ∧ s.inp.data.length ≤ 2 ^ 32 - 2 ∧ Ready u ∧ SourceOk u ∧ u.magic = s.magic ∧
      (after .encode s).out.data = s.out.data ++ u.inp.data :=
  ⟨⟨rfl, rfl⟩, sourceOk_none rfl, by decide, ⟨rfl, rfl⟩, sourceOk_none rfl, rfl, by decide +kernel⟩

/-- ENCODE of "AAB", and of three bytes the source fails to give ENCBODY. -/
theorem witness_EncodeEqualsStages :
    (let s := withInput aab
     Ready s ∧ exec .encode s = .next (after .encode s) ∧ (after .encode s).done = true ∧ (after .encode s).seq = .idle) ∧
    let s := failing 3 5
    Ready s ∧ exec .encode s = .next (after .encode s) ∧ (after .encode s).done = false ∧ (after .encode s).seq = .idle :=
  ⟨⟨⟨rfl, rfl⟩, exec_after _ _, by decide +kernel⟩,
    ⟨rfl, rfl⟩, exec_after _ _, by decide +kernel⟩

/-- DECODE of V-ENC-1's container, and of its first eight bytes (V-DEC-E8). -/
theorem witness_DecodeEqualsStages :
    (let s := withInput aabContainer
     Ready s ∧ exec .decode s = .next (after .decode s) ∧ (after .decode s).done = true ∧ (after .decode s).seq = .idle) ∧
    let s := withInput (aabContainer.take 8)
    Ready s ∧ exec .decode s = .next (after .decode s) ∧ (after .decode s).done = false ∧ (after .decode s).seq = .idle :=
  ⟨⟨⟨rfl, rfl⟩, exec_after _ _, by decide +kernel⟩,
    ⟨rfl, rfl⟩, exec_after _ _, by decide +kernel⟩

theorem witness_CommandUndisturbed :
    let s := withInput aab
    s.seq = .idle ∧ s.host = [] ∧ exec .count { s with grants := [] } = .next (after .count { s with grants := [] }) ∧
      (after .count { s with grants := [] }).busy = false ∧
      exec .count { s with grants := [3] } = .next (after .count { s with grants := [3] }) ∧
      (after .count { s with grants := [3] }).busy = true :=
  ⟨rfl, rfl, exec_after _ _, by decide +kernel, exec_after _ _, by decide +kernel⟩

/-- DESERIALIZE at a leaf's field and at the end of the input; ENCBODY at a byte and at the end; DECBODY inside a code and at the
end. -/
theorem witness_ReadFailures :
    (∀ c ∈ [(source [0x48, 0x29, 0x0B, 0x00] [false, false, true], 2, 3), (source [] [true], 0, 1)],
      Ready c.1 ∧ InputFits c.1 ∧ headerScan c.1.inp = ⟨.ioErr, c.2.1, c.2.2⟩) ∧
    (∀ k ∈ [0, 2, 3], let s := { coded with inp := ⟨aab, 0#40, List.replicate k false ++ [true]⟩ }
      Ready s ∧ InputFits s ∧ s.codeV = true ∧ s.out.isOpen = true ∧ s.out.acc.length ≤ 7 ∧ k ≤ s.inp.data.length ∧
        (∀ c ∈ s.inp.data.take k, (codeAt s c.toNat).len ≠ 0#9) ∧
        (∀ j < k, s.inp.ioDraws.getD j false = false) ∧ s.inp.ioDraws.getD k false = true) ∧
    ∀ c ∈ [([0x2C#8], [(65, [false]), (65, [false])], [true], [false, true, true, false, false]), ([], [], [], [])],
      let s := { built with inp := ⟨c.1, 0#40, List.replicate (c.2.1.flatMap Prod.snd ++ c.2.2.1).length false ++ [true]⟩ }
      Ready s ∧ InputFits s ∧ s.treeV = true ∧ s.out.isOpen = true ∧ s.out.acc.length ≤ 7 ∧
        treeAt s.node aabTree s.root.toNat = true ∧ (∀ p ∈ c.2.1, p ∈ aabTree.paths ∧ p.1 < 256) ∧
        (66, [true, false]) ∈ aabTree.paths ∧ c.2.2.1 <+: [true, false] ∧ c.2.2.1 ≠ [true, false] ∧
        inRest s.inp = c.2.1.flatMap Prod.snd ++ c.2.2.1 ++ c.2.2.2 ∧
        (∀ j < (c.2.1.flatMap Prod.snd ++ c.2.2.1).length, s.inp.ioDraws.getD j false = false) ∧
        s.inp.ioDraws.getD (c.2.1.flatMap Prod.snd ++ c.2.2.1).length false = true := by
  refine ⟨fun c hc => ?_, fun k hk => ?_, fun c hc => ?_⟩
  · simp only [List.mem_cons, List.not_mem_nil, or_false] at hc
    rcases hc with rfl | rfl <;> exact ⟨⟨rfl, rfl⟩, fits_small (by decide), by decide⟩
  · simp only [List.mem_cons, List.not_mem_nil, or_false] at hk
    rcases hk with rfl | rfl | rfl <;> exact ⟨⟨rfl, rfl⟩, fits_small (by decide), rfl, rfl, by decide, by decide, by decide,
      by decide, by decide⟩
  · simp only [List.mem_cons, List.not_mem_nil, or_false] at hc
    rcases hc with rfl | rfl <;> exact ⟨⟨rfl, rfl⟩, fits_small (by decide), rfl, rfl, by decide, by decide, by decide, by decide,
      by decide, by decide, by decide, by decide, by decide⟩

/-- Both pending bits set, the host's next move `m`. -/
def pendingBits (m : HostMove) : State := { State.reset with doneIp := true, errIp := true, host := [m] }

theorem witness_InterruptRegisters :
    (step (pendingBits (.write 0x020 4 2#32))
        = .next { pendingBits (.write 0x020 4 2#32) with host := [], errIp := false, reply := .written } ∧
      (pendingBits (.write 0x020 4 2#32)).doneIp = true ∧ (pendingBits (.write 0x020 4 2#32)).errIp = true) ∧
    step (pendingBits .reset) = .next State.reset := ⟨⟨rfl, rfl, rfl⟩, rfl⟩

theorem witness_ErrorCodes : ({ State.reset with err := true, errCode := .eNoCode } : State).busy = false ∧
    ({ State.reset with err := true, errCode := .eNoCode } : State).errCode = .eNoCode ∧ State.reset.errCode = .eNone :=
  ⟨rfl, rfl, rfl⟩

theorem witness_MagicOnlyByHost :
    step { State.reset with host := [.write 0x018 4 7#32] } = .next { State.reset with magic := 7#32, reply := .written } := rfl

theorem witness_BusErrors : ¬ (4 = 4 ∧ (0x002#16).toNat % 4 = 0) ∧ ¬ (2 = 4 ∧ (0x00C#16).toNat % 4 = 0) := by decide

theorem witness_IgnoredWritesReservedReads :
    ((0x00C#16).toNat % 4 = 0 ∧ 0x00C#16 ≠ 0x008#16 ∧ 0x00C#16 ≠ 0x018#16 ∧ 0x00C#16 ≠ 0x01C#16 ∧ 0x00C#16 ≠ 0x020#16) ∧
    (∀ off ∈ [0x0050#16, 0x03FC#16, 0x0804#16, 0x0FFC#16, 0x3010#16, 0x3FFC#16, 0x8080#16, 0xFFFC#16], off.toNat % 4 = 0 ∧
      ((0x0050 ≤ off.toNat ∧ off.toNat < 0x0400) ∨ (0x0804 ≤ off.toNat ∧ off.toNat < 0x1000) ∨
        (0x3010 ≤ off.toNat ∧ off.toNat < 0x4000) ∨ 0x8080 ≤ off.toNat)) ∧
    (∀ off ∈ [0x8040#16, 0x807C#16], off.toNat % 4 = 0 ∧ 0x8040 ≤ off.toNat ∧ off.toNat < 0x8080) ∧
    (coded.codeV = true ∧ coded.busy = false) ∧ ¬ (State.reset.codeV = true ∧ State.reset.busy = false) :=
  ⟨by decide, by simp, by simp, by decide, by decide⟩

theorem witness_FreqWindow : ((counted aab).freqV = true ∧ (counted aab).busy = false ∧ 0 ≤ 256 ∧ 256 ≤ 256) ∧
    ¬ (State.reset.freqV = true ∧ State.reset.busy = false) := ⟨⟨rfl, rfl, Nat.zero_le _, le_rfl⟩, fun h => nomatch h.1⟩

theorem witness_NodeWindow : (built.treeV = true ∧ built.busy = false ∧ 4 < built.nodeCount.toNat) ∧
    ¬ (built.treeV = true ∧ built.busy = false ∧ 5 < built.nodeCount.toNat) ∧
    full.treeV = true ∧ full.busy = false ∧ 512 < full.nodeCount.toNat := by decide

theorem witness_CodeWindow : (coded.codeV = true ∧ coded.busy = false) ∧
    ¬ (State.reset.codeV = true ∧ State.reset.busy = false) := by decide

theorem witness_RegisterReads : busyCount.busy = true ∧ State.reset.busy = false := ⟨rfl, rfl⟩

theorem witness_ResetStopsEverything :
    let s := { busyCount with host := [.reset], inp := ⟨aab, 8#40, []⟩, out := ⟨[], [0xFA#8], 1, 8, true⟩ }
    s.host = .reset :: [] ∧ step s =
      .next { State.reset with inp := ⟨aab, 0#40, []⟩, out := ⟨[], [0xFA#8], 0, 0, true⟩ } := ⟨rfl, rfl⟩

theorem witness_AttachAndTake (n : Nat) (h : 2 ^ 37 - 1 < n) : State.reset.busy = false ∧ busyCount.busy = true ∧
    aab.length ≤ 2 ^ 37 - 1 ∧ 2 ^ 37 - 1 < (List.replicate n 0#8).length :=
  ⟨rfl, rfl, by decide, by rwa [List.length_replicate]⟩

theorem witness_ReadBitsOutcomes :
    let p : InPort := ⟨[0xFA, 0xCE, 0x82, 0x01], 0#40, []⟩
    1 ≤ 32 ∧ p.data.length ≤ 2 ^ 37 - 1 ∧ (⟨[], 0#40, [true]⟩ : InPort).ioDraws.headD false = true ∧
      p.ioDraws.headD false = false ∧ p.pos.toNat + 32 ≤ 8 * p.data.length ∧
      8 * p.data.length < (⟨p.data, 1#40, []⟩ : InPort).pos.toNat + 32 := by decide

theorem witness_WriteBitsAppends :
    let s := { pending7 State.reset with seq := .running .wrmagic .wrmagic }
    1 ≤ 256 ∧ 256 ≤ 256 ∧ 0 ≤ 256 ∧ 1 ≤ 1 ∧ s.seq = .running .wrmagic .wrmagic ∧ s.unsent = [] ∧ s.out.acc.length ≤ 7 := by decide

theorem witness_WellShapedKept :
    let s := { State.reset with host := [.write 0x008 4 0x10#32] }
    wellShaped s = true ∧ ∃ t, step s = .next t ∧ t.freqV = true := ⟨by decide, _, rfl, by decide +kernel⟩

theorem witness_FreqInvariantKept :
    freqInvariant (counted aab) ∧ step (counted aab) = .next (counted aab) :=
  ⟨⟨fun _ => countHolds_freqOf (by decide) rfl rfl, fun _ h => by cases h⟩, rfl⟩

/-- In BUILD of "AAB", one merge done. -/
def midBuild : State :=
  { counted aab with
    seq := .running .build .build, phase := .merge 3 4, heap := [0, 3], node := aabNodes.take 4 }

/-- In DESERIALIZE of the header of V-SER-1, its root and its left leaf read. -/
def midDeserialize : State :=
  { withInput [0x48, 0x29, 0x0B, 0x00] with
    seq := .running .deserialize .deserialize, phase := .body, inp := ⟨[0x48, 0x29, 0x0B, 0x00], 11#40, []⟩
    hdrBits := 11, dstack := [.awaitRight 0 1], nodeCount := 2, leafCount := 1
    node := [(0, ⟨false, 0, 0, 0, 0⟩), (1, ⟨true, 65, 0, 0, 0⟩)] }

theorem treeInvariant_built : treeInvariant built :=
  ⟨fun _ => ⟨⟨aabTree, by decide, rfl, rfl, fits_of (by decide) (by decide)⟩, by decide, by unfold closedBelow; decide,
    fun _ => by unfold weightsAdd; decide⟩, fun _ _ _ h => (by cases h), fun _ h => by cases h⟩

theorem treeInvariant_midBuild : treeInvariant midBuild := by
  refine ⟨fun h => (by cases h), fun _ L n _ hp => ?_, fun _ h => by cases h⟩
  cases hp
  refine ⟨rfl, by decide, by decide, by decide, by decide, by decide, by unfold closedBelow; decide, by unfold weightsAdd; decide,
    fun j => if j = 3 then .node (.leaf 66) (.leaf 256) else .leaf 65, by decide, by decide⟩

/-- The same header two node bits later: an internal record waits, and the leaf under it has still its field to be read. -/
def midField : State :=
  { midDeserialize with
    phase := .field 3, inp := ⟨[0x48, 0x29, 0x0B, 0x00], 13#40, []⟩, hdrBits := 13, nodeCount := 4
    dstack := [.awaitLeft 2, .awaitRight 0 1]
    node := [(0, ⟨false, 0, 0, 0, 0⟩), (1, ⟨true, 65, 0, 0, 0⟩), (2, ⟨false, 0, 0, 0, 0⟩)] }

/-- The left leaf of `midDeserialize` and `midField`. -/
theorem leaf_span {t : Table NodeRec} (h : nodeIn t 1 = ⟨true, 65, 0, 0, 0⟩) : treeSpan t (.leaf 65) 1 2 := by
  refine ⟨by simp [treeAt, h], rfl, by decide, fun j h1 h2 hl => ?_⟩
  have e : j = 1 := by omega
  rw [e, h] at hl
  cases hl

theorem treeInvariant_midDeserialize : treeInvariant midDeserialize :=
  ⟨fun h => (by cases h), fun _ _ _ h => (by cases h), fun _ _ _ => ⟨rfl, by decide, .inl ⟨rfl, .inl
    ⟨rfl, rfl, .leaf 65, 0, leaf_span rfl, rfl, rfl, rfl⟩⟩⟩⟩

theorem treeInvariant_midField : treeInvariant midField :=
  ⟨fun h => (by cases h), fun _ _ _ h => (by cases h), fun _ _ _ => ⟨rfl, by decide, .inr ⟨3, rfl, rfl, .inl
    ⟨rfl, rfl, rfl, rfl, .leaf 65, 0, leaf_span rfl, rfl, rfl, rfl⟩⟩⟩⟩

theorem freqInvariant_counted {s : State} (hf : s.freq = freqOf aab) (hc : s.inCount = 3#32)
    (hs : ∀ cmd, s.seq ≠ .running cmd .count) : freqInvariant s :=
  ⟨fun _ => countHolds_freqOf (bytes := aab) (by decide) hf hc, fun cmd h => absurd h (hs cmd)⟩

theorem witness_TreeInvariantKept :
    (freqInvariant built ∧ treeInvariant built ∧ step built = .next built) ∧
    (freqInvariant midBuild ∧ treeInvariant midBuild ∧ ∃ t, step midBuild = .next t ∧ t.treeV = true) ∧
    (freqInvariant midDeserialize ∧ treeInvariant midDeserialize ∧ ∃ t, step midDeserialize = .next t ∧ t.treeV = true) ∧
    freqInvariant midField ∧ treeInvariant midField ∧ ∃ t, step midField = .next t ∧ t.treeV = true :=
  ⟨⟨freqInvariant_counted rfl rfl (fun _ h => by cases h), treeInvariant_built, rfl⟩,
    ⟨freqInvariant_counted rfl rfl (fun _ h => by cases h), treeInvariant_midBuild, _, rfl, by decide +kernel⟩,
    ⟨⟨fun h => (by cases h), fun _ h => by cases h⟩, treeInvariant_midDeserialize, _, rfl, by decide +kernel⟩,
    ⟨fun h => (by cases h), fun _ h => by cases h⟩, treeInvariant_midField, _, rfl, by decide +kernel⟩

theorem witness_StreamsOwned :
    step { State.reset with host := [.attach aab] } = .next (withInput aab) ∧
    step { State.reset with host := [.take], out := ⟨[], [0xFA#8], 1, 8, true⟩ } =
      .next { State.reset with out := ⟨[], [], 1, 8, true⟩, reply := .bytes [0xFA#8] } := ⟨rfl, rfl⟩

theorem witness_CommandFrames :
    ∀ i ∈ [Instr.nop, .clear, .openout, .count, .build, .gencode, .wrmagic, .serialize, .encbody, .close, .encode, .rdmagic,
      .deserialize, .decbody, .decode], exec i coded = .next (after i coded) := fun i _ => exec_after i coded

end Sys2Proof.Tests
end

section
/-! SUPPORT. MAGIC through every step (R19): what the sequencer leaves, and what a move of the host makes of it. -/

namespace Sys2Proof.Machine

theorem settle_magic (cmd stage : Instr) (r : StageResult) : (settle cmd stage r).magic = r.state.magic := by
  cases r with
  | more t => rfl
  | done t =>
    simp only [settle, stageEnded]
    repeat' split
    all_goals rfl
  | raise e info t => rfl

theorem microStep_magic {s : State} (h : s.busy = true) : (microStep s).magic = s.magic := by
  rcases microStep_cases h with ⟨-, hm⟩ | ⟨cmd, stage, -, ⟨b, rest, -, hm⟩ | ⟨-, hm⟩⟩ <;> rw [hm]
  · exact raiseError_magic _ _ s
  · exact sendBit_magic b rest s
  · obtain ⟨-, -, -, -, -, -, hmagic, -⟩ := stageStep_same stage s
    exact (settle_magic cmd stage _).trans hmagic

theorem runFor_magic (n : Nat) (s : State) : (runFor n s).magic = s.magic :=
  runFor_induction (P := fun t => t.magic = s.magic) (fun _ ht hb => (microStep_magic hb).trans ht) n rfl

@[simp] theorem runTurn_magic (s : State) : (runTurn s).magic = s.magic := by
  unfold runTurn
  split
  · exact runFor_magic _ s
  · exact runFor_magic _ _

@[simp] theorem command_magic (i : Instr) (s : State) : (command i s).magic = s.magic := by
  unfold command
  split <;> simp

@[simp] theorem rejectWord_magic (w : Word) (s : State) : (rejectWord w s).magic = s.magic := by
  unfold rejectWord
  split <;> simp

theorem writeCmd_magic {w : Word} {s t : State} (h : writeCmd w s = .next t) : t.magic = s.magic := by
  unfold writeCmd at h
  split at h
  · rw [exec_eq_command] at h
    injection h with h
    simp [← h]
  · injection h with h
    simp [← h]

@[simp] theorem busRead_magic (off : BitVec 16) (width : Nat) (s : State) : (busRead off width s).magic = s.magic := by
  unfold busRead
  repeat' split
  all_goals rfl

@[simp] theorem waitRead_magic (s : State) : (waitRead s).magic = s.magic := by
  unfold waitRead
  dsimp only
  split <;> rfl

@[simp] theorem writeMagic_magic (v : Word) (s : State) :
    (writeMagic v s).magic = if s.busy then s.magic else v := by
  unfold writeMagic
  split <;> rfl

/-- A word written at the offset of MAGIC is a write of MAGIC (R15, R19). -/
theorem busWrite_at_magic (v : Word) (s : State) :
    busWrite 0x018 4 v s = .next { writeMagic v s with reply := .written } := rfl

/-- Of the places a write can name, only MAGIC's shows in MAGIC. -/
theorem writeSlot_magic (v : Word) (s : State) {sl : Slot} (h : sl ≠ .reg .magic) :
    (writeSlot v s sl).magic = s.magic := by
  unfold writeSlot
  split
  case h_1 => exact absurd rfl h
  all_goals rfl

/-- A register's place in the list of R15 gives its offset. -/
theorem slotOf_eq_reg {off : BitVec 16} {r : Reg} (h : slotOf off = .reg r) :
    off.toNat < 0x50 ∧ regList[off.toNat / 4]? = some r := by
  simp only [slotOf] at h
  split at h
  · next hlt =>
    refine ⟨hlt, ?_⟩
    split at h
    · next hr =>
      cases h
      exact hr
    · cases h
  · split_ifs at h

/-- The offset of MAGIC in the aperture (R15, R39). -/
theorem slotOf_eq_magic {off : BitVec 16} (ha : off.toNat % 4 = 0) (h : slotOf off = .reg .magic) : off = 0x018#16 := by
  have place : ∀ k < 20, regList[k]? = some .magic → k = 6 := by decide
  obtain ⟨hlt, hr⟩ := slotOf_eq_reg h
  have hk := place (off.toNat / 4) (by omega) hr
  apply BitVec.eq_of_toNat_eq
  change off.toNat = 24
  omega

theorem admitted_iff {off : BitVec 16} {width : Nat} : admitted off width = true ↔ width = 4 ∧ off.toNat % 4 = 0 := by
  simp [admitted]

/-- A bus write leaves MAGIC, unless it is a write of its word while BUSY = 0 (R19). -/
theorem busWrite_magic {off : BitVec 16} {width : Nat} {v : Word} {s t : State} (h : busWrite off width v s = .next t) :
    t.magic = s.magic ∨ off = 0x018#16 ∧ width = 4 ∧ s.busy = false ∧ t.magic = v := by
  unfold busWrite at h
  split at h
  · next ha =>
    obtain ⟨hw, ho⟩ := admitted_iff.1 ha
    split at h
    · have hk := writeCmd_magic h
      exact .inl hk
    · injection h with h
      subst h
      by_cases hs : slotOf off = .reg .magic
      · cases hb : s.busy with
        | true => exact .inl (by simp [hs, writeSlot, hb])
        | false => exact .inr ⟨slotOf_eq_magic ho hs, hw, rfl, by simp [hs, writeSlot, hb]⟩
      · exact .inl (writeSlot_magic v s hs)
  · injection h with h
    exact .inl (by rw [← h])

/-- A move of the host leaves MAGIC, unless it writes it while BUSY = 0 or is a reset (R19). -/
theorem hostMove_magic {m : HostMove} {s t : State} (h : hostMove m s = .next t) :
    t.magic = s.magic ∨ (∃ v, m = .write 0x018 4 v ∧ s.busy = false ∧ t.magic = v) ∨
      (m = .reset ∧ t.magic = Config.magicReset) := by
  cases m with
  | read off width =>
    injection h with h
    exact .inl (by simp [← h])
  | write off width v =>
    rcases busWrite_magic h with hk | ⟨rfl, rfl, hb, hv⟩
    · exact .inl hk
    · exact .inr (.inl ⟨v, rfl, hb, hv⟩)
  | attach bytes =>
    simp only [hostMove, attach] at h
    split_ifs at h
    injection h with h
    exact .inl (by rw [← h])
  | take =>
    simp only [hostMove, take] at h
    split_ifs at h
    injection h with h
    exact .inl (by rw [← h])
  | wait =>
    injection h with h
    exact .inl (by simp [← h])
  | reset =>
    injection h with h
    exact .inr (.inr ⟨rfl, by rw [← h]; rfl⟩)

/-- The sequencer's turn after a host move adds nothing to what the move made of MAGIC. -/
theorem ite_runTurn_magic (c : Bool) (s : State) : (if c then runTurn s else s).magic = s.magic := by
  cases c <;> simp

end Sys2Proof.Machine

namespace Sys2Proof.Proofs
open Sys2Proof.Machine

/-- Settles O43: a write of MAGIC by its own rule, and a step by what its host move does, since the sequencer's turn leaves
MAGIC alone. -/
theorem magicOnlyByHost : Obligations.MagicOnlyByHost := by
  refine ⟨fun s v => ?_, fun s t h => ?_⟩
  · rw [busWrite_at_magic, writeMagic]
    split <;> rfl
  · rcases step_cases h with ⟨-, rfl⟩ | ⟨m, rest, u, hh, hu, rfl⟩
    · exact .inl (ite_runTurn_magic _ s)
    · rw [ite_runTurn_magic]
      rcases hostMove_magic hu with hk | ⟨v, rfl, hb, hv⟩ | ⟨rfl, hr⟩
      · exact .inl hk
      · exact .inr (.inl ⟨v, rest, hh, hb, hv⟩)
      · exact .inr (.inr ⟨rest, hh, hr⟩)

end Sys2Proof.Proofs
end

section
/-! SUPPORT. What a bus read of a register answers (R15, R27). -/

namespace Sys2Proof.Machine

/-- A register that may be read now answers its value, and nothing but the answer changes (R27, R42). -/
theorem busRead_reg {off : BitVec 16} {r : Reg} {s : State} (ha : off.toNat % 4 = 0) (hs : slotOf off = .reg r)
    (hr : s.busy = false ∨ r.readableBusy = true) : busRead off 4 s = { s with reply := .data (regValue s r) } := by
  have hv : slotValue s (slotOf off) = some (regValue s r) := by
    rcases hr with hr | hr <;> simp [hs, slotValue, hr]
  simp [busRead, admitted, ha, hv]

/-- Any other register answers a draw while BUSY = 1 (R27). -/
theorem busRead_reg_draw {off : BitVec 16} {r : Reg} {s : State} (ha : off.toNat % 4 = 0) (hs : slotOf off = .reg r)
    (hb : s.busy = true) (hr : r.readableBusy = false) :
    busRead off 4 s = { s with reply := .data (Config.freeWord s.draws), draws := s.draws + 1 } := by
  have hv : slotValue s (slotOf off) = none := by simp [hs, slotValue, hb, hr]
  simp [busRead, admitted, ha, hv, State.drew]

/-- A word with one field has a 1 nowhere but at its bit. -/
theorem getLsbD_bitAt (k : Nat) (b : Bool) (j : Nat) :
    (bitAt k b).getLsbD j = (decide (j < 32) && decide (j = k) && b) := by
  by_cases hk : j = k
  · subst hk
    simp [bitAt]
  · by_cases hj : j < k
    · simp [bitAt, hj, hk]
    · simp [bitAt, hk, show j - k ≠ 0 by omega]

/-- The bits of a word that holds two fields at bits 0 and 1, as IRQ_EN and IRQ_STAT do (R15, R20). -/
theorem getLsbD_two_bits (a b : Bool) :
    (bitAt 0 a ||| bitAt 1 b).getLsbD 0 = a ∧ (bitAt 0 a ||| bitAt 1 b).getLsbD 1 = b ∧
      ∀ k, 2 ≤ k → (bitAt 0 a ||| bitAt 1 b).getLsbD k = false := by
  simp only [BitVec.getLsbD_or, getLsbD_bitAt]
  refine ⟨by simp, by simp, fun k hk => ?_⟩
  simp [show k ≠ 0 by omega, show k ≠ 1 by omega]

end Sys2Proof.Machine

namespace Sys2Proof.Proofs
open Sys2Proof.Machine

/-- The twelve registers whose reads are draws while BUSY = 1, by their offsets (R15, R27). -/
theorem drawn_registers :
    ∀ off ∈ [0x010#16, 0x014#16, 0x024#16, 0x028#16, 0x02C#16, 0x030#16, 0x034#16, 0x038#16, 0x03C#16, 0x040#16, 0x048#16, 0x04C#16],
      off.toNat % 4 = 0 ∧ ∃ r, slotOf off = .reg r ∧ r.readableBusy = false := by
  simp only [List.forall_mem_cons, List.not_mem_nil, false_imp_iff, implies_true, and_true]
  exact ⟨⟨rfl, .errCode, rfl, rfl⟩, ⟨rfl, .errInfo, rfl, rfl⟩, ⟨rfl, .inCount, rfl, rfl⟩, ⟨rfl, .outCount, rfl, rfl⟩,
    ⟨rfl, .outBits, rfl, rfl⟩, ⟨rfl, .root, rfl, rfl⟩, ⟨rfl, .nodeCount, rfl, rfl⟩, ⟨rfl, .leafCount, rfl, rfl⟩,
    ⟨rfl, .walk, rfl, rfl⟩, ⟨rfl, .hdrBits, rfl, rfl⟩, ⟨rfl, .inPosLo, rfl, rfl⟩, ⟨rfl, .inPosHi, rfl, rfl⟩⟩

/-- Settles O49: each offset is the place of its register, whose read is its value or, while BUSY = 1, perhaps a draw. -/
theorem registerReads : Obligations.RegisterReads := by
  refine ⟨fun s => ?_, fun s hb off hoff => ?_, fun s hb => ?_⟩
  · have reads {off : BitVec 16} (r : Reg) (ha : off.toNat % 4 = 0) (hs : slotOf off = .reg r) (hr : r.readableBusy = true) :=
      busRead_reg (s := s) ha hs (.inr hr)
    exact ⟨reads .id rfl rfl rfl, reads .version rfl rfl rfl, reads .cmd rfl rfl rfl, reads .status rfl rfl rfl,
      reads .magic rfl rfl rfl, reads .params rfl rfl rfl,
      ⟨irqEnWord s, reads .irqEn rfl rfl rfl, getLsbD_two_bits s.doneIe s.errIe⟩,
      ⟨irqStatWord s, reads .irqStat rfl rfl rfl, getLsbD_two_bits s.doneIp s.errIp⟩⟩
  · obtain ⟨ha, r, hs, hr⟩ := drawn_registers off hoff
    exact ⟨_, busRead_reg_draw ha hs hb hr⟩
  · have idle {off : BitVec 16} (r : Reg) {v : Word} (ha : off.toNat % 4 = 0) (hs : slotOf off = .reg r)
        (hv : regValue s r = v) : busRead off 4 s = { s with reply := .data v } := by
      rw [busRead_reg ha hs (.inl hb), hv]
    exact ⟨idle .errCode rfl rfl (BitVec.setWidth_eq_append (by decide)), idle .errInfo rfl rfl rfl,
      idle .inCount rfl rfl (BitVec.setWidth_eq _), idle .outCount rfl rfl rfl, idle .outBits rfl rfl rfl,
      idle .root rfl rfl (BitVec.setWidth_eq_append (by decide)), idle .nodeCount rfl rfl (BitVec.setWidth_eq_append (by decide)),
      idle .leafCount rfl rfl (BitVec.setWidth_eq_append (by decide)), idle .walk rfl rfl (BitVec.setWidth_eq_append (by decide)),
      idle .hdrBits rfl rfl rfl, idle .inPosLo rfl rfl rfl, idle .inPosHi rfl rfl (BitVec.setWidth_eq_append (by decide))⟩

end Sys2Proof.Proofs
end

section
/-! SUPPORT. What a bus access answers by the place it names: refused accesses (R40), and the words of the FREQ and CODE
windows (R44, R46). -/

namespace Sys2Proof.Machine

/-- An aligned word read of a place that has a value answers it, and nothing but the answer changes (R42). -/
theorem busRead_of_slotValue_some {off : BitVec 16} {s : State} {v : Word} (ha : off.toNat % 4 = 0)
    (hv : slotValue s (slotOf off) = some v) : busRead off 4 s = { s with reply := .data v } := by
  simp [busRead, admitted, ha, hv]

/-- An aligned word read of a place that has none answers a draw, which is counted (R27, R42; log entry 3). -/
theorem busRead_of_slotValue_none {off : BitVec 16} {s : State} (ha : off.toNat % 4 = 0)
    (hv : slotValue s (slotOf off) = none) :
    busRead off 4 s = { s with reply := .data (Config.freeWord s.draws), draws := s.draws + 1 } := by
  simp [busRead, admitted, ha, hv, State.drew]

theorem admitted_eq_false {off : BitVec 16} {width : Nat} (h : ¬ (width = 4 ∧ off.toNat % 4 = 0)) :
    admitted off width = false :=
  Bool.eq_false_iff.2 (mt admitted_iff.1 h)

/-- The FREQ window holds one word per symbol from 0x0400 on (R39, R44). -/
theorem freqWin_offset {i : Nat} (hi : i ≤ 256) :
    (BitVec.ofNat 16 (0x0400 + 4 * i)).toNat % 4 = 0 ∧ slotOf (BitVec.ofNat 16 (0x0400 + 4 * i)) = .freqWin i := by
  have ho : (BitVec.ofNat 16 (0x0400 + 4 * i)).toNat = 0x0400 + 4 * i :=
    (BitVec.toNat_ofNat _ _).trans (Nat.mod_eq_of_lt (by omega))
  have hw : (0x0400 + 4 * i - 0x0400) / 4 = i := by omega
  refine ⟨by omega, ?_⟩
  simp only [slotOf, ho]
  rw [if_neg (by omega), if_pos (by omega), hw]

/-- The CODE window holds sixteen words per symbol from 0x4000 on (R39, R46). -/
theorem codeWin_offset {i k : Nat} (hi : i ≤ 256) (hk : k ≤ 15) :
    (BitVec.ofNat 16 (0x4000 + 64 * i + 4 * k)).toNat % 4 = 0 ∧
      slotOf (BitVec.ofNat 16 (0x4000 + 64 * i + 4 * k)) = .codeWin i k := by
  have ho : (BitVec.ofNat 16 (0x4000 + 64 * i + 4 * k)).toNat = 0x4000 + 64 * i + 4 * k :=
    (BitVec.toNat_ofNat _ _).trans (Nat.mod_eq_of_lt (by omega))
  have hwi : (0x4000 + 64 * i + 4 * k - 0x4000) / 64 = i := by omega
  have hwk : (0x4000 + 64 * i + 4 * k - 0x4000) % 64 / 4 = k := by omega
  refine ⟨by omega, ?_⟩
  simp only [slotOf, ho]
  rw [if_neg (by omega), if_neg (by omega), if_neg (by omega), if_pos (by omega), hwi, hwk]

/-- What the place of FREQ[i] holds for a reader: the entry when FREQ_V = 1 and BUSY = 0, else nothing (R44). -/
theorem slotValue_freqWin (s : State) (i : Nat) :
    slotValue s (.freqWin i) = if s.freqV = true ∧ s.busy = false then some (freqAt s i) else none := by
  simp [slotValue]

/-- What the place of word k of CODE[i] holds for a reader: the word when CODE_V = 1 and BUSY = 0, else nothing (R46). -/
theorem slotValue_codeWin (s : State) (i k : Nat) :
    slotValue s (.codeWin i k) = if s.codeV = true ∧ s.busy = false then some (codeWord (codeAt s i) k) else none := by
  simp [slotValue]

/-- The first word of an entry is LEN (R46). -/
theorem codeWord_zero (c : CodeEntry) : codeWord c 0 = 0#23 ++ c.len :=
  (if_pos rfl).trans (BitVec.setWidth_eq_append (by decide))

/-- The next eight words of an entry are BITS from the least significant on (R46). -/
theorem codeWord_bits (c : CodeEntry) {k : Nat} (h1 : 1 ≤ k) (h8 : k ≤ 8) :
    codeWord c k = c.bits.extractLsb' (32 * (k - 1)) 32 := by
  rw [codeWord, if_neg (by omega), if_pos h8]

/-- The last seven words of an entry are 0 (R46). -/
theorem codeWord_pad (c : CodeEntry) {k : Nat} (h : 9 ≤ k) : codeWord c k = 0#32 := by
  rw [codeWord, if_neg (by omega), if_neg (by omega)]

/-- A read of FREQ[i] through its window, while it may be read (R44). -/
theorem busRead_freqWin {s : State} {i : Nat} (hi : i ≤ 256) (h : s.freqV = true ∧ s.busy = false) :
    busRead (BitVec.ofNat 16 (0x0400 + 4 * i)) 4 s = { s with reply := .data (freqAt s i) } := by
  obtain ⟨ha, hs⟩ := freqWin_offset hi
  refine busRead_of_slotValue_some ha ?_
  rw [hs, slotValue_freqWin, if_pos h]

/-- A read of FREQ[i] through its window at any other time is a draw (R44). -/
theorem busRead_freqWin_draw {s : State} {i : Nat} (hi : i ≤ 256) (h : ¬ (s.freqV = true ∧ s.busy = false)) :
    busRead (BitVec.ofNat 16 (0x0400 + 4 * i)) 4 s =
      { s with reply := .data (Config.freeWord s.draws), draws := s.draws + 1 } := by
  obtain ⟨ha, hs⟩ := freqWin_offset hi
  refine busRead_of_slotValue_none ha ?_
  rw [hs, slotValue_freqWin, if_neg h]

/-- A read of word k of CODE[i] through its window, while it may be read (R46). -/
theorem busRead_codeWin {s : State} {i k : Nat} (hi : i ≤ 256) (hk : k ≤ 15) (h : s.codeV = true ∧ s.busy = false) :
    busRead (BitVec.ofNat 16 (0x4000 + 64 * i + 4 * k)) 4 s = { s with reply := .data (codeWord (codeAt s i) k) } := by
  obtain ⟨ha, hs⟩ := codeWin_offset hi hk
  refine busRead_of_slotValue_some ha ?_
  rw [hs, slotValue_codeWin, if_pos h]

/-- A read of word k of CODE[i] through its window at any other time is a draw (R46). -/
theorem busRead_codeWin_draw {s : State} {i k : Nat} (hi : i ≤ 256) (hk : k ≤ 15)
    (h : ¬ (s.codeV = true ∧ s.busy = false)) :
    busRead (BitVec.ofNat 16 (0x4000 + 64 * i + 4 * k)) 4 s =
      { s with reply := .data (Config.freeWord s.draws), draws := s.draws + 1 } := by
  obtain ⟨ha, hs⟩ := codeWin_offset hi hk
  refine busRead_of_slotValue_none ha ?_
  rw [hs, slotValue_codeWin, if_neg h]

end Sys2Proof.Machine

namespace Sys2Proof.Proofs
open Sys2Proof.Machine

/-- Settles O44: an access that is not admitted takes the refusing branch of a read and of a write. -/
theorem busErrors : Obligations.BusErrors := by
  intro s off width v h
  have ha := admitted_eq_false h
  exact ⟨by simp [busRead, ha], by simp [busWrite, ha]⟩

/-- Settles O46: the offset is the place of FREQ[i], which has a value exactly while FREQ_V = 1 and BUSY = 0. -/
theorem freqWindow : Obligations.FreqWindow :=
  fun _ _ hi => ⟨fun hv hb => busRead_freqWin hi ⟨hv, hb⟩, fun h => ⟨_, busRead_freqWin_draw hi h⟩⟩

/-- Settles O48: each offset is the place of a word of CODE[i], which has a value exactly while CODE_V = 1 and BUSY = 0. -/
theorem codeWindow : Obligations.CodeWindow := by
  refine fun s i hi => ⟨fun hv hb => ?_, fun h k hk => ⟨_, busRead_codeWin_draw hi hk h⟩⟩
  have reads {k : Nat} (hk : k ≤ 15) := busRead_codeWin (s := s) hi hk ⟨hv, hb⟩
  refine ⟨?_, fun k h1 h8 => ?_, fun k h9 h15 => ?_⟩
  · rw [← codeWord_zero]
    exact reads (Nat.zero_le 15)
  · rw [← codeWord_bits _ h1 h8]
    exact reads (by omega)
  · rw [← codeWord_pad (codeAt s i) h9]
    exact reads h15

end Sys2Proof.Proofs
end

section
/-! SUPPORT. The decoder and the encoder against each other (R60, R61, R63), and what an illegal word does (R62, R70). -/

namespace Sys2Proof

/-- A word is fixed by its two fields: those of a command's word are its OP and a zero RSV (R60). -/
theorem ofWord_eq_iff (w : Word) (op : BitVec 8) : CmdFields.ofWord w = ⟨op, 0#24⟩ ↔ w = op.setWidth 32 := by
  simp only [CmdFields.ofWord, CmdFields.mk.injEq]
  constructor
  · rintro ⟨hop, hrsv⟩
    calc w
      _ = w.extractLsb' 8 24 ++ w.extractLsb' 0 8 :=
        ((BitVec.extractLsb'_append_extractLsb'_eq_extractLsb' (show 8 = 0 + 8 from rfl)).trans
          BitVec.extractLsb'_eq_self).symm
      _ = 0#24 ++ op := by rw [hrsv, hop]
      _ = op.setWidth 32 := (BitVec.setWidth_eq_append (by decide)).symm
  · rintro rfl
    rw [BitVec.setWidth_eq_append (show 8 ≤ 32 by decide)]
    exact ⟨BitVec.extractLsb'_append_eq_right, BitVec.extractLsb'_append_eq_left⟩

/-- The opcode map read in both directions is one table (R61). -/
theorem ofOpcode_eq_some_iff (op : BitVec 8) (i : Instr) : ofOpcode op.toNat = some i ↔ op = opcode i := by
  have inv : ∀ n, ofOpcode n = some i → n = (opcode i).toNat := by
    intro n h
    unfold ofOpcode at h
    split at h <;> cases h <;> rfl
  constructor
  · exact fun h => BitVec.eq_of_toNat_eq (inv _ h)
  · rintro rfl
    cases i <;> rfl

/-- The decoder accepts a word by its fields: RSV zero and OP in the map (R63). -/
theorem decode_eq_ok_iff_fields (w : Word) (i : Instr) :
    decode w = .ok i ↔ (CmdFields.ofWord w).rsv = 0#24 ∧ ofOpcode (CmdFields.ofWord w).op.toNat = some i := by
  unfold decode
  generalize CmdFields.ofWord w = f
  by_cases hr : f.rsv = 0#24
  · cases ho : ofOpcode f.op.toNat <;> simp [hr, ho]
  · simp [hr]

/-- Decoding inverts encoding, and no other word decodes to the command (R61, R63). -/
theorem decode_eq_ok_iff (w : Word) (i : Instr) : decode w = .ok i ↔ w = encode i := by
  rw [decode_eq_ok_iff_fields, ofOpcode_eq_some_iff, encode, ← ofWord_eq_iff]
  generalize CmdFields.ofWord w = f
  cases f
  simp [and_comm]

/-- The legal words are the commands' words (R61, R62). -/
theorem wordLegal_iff_encode (w : Word) : wordLegal w = true ↔ ∃ i, w = encode i :=
  (wordLegal_iff_decode w).trans (exists_congr (decode_eq_ok_iff w))

/-- An illegal word is one the decoder rejects (R62, R63). -/
theorem decode_error_of_not_wordLegal {w : Word} (h : wordLegal w = false) : ∃ e, decode w = .error e := by
  cases hd : decode w with
  | error e => exact ⟨e, rfl⟩
  | ok i =>
    rw [(wordLegal_iff_decode w).2 ⟨i, hd⟩] at h
    cases h

end Sys2Proof

namespace Sys2Proof.Machine

/-- A write of an illegal word to CMD takes the rejecting branch (R62, R70). -/
theorem writeCmd_of_not_wordLegal {w : Word} (s : State) (h : wordLegal w = false) :
    writeCmd w s = .next (rejectWord w s) := by
  obtain ⟨e, he⟩ := decode_error_of_not_wordLegal h
  simp [writeCmd, he]

/-- From IDLE, the acceptance of an illegal word and its raise together leave IDLE and every field but those of the
lifecycle's registers and the scratch (R70, R106). -/
theorem raiseError_acceptIllegal (w : Word) {s : State} (h : s.seq = .idle) :
    raiseError .eIllegalCmd w (acceptIllegal w s) = { s with
      cmd := w, done := false, err := true, errCode := .eIllegalCmd, errInfo := w, errIp := true
      phase := .enter, heap := [], dstack := [], unsent := [] } := by
  cases s
  cases h
  rfl

end Sys2Proof.Machine

namespace Sys2Proof.Proofs
open Sys2Proof.Machine

/-- Settles O2: the decoder looks at the two fields, which fix the word, and the opcode map is one table both ways. -/
theorem decodeEncodeAgree : Obligations.DecodeEncodeAgree :=
  decode_eq_ok_iff

/-- Settles O3: the legal words are those that decode, and the rejection of any other is its acceptance and the raise. -/
theorem illegalWordRaises : Obligations.IllegalWordRaises := by
  refine ⟨wordLegal_iff_encode, fun w s hs hw => ?_⟩
  rw [writeCmd_of_not_wordLegal s hw, rejectWord_ready w hs, raiseError_acceptIllegal w hs.1]

end Sys2Proof.Proofs
end

section
/-! SUPPORT. The control commands, each of one stage whose only pass is its body (R74 to R76). -/

namespace Sys2Proof.Machine

/-- A command of one stage that writes no bits and ends with its first pass, undisturbed. -/
theorem exec_done_at_once {i : Instr} {s t : State} (h : Ready s) (hl : nextStage i i = none)
    (hr : stageStep i (accept i s) = .done t) (hu : t.unsent = []) : exec i s = .next (complete t) := by
  rw [exec_eq_command, command_done_at_once h hl (passStep_of hr hu)]

/-- Acceptance and complete() together are what the lifecycle leaves of a command that completes (R70, R72). -/
theorem complete_accept (i : Instr) (s : State) : complete (accept i s) = completed i s := rfl

/-- complete() and CLEAR's body write different fields (R72, R75). -/
theorem complete_clearBody (s : State) : complete (clearBody s) = clearBody (complete s) := rfl

/-- complete() and OPENOUT's body write different fields (R72, R76). -/
theorem complete_openBody (s : State) : complete (openBody s) = openBody (complete s) := rfl

/-- NOP, undisturbed (R74). -/
theorem exec_nop_ready {s : State} (h : Ready s) : exec .nop s = .next (completed .nop s) := by
  rw [exec_done_at_once (t := accept .nop s) h rfl rfl rfl, complete_accept]

/-- CLEAR, undisturbed (R75). -/
theorem exec_clear_ready {s : State} (h : Ready s) : exec .clear s = .next (clearBody (completed .clear s)) := by
  rw [exec_done_at_once (t := clearBody (accept .clear s)) h rfl rfl rfl, complete_clearBody, complete_accept]

/-- OPENOUT, undisturbed (R76). -/
theorem exec_openout_ready {s : State} (h : Ready s) : exec .openout s = .next (openBody (completed .openout s)) := by
  rw [exec_done_at_once (t := openBody (accept .openout s)) h rfl rfl rfl, complete_openBody, complete_accept]

end Sys2Proof.Machine

namespace Sys2Proof.Proofs
open Sys2Proof.Machine

/-- Settles O6: NOP's stage does nothing, so acceptance and complete() are all that happens. -/
theorem nopCompletes : Obligations.NopCompletes :=
  fun _ h => exec_nop_ready h

/-- Settles O7: the next state is CLEAR's body over the completed lifecycle, which writes each field as R75 says. -/
theorem clearCompletes : Obligations.ClearCompletes :=
  fun _ h => ⟨_, exec_clear_ready h, rfl⟩

/-- Settles O8: the next state is OpenOut() over the completed lifecycle. -/
theorem openoutCompletes : Obligations.OpenoutCompletes :=
  fun _ h => exec_openout_ready h

end Sys2Proof.Proofs
end

section
/-! SUPPORT. BUILD undisturbed: a first check that fails ends the command, and the forest it leaves where FREQ holds a count
(R71, R80, R81). -/

namespace Sys2Proof.Machine

/-- Acceptance and raise together are what the lifecycle leaves of a command that fails (R70, R106). -/
theorem raiseError_accept (i : Instr) (e : ErrCode) (info : Word) (s : State) :
    raiseError e info (accept i s) = failed i e info s := rfl

/-- A command whose first pass raises without having changed the state, undisturbed. -/
theorem exec_raise_at_once {i : Instr} {s : State} {e : ErrCode} {info : Word} (h : Ready s)
    (hr : stageStep i (accept i s) = .raise e info (accept i s)) : exec i s = .next (failed i e info s) := by
  rw [exec_eq_command, command_raise_at_once h (passStep_of hr rfl), raiseError_accept]

/-- BUILD without a count (R71). -/
theorem exec_build_seq {s : State} (h : Ready s) (hv : s.freqV = false) :
    exec .build s = .next (failed .build .eSeq 0x11#32 s) := by
  refine exec_raise_at_once h ?_
  have hp : precondition .build (accept .build s) = some .eSeq := if_neg (by simpa using hv)
  simp [stageStep, buildEnter, checked, hp, opcode]

/-- A count is not 0 exactly when it is positive, so the model takes the symbols R81 names. -/
theorem symbolList_eq_buildSymbols (s : State) : symbolList s = buildSymbols s := by
  have hp : (fun v => decide (0 < (freqAt s v).toNat)) = fun v => freqAt s v != 0#Config.cntW := by
    funext v
    rw [Bool.eq_iff_iff, decide_eq_true_iff, bne_iff_ne, Nat.pos_iff_ne_zero, ne_eq, ne_eq, ← BitVec.toNat_inj]
    rfl
  simp only [symbolList, buildSymbols, hp]

/-- A count gives BUILD 2 to 257 symbols (R81, R82). -/
theorem symbolList_length_bounds {s : State} (h : countHolds s) :
    2 ≤ (symbolList s).length ∧ (symbolList s).length ≤ 257 := by
  obtain ⟨h2, hL, -⟩ := buildSymbols_of_countHolds h
  rw [symbolList_eq_buildSymbols]
  exact ⟨h2, hL⟩

/-- A record's index fits the fields LEFT and RIGHT (R29). -/
theorem toNat_recordIndex {i : Nat} (h : i < 1024) : (BitVec.ofNat 10 i).toNat = i :=
  (BitVec.toNat_ofNat i 10).trans (Nat.mod_eq_of_lt h)

section
variable {s : State} {S : List Nat} {t : Table NodeRec} {heap : List Nat} {n : Nat}

/-- A forest reads nothing of the state but FREQ. -/
theorem Forest.of_freq_eq {s' : State} (F : Forest s S t heap n) (h : s'.freq = s.freq) : Forest s' S t heap n := by
  have hf : freqAt s' = freqAt s := by funext v; rw [freqAt, freqAt, h]
  exact { F with
    leaves := fun k hk => by rw [F.leaves k hk, leafRec, leafRec, hf]
    trees := by rw [hf]; exact F.trees }

theorem keyBefore_iff {i j : Nat} : keyBefore t i j ↔ keyLt t i j = true := keyLt_iff.symm

theorem keyLt_ne {i j : Nat} (h : keyLt t i j = true) : i ≠ j := by
  rintro rfl
  rw [keyLt_iff] at h
  omega

/-- Each internal record of a forest is over the two records of least key among those no earlier record is over (R80, R81). -/
theorem Forest.least (F : Forest s S t heap n) (hn : n ≤ 1024) {m : Nat} (hm : S.length ≤ m) (hmn : m < n) :
    ∃ a b, a < m ∧ b < m ∧ a ≠ b ∧
      nodeIn t m = ⟨false, 0#9, (nodeIn t a).weight + (nodeIn t b).weight, BitVec.ofNat 10 a, BitVec.ofNat 10 b⟩ ∧
      (∀ m', S.length ≤ m' → m' < m → ¬ isChild t m' a ∧ ¬ isChild t m' b) ∧
      keyBefore t a b ∧
      ∀ j, j < m → j ≠ a → j ≠ b → (∀ m', S.length ≤ m' → m' < m → ¬ isChild t m' j) → keyBefore t b j := by
  obtain ⟨a, b, ha, hb, hab, hrec, -⟩ := F.inner m hm hmn
  have hleft : (nodeIn t m).left.toNat = a := by
    rw [hrec]; exact toNat_recordIndex (by omega)
  have hright : (nodeIn t m).right.toNat = b := by
    rw [hrec]; exact toNat_recordIndex (by omega)
  have hunused : ∀ c, isChild t m c → ∀ m', S.length ≤ m' → m' < m → ¬ isChild t m' c := fun c hc m' h1 h2 hc' =>
    absurd (F.once m' m c h1 (by omega) hm hmn hc' hc) (by omega)
  refine ⟨a, b, ha, hb, keyLt_ne hab, hrec,
    fun m' h1 h2 => ⟨hunused a (.inl hleft) m' h1 h2, hunused b (.inr hright) m' h1 h2⟩, keyBefore_iff.2 hab,
    fun j hj hja hjb hfree => ?_⟩
  have hfree' : ∀ m', S.length ≤ m' → m' ≤ m → ¬ Child t m' j := by
    intro m' h1 h2
    rcases Nat.lt_or_eq_of_le h2 with hlt | rfl
    · exact hfree m' h1 hlt
    · rintro (h | h) <;> omega
  rw [keyBefore_iff, ← hright]
  exact F.greedy m hm hmn j hj hfree'

end

/-- BUILD over a count, undisturbed: the forest of one tree it leaves, and the records and fields it does not write (R81). -/
theorem exec_build_ready {s : State} (h : Ready s) (hv : s.freqV = true) (hc : countHolds s) :
    ∃ t, Forest s (symbolList s) t [2 * (symbolList s).length - 2] (2 * (symbolList s).length - 1) ∧
      (∀ j, 2 * (symbolList s).length - 1 ≤ j → nodeIn t j = nodeAt s j) ∧
      exec .build s = .next { completed .build s with
        treeV := true, codeV := false, decState := .idle, treeSrc := .build, node := t
        root := BitVec.ofNat 10 (2 * (symbolList s).length - 2)
        nodeCount := BitVec.ofNat 10 (2 * (symbolList s).length - 1)
        leafCount := BitVec.ofNat 9 (symbolList s).length } := by
  obtain ⟨-, hlen⟩ := symbolList_length_bounds hc
  obtain ⟨h2, hL, hS, -, -, hsum⟩ := buildSymbols_of_countHolds hc
  obtain ⟨-, -, -, hmax⟩ := hc
  have hfit : s.inCount.toNat + 1 < 2 ^ 32 := Nat.lt_of_le_of_lt (Nat.succ_le_succ hmax) (by decide)
  obtain ⟨t, hF, -, hframe, hrun⟩ := build_stage (accept .build s) rfl rfl hv h2 hL
    (fun v hm => Nat.lt_of_le_of_lt (hS v hm) (by decide)) (hsum.trans_lt hfit)
  have hacc : buildSymbols (accept .build s) = symbolList s := (symbolList_eq_buildSymbols s).symm
  rw [hacc] at hF hframe hrun
  refine ⟨t, hF.of_freq_eq rfl, hframe, ?_⟩
  rw [exec_eq_command, command_done h rfl (by omega) hrun]
  rfl

end Sys2Proof.Machine

namespace Sys2Proof.Proofs
open Sys2Proof.Machine

/-- Settles O12: the loop leaves a forest of one tree, whose inner records are over the least keys not yet used. -/
theorem buildCompletes : Obligations.BuildCompletes := by
  refine ⟨fun s h hv => exec_build_seq h hv, fun s h hv hc => ?_⟩
  obtain ⟨h2, hL⟩ := symbolList_length_bounds hc
  obtain ⟨t, hF, hframe, hrun⟩ := exec_build_ready h hv hc
  exact ⟨h2, hL, _, hrun, rfl, hF.leaves, fun m hm hlt => hF.least (by omega) hm hlt, hframe⟩

end Sys2Proof.Proofs
end

section
/-! SUPPORT. GENCODE undisturbed: a tree that is not there ends the command, and the code table it leaves over the tree at
ROOT (R71, R85). -/

namespace Sys2Proof.Machine

/-- GENCODE without a tree (R71). -/
theorem exec_gencode_seq {s : State} (h : Ready s) (hv : s.treeV = false) :
    exec .gencode s = .next (failed .gencode .eSeq 0x12#32 s) := by
  refine exec_raise_at_once h ?_
  have hp : precondition .gencode (accept .gencode s) = some .eSeq := if_neg (by simpa using hv)
  simp [stageStep, gencodeEnter, checked, hp, opcode]

/-- GENCODE over a tree at ROOT that fits NODE, undisturbed: CODE becomes the tree's code table, and complete() leaves the
rest but the lifecycle's registers (R72, R85). -/
theorem exec_gencode_ready {s : State} {T : HTree} (h : Ready s) (hv : s.treeV = true)
    (hT : treeAt s.node T s.root.toNat = true) (hz : T.size ≤ Config.nodeCap) :
    exec .gencode s = .next { completed .gencode s with codeV := true, code := codeTable T } := by
  have hrun := gencode_stage (accept .gencode s) T rfl rfl hv hz hT
  have hcap : T.size ≤ 513 := hz
  rw [exec_eq_command, command_done h rfl (by omega) hrun]
  rfl

end Sys2Proof.Machine

namespace Sys2Proof.Proofs
open Sys2Proof.Machine

/-- Settles O15: Visit leaves the tree's code table, whose entry for a symbol is the path of its last leaf. -/
theorem gencodeCompletes : Obligations.GencodeCompletes :=
  ⟨fun _ h hv => exec_gencode_seq h hv,
    fun _ T h hv hT hz => ⟨_, exec_gencode_ready h hv hT hz, rfl, fun v hlt => tableGet_codeTable T v hlt⟩⟩

end Sys2Proof.Proofs
end

section
/-! SUPPORT. SERIALIZE undisturbed: a first check that fails ends the command, and the header it writes of the tree at ROOT
(R71, R90). -/

namespace Sys2Proof.Machine

/-- Acceptance changes nothing a stage's checks look at (R70, R71). -/
theorem precondition_accept (stage i : Instr) (s : State) : precondition stage (accept i s) = precondition stage s := by
  cases stage <;> rfl

/-- A command whose first pass is a check that fails, undisturbed (R71). -/
theorem exec_raise_of_precondition {i : Instr} {s : State} {e : ErrCode} {body : State → StageResult} (h : Ready s)
    (hs : stageStep i (accept i s) = checked i (accept i s) body) (hp : precondition i s = some e) :
    exec i s = .next (failed i e ((opcode i).setWidth 32) s) := by
  refine exec_raise_at_once h ?_
  rw [hs, checked, precondition_accept, hp]

/-- An accepted SERIALIZE starts with the checks of its entry (R71, R90). -/
theorem stageStep_serialize_accept (s : State) :
    stageStep .serialize (accept .serialize s) = serializeEnter (accept .serialize s) := rfl

/-- SERIALIZE without a tree (R71). -/
theorem exec_serialize_seq {s : State} (h : Ready s) (hv : s.treeV = false) :
    exec .serialize s = .next (failed .serialize .eSeq 0x14#32 s) :=
  exec_raise_of_precondition h (stageStep_serialize_accept s) (by simp [precondition, hv])

/-- SERIALIZE of a tree with the output closed (R71). -/
theorem exec_serialize_closed {s : State} (h : Ready s) (hv : s.treeV = true) (ho : s.out.isOpen = false) :
    exec .serialize s = .next (failed .serialize .eOutClosed 0x14#32 s) :=
  exec_raise_of_precondition h (stageStep_serialize_accept s) (by simp [precondition, hv, ho])

/-- SERIALIZE of a tree at ROOT that fits NODE, undisturbed: the tree's header goes to the output, and complete() leaves the
rest but HDR_BITS and the lifecycle's registers (R72, R90). -/
theorem exec_serialize_ready {s : State} {T : HTree} (h : Ready s) (hv : s.treeV = true) (ho : s.out.isOpen = true)
    (hT : treeAt s.node T s.root.toNat = true) (hz : T.size ≤ Config.nodeCap) :
    exec .serialize s = .next { completed .serialize s with
      hdrBits := BitVec.ofNat 32 T.header.length, out := s.out.push T.header } := by
  have hrun := serialize_stage (accept .serialize s) T rfl rfl hv ho hz hT
  have hcap : T.size ≤ 513 := hz
  rw [exec_eq_command, command_done h rfl (by omega) hrun]
  rfl

end Sys2Proof.Machine

namespace Sys2Proof.Proofs
open Sys2Proof.Machine

/-- Settles O18: the entry checks TREE_V before OUT_OPEN, and Put over the tree at ROOT pushes its header on the output port. -/
theorem serializeCompletes : Obligations.SerializeCompletes :=
  ⟨fun _ h => ⟨exec_serialize_seq h, exec_serialize_closed h⟩,
    fun s T h hv ho ha hT hz => ⟨_, exec_serialize_ready h hv ho hT hz, rfl, push_wrote s.out T.header ha⟩⟩

end Sys2Proof.Proofs
end

section
/-! SUPPORT. WRMAGIC and CLOSE undisturbed: the check of OUT_OPEN, and what each makes of an open output (R71, R93, R95). -/

namespace Sys2Proof.Machine

/-- The lifecycle does not touch the output port a stage leaves (R70, R72). -/
theorem complete_accept_out (i : Instr) (s : State) (o : OutPort) :
    complete { accept i s with out := o } = { completed i s with out := o } := rfl

/-- An accepted WRMAGIC starts with the check of its entry (R71, R93). -/
theorem stageStep_wrmagic_accept (s : State) :
    stageStep .wrmagic (accept .wrmagic s) = wrmagicEnter (accept .wrmagic s) := rfl

/-- WRMAGIC with the output closed (R71). -/
theorem exec_wrmagic_closed {s : State} (h : Ready s) (ho : s.out.isOpen = false) :
    exec .wrmagic s = .next (failed .wrmagic .eOutClosed 0x13#32 s) :=
  exec_raise_of_precondition h (stageStep_wrmagic_accept s) (by simp [precondition, ho])

/-- WRMAGIC with the output open, undisturbed: the bits of MAGIC go to the output, and complete() leaves the rest but the
lifecycle's registers (R72, R93). -/
theorem exec_wrmagic_ready {s : State} (h : Ready s) (ho : s.out.isOpen = true) :
    exec .wrmagic s = .next { completed .wrmagic s with out := s.out.push (natToBits 32 s.magic.toNat) } := by
  have hrun := wrmagic_pass (s := accept .wrmagic s) rfl rfl ho
  rw [exec_eq_command, command_done_at_once h rfl hrun, complete_accept_out, accept_out, accept_magic]

/-- An accepted CLOSE starts with the check of its entry (R71, R95). -/
theorem stageStep_close_accept (s : State) : stageStep .close (accept .close s) = closeEnter (accept .close s) := rfl

/-- CLOSE with the output closed (R71). -/
theorem exec_close_closed {s : State} (h : Ready s) (ho : s.out.isOpen = false) :
    exec .close s = .next (failed .close .eOutClosed 0x16#32 s) :=
  exec_raise_of_precondition h (stageStep_close_accept s) (by simp [precondition, ho])

/-- CLOSE with the output open, undisturbed: CloseOut(), and complete() leaves the rest but the lifecycle's registers
(R72, R95). -/
theorem exec_close_ready {s : State} (h : Ready s) (ho : s.out.isOpen = true) :
    exec .close s = .next { completed .close s with out := s.out.closeOut } := by
  have hrun := close_pass (s := accept .close s) rfl rfl ho
  rw [exec_eq_command, command_done_at_once h rfl hrun, complete_accept_out, accept_out]

/-- CloseOut() counts a byte exactly where bits were pending (R22, R51). -/
theorem closeOut_count (o : OutPort) : o.closeOut.count = if o.acc = [] then o.count else o.count + 1#32 := by
  by_cases ha : o.acc = []
  · simp [OutPort.closeOut, ha]
  · simp [OutPort.closeOut, ha, List.length_pos_iff]

end Sys2Proof.Machine

namespace Sys2Proof.Proofs
open Sys2Proof.Machine

/-- Settles O17: the entry checks OUT_OPEN, and the one pass of the stage pushes the bits of MAGIC on the output port. -/
theorem wrmagicCompletes : Obligations.WrmagicCompletes := by
  refine fun s h => ⟨exec_wrmagic_closed h, fun ho ha => ?_⟩
  have hrun := exec_wrmagic_ready h ho
  -- the bits as a variable: comparing the two states must not compute them
  generalize natToBits 32 s.magic.toNat = bits at hrun ⊢
  exact ⟨_, hrun, rfl, push_wrote s.out bits ha⟩

/-- Settles O21: the entry checks OUT_OPEN, and CloseOut() pads the stream to whole bytes. -/
theorem closeCompletes : Obligations.CloseCompletes := by
  refine fun s h => ⟨exec_close_closed h, fun ho ha => ⟨_, exec_close_ready h ho, rfl, ?_⟩⟩
  obtain ⟨hstream, hacc, hopen, hbits, -⟩ := closeOut_spec s.out ha
  exact ⟨hstream, hacc, hopen, hbits, closeOut_count s.out⟩

end Sys2Proof.Proofs
end

section
/-! SUPPORT. RDMAGIC undisturbed: the read of the magic field from the start of the input, and what the command makes of each
answer (R48, R97). -/

namespace Sys2Proof.Machine

/-- A command whose first pass raises with no bits under way, undisturbed. -/
theorem exec_raise_first_pass {i : Instr} {s t : State} {e : ErrCode} {info : Word} (h : Ready s)
    (hr : stageStep i (accept i s) = .raise e info t) (hu : t.unsent = []) :
    exec i s = .next (raiseError e info t) := by
  rw [exec_eq_command, command_raise_at_once h (passStep_of hr hu)]

/-- An accepted RDMAGIC starts with its read (R97). -/
theorem stageStep_rdmagic_accept (s : State) :
    stageStep .rdmagic (accept .rdmagic s) = rdmagicEnter (accept .rdmagic s) := rfl

/-- RDMAGIC where its pass raises after a read that left the input port `p`, undisturbed. -/
theorem exec_rdmagic_raise {s : State} {e : ErrCode} {info : Word} {p : InPort} (h : Ready s)
    (hr : rdmagicEnter (accept .rdmagic s) = .raise e info { accept .rdmagic s with inp := p }) :
    exec .rdmagic s = .next { failed .rdmagic e info s with inp := p } :=
  exec_raise_first_pass h ((stageStep_rdmagic_accept s).trans hr) rfl

/-- RDMAGIC where its pass ends after a read that left the input port `p`, undisturbed. -/
theorem exec_rdmagic_done {s : State} {p : InPort} (h : Ready s)
    (hr : rdmagicEnter (accept .rdmagic s) = .done { accept .rdmagic s with inp := p }) :
    exec .rdmagic s = .next { completed .rdmagic s with inp := p } :=
  exec_done_at_once h rfl ((stageStep_rdmagic_accept s).trans hr) rfl

/-- A number that fits a word is the word exactly when it is the word's number. -/
theorem ofNat_eq_word_iff {v : Nat} {w : Word} (hv : v < 2 ^ 32) : BitVec.ofNat 32 v = w ↔ v = w.toNat := by
  rw [BitVec.nat_eq_toNat, and_iff_right hv, eq_comm]

/-- The first 32 bits of a stream are a number that fits a word. -/
theorem bitsToNat_take_lt (bs : List Bool) : bitsToNat (bs.take 32) < 2 ^ 32 :=
  (bitsToNat_lt _).trans_le (Nat.pow_le_pow_right (by decide) (List.length_take_le 32 bs))

/-- RDMAGIC's pass where the source fails (R97, R48). -/
theorem rdmagicEnter_ioErr {s : State} (hd : s.inp.ioDraws.headD false = true) :
    rdmagicEnter s = .raise .eFmtIo 0#32 { s with inp := ⟨s.inp.data, 0#40, s.inp.ioDraws.tail⟩ } := by
  have hread := readBits_ioErr Config.magicBits s.inp.rewind hd
  rw [rdmagicEnter, hread]
  rfl

/-- RDMAGIC's pass over an input of fewer than 32 bits (R97, R48). -/
theorem rdmagicEnter_eos {s : State} (hd : s.inp.ioDraws.headD false = false) (hl : 8 * s.inp.data.length < 32) :
    rdmagicEnter s = .raise .eFmtMagicTrunc 0#32 { s with inp := ⟨s.inp.data, 0#40, s.inp.ioDraws.tail⟩ } := by
  have hread := readBits_eos Config.magicBits s.inp.rewind hd (by simpa [Config.magicBits] using hl)
  rw [rdmagicEnter, hread]
  rfl

/-- RDMAGIC's pass over an input of at least 32 bits: the number they are against MAGIC (R97, R48). -/
theorem rdmagicEnter_val {s : State} (hd : s.inp.ioDraws.headD false = false) (hl : 32 ≤ 8 * s.inp.data.length) :
    rdmagicEnter s =
      if bitsToNat ((streamOf s.inp.data).take 32) = s.magic.toNat then
        .done { s with inp := ⟨s.inp.data, 32#40, s.inp.ioDraws.tail⟩ }
      else .raise .eFmtBadMagic (BitVec.ofNat 32 (bitsToNat ((streamOf s.inp.data).take 32)))
        { s with inp := ⟨s.inp.data, 32#40, s.inp.ioDraws.tail⟩ } := by
  have hread := readBits_val Config.magicBits s.inp.rewind hd (by simpa [Config.magicBits] using hl)
  rw [rdmagicEnter, hread]
  simp only [← ofNat_eq_word_iff (bitsToNat_take_lt _)]
  rfl

end Sys2Proof.Machine

namespace Sys2Proof.Proofs
open Sys2Proof.Machine

/-- Settles O23: the rewound read of 32 bits answers a number, the end of the stream or a failure, and a number is MAGIC's or
it is not. -/
theorem rdmagicOutcomes : Obligations.RdmagicOutcomes := fun s h =>
  ⟨fun hd hl hm => exec_rdmagic_done h ((rdmagicEnter_val (s := accept .rdmagic s) hd hl).trans (if_pos hm)),
    fun hd hl hm => exec_rdmagic_raise h ((rdmagicEnter_val (s := accept .rdmagic s) hd hl).trans (if_neg hm)),
    fun hd hl => exec_rdmagic_raise h (rdmagicEnter_eos (s := accept .rdmagic s) hd hl),
    fun hd => exec_rdmagic_raise h (rdmagicEnter_ioErr (s := accept .rdmagic s) hd)⟩

end Sys2Proof.Proofs
end

section
/-! SUPPORT. The platform's reset as a whole step (R119). -/

namespace Sys2Proof.Machine

/-- Reset ends whatever command was running (R37, R119). -/
@[simp] theorem applyReset_busy (s : State) : (applyReset s).busy = false := rfl

/-- The step of a reset is the reset alone: no command is left running, so the sequencer's turn does not follow (R119). -/
theorem step_reset {s : State} {rest : List HostMove} (h : s.host = .reset :: rest) :
    step s = .next (applyReset { s with host := rest }) := by
  simp [step, machineStep, h, hostMove, thenTurn]

end Sys2Proof.Machine

namespace Sys2Proof.Proofs
open Sys2Proof.Machine

/-- Settles O51: the step of a reset is the reset alone, and that is the state after reset but for IN_DATA, OUT_DATA and the
environment. -/
theorem resetStopsEverything : Obligations.ResetStopsEverything :=
  fun s rest h => ⟨applyReset { s with host := rest }, step_reset h, rfl⟩

end Sys2Proof.Proofs
end

section
/-! SUPPORT. The shape of the state through every step (R14, R16, R18, R32 to R35, R106): what the lifecycle's registers may be
while SEQ is idle, running or rejecting, and which error codes a stage raises. -/

namespace Sys2Proof.Machine

/-- The lifecycle's registers while HUFFC is idle: at most one of DONE and ERR, ERR_CODE as ERR says, no scratch (R18, R70). -/
theorem lifecycleOk_idle {s : State} (h : s.seq = .idle) :
    lifecycleOk s = true ↔ (s.done && s.err) = false ∧ (s.err = false → s.errCode = .eNone ∧ s.errInfo = 0#32) ∧
      (s.err = true → s.errCode ≠ .eNone) ∧ s.phase = .enter ∧ s.heap = [] ∧ s.dstack = [] ∧ s.unsent = [] := by
  cases hd : s.done <;> cases he : s.err <;> simp [lifecycleOk, State.busy, h, hd, he, and_assoc]

/-- While a command runs: no end of a command on record, its word in CMD, its stage one of its list (R14, R70). -/
theorem lifecycleOk_running {s : State} {cmd stage : Instr} (h : s.seq = .running cmd stage) :
    lifecycleOk s = true ↔ s.done = false ∧ s.err = false ∧ s.errCode = .eNone ∧ s.errInfo = 0#32 ∧ s.cmd = encode cmd ∧
      stage ∈ stageList cmd := by
  cases hd : s.done <;> cases he : s.err <;> simp [lifecycleOk, State.busy, h, hd, he, and_assoc]

/-- While an illegal word is rejected: no end of a command on record, the word in CMD (R70). -/
theorem lifecycleOk_rejecting {s : State} (h : s.seq = .rejecting) :
    lifecycleOk s = true ↔ s.done = false ∧ s.err = false ∧ s.errCode = .eNone ∧ s.errInfo = 0#32 ∧
      wordLegal s.cmd = false := by
  cases hd : s.done <;> cases he : s.err <;> simp [lifecycleOk, State.busy, h, hd, he, and_assoc]

/-- The registers' consistency is a matter of these fields alone. -/
theorem lifecycleOk_congr {s t : State} (hq : t.seq = s.seq) (hc : t.cmd = s.cmd) (hd : t.done = s.done) (he : t.err = s.err)
    (hec : t.errCode = s.errCode) (hei : t.errInfo = s.errInfo) (hb : s.busy = true) :
    lifecycleOk t = lifecycleOk s := by
  have hb' : t.busy = true := by rw [State.busy, hq]; exact hb
  simp only [lifecycleOk, hb, hb', hq, hc, hd, he, hec, hei, Bool.true_or]

/-- A command's next stage is in its list. -/
theorem nextStage_mem {cmd stage st : Instr} (h : nextStage cmd stage = some st) : st ∈ stageList cmd := by
  have next : ∀ l : List Instr, nextIn stage l = some st → st ∈ l := by
    intro l
    induction l with
    | nil => intro h; cases h
    | cons a l ih =>
      cases l with
      | nil => intro h; cases h
      | cons b l =>
        intro h
        simp only [nextIn] at h
        split_ifs at h
        · cases h; simp
        · exact List.mem_cons_of_mem a (ih h)
  exact next _ h

/-- A command's own stage is in its list. -/
theorem self_mem_stageList (i : Instr) : i ∈ stageList i := by
  cases i <;> simp [stageList]

/-- What a pass raises is an error (R104). -/
def RaisesError : StageResult → Prop
  | .raise e _ _ => e ≠ .eNone
  | _ => True

theorem raisesError_checked {stage : Instr} {s : State} {body : State → StageResult} (h : RaisesError (body s)) :
    RaisesError (checked stage s body) := by
  rcases checked_cases stage s body with ⟨-, h'⟩ | ⟨e, hp, h'⟩ <;> rw [h']
  · exact h
  · have some_ne : ∀ i, precondition i s = some e → e ≠ .eNone := by
      intro i hi
      unfold precondition at hi
      repeat' split at hi
      all_goals cases hi
      all_goals decide
    exact some_ne stage hp

/-- No pass raises the value that stands for no error. -/
theorem stageStep_raisesError (stage : Instr) (s : State) : RaisesError (stageStep stage s) := by
  refine stageStep_arms (P := fun _ _ r => RaisesError r) (fun _ _ => trivial) (fun _ => trivial) (fun _ => trivial)
    (fun _ _ => trivial) (fun _ => trivial) ?count ?build (fun _ => raisesError_checked trivial)
    (fun _ => raisesError_checked trivial) ?gencode (fun _ => raisesError_checked trivial)
    (fun _ => raisesError_checked trivial) ?serialize (fun _ => raisesError_checked trivial) ?encbody
    (fun _ => raisesError_checked trivial) ?rdmagic (fun _ => trivial) ?field ?get ?decbody
    (fun _ => raisesError_checked ?root) stage s
  case count =>
    intro s
    unfold countIter
    repeat' split
    all_goals simp [RaisesError]
  case build =>
    intro L n s
    unfold buildIter
    repeat' split
    all_goals trivial
  case gencode =>
    intro s
    unfold gencodeIter
    dsimp only
    repeat' split
    all_goals trivial
  case serialize =>
    intro s
    unfold serializeIter
    dsimp only
    repeat' split
    all_goals trivial
  case encbody =>
    intro s
    unfold encbodyIter
    dsimp only
    repeat' split
    all_goals simp [RaisesError]
  case rdmagic =>
    intro s
    unfold rdmagicEnter
    repeat' split
    all_goals simp [RaisesError]
  case field =>
    intro i s
    unfold deserializeField deserializeLeaf
    dsimp only
    repeat' split
    all_goals simp [RaisesError, deserializeRaise]
  case get =>
    intro s
    unfold deserializeIter
    dsimp only
    repeat' split
    all_goals simp [RaisesError, deserializeRaise, deserializeInternal]
  case decbody =>
    intro k s
    unfold decbodyIter decbodyAt
    dsimp only
    repeat' split
    all_goals simp [RaisesError]
  case root =>
    dsimp only
    repeat' split
    all_goals simp [RaisesError]

/-- complete() and raise leave the registers consistent (R72, R106). -/
theorem complete_lifecycleOk {s : State} (he : s.err = false) (hc : s.errCode = .eNone) (hi : s.errInfo = 0#32) :
    lifecycleOk (complete s) = true := by
  rw [lifecycleOk_idle rfl]
  simp [he, hc, hi]

theorem raiseError_lifecycleOk {e : ErrCode} {info : Word} {s : State} (he : e ≠ .eNone) (hd : s.done = false) :
    lifecycleOk (raiseError e info s) = true := by
  rw [lifecycleOk_idle rfl]
  simp [he, hd]

/-- The end of a pass leaves the registers consistent: the stage goes on, the next one starts, or the command ends. -/
theorem settle_lifecycleOk {cmd stage : Instr} {s : State} {r : StageResult} (hq : s.seq = .running cmd stage)
    (hs : SameLifecycle s r.state) (hr : RaisesError r) (h : lifecycleOk s = true) :
    lifecycleOk (settle cmd stage r) = true := by
  obtain ⟨hseq, hcmd, hdone, herr, hec, hei, -⟩ := hs
  obtain ⟨hd, he, hc, hi, hw, hst⟩ := (lifecycleOk_running hq).1 h
  cases r with
  | more v => exact (lifecycleOk_congr hseq hcmd hdone herr hec hei (busy_running hq)).trans h
  | done v =>
    simp only [StageResult.state, hd, he, hc, hi, hw, hq] at hdone herr hec hei hcmd hseq
    simp only [settle, stageEnded]
    split
    · split
      · next st hn => exact (lifecycleOk_running rfl).2 ⟨hdone, herr, hec, hei, hcmd, nextStage_mem hn⟩
      · exact complete_lifecycleOk herr hec hei
    · exact (lifecycleOk_running (s := { v with phase := .ended }) hseq).2 ⟨hdone, herr, hec, hei, hcmd, hst⟩
  | raise e info v => exact raiseError_lifecycleOk hr (hdone.trans hd)

/-- A step of the sequencer leaves the registers consistent. -/
theorem microStep_lifecycleOk {s : State} (hb : s.busy = true) (h : lifecycleOk s = true) :
    lifecycleOk (microStep s) = true := by
  rcases microStep_cases hb with ⟨hq, hm⟩ | ⟨cmd, stage, hq, ⟨b, rest, -, hm⟩ | ⟨-, hm⟩⟩ <;> rw [hm]
  · exact raiseError_lifecycleOk (by decide) ((lifecycleOk_rejecting hq).1 h).1
  · exact (lifecycleOk_congr (s := s) (t := sendBit b rest s) rfl rfl rfl rfl rfl rfl hb).trans h
  · exact settle_lifecycleOk hq (stageStep_same stage s) (stageStep_raisesError stage s) h

/-- The shape of the state, part by part. -/
theorem wellShaped_iff {s : State} :
    wellShaped s = true ↔ Kept s ∧ s.inp.data.length ≤ Config.maxAttach ∧ lifecycleOk s = true := by
  simp only [wellShaped, Kept, Bool.and_eq_true, decide_eq_true_eq, memory_wf_iff]
  simp only [Config.heapCap, Config.dstackCap]
  tauto

/-- The shape survives everything a step is made of. -/
theorem wellShaped_survives : Survives fun s => wellShaped s = true where
  micro s h hb := by
    obtain ⟨hk, hl, ho⟩ := wellShaped_iff.1 h
    exact wellShaped_iff.2 ⟨microStep_kept s hk, (microStep_env s).2.1 ▸ hl, microStep_lifecycleOk hb ho⟩
  accepts s i h _ := by
    obtain ⟨hk, hl, -⟩ := wellShaped_iff.1 h
    exact wellShaped_iff.2 ⟨hk, hl, (lifecycleOk_running rfl).2 ⟨rfl, rfl, rfl, rfl, rfl, self_mem_stageList i⟩⟩
  env _ _ _ _ _ h := h
  overruns _ h := h
  illegal s w h _ hw := by
    obtain ⟨hk, hl, -⟩ := wellShaped_iff.1 h
    exact wellShaped_iff.2 ⟨hk, hl, (lifecycleOk_rejecting rfl).2 ⟨rfl, rfl, rfl, rfl, hw⟩⟩
  resets s h := by
    obtain ⟨-, hl, -⟩ := wellShaped_iff.1 h
    exact wellShaped_iff.2 ⟨reset_kept, hl, rfl⟩
  irqEn _ _ h := h
  irqStat _ _ h := h
  magic s v h := by
    unfold writeMagic
    split
    · exact h
    · exact h
  attaches s b h _ hb := by
    obtain ⟨hk, -, ho⟩ := wellShaped_iff.1 h
    exact wellShaped_iff.2 ⟨hk, hb, ho⟩
  takes _ h _ := h

end Sys2Proof.Machine

namespace Sys2Proof.Proofs
open Sys2Proof.Machine

/-- Settles O55: the shape survives each part of a step, the lifecycle's registers by what SEQ is. -/
theorem wellShapedKept : Obligations.WellShapedKept :=
  fun _ _ h hst => step_survives wellShaped_survives h hst

end Sys2Proof.Proofs
end

section
/-! SUPPORT. The count in FREQ through every step (R28, R78): one byte more in COUNT's loop, and the stages that leave FREQ
alone. -/

namespace Sys2Proof.Machine

/-- What R28 speaks of: FREQ_V, FREQ and IN_COUNT. -/
def SameFreq (s t : State) : Prop := t.freqV = s.freqV ∧ t.freq = s.freq ∧ t.inCount = s.inCount

theorem sameFreq_refl (s : State) : SameFreq s s := ⟨rfl, rfl, rfl⟩

theorem countHolds_congr {s t : State} (hf : t.freq = s.freq) (hc : t.inCount = s.inCount) : countHolds t ↔ countHolds s := by
  simp only [countHolds, freqTotal, freqAt, hf, hc]

theorem sameFreq_checked {stage : Instr} {s : State} {body : State → StageResult} (h : SameFreq s (body s).state) :
    SameFreq s (checked stage s body).state := by
  rcases checked_cases stage s body with ⟨-, h'⟩ | ⟨e, -, h'⟩ <;> rw [h']
  · exact h
  · exact sameFreq_refl s

/-- Only COUNT and CLEAR write what R28 speaks of. -/
theorem stageStep_sameFreq {stage : Instr} (hcount : stage ≠ .count) (hclear : stage ≠ .clear) (s : State) :
    SameFreq s (stageStep stage s).state := by
  unfold stageStep
  split
  case h_3 => exact absurd rfl hclear
  case h_5 => exact absurd rfl hcount
  case h_6 => exact absurd rfl hcount
  case h_7 => unfold buildIter; repeat' split
              all_goals exact sameFreq_refl s
  case h_10 => unfold gencodeIter; dsimp only; repeat' split
               all_goals exact sameFreq_refl s
  case h_13 => unfold serializeIter; dsimp only; repeat' split
               all_goals exact sameFreq_refl s
  case h_15 => unfold encbodyIter; dsimp only; repeat' split
               all_goals exact sameFreq_refl s
  case h_18 => unfold rdmagicEnter; repeat' split
               all_goals exact sameFreq_refl s
  case h_20 => unfold deserializeField deserializeLeaf; dsimp only; repeat' split
               all_goals exact sameFreq_refl s
  case h_21 => unfold deserializeIter; dsimp only; repeat' split
               all_goals exact sameFreq_refl s
  case h_22 => unfold decbodyIter decbodyAt; dsimp only; repeat' split
               all_goals exact sameFreq_refl s
  case h_23 => refine sameFreq_checked ?_; dsimp only; repeat' split
               all_goals exact sameFreq_refl s
  case h_8 => exact sameFreq_checked (sameFreq_refl s)
  case h_9 => exact sameFreq_checked (sameFreq_refl s)
  case h_11 => exact sameFreq_checked (sameFreq_refl s)
  case h_12 => exact sameFreq_checked (sameFreq_refl s)
  case h_14 => exact sameFreq_checked (sameFreq_refl s)
  case h_16 => exact sameFreq_checked (sameFreq_refl s)
  all_goals exact sameFreq_refl s

/-- A sum over 0 to n − 1 in which one term grows by 1. -/
theorem sum_range_succ_at (n v : Nat) (f g : Nat → Nat) (hv : v < n) (hg : ∀ i, g i = f i + if i = v then 1 else 0) :
    ((List.range n).map g).sum = ((List.range n).map f).sum + 1 := by
  have hsum : ∀ h : Nat → Nat, ((List.range n).map h).sum = ∑ i ∈ Finset.range n, h i := fun _ => rfl
  simp only [hsum, hg, Finset.sum_add_distrib, Finset.sum_ite_eq', Finset.mem_range, if_pos hv]

/-- No entry is above the total. -/
theorem freqAt_le_total {s : State} {v : Nat} (hv : v < 257) : (freqAt s v).toNat ≤ freqTotal s :=
  List.le_sum_of_mem (List.mem_map.2 ⟨v, List.mem_range.2 hv, rfl⟩)

/-- A counter below its greatest value grows by 1 without wrapping (R78). -/
theorem toNat_add_one {x : BitVec 32} (h : x.toNat < 2 ^ 32 - 1) : (x + 1#32).toNat = x.toNat + 1 := by
  rw [BitVec.toNat_add, BitVec.toNat_ofNat]
  omega

/-- One byte more: FREQ and IN_COUNT of COUNT's loop keep R28, and nothing wraps below MAX_IN (R78). -/
theorem countHolds_next {s t : State} {v : Nat} (h : countHolds s) (hv : v < 256) (hm : s.inCount ≠ Config.maxIn)
    (hf : t.freq = tableSet Config.nsym s.freq v (freqAt s v + 1#Config.cntW)) (hc : t.inCount = s.inCount + 1#Config.cntW) :
    countHolds t := by
  obtain ⟨hall, hsent, htot, hle⟩ := h
  have hlt : s.inCount.toNat < 2 ^ 32 - 2 := by
    have hne : s.inCount.toNat ≠ Config.maxIn.toNat := fun e => hm (BitVec.eq_of_toNat_eq e)
    simp only [Config.maxIn, BitVec.toNat_ofNat, cntW_eq] at hle hne
    omega
  have hentry : (freqAt s v + 1#Config.cntW).toNat = (freqAt s v).toNat + 1 := by
    have hb := freqAt_le_total (s := s) (show v < 257 by omega)
    exact toNat_add_one (by omega)
  have hsame : freqAt t v = freqAt s v + 1#Config.cntW := by
    rw [freqAt, hf, tableGet_set_same _ _ (by simp only [Config.nsym]; omega)]
    rfl
  have hother : ∀ i, i ≠ v → freqAt t i = freqAt s i := fun i hi => by
    rw [freqAt, freqAt, hf, tableGet_set_ne _ _ _ hi]
  have hcount : t.inCount.toNat = s.inCount.toNat + 1 := by
    rw [hc]
    exact toNat_add_one (by omega)
  refine ⟨fun i hi => ?_, ?_, ?_, ?_⟩
  · by_cases hiv : i = v
    · rw [hf, hiv, tableGet_set_same _ _ (by simp only [Config.nsym]; omega)]
      rfl
    · rw [hf, tableGet_set_ne _ _ _ hiv]
      exact hall i hi
  · rw [hother _ (by simp only [Config.pseudoEof]; omega), hsent]
  · rw [hcount, ← htot]
    refine sum_range_succ_at _ v _ _ (by simp only [Config.nsym]; omega) fun i => ?_
    by_cases hiv : i = v
    · rw [if_pos hiv, hiv, hsame, hentry]
    · rw [if_neg hiv, hother i hiv, Nat.add_zero]
  · rw [hcount]
    simp only [Config.maxIn, BitVec.toNat_ofNat, cntW_eq]
    omega

/-- What COUNT's loop makes of a count: it goes on with one more byte, ends with FREQ_V = 1, or raises with FREQ_V = 0. -/
theorem countIter_holds {s : State} (hv : s.freqV = false) (h : countHolds s) :
    (∃ u, countIter s = .more u ∧ u.freqV = false ∧ countHolds u) ∨
    (∃ u, countIter s = .done u ∧ u.unsent = s.unsent ∧ countHolds u) ∨
    ∃ e info u, countIter s = .raise e info u ∧ u.freqV = false := by
  unfold countIter
  rcases readBits_cases Config.bitsPerWord s.inp with ⟨v, hr, -, -, hlt⟩ | ⟨hr, -⟩ | ⟨hr, -⟩ <;> simp only [hr]
  · split
    · exact .inr (.inr ⟨_, _, _, rfl, hv⟩)
    · next hm => exact .inl ⟨_, rfl, hv, countHolds_next h hlt hm rfl rfl⟩
  · exact .inr (.inl ⟨_, rfl, rfl, h⟩)
  · exact .inr (.inr ⟨_, _, _, rfl, hv⟩)

/-- R28's invariant needs no more than R28 itself outside COUNT's loop. -/
theorem freqInvariant_of {s : State} (h : s.freqV = true → countHolds s)
    (hout : ∀ cmd, s.seq = .running cmd .count → s.phase = .enter) : freqInvariant s :=
  ⟨h, fun cmd hq hp => absurd (hout cmd hq) hp⟩

/-- The end of a stage stands before the next stage, or in an idle HUFFC. -/
theorem stageEnded_freqInvariant {cmd stage : Instr} {s : State} (h : s.freqV = true → countHolds s) :
    freqInvariant (stageEnded cmd stage s) := by
  unfold stageEnded
  split
  · exact freqInvariant_of h fun _ _ => rfl
  · exact freqInvariant_of h fun _ hq => by cases hq

/-- A pass of a stage other than COUNT keeps R28. -/
theorem settle_freqInvariant {cmd stage : Instr} {r : StageResult} (hst : stage ≠ .count)
    (hq : r.state.seq = .running cmd stage) (h : r.state.freqV = true → countHolds r.state) :
    freqInvariant (settle cmd stage r) := by
  have other : ∀ t : State, t.seq = .running cmd stage → ∀ c, t.seq = .running c .count → t.phase = .enter := by
    intro t ht c hc
    rw [ht] at hc
    cases hc
    exact absurd rfl hst
  cases r with
  | more v => exact freqInvariant_of h (other v hq)
  | done v =>
    simp only [settle]
    split
    · exact stageEnded_freqInvariant h
    · exact freqInvariant_of h (other _ hq)
  | raise e info v => exact freqInvariant_of h fun _ hq => by cases hq

/-- The entry of COUNT starts a count of no byte. -/
theorem countEnter_holds (s : State) : ∃ u, countEnter s = .more u ∧ u.freqV = false ∧ countHolds u :=
  ⟨_, rfl, rfl, countHolds_freqOf (bytes := []) (by simp) freqOf_nil.symm rfl⟩

/-- COUNT's own step before its loop, in its loop, and after it. -/
theorem stageStep_count_cases (s : State) :
    (s.phase = .enter ∧ stageStep .count s = countEnter s) ∨
    (s.phase ≠ .enter ∧ (stageStep .count s = countIter s ∨ stageStep .count s = .done s)) := by
  cases hp : s.phase <;> simp [stageStep, hp]

/-- A pass of COUNT keeps R28 and its loop's invariant. -/
theorem settle_count_freqInvariant {cmd : Instr} {s : State} (hu : s.unsent = [])
    (h : freqInvariant s) (hq : s.seq = .running cmd .count) :
    freqInvariant (settle cmd .count (stageStep .count s)) := by
  obtain ⟨-, hloop⟩ := h
  rcases stageStep_count_cases s with ⟨-, hs⟩ | ⟨hp, hs | hs⟩ <;> rw [hs]
  · obtain ⟨u, hr, hv, hc⟩ := countEnter_holds s
    rw [hr]
    exact ⟨fun _ => hc, fun _ _ _ => ⟨hv, hc⟩⟩
  · obtain ⟨hv, hc⟩ := hloop cmd hq hp
    rcases countIter_holds hv hc with ⟨u, hr, hv', hc'⟩ | ⟨u, hr, hu', hc'⟩ | ⟨e, info, u, hr, hv'⟩ <;> rw [hr]
    · exact ⟨fun _ => hc', fun _ _ _ => ⟨hv', hc'⟩⟩
    · simp only [settle, hu', hu, if_true]
      exact stageEnded_freqInvariant fun _ => hc'
    · exact freqInvariant_of (fun hv => by rw [settle, raiseError_freqV, hv'] at hv; cases hv) fun _ hq => by cases hq
  · simp only [settle, hu, if_true]
    exact stageEnded_freqInvariant fun _ => (hloop cmd hq hp).2

/-- CLEAR's only pass is its body (R75), unless the stage has ended. -/
theorem stageStep_clear_cases (s : State) :
    stageStep .clear s = .done s ∨ stageStep .clear s = .done (clearBody s) := by
  cases hp : s.phase <;> simp [stageStep, hp]

/-- A step of the sequencer keeps R28 and the invariant of COUNT's loop. -/
theorem microStep_freqInvariant {s : State} (hb : s.busy = true) (h : freqInvariant s) : freqInvariant (microStep s) := by
  rcases microStep_cases hb with ⟨-, hm⟩ | ⟨cmd, stage, hq, ⟨b, rest, -, hm⟩ | ⟨hu, hm⟩⟩ <;> rw [hm]
  · exact freqInvariant_of h.1 fun _ hq => by cases hq
  · exact h
  · by_cases hst : stage = .count
    · subst hst
      exact settle_count_freqInvariant hu h hq
    · have hq' := (stageStep_same stage s).1.trans hq
      refine settle_freqInvariant hst hq' fun hv => ?_
      by_cases hcl : stage = .clear
      · subst hcl
        rcases stageStep_clear_cases s with hr | hr <;> rw [hr] at hv ⊢
        · exact h.1 hv
        · cases hv
      · obtain ⟨hv', hf, hc⟩ := stageStep_sameFreq hst hcl s
        exact (countHolds_congr hf hc).2 (h.1 (hv' ▸ hv))

/-- R28 survives everything a step is made of. -/
theorem freqInvariant_survives : Survives freqInvariant where
  micro _ h hb := microStep_freqInvariant hb h
  accepts _ _ h _ := freqInvariant_of h.1 fun _ _ => rfl
  env _ _ _ _ _ h := h
  overruns _ h := h
  illegal _ _ h _ _ := freqInvariant_of h.1 fun _ _ => rfl
  resets _ _ := freqInvariant_of (fun hv => by cases hv) fun _ _ => rfl
  irqEn _ _ h := h
  irqStat _ _ h := h
  magic s v h := by
    unfold writeMagic
    split
    · exact h
    · exact h
  attaches _ _ h _ _ := h
  takes _ h _ := h

end Sys2Proof.Machine

namespace Sys2Proof.Proofs
open Sys2Proof.Machine

/-- Settles O56: the invariant survives each part of a step, COUNT's loop by one byte more. -/
theorem freqInvariantKept : Obligations.FreqInvariantKept :=
  fun _ _ h hst => step_survives freqInvariant_survives h hst

end Sys2Proof.Proofs
end

section
/-! SUPPORT. The current tree through every step (R30): the loops of BUILD and DESERIALIZE, and what the end of a pass makes of
their invariants. And the three invariants after reset. -/

namespace Sys2Proof.Machine

/-- Outside the two loops that make a tree, R30's invariant is R30. -/
theorem treeInvariant_of {s : State} (h : s.treeV = true → treeHolds s)
    (hbuild : ∀ cmd L n, s.seq = .running cmd .build → s.phase ≠ .merge L n)
    (hread : ∀ cmd, s.seq = .running cmd .deserialize → s.phase = .enter) : treeInvariant s :=
  ⟨h, fun cmd L n hq hp => absurd hp (hbuild cmd L n hq), fun cmd hq hp => absurd (hread cmd hq) hp⟩

/-- The end of a stage stands before the next stage, or in an idle HUFFC. -/
theorem stageEnded_treeInvariant {cmd stage : Instr} {s : State} (h : s.treeV = true → treeHolds s) :
    treeInvariant (stageEnded cmd stage s) := by
  unfold stageEnded
  split
  · exact treeInvariant_of h (fun _ _ _ _ hp => by cases hp) fun _ _ => rfl
  · exact treeInvariant_of h (fun _ _ _ hq => by cases hq) fun _ hq => by cases hq

theorem raise_treeInvariant {e : ErrCode} {info : Word} {s : State} (h : s.treeV = true → treeHolds s) :
    treeInvariant (raiseError e info s) :=
  treeInvariant_of h (fun _ _ _ hq => by cases hq) fun _ hq => by cases hq

/-- A pass of a stage other than the two that make a tree keeps R30. -/
theorem settle_treeInvariant {cmd stage : Instr} {r : StageResult} (hb : stage ≠ .build) (hd : stage ≠ .deserialize)
    (hq : r.state.seq = .running cmd stage) (h : r.state.treeV = true → treeHolds r.state) :
    treeInvariant (settle cmd stage r) := by
  have other : ∀ t : State, t.seq = .running cmd stage → (t.treeV = true → treeHolds t) → treeInvariant t := by
    intro t ht hT
    refine treeInvariant_of hT (fun c _ _ hc => ?_) fun c hc => ?_ <;> rw [ht] at hc <;> cases hc
    · exact absurd rfl hb
    · exact absurd rfl hd
  cases r with
  | more v => exact other v hq h
  | done v =>
    simp only [settle]
    split
    · exact stageEnded_treeInvariant h
    · exact other _ hq h
  | raise e info v => exact raise_treeInvariant h

/-- BUILD's own step before its loop, in its loop, and after it. -/
theorem stageStep_build_cases (s : State) :
    (∃ L n, s.phase = .merge L n ∧ stageStep .build s = buildIter L n s) ∨
    stageStep .build s = buildEnter s ∨ stageStep .build s = .done s := by
  cases hp : s.phase <;> simp [stageStep, hp]

/-- BUILD's entry raises and changes nothing, or starts its loop over a forest of leaves. -/
theorem buildEnter_holds {s : State} (h : s.freqV = true → countHolds s) :
    (∃ e info, buildEnter s = .raise e info s) ∨
    ∃ u L, buildEnter s = .more u ∧ u.seq = s.seq ∧ u.treeV = false ∧ u.phase = .merge L L ∧ forestHolds L L u := by
  unfold buildEnter
  cases hv : s.freqV with
  | false =>
    have hp : precondition .build s = some .eSeq := if_neg (by simp [hv])
    exact .inl ⟨.eSeq, _, by simp only [checked, hp]; rfl⟩
  | true =>
    have hp : precondition .build s = none := if_pos hv
    simp only [checked, hp]
    exact .inr ⟨_, (buildSymbols s).length, rfl, rfl, rfl, rfl, forest_start (h hv) rfl rfl⟩

/-- In BUILD's loop a state is what its invariant says, and stands in no other loop. -/
theorem treeInvariant_merge {cmd : Instr} {s : State} {L n : Nat} (hq : s.seq = .running cmd .build) (hv : s.treeV = false)
    (hp : s.phase = .merge L n) (hF : forestHolds L n s) : treeInvariant s := by
  refine ⟨fun hv' => absurd hv' (Bool.eq_false_iff.1 hv), fun c L' n' _ hp' => ?_, fun c hc => ?_⟩
  case refine_2 =>
    rw [hq] at hc
    cases hc
  rw [hp] at hp'
  cases hp'
  exact ⟨hv, hF⟩

/-- A stage of BUILD that has ended keeps R30. -/
theorem settle_build_done {cmd : Instr} {s : State} (hq : s.seq = .running cmd .build) (h : s.treeV = true → treeHolds s) :
    treeInvariant (settle cmd .build (.done s)) := by
  simp only [settle]
  split
  · exact stageEnded_treeInvariant h
  · exact treeInvariant_of h (fun _ _ _ _ hp => by cases hp) fun c hc => by
      rw [show s.seq = _ from hc] at hq
      cases hq

/-- A pass of BUILD keeps R30 and its loop's invariant. -/
theorem settle_build_treeInvariant {cmd : Instr} {s : State} (hq : s.seq = .running cmd .build)
    (hf : s.freqV = true → countHolds s) (h : treeInvariant s) :
    treeInvariant (settle cmd .build (stageStep .build s)) := by
  obtain ⟨hT, hloop, -⟩ := h
  rcases stageStep_build_cases s with ⟨L, n, hp, hs⟩ | hs | hs <;> rw [hs]
  · obtain ⟨hv, hF⟩ := hloop cmd L n hq hp
    have hsame := (buildIter_same L n s).1.trans hq
    rcases forest_iter hF with ⟨u, hr, hv', hp', hF'⟩ | ⟨u, hr, hT'⟩ <;> rw [hr] at hsame ⊢
    · exact treeInvariant_merge hsame (hv'.trans hv) hp' hF'
    · exact settle_build_done hsame fun _ => hT'
  · rcases buildEnter_holds hf with ⟨e, info, hr⟩ | ⟨u, L, hr, hq', hv, hp, hF⟩ <;> rw [hr]
    · exact raise_treeInvariant hT
    · exact treeInvariant_merge (hq'.trans hq) hv hp hF
  · exact settle_build_done hq hT

/-- A leaf field's pass writes no bits. -/
theorem deserializeField_unsent (i : BitVec Config.idxW) (s : State) : (deserializeField i s).state.unsent = s.unsent := by
  unfold deserializeField deserializeLeaf
  dsimp only
  repeat' split
  all_goals rfl

/-- In DESERIALIZE's loop a state is what its invariant says, and stands in no other loop. -/
theorem treeInvariant_reading {cmd : Instr} {s : State} (hq : s.seq = .running cmd .deserialize) (hv : s.treeV = false)
    (hn : s.nodeCount.toNat ≤ Config.nodeCap) (hr : (s.phase = .body ∧ readingHolds s s.nodeCount.toNat) ∨
      ∃ i, s.phase = .field i ∧ s.nodeCount.toNat = i.toNat + 1 ∧ readingHolds s i.toNat) : treeInvariant s := by
  refine ⟨fun hv' => absurd hv' (Bool.eq_false_iff.1 hv), fun c _ _ hc => ?_, fun _ _ _ => ⟨hv, hn, hr⟩⟩
  rw [hq] at hc
  cases hc

/-- A pass of DESERIALIZE keeps R30 and its loop's invariant. -/
theorem settle_deserialize_treeInvariant {cmd : Instr} {s : State} (hq : s.seq = .running cmd .deserialize)
    (hu : s.unsent = []) (h : treeInvariant s) :
    treeInvariant (settle cmd .deserialize (stageStep .deserialize s)) := by
  obtain ⟨-, -, hloop⟩ := h
  have hsame := (stageStep_same .deserialize s).1.trans hq
  by_cases hp : s.phase = .enter
  · have hs : stageStep .deserialize s = deserializeEnter s := by simp [stageStep, hp]
    rw [hs]
    exact treeInvariant_reading hq rfl (Nat.zero_le _) (.inl ⟨rfl, .inl ⟨rfl, rfl⟩⟩)
  · obtain ⟨hv, hn, ⟨hp', hr⟩ | ⟨i, hp', hi, hr⟩⟩ := hloop cmd hq hp
    · rw [stageStep_deserialize_body hp'] at hsame ⊢
      rcases reading_iter hv hn hp' hr with ⟨u, hs, hv', hn', hr'⟩ | ⟨e, info, u, hs, hv'⟩ <;> rw [hs] at hsame ⊢
      · exact treeInvariant_reading hsame hv' hn' hr'
      · exact raise_treeInvariant fun hv => absurd hv (Bool.eq_false_iff.1 hv')
    · have hunsent := (deserializeField_unsent i s).trans hu
      rw [stageStep_deserialize_field hp'] at hsame ⊢
      rcases reading_field hv hn hi hr with ⟨u, hs, hv', hn', hp'', hr'⟩ | ⟨u, hs, hT⟩ | ⟨e, info, u, hs, hv'⟩ <;>
        rw [hs] at hsame hunsent ⊢
      · exact treeInvariant_reading hsame hv' hn' (.inl ⟨hp'', hr'⟩)
      · rw [settle_done (t := u) hunsent]
        exact stageEnded_treeInvariant fun _ => hT
      · exact raise_treeInvariant fun hv => absurd hv (Bool.eq_false_iff.1 hv')

/-- A step of the sequencer keeps R30 and the invariants of the two loops, where it finds R28 (R81). -/
theorem microStep_treeInvariant {s : State} (hb : s.busy = true) (hf : freqInvariant s) (h : treeInvariant s) :
    treeInvariant (microStep s) := by
  rcases microStep_cases hb with ⟨-, hm⟩ | ⟨cmd, stage, hq, ⟨b, rest, -, hm⟩ | ⟨hu, hm⟩⟩ <;> rw [hm]
  · exact raise_treeInvariant h.1
  · exact h
  · by_cases hbuild : stage = .build
    · subst hbuild
      exact settle_build_treeInvariant hq hf.1 h
    by_cases hread : stage = .deserialize
    · subst hread
      exact settle_deserialize_treeInvariant hq hu h
    refine settle_treeInvariant hbuild hread ((stageStep_same stage s).1.trans hq) fun hv => ?_
    by_cases hclear : stage = .clear
    · subst hclear
      rcases stageStep_clear_cases s with hr | hr <;> rw [hr] at hv ⊢
      · exact h.1 hv
      · cases hv
    · have hsame := sameTree_stage hbuild hread hclear s
      have hv' : s.treeV = true := hsame.2.2.2.2.2 ▸ hv
      exact (sameTree_holds hsame).1 (h.1 hv')

/-- R28 and R30 together survive everything a step is made of. -/
theorem treeInvariant_survives : Survives fun s => freqInvariant s ∧ treeInvariant s where
  micro _ h hb := ⟨microStep_freqInvariant hb h.1, microStep_treeInvariant hb h.1 h.2⟩
  accepts s i h hb := ⟨freqInvariant_survives.accepts s i h.1 hb,
    treeInvariant_of h.2.1 (fun _ _ _ _ hp => by cases hp) fun _ _ => rfl⟩
  env _ _ _ _ _ h := h
  overruns _ h := h
  illegal s w h hb hw := ⟨freqInvariant_survives.illegal s w h.1 hb hw,
    treeInvariant_of h.2.1 (fun _ _ _ hq => by cases hq) fun _ hq => by cases hq⟩
  resets s h := ⟨freqInvariant_survives.resets s h.1,
    treeInvariant_of (fun hv => by cases hv) (fun _ _ _ hq => by cases hq) fun _ hq => by cases hq⟩
  irqEn _ _ h := h
  irqStat _ _ h := h
  magic s v h := by
    unfold writeMagic
    split
    · exact h
    · exact h
  attaches _ _ h _ _ := h
  takes _ h _ := h

/-- After reset no count and no tree is valid, and nothing runs (R37). -/
theorem reset_invariants : freqInvariant State.reset ∧ treeInvariant State.reset :=
  ⟨freqInvariant_of nofun nofun, treeInvariant_of nofun nofun nofun⟩

end Sys2Proof.Machine

namespace Sys2Proof.Proofs
open Sys2Proof.Machine

/-- Settles O57: with R28, the invariant survives each part of a step, the two loops by what each pass makes of the tree so
far. -/
theorem treeInvariantKept : Obligations.TreeInvariantKept :=
  fun _ _ hf hT hst => (step_survives treeInvariant_survives ⟨hf, hT⟩ hst).2

/-- Settles O58: after reset the memories are empty, HUFFC is idle, and no flag is set. -/
theorem invariantsAtReset : Obligations.InvariantsAtReset :=
  ⟨wellShaped_iff.2 ⟨reset_kept, Nat.zero_le _, rfl⟩, reset_invariants⟩

end Sys2Proof.Proofs
end

section
/-! SUPPORT. COUNT, ENCBODY and DECBODY undisturbed: the checks of their entries, the count and its two errors (R71, R77, R78). -/

namespace Sys2Proof.Machine

/-- An accepted ENCBODY starts with the checks of its entry (R71, R94). -/
theorem stageStep_encbody_accept (s : State) :
    stageStep .encbody (accept .encbody s) = encbodyEnter (accept .encbody s) := rfl

/-- ENCBODY without a code table (R71). -/
theorem exec_encbody_seq {s : State} (h : Ready s) (hv : s.codeV = false) :
    exec .encbody s = .next (failed .encbody .eSeq 0x15#32 s) :=
  exec_raise_of_precondition h (stageStep_encbody_accept s) (by simp [precondition, hv])

/-- ENCBODY with the output closed (R71). -/
theorem exec_encbody_closed {s : State} (h : Ready s) (hv : s.codeV = true) (ho : s.out.isOpen = false) :
    exec .encbody s = .next (failed .encbody .eOutClosed 0x15#32 s) :=
  exec_raise_of_precondition h (stageStep_encbody_accept s) (by simp [precondition, hv, ho])

/-- An accepted DECBODY starts with the checks of its entry (R71, R98). -/
theorem stageStep_decbody_accept (s : State) :
    stageStep .decbody (accept .decbody s) = decbodyEnter (accept .decbody s) := rfl

/-- DECBODY without a tree (R71). -/
theorem exec_decbody_seq {s : State} (h : Ready s) (hv : s.treeV = false) :
    exec .decbody s = .next (failed .decbody .eSeq 0x22#32 s) :=
  exec_raise_of_precondition h (stageStep_decbody_accept s) (by simp [precondition, hv])

/-- DECBODY with the output closed (R71). -/
theorem exec_decbody_closed {s : State} (h : Ready s) (hv : s.treeV = true) (ho : s.out.isOpen = false) :
    exec .decbody s = .next (failed .decbody .eOutClosed 0x22#32 s) :=
  exec_raise_of_precondition h (stageStep_decbody_accept s) (by simp [precondition, hv, ho])

/-- A source that does not fail answers no at every read (R48). -/
theorem sourceOk_getD {s : State} (h : SourceOk s) (j : Nat) : s.inp.ioDraws.getD j false = false := by
  rw [List.getD_eq_getElem?_getD]
  cases hj : s.inp.ioDraws[j]? with
  | none => rfl
  | some b => exact h b (List.mem_of_getElem? hj)

/-- COUNT over at most MAX_IN bytes none of whose reads fails, undisturbed (R72, R77). -/
theorem exec_count_ready {s : State} (h : Ready s) (hl : s.inp.data.length ≤ 2 ^ 32 - 2)
    (hd : ∀ j ≤ s.inp.data.length, s.inp.ioDraws.getD j false = false) :
    exec .count s = .next { completed .count s with
      freqV := true, freq := freqOf s.inp.data, inCount := BitVec.ofNat 32 s.inp.data.length
      inp := ⟨s.inp.data, BitVec.ofNat 40 (8 * s.inp.data.length), s.inp.ioDraws.drop (s.inp.data.length + 1)⟩ } := by
  have hrun := count_stage (accept .count s) rfl rfl hl hd
  rw [exec_eq_command, command_done h rfl (by rw [accept_inp]; omega) hrun]
  rfl

/-- COUNT whose first failing read is number `k`, undisturbed (R77, R108). -/
theorem exec_count_io {s : State} {k : Nat} (h : Ready s) (hk : k ≤ s.inp.data.length) (hm : k ≤ 2 ^ 32 - 2)
    (hd : ∀ j < k, s.inp.ioDraws.getD j false = false) (hi : s.inp.ioDraws.getD k false = true) :
    exec .count s = .next { failed .count .eFmtIo 0#32 s with
      freqV := false, freq := freqOf (s.inp.data.take k), inCount := BitVec.ofNat 32 k
      inp := ⟨s.inp.data, BitVec.ofNat 40 (8 * k), s.inp.ioDraws.drop (k + 1)⟩ } := by
  have hrun := count_stage_io (accept .count s) k rfl rfl hk hm hd hi
  rw [exec_eq_command, command_raise h (by omega) hrun]
  rfl

/-- COUNT over more than MAX_IN bytes, undisturbed (R78). -/
theorem exec_count_overflow {s : State} (h : Ready s) (hd : ∀ j ≤ 2 ^ 32 - 2, s.inp.ioDraws.getD j false = false)
    (hl : 2 ^ 32 - 2 < s.inp.data.length) :
    exec .count s = .next { failed .count .eOverflow 0xFFFFFFFE#32 s with
      freqV := false, freq := freqOf (s.inp.data.take (2 ^ 32 - 2)), inCount := 0xFFFFFFFE#32
      inp := ⟨s.inp.data, BitVec.ofNat 40 (8 * (2 ^ 32 - 1)), s.inp.ioDraws.drop (2 ^ 32 - 1)⟩ } := by
  have hrun := count_stage_overflow (accept .count s) rfl rfl hl hd
  rw [exec_eq_command, command_raise h (by omega) hrun]
  rfl

end Sys2Proof.Machine

namespace Sys2Proof.Proofs
open Sys2Proof.Machine

/-- Settles O9: each of the seven stages starts with its checks, in the order R71 gives. -/
theorem stagePreconditions : Obligations.StagePreconditions := fun _ h =>
  ⟨exec_build_seq h, exec_gencode_seq h, exec_serialize_seq h, exec_serialize_closed h, exec_encbody_seq h,
    exec_encbody_closed h, exec_decbody_seq h, exec_decbody_closed h, exec_wrmagic_closed h, exec_close_closed h⟩

/-- Settles O10: COUNT's loop passes over each byte of the input once and ends at the end of it. -/
theorem countCompletes : Obligations.CountCompletes :=
  fun _ h hs hl => exec_count_ready h hl fun j _ => sourceOk_getD hs j

/-- Settles O11: COUNT's loop passes over the bytes before the failing read, or over MAX_IN of them. -/
theorem countFailures : Obligations.CountFailures :=
  ⟨fun _ _ h hk hm hd hi => exec_count_io h hk hm hd hi, fun _ h hd hl => exec_count_overflow h hd hl⟩

end Sys2Proof.Proofs
end

section
/-! SUPPORT. The tree BUILD leaves, record by record (R82 to R84, R30): which records are internal, what they weigh, and their
one parent. -/

namespace Sys2Proof.Machine

section
variable {s : State} {S : List Nat} {t : Table NodeRec} {heap : List Nat} {n : Nat}

/-- The records behind the leaves are the internal ones. -/
theorem Forest.internal_iff (F : Forest s S t heap n) {m : Nat} (hm : m < n) :
    (nodeIn t m).leaf = false ↔ S.length ≤ m := by
  constructor
  · intro h
    by_contra hlt
    rw [F.leaves m (by omega)] at h
    cases h
  · intro h
    obtain ⟨a, b, -, -, -, hrec, -⟩ := F.inner m h hm
    rw [hrec]

/-- An internal record weighs, as a number, what its children weigh together (R84). -/
theorem Forest.weight_add (F : Forest s S t heap n) (hn : n ≤ 1024) {m : Nat} (hm : m < n) (hi : (nodeIn t m).leaf = false) :
    (nodeIn t m).weight.toNat =
      (nodeIn t (nodeIn t m).left.toNat).weight.toNat + (nodeIn t (nodeIn t m).right.toNat).weight.toNat := by
  obtain ⟨a, b, ha, hb, -, hrec, hw⟩ := F.inner m ((F.internal_iff hm).1 hi) hm
  have hleft : (nodeIn t m).left.toNat = a := by
    rw [hrec]; exact toNat_recordIndex (by omega)
  have hright : (nodeIn t m).right.toNat = b := by
    rw [hrec]; exact toNat_recordIndex (by omega)
  rw [hw, hleft, hright]

/-- The root of a forest of one tree weighs what the symbols count together (R84). -/
theorem Forest.root_weight {r : Nat} (F : Forest s S t [r] n) :
    (nodeIn t r).weight.toNat = (S.map fun v => (freqAt s v).toNat).sum := by
  obtain ⟨G, hG, hperm⟩ := F.trees
  rw [List.flatMap_singleton] at hperm
  rw [(hG r (F.below r (List.mem_singleton_self r))).2]
  exact (hperm.map _).sum_eq

/-- In a forest of one tree each record but the root has exactly one parent (R30). -/
theorem Forest.one_parent {r : Nat} (F : Forest s S t [r] n) {j : Nat} (hj : j < n) (hr : j ≠ r) :
    ∃ m, (m < n ∧ (nodeIn t m).leaf = false ∧ isChild t m j) ∧
      ∀ m', m' < n → (nodeIn t m').leaf = false → isChild t m' j → m' = m := by
  rcases F.cover j hj with hmem | ⟨m, hLm, hmn, hc⟩
  · exact absurd (List.mem_singleton.1 hmem) hr
  · exact ⟨m, ⟨hmn, (F.internal_iff hmn).2 hLm, hc⟩,
      fun m' hm' hi hc' => F.once m' m j ((F.internal_iff hm').1 hi) hm' hLm hmn hc' hc⟩

end

/-- The symbols of a count: each once, counted IN_COUNT + 1 together (R81). -/
theorem symbolList_of_countHolds {s : State} (h : countHolds s) :
    (symbolList s).Nodup ∧ (∀ v ∈ symbolList s, v ≤ 256) ∧ 256 ∈ symbolList s ∧
      ((symbolList s).map fun v => (freqAt s v).toNat).sum = s.inCount.toNat + 1 := by
  obtain ⟨-, -, hle, hnd, hmem, hsum⟩ := buildSymbols_of_countHolds h
  rw [symbolList_eq_buildSymbols]
  exact ⟨hnd, hle, hmem, hsum⟩

/-- The registers of a tree of `L` leaves as numbers (R23). -/
theorem treeRegisters_toNat {L : Nat} (hL : L ≤ 257) :
    (BitVec.ofNat 10 (2 * L - 2)).toNat = 2 * L - 2 ∧ (BitVec.ofNat 10 (2 * L - 1)).toNat = 2 * L - 1 ∧
      (BitVec.ofNat 9 L).toNat = L :=
  ⟨toNat_recordIndex (by omega), toNat_recordIndex (by omega), (BitVec.toNat_ofNat L 9).trans (Nat.mod_eq_of_lt (by omega))⟩

/-- The count of the empty input counts no byte (R82). -/
theorem freqAt_of_empty {s : State} (h : countHolds s) (h0 : s.inCount = 0#32) {v : Nat} (hv : v < 256) :
    freqAt s v = 0#32 := by
  obtain ⟨-, hsent, htot, -⟩ := h
  have hsplit : freqTotal s = ((List.range 256).map fun i => (freqAt s i).toNat).sum + (freqAt s 256).toNat := by
    rw [freqTotal, show Config.nsym = 256 + 1 from rfl, List.range_succ, List.map_append, List.sum_append]
    rfl
  have hone : (freqAt s 256).toNat = 1 := congrArg BitVec.toNat hsent
  have hzero : s.inCount.toNat = 0 := congrArg BitVec.toNat h0
  have hle : (freqAt s v).toNat ≤ ((List.range 256).map fun i => (freqAt s i).toNat).sum :=
    List.le_sum_of_mem (List.mem_map.2 ⟨v, List.mem_range.2 hv, rfl⟩)
  exact BitVec.eq_of_toNat_eq (show (freqAt s v).toNat = 0 by omega)

/-- BUILD takes AUG_SYMBOL and the sentinel from the count of the empty input (R82). -/
theorem symbolList_of_empty {s : State} (h : countHolds s) (h0 : s.inCount = 0#32) : symbolList s = [0, 256] := by
  have hsent : freqAt s 256 = 1#32 := h.2.1
  have hcounted : ((List.range Config.nsym).filter fun v => decide (0 < (freqAt s v).toNat)) = [256] := by
    rw [show Config.nsym = 256 + 1 from rfl, List.range_succ, List.filter_append,
      List.filter_eq_nil_iff.2 fun v hv => by simp [freqAt_of_empty h h0 (List.mem_range.1 hv)]]
    simp [hsent]
  simp only [symbolList, hcounted]
  rfl

/-- The forest of one tree over a leaf of weight 0 and a leaf of weight 1: the leaves, and the record over them (R82). -/
theorem Forest.of_empty {s : State} {t : Table NodeRec} (F : Forest s [0, 256] t [2] 3) (h0 : freqAt s 0 = 0#32)
    (h1 : freqAt s 256 = 1#32) :
    nodeIn t 0 = ⟨true, 0#9, 0#32, 0#10, 0#10⟩ ∧ nodeIn t 1 = ⟨true, 256#9, 1#32, 0#10, 0#10⟩ ∧
      nodeIn t 2 = ⟨false, 0#9, 1#32, 0#10, 1#10⟩ := by
  have hn0 : nodeIn t 0 = ⟨true, 0#9, 0#32, 0#10, 0#10⟩ := by
    rw [F.leaves 0 (by decide), ← h0]; rfl
  have hn1 : nodeIn t 1 = ⟨true, 256#9, 1#32, 0#10, 0#10⟩ := by
    rw [F.leaves 1 (by decide), ← h1]; rfl
  obtain ⟨a, b, ha, hb, hab, hrec, -⟩ := F.inner 2 (by decide) (by decide)
  have hne := keyLt_ne hab
  have hleast : a = 0 ∧ b = 1 := by
    rcases (show a = 0 ∧ b = 1 ∨ a = 1 ∧ b = 0 by omega) with h | ⟨rfl, rfl⟩
    · exact h
    · rw [keyLt_iff, hn0, hn1] at hab
      revert hab
      decide
  obtain ⟨rfl, rfl⟩ := hleast
  exact ⟨hn0, hn1, by rw [hrec, hn0, hn1]; rfl⟩

end Sys2Proof.Machine

namespace Sys2Proof.Proofs
open Sys2Proof.Machine

/-- Settles O13: the forest BUILD's loop leaves is one tree, whose records' weights and parents the loop kept right. -/
theorem buildTreeProperties : Obligations.BuildTreeProperties := by
  intro s h hv hc
  obtain ⟨h2, hL⟩ := symbolList_length_bounds hc
  obtain ⟨hnd, -, -, hsum⟩ := symbolList_of_countHolds hc
  obtain ⟨hroot, hnodes, hleaves⟩ := treeRegisters_toNat hL
  obtain ⟨t, hF, -, hrun⟩ := exec_build_ready h hv hc
  obtain ⟨l, r, hT, hperm, hsize⟩ := hF.tree h2
  refine ⟨_, l, r, hrun, ?_⟩
  simp only [nodeAt, hroot, hnodes, hleaves]
  exact ⟨hT, hperm, hperm.nodup_iff.2 hnd, hsize, by omega, fun m hm hi => hF.weight_add (by omega) hm hi,
    hF.root_weight.trans hsum, fun j hj hr => hF.one_parent hj hr⟩

/-- Settles O14: the symbols taken are AUG_SYMBOL and the sentinel, and the one merge puts the lighter leaf left. -/
theorem buildEmptyInput : Obligations.BuildEmptyInput := by
  intro s h hv hc h0
  obtain ⟨t, hF, -, hrun⟩ := exec_build_ready h hv hc
  rw [symbolList_of_empty hc h0] at hF hrun
  obtain ⟨hn0, hn1, hn2⟩ := hF.of_empty (freqAt_of_empty hc h0 (by decide)) hc.2.1
  exact ⟨_, hrun, rfl, rfl, rfl, hn0, hn1, hn2, rfl⟩

end Sys2Proof.Proofs
end

section
/-! SUPPORT. The codes a tree gives its symbols (R86, R87), and ENCBODY undisturbed: the body it writes, and where a byte or the
sentinel has no code (R94). -/

namespace Sys2Proof.Machine

/-- The code of a symbol with a leaf below an internal root, in a tree that fits: its path, of 1 to 256 bits, which its entry
holds whole (R86, R87). -/
theorem code_of_mem {l r : HTree} {v : Nat} (hz : (HTree.node l r).size ≤ 513) (hv : v ∈ (HTree.node l r).syms) :
    ∃ c, (HTree.node l r).code v = some c ∧ (v, c) ∈ (HTree.node l r).paths ∧ 1 ≤ c.length ∧ c.length ≤ 256 := by
  obtain ⟨c, hc⟩ := HTree.code_isSome hv
  obtain ⟨hmem, hne⟩ := HTree.code_mem hc
  exact ⟨c, hc, hmem, List.length_pos_iff.2 hne,
    (HTree.paths_length_le _ _ hmem).trans (HTree.depth_le _ hz)⟩

/-- A symbol with no leaf has no code (R88). -/
theorem code_of_not_mem {T : HTree} {v : Nat} (hv : v ∉ T.syms) : T.code v = none := by
  cases hc : T.code v with
  | none => rfl
  | some c =>
    rw [← HTree.paths_fst] at hv
    exact absurd (List.mem_map.2 ⟨_, (HTree.code_mem hc).1, rfl⟩) hv

/-- LEN of a code's entry is the code's length (R31). -/
theorem entryOf_len {c : List Bool} (h : c.length ≤ 256) : (entryOf (some c)).len.toNat = c.length :=
  (BitVec.toNat_ofNat _ _).trans (Nat.mod_eq_of_lt (by omega))

/-- The entry of a symbol in the code table of a tree that fits, below an internal root: none exactly where it has no leaf,
else the whole path of its leaf (R85 to R88). -/
theorem entry_cases {l r : HTree} (hz : (HTree.node l r).size ≤ 513) (v : Nat) :
    (v ∉ (HTree.node l r).syms ∧ (entryOf ((HTree.node l r).code v)).len = 0#9) ∨
    (v ∈ (HTree.node l r).syms ∧ ∃ c, codeBits (entryOf ((HTree.node l r).code v)) = c ∧ (v, c) ∈ (HTree.node l r).paths ∧
      (entryOf ((HTree.node l r).code v)).len ≠ 0#9 ∧ 1 ≤ (entryOf ((HTree.node l r).code v)).len.toNat ∧
      (entryOf ((HTree.node l r).code v)).len.toNat ≤ 256) := by
  by_cases hv : v ∈ (HTree.node l r).syms
  · obtain ⟨c, hc, hmem, h1, h256⟩ := code_of_mem hz hv
    have hlen := entryOf_len h256
    rw [hc]
    refine .inr ⟨hv, c, codeBits_entryOf c h256, hmem, fun h0 => ?_, by omega, by omega⟩
    rw [h0, BitVec.toNat_zero] at hlen
    omega
  · exact .inl ⟨hv, by rw [code_of_not_mem hv]; rfl⟩

/-- CODE[v] where the table lists it. -/
theorem codeAt_of_tableGet {t : State} {v : Nat} {c : CodeEntry} (h : tableGet t.code v = some c) : codeAt t v = c := by
  rw [codeAt, h]
  rfl

/-- ENCBODY over an input each of whose bytes has a code, as the sentinel has, undisturbed: the body goes to the output
(R72, R94). -/
theorem exec_encbody_ready {s : State} (h : Ready s) (hf : InputFits s) (hv : s.codeV = true) (ho : s.out.isOpen = true)
    (hd : ∀ j ≤ s.inp.data.length, s.inp.ioDraws.getD j false = false)
    (hc : ∀ b ∈ s.inp.data, (codeAt s b.toNat).len ≠ 0#9) (he : (codeAt s 256).len ≠ 0#9) :
    exec .encbody s = .next { completed .encbody s with
      out := s.out.push (bodyBits (fun v => codeBits (codeAt s v)) s.inp.data)
      inp := ⟨s.inp.data, BitVec.ofNat 40 (8 * s.inp.data.length), s.inp.ioDraws.drop (s.inp.data.length + 1)⟩ } := by
  have hrun := encbody_stage (accept .encbody s) rfl rfl hv ho hf hd hc he
  rw [exec_eq_command, command_done h rfl (by rw [accept_inp]; omega) hrun]
  rfl

/-- ENCBODY where the pass after the first `k` bytes raises, undisturbed: the codes of those bytes stay written (R94, R107). -/
theorem exec_encbody_raise {s : State} {k : Nat} {e : ErrCode} {info : Word} {p : InPort} (h : Ready s) (hf : InputFits s)
    (hv : s.codeV = true) (ho : s.out.isOpen = true) (hk : k ≤ s.inp.data.length)
    (hd : ∀ j < k, s.inp.ioDraws.getD j false = false) (hc : ∀ b ∈ s.inp.data.take k, (codeAt s b.toNat).len ≠ 0#9)
    (hr : passStep .encbody (bodyState (accept .encbody s) k) =
      .raise e info { bodyState (accept .encbody s) k with inp := p }) :
    exec .encbody s = .next { failed .encbody e info s with
      out := s.out.push ((s.inp.data.take k).flatMap fun b => codeBits (codeAt s b.toNat)), inp := p } := by
  have hrun := encbody_end (accept .encbody s) k _ rfl rfl hv ho hk hf hd hc hr (by simp)
  rw [exec_eq_command, command_raise h (by omega) hrun]
  rfl

end Sys2Proof.Machine

namespace Sys2Proof.Proofs
open Sys2Proof.Machine

/-- Settles O16: each entry is the path of a leaf, and of two paths in a tree neither is the beginning of the other. -/
theorem codesPrefixFree : Obligations.CodesPrefixFree := by
  intro s l r h hv hT hz
  refine ⟨_, exec_gencode_ready h hv hT hz, ?_⟩
  have hcode : ∀ v < 257, codeAt { completed .gencode s with codeV := true, code := codeTable (HTree.node l r) } v =
      entryOf ((HTree.node l r).code v) := fun v hv => codeAt_of_tableGet (tableGet_codeTable _ v hv)
  refine ⟨fun v hv w hw hlv hlw hpre => ?_, fun v hv => ?_, fun v hv hlv => ?_⟩
  · rw [hcode v hv] at hlv hpre
    rw [hcode w hw] at hlw hpre
    rcases entry_cases hz v with ⟨-, h0⟩ | ⟨-, c, hcv, hmv, -⟩
    · exact absurd h0 hlv
    rcases entry_cases hz w with ⟨-, h0⟩ | ⟨-, d, hcw, hmw, -⟩
    · exact absurd h0 hlw
    rw [hcv, hcw] at hpre
    exact congrArg Prod.fst (HTree.paths_prefix _ _ hmv _ hmw hpre)
  · rw [hcode v hv]
    rcases entry_cases hz v with ⟨hm, h0⟩ | ⟨hm, c, -, -, hl, -⟩
    · exact iff_of_false hm (not_not.2 h0)
    · exact iff_of_true hm hl
  · rw [hcode v hv] at hlv ⊢
    rcases entry_cases hz v with ⟨-, h0⟩ | ⟨-, c, hcv, hm, -, h1, h256⟩
    · exact absurd h0 hlv
    · rw [hcv]
      exact ⟨hm, h1, h256⟩

/-- Settles O19: the loop writes each byte's code, and the sentinel's at the end of the input. -/
theorem encbodyCompletes : Obligations.EncbodyCompletes :=
  fun _ h hs hf hv ho ha hc he =>
    ⟨_, exec_encbody_ready h hf hv ho (fun j _ => sourceOk_getD hs j) hc he, rfl, push_wrote _ _ ha⟩

/-- Settles O20: the loop passes over the bytes before the first with no code, or over all of them. -/
theorem encbodyNoCode : Obligations.EncbodyNoCode := by
  refine ⟨fun s k b h hs hf hv ho ha hb hc hl => ?_, fun s h hs hf hv ho ha hc hl => ?_⟩
  · obtain ⟨hk, rfl⟩ := List.getElem?_eq_some_iff.1 hb
    have hr := encbody_pass_noCode (accept .encbody s) k rfl hk hf (sourceOk_getD hs k) hl
    exact ⟨_, exec_encbody_raise h hf hv ho (Nat.le_of_lt hk) (fun j _ => sourceOk_getD hs j) hc hr, rfl, push_wrote _ _ ha⟩
  · have hr := encbody_pass_eos_noCode (accept .encbody s) rfl hf (sourceOk_getD hs _) hl
    have hrun := exec_encbody_raise h hf hv ho (Nat.le_refl _) (fun j _ => sourceOk_getD hs j)
      (fun b hb => hc b (List.mem_of_mem_take hb)) hr
    rw [List.take_length] at hrun
    exact ⟨_, hrun, rfl, push_wrote _ _ ha⟩

end Sys2Proof.Proofs
end

section
/-! SUPPORT. DESERIALIZE undisturbed: the tree it reads from a whole header, and the error of one that does not end whole
(R91, R92). -/

namespace Sys2Proof.Machine

/-- The records of a tree in pre-order weigh nothing, and have their children behind them (R91, R92 c). -/
theorem preAt_records {t : Table NodeRec} (T : HTree) (i : Nat) (hi : i + T.size ≤ 1024) (h : preAt t T i) (j : Nat)
    (hij : i ≤ j) (hj : j < i + T.size) :
    (nodeIn t j).weight = 0#32 ∧ ((nodeIn t j).leaf = false →
      j < (nodeIn t j).left.toNat ∧ (nodeIn t j).left.toNat < i + T.size ∧
      j < (nodeIn t j).right.toNat ∧ (nodeIn t j).right.toNat < i + T.size) := by
  induction T generalizing i with
  | leaf v =>
    obtain rfl : j = i := by simp only [HTree.size] at hj; omega
    rw [show nodeIn t j = _ from h]
    exact ⟨rfl, nofun⟩
  | node l r ihl ihr =>
    obtain ⟨hrec, hl, hr⟩ := h
    have hls := l.size_pos
    have hrs := r.size_pos
    simp only [HTree.size] at hi hj ⊢
    by_cases h0 : j = i
    · rw [h0, hrec]
      refine ⟨rfl, fun _ => ?_⟩
      simp only [toNat_recordIndex (show i + 1 < 1024 by omega), toNat_recordIndex (show i + 1 + l.size < 1024 by omega)]
      omega
    by_cases hjl : j < i + 1 + l.size
    · obtain ⟨hw, hc⟩ := ihl (i + 1) (by omega) hl (by omega) hjl
      exact ⟨hw, fun hf => by have := hc hf; omega⟩
    · obtain ⟨hw, hc⟩ := ihr (i + 1 + l.size) (by omega) hr (by omega) (by omega)
      exact ⟨hw, fun hf => by have := hc hf; omega⟩

/-- A tree has half as many leaves as records, rounded up (R23). -/
theorem HTree.leaves_eq (T : HTree) : T.leaves = (T.size + 1) / 2 := by
  have := T.size_eq
  omega

/-- An input that goes on with some bit has its cursor within IN_DATA. -/
theorem pos_le_of_inRest {p : InPort} {w rest : List Bool} (hw : 0 < w.length) (h : inRest p = w ++ rest) :
    p.pos.toNat ≤ 8 * p.data.length := by
  have hlen := inRest_length p
  rw [h, List.length_append] at hlen
  omega

theorem HTree.header_pos (T : HTree) : 0 < T.header.length := by
  have := T.header_length
  have := T.leaves_pos
  omega

/-- DESERIALIZE over the header of a tree that fits, none of whose reads fails, undisturbed: the tree stands in pre-order from
record 0 on, the records behind it are as before, and the cursor stands behind the header (R72, R91, R92). -/
theorem exec_deserialize_ready {s : State} {T : HTree} {rest : List Bool} (h : Ready s) (hf : InputFits s) (hT : T.fits)
    (hr : inRest s.inp = T.header ++ rest) (hd : ∀ j < T.reads, s.inp.ioDraws.getD j false = false) :
    ∃ t, preAt t T 0 ∧ (∀ j, T.size ≤ j → nodeIn t j = nodeIn s.node j) ∧
      exec .deserialize s = .next { completed .deserialize s with
        treeV := true, codeV := false, decState := .idle, treeSrc := .deserialize
        root := 0#10, nodeCount := BitVec.ofNat 10 T.size, leafCount := BitVec.ofNat 9 T.leaves
        hdrBits := BitVec.ofNat 32 T.header.length, node := t
        inp := ⟨s.inp.data, s.inp.pos + BitVec.ofNat 40 T.header.length, s.inp.ioDraws.drop T.reads⟩ } := by
  obtain ⟨t, hpre, -, hframe, hrun⟩ :=
    deserialize_stage (accept .deserialize s) T rest rfl rfl hf (pos_le_of_inRest T.header_pos hr) hr hd hT
  have hsize : T.size ≤ 513 := hT.1
  have hreads : T.reads ≤ 770 := by rw [HTree.reads, T.leaves_eq]; omega
  refine ⟨t, hpre, hframe, ?_⟩
  rw [exec_eq_command, command_done h rfl (by omega) hrun]
  rfl

/-- The tree a whole header leaves stands in NODE at record 0 (R91). -/
theorem treeAt_of_header {t : Table NodeRec} {T : HTree} (hT : T.fits) (h : preAt t T 0) : treeAt t T 0 = true := by
  obtain ⟨hsize, hsyms⟩ := hT
  simp only [Config.nodeCap] at hsize
  exact treeAt_of_preAt T 0 (by omega) (fun v hv => Nat.lt_of_le_of_lt (hsyms v hv) (by decide)) h

/-- DESERIALIZE over a header that does not end whole, undisturbed: the error of its end, the bits read up to it, no tree and no
code table, and the tree's registers open (R91, R106, R108). -/
theorem exec_deserialize_fails {s : State} {e : HeaderEnd} {b r : Nat} (h : Ready s) (hf : InputFits s)
    (hs : headerScan s.inp = ⟨e, b, r⟩) (he : e ≠ .whole) : ∃ t, exec .deserialize s = .next t ∧
      t = { failed .deserialize e.error (e.info b) s with
        treeV := false, codeV := false, decState := .idle, hdrBits := BitVec.ofNat 32 b
        inp := ⟨s.inp.data, s.inp.pos + BitVec.ofNat 40 b, s.inp.ioDraws.drop r⟩
        node := t.node, root := t.root, nodeCount := t.nodeCount, leafCount := t.leafCount, draws := t.draws } := by
  have hs' : headerScan (accept .deserialize s).inp = ⟨e, b, r⟩ := hs
  obtain ⟨hreads, u, hu, hrun⟩ := deserialize_stage_fails (accept .deserialize s) rfl rfl hf (by rw [hs']; exact he)
  rw [hs'] at hreads hu hrun
  refine ⟨raiseError e.error (e.info b) u, ?_, ?_⟩
  · rw [exec_eq_command, command_raise h (by dsimp only at hreads ⊢; omega) hrun]
  · rw [hu]
    rfl

end Sys2Proof.Machine

namespace Sys2Proof.Proofs
open Sys2Proof.Machine

/-- Settles O24: Get reads the tree into pre-order, whose records and registers are read off it. -/
theorem deserializeCompletes : Obligations.DeserializeCompletes := by
  intro s T rest h hs hf hT hr
  obtain ⟨t, hpre, hframe, hrun⟩ := exec_deserialize_ready h hf hT hr fun j _ => sourceOk_getD hs j
  rw [T.leaves_eq] at hrun
  have hsize : T.size ≤ 513 := hT.1
  refine ⟨_, hrun, rfl, treeAt_of_header hT hpre, by rw [← T.leaves_eq, T.header_length], fun j hj => ?_, hframe⟩
  have hrec := preAt_records T 0 (by omega) hpre j (Nat.zero_le j) (by omega)
  rwa [Nat.zero_add] at hrec

/-- Settles O25: the scan of the header ends where the input does. -/
theorem deserializeTruncated : Obligations.DeserializeTruncated :=
  fun _ _ _ h hf hs => exec_deserialize_fails h hf hs (by simp)

/-- Settles O26: the scan of the header ends at a leaf field above 256. -/
theorem deserializeBadLeaf : Obligations.DeserializeBadLeaf :=
  fun _ _ _ _ h hf hs => exec_deserialize_fails h hf hs (by simp)

/-- Settles O27: the scan of the header ends at its 514th node bit. -/
theorem deserializeTooLarge : Obligations.DeserializeTooLarge :=
  fun _ _ _ h hf hs => exec_deserialize_fails h hf hs (by simp)

/-- Settles O28: SERIALIZE writes the header of the tree at ROOT, over which DESERIALIZE completes with that tree. -/
theorem headerRoundTrip : Obligations.HeaderRoundTrip := by
  intro s u T rest h hv ho ha hT hat
  obtain ⟨hstream, -⟩ := push_wrote s.out T.header ha
  refine ⟨_, T.header, exec_serialize_ready h hv ho hat hT.1, hstream, fun hu hs hf hr => ?_⟩
  obtain ⟨t, hpre, -, hrun⟩ := exec_deserialize_ready hu hf hT hr fun j _ => sourceOk_getD hs j
  obtain ⟨hafter, -⟩ := inRest_after u.inp T.header rest hf (pos_le_of_inRest T.header_pos hr) hr (u.inp.ioDraws.drop T.reads)
  exact ⟨_, hrun, rfl, rfl, treeAt_of_header hT hpre, hafter⟩

end Sys2Proof.Proofs
end

section
/-! SUPPORT. DECBODY undisturbed: the bytes of the leaves reached, the ends of the walk, and a root that is a leaf (R98 to
R100). -/

namespace Sys2Proof.Machine

/-- The bits DECBODY writes are the stream of the bytes of the leaves it reached (R47, R98). -/
theorem streamOf_map_bytes (ps : List (Nat × List Bool)) :
    streamOf (ps.map fun p => BitVec.ofNat 8 p.1) = ps.flatMap fun p => natToBits 8 p.1 := by
  induction ps with
  | nil => rfl
  | cons p ps ih =>
    rw [List.map_cons, streamOf_cons, ih, List.flatMap_cons, byteBits, BitVec.toNat_ofNat, natToBits_mod]

/-- The bits to come are no more than those of IN_DATA. -/
theorem length_le_of_inRest {p : InPort} {w rest : List Bool} (h : inRest p = w ++ rest) : w.length ≤ 8 * p.data.length := by
  have hlen := inRest_length p
  rw [h, List.length_append] at hlen
  omega

/-- A leaf of a byte is no leaf of the sentinel. -/
theorem byte_ne_sentinel {T : HTree} {ps : List (Nat × List Bool)} (h : ∀ p ∈ ps, p ∈ T.paths ∧ p.1 < 256) :
    ∀ p ∈ ps, p ∈ T.paths ∧ p.1 ≠ 256 :=
  fun p hp => ⟨(h p hp).1, Nat.ne_of_lt (h p hp).2⟩

/-- DECBODY's state after the paths to the leaves of `ps` and the part `c` of a path (R98). -/
def walkedUpto (s : State) (ps : List (Nat × List Bool)) (c : List Bool) : State :=
  { s with
    decState := .walking, walk := walkPath s.node s.root c, phase := .walk ps.length
    inp := ⟨s.inp.data, s.inp.pos + BitVec.ofNat 40 (ps.flatMap Prod.snd ++ c).length,
      s.inp.ioDraws.drop (ps.flatMap Prod.snd ++ c).length⟩
    out := s.out.push (ps.flatMap fun p => natToBits 8 p.1) }

/-- DECBODY up to inside a path, also from a cursor behind the end of IN_DATA, where nothing is read (R98). -/
theorem decbody_walkedUpto {l r : HTree} {ps : List (Nat × List Bool)} {p : Nat × List Bool} {c rest : List Bool} {s : State}
    (n : Nat) (hp : s.phase = .enter) (hu : s.unsent = []) (hv : s.treeV = true) (ho : s.out.isOpen = true)
    (hT : treeAt s.node (.node l r) s.root.toNat = true) (hm : ∀ p ∈ ps, p ∈ (HTree.node l r).paths ∧ p.1 < 256)
    (hmem : p ∈ (HTree.node l r).paths) (hpre : c <+: p.2) (hne : c ≠ p.2) (hf : InputFits s)
    (hr : inRest s.inp = ps.flatMap Prod.snd ++ c ++ rest)
    (hd : ∀ j < (ps.flatMap Prod.snd ++ c).length, s.inp.ioDraws.getD j false = false) :
    stageRun .decbody ((ps.flatMap Prod.snd ++ c).length + 1 + n) s = stageRun .decbody n (walkedUpto s ps c) := by
  by_cases hw : 0 < (ps.flatMap Prod.snd ++ c).length
  · exact decbody_upto l r ps c s rest n hp hu hv ho hT (byte_ne_sentinel hm) ⟨p, hmem, hpre, hne⟩ hf
      (pos_le_of_inRest hw hr) hr hd
  · have hnil : ps.flatMap Prod.snd ++ c = [] := List.length_eq_zero_iff.1 (by omega)
    obtain ⟨hps, rfl⟩ := List.append_eq_nil_iff.1 hnil
    have hps' : ps = [] := by
      cases ps with
      | nil => rfl
      | cons q ps => exact absurd (List.append_eq_nil_iff.1 hps).1 (HTree.paths_ne_nil q (hm q (by simp)).1)
    subst hps'
    change stageRun .decbody (0 + 1 + n) s = _
    rw [Nat.zero_add, Nat.add_comm 1 n, stageRun_more n (decbody_enter hp hu hv ho (treeAt_node hT).1)]
    simp [walkedUpto]

/-- DECBODY over a body, none of whose reads fails, undisturbed (R72, R98). -/
theorem exec_decbody_ready {s : State} {l r : HTree} {ps : List (Nat × List Bool)} {q rest : List Bool} (h : Ready s)
    (hf : InputFits s) (hv : s.treeV = true) (ho : s.out.isOpen = true)
    (hT : treeAt s.node (.node l r) s.root.toNat = true) (hm : ∀ p ∈ ps, p ∈ (HTree.node l r).paths ∧ p.1 < 256)
    (hq : (256, q) ∈ (HTree.node l r).paths) (hr : inRest s.inp = ps.flatMap Prod.snd ++ q ++ rest)
    (hd : ∀ j < (ps.flatMap Prod.snd ++ q).length, s.inp.ioDraws.getD j false = false) :
    exec .decbody s = .next { completed .decbody s with
      decState := .done, walk := walkPath s.node s.root q
      out := s.out.push (streamOf (ps.map fun p => BitVec.ofNat 8 p.1))
      inp := ⟨s.inp.data, s.inp.pos + BitVec.ofNat 40 (ps.flatMap Prod.snd ++ q).length,
        s.inp.ioDraws.drop (ps.flatMap Prod.snd ++ q).length⟩ } := by
  have hw : 0 < (ps.flatMap Prod.snd ++ q).length := by
    have : 0 < q.length := List.length_pos_iff.2 (HTree.paths_ne_nil _ hq)
    rw [List.length_append]
    omega
  have hrun := decbody_stage l r ps q (accept .decbody s) rest rfl rfl hv ho hT (byte_ne_sentinel hm) hq hf
    (pos_le_of_inRest hw hr) hr hd
  have hlen := length_le_of_inRest hr
  rw [exec_eq_command, command_done h rfl (by omega) hrun, streamOf_map_bytes]
  rfl

/-- DECBODY where the read inside a path raises, undisturbed: the bytes before it stay written, and the walk shows where it
stopped (R98, R107). -/
theorem exec_decbody_raise {s : State} {l r : HTree} {ps : List (Nat × List Bool)} {p : Nat × List Bool} {c rest : List Bool}
    {e : ErrCode} {info : Word} (h : Ready s) (hf : InputFits s) (hv : s.treeV = true) (ho : s.out.isOpen = true)
    (hT : treeAt s.node (.node l r) s.root.toNat = true) (hm : ∀ p ∈ ps, p ∈ (HTree.node l r).paths ∧ p.1 < 256)
    (hmem : p ∈ (HTree.node l r).paths) (hpre : c <+: p.2) (hne : c ≠ p.2)
    (hr : inRest s.inp = ps.flatMap Prod.snd ++ c ++ rest)
    (hd : ∀ j < (ps.flatMap Prod.snd ++ c).length, s.inp.ioDraws.getD j false = false)
    (hpass : passStep .decbody (walkedUpto (accept .decbody s) ps c) = .raise e info { walkedUpto (accept .decbody s) ps c with
      inp := ⟨s.inp.data, s.inp.pos + BitVec.ofNat 40 (ps.flatMap Prod.snd ++ c).length,
        s.inp.ioDraws.drop ((ps.flatMap Prod.snd ++ c).length + 1)⟩ }) :
    exec .decbody s = .next { failed .decbody e info s with
      decState := .walking, walk := walkPath s.node s.root c
      out := s.out.push (streamOf (ps.map fun p => BitVec.ofNat 8 p.1))
      inp := ⟨s.inp.data, s.inp.pos + BitVec.ofNat 40 (ps.flatMap Prod.snd ++ c).length,
        s.inp.ioDraws.drop ((ps.flatMap Prod.snd ++ c).length + 1)⟩ } := by
  have hrun := decbody_walkedUpto (s := accept .decbody s) 1 rfl rfl hv ho hT hm hmem hpre hne hf hr hd
  rw [stageRun_end 0 hpass (by simp)] at hrun
  have hlen := length_le_of_inRest hr
  rw [exec_eq_command, command_raise h (by omega) hrun, streamOf_map_bytes]
  rfl

/-- DECBODY's pass at the end of the input (R98). -/
theorem decbody_pass_end {s : State} {ps : List (Nat × List Bool)} {c : List Bool} (hu : s.unsent = []) (hf : InputFits s)
    (hr : inRest s.inp = ps.flatMap Prod.snd ++ c)
    (hd : s.inp.ioDraws.getD (ps.flatMap Prod.snd ++ c).length false = false) :
    passStep .decbody (walkedUpto s ps c) = .raise .eFmtBodyTrunc (BitVec.ofNat 32 ps.length) { walkedUpto s ps c with
      inp := ⟨s.inp.data, s.inp.pos + BitVec.ofNat 40 (ps.flatMap Prod.snd ++ c).length,
        s.inp.ioDraws.drop ((ps.flatMap Prod.snd ++ c).length + 1)⟩ } := by
  have hlen := inRest_length s.inp
  rw [hr] at hlen
  have hfit : s.inp.data.length ≤ 2 ^ 37 - 1 := hf
  have hpos := s.inp.pos.isLt
  simp only [posW_eq] at hpos
  have hat : 8 * s.inp.data.length ≤ (walkedUpto s ps c).inp.pos.toNat := by
    simp only [walkedUpto, BitVec.toNat_add, BitVec.toNat_ofNat, posW_eq]
    omega
  rw [decbody_pass_eos (s := walkedUpto s ps c) (k := ps.length) rfl hu hat ((headD_drop _ _).trans hd)]
  simp only [walkedUpto, tail_drop]

/-- DECBODY's pass where the source fails (R98). -/
theorem decbody_pass_fails {s : State} {ps : List (Nat × List Bool)} {c : List Bool} (hu : s.unsent = [])
    (hd : s.inp.ioDraws.getD (ps.flatMap Prod.snd ++ c).length false = true) :
    passStep .decbody (walkedUpto s ps c) = .raise .eFmtIo 0#32 { walkedUpto s ps c with
      inp := ⟨s.inp.data, s.inp.pos + BitVec.ofNat 40 (ps.flatMap Prod.snd ++ c).length,
        s.inp.ioDraws.drop ((ps.flatMap Prod.snd ++ c).length + 1)⟩ } := by
  rw [decbody_pass_io (s := walkedUpto s ps c) (k := ps.length) rfl hu ((headD_drop _ _).trans hd)]
  simp only [walkedUpto, tail_drop]

/-- DECBODY's entry over a root that is a leaf (R100). -/
theorem decbodyEnter_leaf {s : State} (hv : s.treeV = true) (ho : s.out.isOpen = true)
    (hl : (nodeAt s s.root.toNat).leaf = true) :
    decbodyEnter s = if (nodeAt s s.root.toNat).value = 256#9 then
        .done { s with decState := .done, walk := s.root, phase := .walk 0 }
      else .raise .eFmtDegenerate ((nodeAt s s.root.toNat).value.setWidth 32)
        { s with decState := .walking, walk := s.root, phase := .walk 0 } := by
  have hp : precondition .decbody s = none := by simp [precondition, hv, ho]
  have hl' : (nodeIn s.node s.root.toNat).leaf = true := hl
  have hvalue : (nodeIn s.node s.root.toNat).value.toNat = 256 ↔ (nodeIn s.node s.root.toNat).value = 256#9 := by
    rw [← BitVec.toNat_inj, BitVec.toNat_ofNat]
  simp only [decbodyEnter, checked, hp, nodeAt, hl', if_true, Config.pseudoEof]
  exact if_congr hvalue rfl rfl

end Sys2Proof.Machine

namespace Sys2Proof.Proofs
open Sys2Proof.Machine

/-- Settles O29: the walk goes down to each leaf in turn and ends at the sentinel's. -/
theorem decbodyCompletes : Obligations.DecbodyCompletes :=
  fun _ _ _ _ _ _ h hs hf hv ho ha hT hm hq hr =>
    ⟨_, exec_decbody_ready h hf hv ho hT hm hq hr (fun j _ => sourceOk_getD hs j), rfl, push_wrote _ _ ha⟩

/-- Settles O30: the walk stands inside a path when a read finds the end of the input. -/
theorem decbodyTruncated : Obligations.DecbodyTruncated := by
  intro s l r ps p c h hs hf hv ho ha hT hm hmem hpre hne hr
  have hpass := decbody_pass_end (s := accept .decbody s) (ps := ps) (c := c) rfl hf hr (sourceOk_getD hs _)
  exact ⟨_, exec_decbody_raise (rest := []) h hf hv ho hT hm hmem hpre hne (by rw [hr, List.append_nil])
    (fun j _ => sourceOk_getD hs j) hpass, rfl, push_wrote _ _ ha⟩

/-- Settles O31: the entry looks at the record at ROOT before any read. -/
theorem decbodyRootLeaf : Obligations.DecbodyRootLeaf := by
  intro s h hv ho hl
  have henter := decbodyEnter_leaf (s := accept .decbody s) hv ho hl
  refine ⟨fun h256 => ?_, fun h256 => ?_⟩
  · exact exec_done_at_once h rfl ((stageStep_decbody_accept s).trans (henter.trans (if_pos h256))) rfl
  · exact exec_raise_first_pass h ((stageStep_decbody_accept s).trans (henter.trans (if_neg h256))) rfl

/-- Settles O39: each of the three loops stands before the failing read, which moves nothing and raises. -/
theorem readFailures : Obligations.ReadFailures := by
  refine ⟨fun s b r h hf hs => exec_deserialize_fails h hf hs (by simp), fun s k h hf hv ho ha hk hc hd hi => ?_,
    fun s l r ps p c rest h hf hv ho ha hT hm hmem hpre hne hr hd hi => ?_⟩
  · have hpass := encbody_pass_io (accept .encbody s) k rfl hi
    exact ⟨_, exec_encbody_raise h hf hv ho hk hd hc hpass, rfl, push_wrote _ _ ha⟩
  · have hpass := decbody_pass_fails (s := accept .decbody s) (ps := ps) (c := c) rfl hi
    exact ⟨_, exec_decbody_raise h hf hv ho hT hm hmem hpre hne hr hd hpass, rfl, push_wrote _ _ ha⟩

end Sys2Proof.Proofs
end

section
/-! SUPPORT. What the host sees and does, by the place of the aperture it names: STATUS, ERR_CODE, the NODE window, ignored writes
and reserved offsets (R15, R16, R39, R42, R45), and a command word written to CMD (R17, R70). -/

namespace Sys2Proof.Machine

/-- A CMD write while BUSY = 1, whatever the word (R17). -/
theorem writeCmd_busy (w : Word) {s : State} (h : s.busy = true) : writeCmd w s = .next (overrun s) := by
  unfold writeCmd
  split
  · rw [exec_eq_command, command_busy _ h]
  · rw [rejectWord, if_pos h]

/-- The write of a legal word to CMD is the decoded command, once the write is answered (R59, R63). -/
theorem busWrite_cmd {w : Word} {i : Instr} (hd : decode w = .ok i) (s : State) :
    busWrite 0x008 4 w s = exec i { s with reply := .written } := by
  have hs : slotOf 0x008#16 = .reg .cmd := rfl
  simp [busWrite, admitted, hs, writeCmd, hd]

/-- A step whose host move writes a legal word to CMD (R70, R127). -/
theorem step_of_cmd_write {s : State} {w : Word} {rest : List HostMove} {i : Instr} (hh : s.host = .write 0x008 4 w :: rest)
    (hd : decode w = .ok i) : step s = thenTurn s.busy (exec i { s with host := rest, reply := .written }) := by
  simp only [step, machineStep, hh, hostMove, busWrite_cmd hd]

/-- No turn follows a move that found HUFFC idle (R118). -/
theorem thenTurn_false_exec (i : Instr) (s : State) : thenTurn false (exec i s) = exec i s := by
  rw [exec_eq_command]
  rfl

/-- The bits of DEC_STATE in STATUS stand at 9:8 (R16). -/
theorem getLsbD_decState (d : DecState) (k : Nat) :
    (d.toBits.setWidth 32 <<< 8).getLsbD k = (decide (k < 32) && !decide (k < 8) && d.toBits.getLsbD (k - 8)) := by
  by_cases hk : k < 32
  · simp [hk]
  · simp [hk]

/-- Every bit of STATUS (R16): a flag's own, DEC_STATE's two, and 0. -/
theorem getLsbD_statusWord (s : State) (k : Nat) :
    (statusWord s).getLsbD k =
      (decide (k < 32) && decide (k = 0) && s.busy || decide (k < 32) && decide (k = 1) && s.done ||
        decide (k < 32) && decide (k = 2) && s.err || decide (k < 32) && decide (k = 3) && s.ovr ||
        decide (k < 32) && decide (k = 4) && s.freqV || decide (k < 32) && decide (k = 5) && s.treeV ||
        decide (k < 32) && decide (k = 6) && s.codeV || decide (k < 32) && decide (k = 7) && s.out.isOpen ||
        decide (k < 32) && !decide (k < 8) && s.decState.toBits.getLsbD (k - 8) ||
        decide (k < 32) && decide (k = 10) && s.treeSrc.toBit || decide (k < 32) && decide (k = 11) && irqLine s) := by
  simp only [statusWord, BitVec.getLsbD_or, getLsbD_bitAt, getLsbD_decState]

/-- The codes of R104, error by error. -/
theorem errorCodes_table :
    ∀ p ∈ [(ErrCode.eNone, 0x00#32), (.eFmtBadMagic, 0x01#32), (.eFmtMagicTrunc, 0x02#32),
      (.eFmtHdrTrunc, 0x03#32), (.eFmtBadLeaf, 0x04#32), (.eFmtTreeTooLarge, 0x05#32), (.eFmtBodyTrunc, 0x06#32),
      (.eFmtDegenerate, 0x07#32), (.eFmtIo, 0x08#32), (.eIllegalCmd, 0x10#32), (.eSeq, 0x11#32), (.eOverflow, 0x12#32),
      (.eNoCode, 0x13#32), (.eOutClosed, 0x14#32)], p.1.toBits.setWidth 32 = p.2 := by
  decide

/-- The errors whose codes lie in 0x01 to 0x08 (R105). -/
theorem formatCodes (e : ErrCode) : (1 ≤ e.toBits.toNat ∧ e.toBits.toNat ≤ 8) ↔
    e ∈ [ErrCode.eFmtBadMagic, .eFmtMagicTrunc, .eFmtHdrTrunc, .eFmtBadLeaf, .eFmtTreeTooLarge, .eFmtBodyTrunc,
      .eFmtDegenerate, .eFmtIo] := by
  cases e <;> decide

/-- A register's offset is four times its place in the list of R15. -/
theorem off_of_slotOf_reg {off : BitVec 16} {r : Reg} {k : Nat} (ha : off.toNat % 4 = 0) (h : slotOf off = .reg r)
    (hk : ∀ j < 20, regList[j]? = some r → j = k) : off = BitVec.ofNat 16 (4 * k) := by
  obtain ⟨hlt, hr⟩ := slotOf_eq_reg h
  have hj := hk (off.toNat / 4) (by omega) hr
  apply BitVec.eq_of_toNat_eq
  rw [BitVec.toNat_ofNat]
  omega

/-- A write that names none of the three writable registers but CMD is ignored (R42). -/
theorem writeSlot_ignored (v : Word) (s : State) {sl : Slot} (hm : sl ≠ .reg .magic) (he : sl ≠ .reg .irqEn)
    (hs : sl ≠ .reg .irqStat) : writeSlot v s sl = s := by
  unfold writeSlot
  split
  · exact absurd rfl hm
  · exact absurd rfl he
  · exact absurd rfl hs
  all_goals rfl

/-- An aligned word write that does not name CMD answers, and leaves what its place makes of it (R40, R42). -/
theorem busWrite_slot {off : BitVec 16} (v : Word) (s : State) (ha : off.toNat % 4 = 0) (hc : slotOf off ≠ .reg .cmd) :
    busWrite off 4 v s = .next { writeSlot v s (slotOf off) with reply := .written } := by
  unfold busWrite
  rw [if_pos (admitted_iff.2 ⟨rfl, ha⟩)]
  split
  · next h => exact absurd h hc
  · rfl

/-- The offsets the aperture map reserves (R39). -/
theorem slotOf_reserved {off : BitVec 16}
    (h : (0x0050 ≤ off.toNat ∧ off.toNat < 0x0400) ∨ (0x0804 ≤ off.toNat ∧ off.toNat < 0x1000) ∨
      (0x3010 ≤ off.toNat ∧ off.toNat < 0x4000) ∨ 0x8080 ≤ off.toNat) : slotOf off = .reserved := by
  simp only [slotOf]
  rw [if_neg (by omega), if_neg (by omega), if_neg (by omega), if_neg (by omega), if_neg (by omega)]

/-- The offsets behind the last entry of the CODE window (R39; log entry 26). -/
theorem slotOf_codeTail {off : BitVec 16} (h1 : 0x8040 ≤ off.toNat) (h2 : off.toNat < 0x8080) :
    slotOf off = .codeTail ((off.toNat - 0x8040) / 4) := by
  simp only [slotOf]
  rw [if_neg (by omega), if_neg (by omega), if_neg (by omega), if_neg (by omega), if_pos (by omega)]

/-- What a place behind the last entry of CODE holds for a reader (log entry 26). -/
theorem slotValue_codeTail (s : State) (k : Nat) :
    slotValue s (.codeTail k) = if s.codeV = true ∧ s.busy = false then some (Config.freeCodeTail k) else none := by
  simp [slotValue]

/-- The NODE window holds four words per record from 0x1000 on (R39, R45). -/
theorem nodeWin_offset {i k : Nat} (hi : i ≤ 512) (hk : k < 4) :
    (BitVec.ofNat 16 (0x1000 + 16 * i + 4 * k)).toNat % 4 = 0 ∧
      slotOf (BitVec.ofNat 16 (0x1000 + 16 * i + 4 * k)) = .nodeWin i k := by
  have ho : (BitVec.ofNat 16 (0x1000 + 16 * i + 4 * k)).toNat = 0x1000 + 16 * i + 4 * k :=
    (BitVec.toNat_ofNat _ _).trans (Nat.mod_eq_of_lt (by omega))
  have hwi : (0x1000 + 16 * i + 4 * k - 0x1000) / 16 = i := by omega
  have hwk : (0x1000 + 16 * i + 4 * k - 0x1000) % 16 / 4 = k := by omega
  refine ⟨by omega, ?_⟩
  simp only [slotOf, ho]
  rw [if_neg (by omega), if_neg (by omega), if_pos (by omega), hwi, hwk]

/-- What the place of word k of record i holds for a reader: the word when TREE_V = 1, BUSY = 0 and i < NODE_COUNT, else
nothing (R45). -/
theorem slotValue_nodeWin (s : State) (i k : Nat) :
    slotValue s (.nodeWin i k) =
      if s.treeV = true ∧ s.busy = false ∧ i < s.nodeCount.toNat then some (nodeWord (nodeAt s i) k) else none := by
  simp [slotValue, and_assoc]

/-- A read of word k of record i through its window, while it may be read (R45). -/
theorem busRead_nodeWin {s : State} {i k : Nat} (hi : i ≤ 512) (hk : k < 4)
    (h : s.treeV = true ∧ s.busy = false ∧ i < s.nodeCount.toNat) :
    busRead (BitVec.ofNat 16 (0x1000 + 16 * i + 4 * k)) 4 s = { s with reply := .data (nodeWord (nodeAt s i) k) } := by
  obtain ⟨ha, hs⟩ := nodeWin_offset hi hk
  refine busRead_of_slotValue_some ha ?_
  rw [hs, slotValue_nodeWin, if_pos h]

/-- A read of word k of record i through its window at any other time is a draw (R45). -/
theorem busRead_nodeWin_draw {s : State} {i k : Nat} (hi : i ≤ 512) (hk : k < 4)
    (h : ¬ (s.treeV = true ∧ s.busy = false ∧ i < s.nodeCount.toNat)) :
    busRead (BitVec.ofNat 16 (0x1000 + 16 * i + 4 * k)) 4 s =
      { s with reply := .data (Config.freeWord s.draws), draws := s.draws + 1 } := by
  obtain ⟨ha, hs⟩ := nodeWin_offset hi hk
  refine busRead_of_slotValue_none ha ?_
  rw [hs, slotValue_nodeWin, if_neg h]

/-- The first word of a record holds LEAF in bit 31 and VALUE in bits 8:0 (R45). -/
theorem nodeWord_zero (r : NodeRec) : nodeWord r 0 = BitVec.ofBool r.leaf ++ 0#22 ++ r.value := by
  apply BitVec.eq_of_getLsbD_eq
  intro j hj
  simp only [nodeWord, BitVec.getLsbD_or, getLsbD_bitAt, BitVec.getLsbD_append, BitVec.getLsbD_setWidth, BitVec.getLsbD_zero,
    BitVec.getLsbD_ofBool]
  by_cases h9 : j < 9
  · simp [h9, hj, show j ≠ 31 by omega]
  · by_cases h31 : j = 31
    · simp [h31]
    · simp [h9, hj, h31, show j - 9 < 22 by omega, BitVec.getLsbD_of_ge r.value j (by omega)]

end Sys2Proof.Machine

namespace Sys2Proof.Proofs
open Sys2Proof.Machine

/-- Settles O1: each of the five words is its command's own (R61). -/
theorem commandWordsDecode : Obligations.CommandWordsDecode :=
  ⟨(decode_eq_ok_iff _ _).2 rfl, (decode_eq_ok_iff _ _).2 rfl, (decode_eq_ok_iff _ _).2 rfl, (decode_eq_ok_iff _ _).2 rfl,
    (decode_eq_ok_iff _ _).2 rfl⟩

/-- Settles O4: a busy HUFFC takes the overrun branch before it looks at the word. -/
theorem busyCommandOverruns : Obligations.BusyCommandOverruns :=
  fun _ h => ⟨fun w => writeCmd_busy w h, fun i => by rw [exec_eq_command, command_busy i h]; rfl⟩

/-- Settles O5: the move is a bus write of CMD, which runs the decoded command, and a turn follows only a running command. -/
theorem stepRunsDecodedCommand : Obligations.StepRunsDecodedCommand := by
  refine ⟨fun s w rest i hh hd => step_of_cmd_write hh hd, fun s w i hb hd => ?_⟩
  have hh : (s.withFetchWord 32 w.toNat).host = .write 0x008 4 w :: s.host := by
    simp [State.withFetchWord, placeWord]
  have hidle : (s.withFetchWord 32 w.toNat).busy = false := hb
  rw [step_of_cmd_write hh hd, hidle, thenTurn_false_exec]
  rfl

/-- Settles O40: STATUS reads its word at any time, whose bits are those of its fields. -/
theorem statusFields : Obligations.StatusFields := by
  intro s
  refine ⟨statusWord s, busRead_reg (r := .status) rfl rfl (.inr rfl), ?_⟩
  simp only [getLsbD_statusWord]
  refine ⟨by simp [State.busy], by simp, by simp, by simp, by simp, by simp, by simp, by simp, ?_, ?_, ?_, fun k hk => ?_⟩
  · have hbit : ∀ j < 2, ((statusWord s).extractLsb' 8 2).getLsbD j = s.decState.toBits.getLsbD j := by
      intro j hj
      rw [BitVec.getLsbD_extractLsb', getLsbD_statusWord]
      obtain rfl | rfl : j = 0 ∨ j = 1 := by omega
      · simp
      · simp
    rw [BitVec.eq_of_getLsbD_eq hbit]
    cases s.decState <;> rfl
  · have hz : s.decState.toBits.getLsbD 2 = false := BitVec.getLsbD_of_ge _ _ (by decide)
    simp only [hz]
    cases s.treeSrc <;> rfl
  · simp [irqLine]
  · have hz : s.decState.toBits.getLsbD (k - 8) = false := BitVec.getLsbD_of_ge _ _ (by omega)
    have hne : ∀ c < 12, k ≠ c := fun c hc => by omega
    simp [hz, hne]

/-- Settles O42: ERR_CODE reads the error's code, and a FormatError is an error with a code from 0x01 to 0x08. -/
theorem errorCodes : Obligations.ErrorCodes := by
  refine fun s => ⟨fun hb p hp he => ?_, ?_⟩
  · rw [busRead_reg (r := .errCode) rfl rfl (.inl hb), ← errorCodes_table p hp, ← he]
    rfl
  · rw [← formatCodes]
    simp [formatError]

/-- Settles O45: an offset other than the four is the place of no writable register, and the ranges name the place read. -/
theorem ignoredWritesReservedReads : Obligations.IgnoredWritesReservedReads := by
  refine ⟨fun s off v ha h8 h18 h1c h20 => ?_, fun s off ha hr => ?_, fun s off ha h1 h2 => ⟨fun hv hb => ?_, fun h => ?_⟩⟩
  · have hcmd : slotOf off ≠ .reg .cmd := fun h => h8 (off_of_slotOf_reg (k := 2) ha h (by decide))
    have hmagic : slotOf off ≠ .reg .magic := fun h => h18 (off_of_slotOf_reg (k := 6) ha h (by decide))
    have hen : slotOf off ≠ .reg .irqEn := fun h => h1c (off_of_slotOf_reg (k := 7) ha h (by decide))
    have hstat : slotOf off ≠ .reg .irqStat := fun h => h20 (off_of_slotOf_reg (k := 8) ha h (by decide))
    rw [busWrite_slot v s ha hcmd, writeSlot_ignored v s hmagic hen hstat]
  · exact busRead_of_slotValue_some ha (by rw [slotOf_reserved hr]; rfl)
  · refine ⟨Config.freeCodeTail ((off.toNat - 0x8040) / 4), fun r n => ?_⟩
    refine busRead_of_slotValue_some ha ?_
    rw [slotOf_codeTail h1 h2, slotValue_codeTail]
    exact if_pos ⟨hv, hb⟩
  · refine ⟨_, busRead_of_slotValue_none ha ?_⟩
    rw [slotOf_codeTail h1 h2, slotValue_codeTail, if_neg h]

/-- Settles O47: each offset is the place of a word of the record, which has a value exactly while the record may be read. -/
theorem nodeWindow : Obligations.NodeWindow := by
  refine fun s i hi => ⟨fun hv hb hn => ?_, fun h k hk => ⟨_, busRead_nodeWin_draw hi hk h⟩⟩
  have reads {k : Nat} {w : Word} (hk : k < 4) (hw : nodeWord (nodeAt s i) k = w) :
      busRead (BitVec.ofNat 16 (0x1000 + 16 * i + 4 * k)) 4 s = { s with reply := .data w } :=
    hw ▸ busRead_nodeWin hi hk ⟨hv, hb, hn⟩
  exact ⟨reads (k := 0) (by decide) (nodeWord_zero _), reads (k := 1) (by decide) (BitVec.setWidth_eq _),
    reads (k := 2) (by decide) (BitVec.setWidth_eq_append (by decide)),
    reads (k := 3) (by decide) (BitVec.setWidth_eq_append (by decide))⟩

/-- Settles O50: the words are those of the reset state's fields. -/
theorem resetRegisters : Obligations.ResetRegisters :=
  ⟨rfl, rfl, rfl, rfl⟩

/-- Settles O52: each move checks BUSY first, and ATTACH then the length. -/
theorem attachAndTake : Obligations.AttachAndTake := by
  refine fun s bytes => ⟨fun hb hl => ?_, fun hb => ?_, fun hb => ?_, fun hb hl => ?_⟩
  · have hfit : ¬ bytes.length > Config.maxAttach := Nat.not_lt.2 hl
    simp [hostMove, attach, hb, hfit]
  · simp [hostMove, take, hb]
  · simp [hostMove, attach, take, hb]
  · have hlong : bytes.length > Config.maxAttach := hl
    simp [hostMove, attach, hb, hlong]

end Sys2Proof.Proofs
end

section
/-! SUPPORT. The moves of the host one by one, and through every step what the sequencer keeps of the pending bits and the
streams (R20, R35, R36, R111). -/

namespace Sys2Proof.Machine

/-- All a move of the host can make of the state (R69, R127): a read or an ignored write changes only the environment; a write of
CMD runs or rejects; a write of one of the three registers; ATTACH and TAKE while BUSY = 0; reset. -/
inductive HostEffect (s : State) : HostMove → State → Prop
  | quiet (m : HostMove) (h : List HostMove) (r : Reply) (d : Nat) : HostEffect s m { s with host := h, reply := r, draws := d }
  | accepted (w : Word) (i : Instr) : HostEffect s (.write 0x008 4 w) (command i { s with reply := .written })
  | rejected (w : Word) : HostEffect s (.write 0x008 4 w) (rejectWord w { s with reply := .written })
  | magic (v : Word) : HostEffect s (.write 0x018 4 v) { writeMagic v s with reply := .written }
  | irqEn (v : Word) : HostEffect s (.write 0x01C 4 v) { writeIrqEn v s with reply := .written }
  | irqStat (v : Word) : HostEffect s (.write 0x020 4 v) { writeIrqStat v s with reply := .written }
  | attached (bytes : List Byte) (hb : s.busy = false) : HostEffect s (.attach bytes) { s with inp := { s.inp with data := bytes } }
  | taken (hb : s.busy = false) :
      HostEffect s .take { s with reply := .bytes s.out.data, out := { s.out with data := [] } }
  | reset : HostEffect s .reset (applyReset s)

/-- A bus read changes only the environment (R42). -/
theorem hostEffect_read (off : BitVec 16) (width : Nat) (s : State) :
    HostEffect s (.read off width) (busRead off width s) := by
  unfold busRead
  split
  · split
    · exact .quiet _ s.host _ s.draws
    · exact .quiet _ s.host _ _
  · exact .quiet _ s.host _ s.draws

/-- A write of CMD runs the command of a legal word and rejects any other (R63). -/
theorem hostEffect_cmd {w : Word} {s t : State} (h : writeCmd w { s with reply := .written } = .next t) :
    HostEffect s (.write 0x008 4 w) t := by
  unfold writeCmd at h
  split at h
  · rw [exec_eq_command] at h
    cases h
    exact .accepted w _
  · cases h
    exact .rejected w

/-- A bus write, by the place it names (R40, R42). -/
theorem hostEffect_write {off : BitVec 16} {width : Nat} {v : Word} {s t : State} (h : busWrite off width v s = .next t) :
    HostEffect s (.write off width v) t := by
  by_cases had : admitted off width = true
  · obtain ⟨rfl, ha⟩ := admitted_iff.1 had
    by_cases hcmd : slotOf off = .reg .cmd
    · obtain rfl := off_of_slotOf_reg (k := 2) ha hcmd (by decide)
      rw [busWrite, if_pos had, hcmd] at h
      exact hostEffect_cmd h
    · rw [busWrite_slot v s ha hcmd] at h
      cases h
      by_cases hm : slotOf off = .reg .magic
      · obtain rfl := off_of_slotOf_reg (k := 6) ha hm (by decide)
        rw [hm]
        exact .magic v
      by_cases he : slotOf off = .reg .irqEn
      · obtain rfl := off_of_slotOf_reg (k := 7) ha he (by decide)
        rw [he]
        exact .irqEn v
      by_cases hst : slotOf off = .reg .irqStat
      · obtain rfl := off_of_slotOf_reg (k := 8) ha hst (by decide)
        rw [hst]
        exact .irqStat v
      rw [writeSlot_ignored v s hm he hst]
      exact .quiet _ s.host _ s.draws
  · rw [busWrite, if_neg had] at h
    cases h
    exact .quiet _ s.host _ s.draws

/-- Every move that has a next state has one of these effects. -/
theorem hostMove_effect {m : HostMove} {s t : State} (h : hostMove m s = .next t) : HostEffect s m t := by
  cases m with
  | read off width =>
    cases h
    exact hostEffect_read off width s
  | write off width v => exact hostEffect_write h
  | attach bytes =>
    simp only [hostMove, attach] at h
    split_ifs at h with hb
    cases h
    exact .attached bytes (by simpa using hb)
  | take =>
    simp only [hostMove, take] at h
    split_ifs at h with hb
    cases h
    exact .taken (by simpa using hb)
  | wait =>
    cases h
    unfold waitRead
    dsimp only
    split
    · exact .quiet _ _ _ s.draws
    · exact .quiet _ s.host _ s.draws
  | reset =>
    cases h
    exact .reset

/-- A relation between a state and one the sequencer leaves of it: every accepted command, every step of the sequencer and the
environment's fields are steps of it. -/
structure Follows (R : State → State → Prop) : Prop where
  refl : ∀ s, R s s
  trans : ∀ {s t u}, R s t → R t u → R s u
  micro : ∀ s, s.busy = true → R s (microStep s)
  accepts : ∀ i s, R s (accept i s)
  illegal : ∀ w s, R s (acceptIllegal w s)
  overruns : ∀ s, R s (overrun s)
  env : ∀ s g h r d, R s { s with grants := g, host := h, reply := r, draws := d }

section
variable {R : State → State → Prop} (hR : Follows R)
include hR

theorem Follows.runTurn (s : State) : R s (runTurn s) := by
  have run : ∀ n t, R s t → R s (runFor n t) := fun n t ht =>
    runFor_induction (P := fun u => R s u) (fun u hu hb => hR.trans hu (hR.micro u hb)) n ht
  unfold Machine.runTurn
  split
  · exact run _ s (hR.refl s)
  · next n rest _ => exact run _ _ (hR.env s rest s.host s.reply s.draws)

theorem Follows.command (i : Instr) (s : State) : R s (command i s) := by
  unfold Machine.command
  split
  · exact hR.overruns s
  · exact hR.trans (hR.accepts i s) (hR.runTurn _)

theorem Follows.rejectWord (w : Word) (s : State) : R s (rejectWord w s) := by
  unfold Machine.rejectWord
  split
  · exact hR.overruns s
  · exact hR.trans (hR.illegal w s) (hR.runTurn _)

/-- A write of a legal word to CMD, with its answer. -/
theorem Follows.cmdWrite (i : Instr) (s : State) : R s (Machine.command i { s with reply := .written }) :=
  hR.trans (hR.env s s.grants s.host .written s.draws) (hR.command i _)

/-- A write of an illegal word to CMD, with its answer. -/
theorem Follows.illegalWrite (w : Word) (s : State) : R s (Machine.rejectWord w { s with reply := .written }) :=
  hR.trans (hR.env s s.grants s.host .written s.draws) (hR.rejectWord w _)

/-- The turn after a move, where one follows. -/
theorem Follows.turn (c : Bool) (s : State) : R s (if c then Machine.runTurn s else s) := by
  cases c
  · exact hR.refl s
  · exact hR.runTurn s

end

/-- No pending bit is lost from `s` to `t` (R111). -/
def PendingKept (s t : State) : Prop := (s.doneIp = true → t.doneIp = true) ∧ (s.errIp = true → t.errIp = true)

theorem PendingKept.of_eq {s t : State} (hd : t.doneIp = s.doneIp) (he : t.errIp = s.errIp) : PendingKept s t :=
  ⟨fun h => hd.trans h, fun h => he.trans h⟩

/-- complete() and raise set a pending bit and clear none (R72, R106, R111). -/
theorem settle_pendingKept {cmd stage : Instr} {s : State} {r : StageResult} (h : SameLifecycle s r.state) :
    PendingKept s (settle cmd stage r) := by
  obtain ⟨-, -, -, -, -, -, -, -, -, hd, he, -⟩ := h
  cases r with
  | more v => exact .of_eq hd he
  | done v =>
    simp only [settle, stageEnded]
    split
    · split
      · exact .of_eq hd he
      · exact ⟨fun _ => rfl, fun h => he.trans h⟩
    · exact .of_eq hd he
  | raise e info v => exact ⟨fun h => hd.trans h, fun _ => rfl⟩

theorem pendingKept_follows : Follows PendingKept where
  refl _ := ⟨id, id⟩
  trans h k := ⟨k.1 ∘ h.1, k.2 ∘ h.2⟩
  micro s hb := by
    rcases microStep_cases hb with ⟨-, hm⟩ | ⟨cmd, stage, -, ⟨b, rest, -, hm⟩ | ⟨-, hm⟩⟩ <;> rw [hm]
    · exact ⟨id, fun _ => rfl⟩
    · exact ⟨id, id⟩
    · exact settle_pendingKept (stageStep_same stage s)
  accepts _ _ := ⟨id, id⟩
  illegal _ _ := ⟨id, id⟩
  overruns _ := ⟨id, id⟩
  env _ _ _ _ _ := ⟨id, id⟩

/-- What a stage gives the sink stays given: OUT_DATA is as before or extended (R50, R51). -/
theorem checked_outData {stage : Instr} {s : State} {body : State → StageResult}
    (h : s.out.data <+: (body s).state.out.data) : s.out.data <+: (checked stage s body).state.out.data := by
  rcases checked_cases stage s body with ⟨-, h'⟩ | ⟨e, -, h'⟩ <;> rw [h']
  · exact h
  · exact List.prefix_rfl

theorem stageStep_outData (stage : Instr) (s : State) : s.out.data <+: (stageStep stage s).state.out.data := by
  have same : ∀ o : State, o.out.data <+: o.out.data := fun _ => List.prefix_rfl
  refine stageStep_arms (P := fun _ s r => s.out.data <+: r.state.out.data) (fun _ => same) same same (fun _ => same) same
    ?count ?build (fun s => checked_outData (same s)) (fun s => checked_outData (same s)) ?gencode
    (fun s => checked_outData (same s)) (fun s => checked_outData (same s)) ?serialize (fun s => checked_outData (same s))
    ?encbody ?close ?rdmagic same ?field ?get ?decbody ?root stage s
  case count =>
    intro s
    unfold countIter
    repeat' split
    all_goals exact same s
  case build =>
    intro L n s
    unfold buildIter
    repeat' split
    all_goals exact same s
  case gencode =>
    intro s
    unfold gencodeIter
    dsimp only
    repeat' split
    all_goals exact same s
  case serialize =>
    intro s
    unfold serializeIter
    dsimp only
    repeat' split
    all_goals exact same s
  case encbody =>
    intro s
    unfold encbodyIter
    dsimp only
    repeat' split
    all_goals exact same s
  case close =>
    intro s
    obtain ⟨ds, hds, -⟩ := closeOut_data s.out
    exact checked_outData ⟨ds, hds.symm⟩
  case rdmagic =>
    intro s
    unfold rdmagicEnter
    repeat' split
    all_goals exact same s
  case field =>
    intro i s
    unfold deserializeField deserializeLeaf
    dsimp only
    repeat' split
    all_goals exact same s
  case get =>
    intro s
    unfold deserializeIter
    dsimp only
    repeat' split
    all_goals exact same s
  case decbody =>
    intro k s
    unfold decbodyIter decbodyAt
    dsimp only
    repeat' split
    all_goals exact same s
  case root =>
    intro s
    refine checked_outData ?_
    dsimp only
    repeat' split
    all_goals exact same s

/-- The end of a pass gives the sink nothing more. -/
theorem settle_outData (cmd stage : Instr) (r : StageResult) : (settle cmd stage r).out.data = r.state.out.data := by
  cases r with
  | more v => rfl
  | done v =>
    simp only [settle, stageEnded]
    repeat' split
    all_goals rfl
  | raise e info v => rfl

/-- From `s` to `t` IN_DATA is unchanged and OUT_DATA only extended (R35, R36). -/
def StreamsKept (s t : State) : Prop := t.inp.data = s.inp.data ∧ s.out.data <+: t.out.data

theorem streamsKept_follows : Follows StreamsKept where
  refl _ := ⟨rfl, List.prefix_rfl⟩
  trans h k := ⟨k.1.trans h.1, h.2.trans k.2⟩
  micro s hb := by
    refine ⟨(microStep_env s).2.1, ?_⟩
    rcases microStep_cases hb with ⟨-, hm⟩ | ⟨cmd, stage, -, ⟨b, rest, -, hm⟩ | ⟨-, hm⟩⟩ <;> rw [hm]
    · exact List.prefix_rfl
    · obtain ⟨ds, hds⟩ := push_data s.out [b]
      exact ⟨ds, hds.symm⟩
    · rw [settle_outData]
      exact stageStep_outData stage s
  accepts _ _ := ⟨rfl, List.prefix_rfl⟩
  illegal _ _ := ⟨rfl, List.prefix_rfl⟩
  overruns _ := ⟨rfl, List.prefix_rfl⟩
  env _ _ _ _ _ := ⟨rfl, List.prefix_rfl⟩

/-- A move of the host loses a pending bit only where it writes a 1 to it or is a reset (R20, R37). -/
theorem hostEffect_pending {m : HostMove} {s t : State} (h : HostEffect s m t) :
    PendingKept s t ∨ (∃ v, m = .write 0x020 4 v ∧ (s.doneIp = true → v.getLsbD 0 = true ∨ t.doneIp = true) ∧
      (s.errIp = true → v.getLsbD 1 = true ∨ t.errIp = true)) ∨ m = .reset := by
  cases h with
  | quiet h r d => exact .inl ⟨id, id⟩
  | accepted w i => exact .inl (pendingKept_follows.cmdWrite i s)
  | rejected w => exact .inl (pendingKept_follows.illegalWrite w s)
  | magic v =>
    refine .inl (.of_eq ?_ ?_) <;> unfold writeMagic <;> split <;> rfl
  | irqEn v => exact .inl ⟨id, id⟩
  | irqStat v =>
    refine .inr (.inl ⟨v, rfl, fun hd => ?_, fun he => ?_⟩)
    · rw [writeIrqStat, hd]
      cases v.getLsbD 0 <;> simp
    · rw [writeIrqStat, he]
      cases v.getLsbD 1 <;> simp
  | attached bytes hb => exact .inl ⟨id, id⟩
  | taken hb => exact .inl ⟨id, id⟩
  | reset => exact .inr (.inr rfl)

/-- A move of the host changes a stream only as ATTACH or TAKE, while BUSY = 0 (R35, R36). -/
theorem hostEffect_streams {m : HostMove} {s t : State} (h : HostEffect s m t) :
    StreamsKept s t ∨
    (∃ bytes, m = .attach bytes ∧ s.busy = false ∧ t = { s with inp := { s.inp with data := bytes } }) ∨
    (m = .take ∧ s.busy = false ∧ t = { s with reply := .bytes s.out.data, out := { s.out with data := [] } }) := by
  cases h with
  | quiet h r d => exact .inl ⟨rfl, List.prefix_rfl⟩
  | accepted w i => exact .inl (streamsKept_follows.cmdWrite i s)
  | rejected w => exact .inl (streamsKept_follows.illegalWrite w s)
  | magic v =>
    refine .inl ?_
    unfold writeMagic
    split <;> exact ⟨rfl, List.prefix_rfl⟩
  | irqEn v => exact .inl ⟨rfl, List.prefix_rfl⟩
  | irqStat v => exact .inl ⟨rfl, List.prefix_rfl⟩
  | attached bytes hb => exact .inr (.inl ⟨bytes, rfl, hb, rfl⟩)
  | taken hb => exact .inr (.inr ⟨rfl, hb, rfl⟩)
  | reset => exact .inl ⟨rfl, List.prefix_rfl⟩

end Sys2Proof.Machine

namespace Sys2Proof.Proofs
open Sys2Proof.Machine

/-- Settles O41: the two writes by their places, and a pending bit through the move and the turn of a step. -/
theorem interruptRegisters : Obligations.InterruptRegisters := by
  refine ⟨fun s v => ⟨rfl, ?_⟩, fun s t h => ?_⟩
  · have hw : busWrite 0x020 4 v s = .next { writeIrqStat v s with reply := .written } := rfl
    rw [hw, writeIrqStat]
    cases v.getLsbD 0 <;> cases v.getLsbD 1 <;> simp
  · rcases step_cases h with ⟨-, rfl⟩ | ⟨m, rest, u, hh, hu, rfl⟩
    · obtain ⟨hd, he⟩ := pendingKept_follows.turn s.busy s
      exact ⟨fun h => .inl (hd h), fun h => .inl (he h)⟩
    · obtain ⟨hd, he⟩ := pendingKept_follows.turn (s.busy && u.busy) u
      rcases hostEffect_pending (hostMove_effect hu) with ⟨hd', he'⟩ | ⟨v, rfl, hd', he'⟩ | rfl
      · exact ⟨fun h => .inl (hd (hd' h)), fun h => .inl (he (he' h))⟩
      · refine ⟨fun h => ?_, fun h => ?_⟩
        · rcases hd' h with hv | hk
          · exact .inr (.inl ⟨v, rest, hh, hv⟩)
          · exact .inl (hd hk)
        · rcases he' h with hv | hk
          · exact .inr (.inl ⟨v, rest, hh, hv⟩)
          · exact .inl (he hk)
      · exact ⟨fun _ => .inr (.inr ⟨rest, hh⟩), fun _ => .inr (.inr ⟨rest, hh⟩)⟩

/-- Settles O59: the sequencer only extends OUT_DATA, and of the host's moves only ATTACH and TAKE touch a stream, after which
no turn follows. -/
theorem streamsOwned : Obligations.StreamsOwned := by
  intro s t h
  rcases step_cases h with ⟨-, rfl⟩ | ⟨m, rest, u, hh, hu, rfl⟩
  · obtain ⟨hi, ds, ho⟩ := streamsKept_follows.turn s.busy s
    exact ⟨.inl hi, .inl ⟨ds, ho.symm⟩⟩
  · rcases hostEffect_streams (hostMove_effect hu) with hk | ⟨bytes, rfl, hb, rfl⟩ | ⟨rfl, hb, rfl⟩
    · obtain ⟨hi, ds, ho⟩ := streamsKept_follows.trans hk (streamsKept_follows.turn (s.busy && u.busy) u)
      exact ⟨.inl hi, .inl ⟨ds, ho.symm⟩⟩
    · have hidle : s.busy = false := hb
      rw [hidle]
      exact ⟨.inr ⟨bytes, rest, hh, rfl, rfl⟩, .inl ⟨[], by simp⟩⟩
    · have hidle : s.busy = false := hb
      rw [hidle]
      exact ⟨.inl rfl, .inr ⟨rest, hh, rfl, rfl⟩⟩

end Sys2Proof.Proofs
end

section
/-! SUPPORT. The stream ports: what a read of bits answers, and the bits of a WriteBits appended one a step (R48, R50). -/

namespace Sys2Proof.Machine

/-- The bits to come, as many as are there, make the number a read answers (R9, R48). -/
theorem natToBits_take {p : InPort} {n : Nat} (h : p.pos.toNat + n ≤ 8 * p.data.length) :
    natToBits n (bitsToNat ((inRest p).take n)) = (inRest p).take n := by
  have hlen : ((inRest p).take n).length = n := by
    rw [List.length_take, inRest_length]
    omega
  calc natToBits n (bitsToNat ((inRest p).take n))
    _ = natToBits ((inRest p).take n).length (bitsToNat ((inRest p).take n)) := by rw [hlen]
    _ = (inRest p).take n := natToBits_bitsToNat _

/-- The cursor does not wrap within an input it can address (R35). -/
theorem toNat_advance {p : InPort} {n : Nat} (hf : p.data.length ≤ 2 ^ 37 - 1) (h : p.pos.toNat + n ≤ 8 * p.data.length) :
    (p.pos + BitVec.ofNat 40 n).toNat = p.pos.toNat + n := by
  rw [BitVec.toNat_add, BitVec.toNat_ofNat]
  simp only [posW_eq]
  omega

/-- Steps of the sequencer while bits stand ready append them one by one and do nothing else (R50; log entry 6). -/
theorem runFor_unsent {s : State} {cmd stage : Instr} (hq : s.seq = .running cmd stage) (bs : List Bool) (k : Nat)
    (hk : k ≤ bs.length) :
    runFor k { s with unsent := bs } = { s with out := s.out.push (bs.take k), unsent := bs.drop k } := by
  induction k generalizing s bs with
  | zero => rfl
  | succ k ih =>
    cases bs with
    | nil => cases hk
    | cons b bs =>
      rw [runFor_busy k (busy_running (s := { s with unsent := b :: bs }) hq)]
      have hm : microStep { s with unsent := b :: bs } = { s with out := s.out.writeBit b, unsent := bs } := by
        simp only [microStep, hq, sendBit]
      rw [hm]
      exact ih (s := { s with out := s.out.writeBit b }) hq bs (Nat.le_of_succ_le_succ hk)

end Sys2Proof.Machine

namespace Sys2Proof.Proofs
open Sys2Proof.Machine

/-- Settles O53: the three answers, by the source's draw and the bits left. -/
theorem readBitsOutcomes : Obligations.ReadBitsOutcomes := by
  refine fun n p _ _ hf => ⟨readBits_ioErr n p, readBits_eos n p, fun hd h => ?_⟩
  have hlt : bitsToNat ((inRest p).take n) < 2 ^ n :=
    (bitsToNat_lt _).trans_le (Nat.pow_le_pow_right (by decide) (List.length_take_le n _))
  exact ⟨_, _, readBits_val n p hd h, hlt, natToBits_take h, rfl, rfl, toNat_advance hf h⟩

/-- Settles O54: the bits stand ready in order, and each step appends the next. -/
theorem writeBitsAppends : Obligations.WriteBitsAppends := by
  intro n v k s cmd stage _ _ hk hq hu ha bits
  have hready : s.writeBits n v = { s with unsent := bits } := by
    rw [State.writeBits, hu]
    rfl
  have hlen : bits.length = n := by simp [bits]
  have hrun : runFor k (s.writeBits n v) = { s with out := s.out.push (bits.take k), unsent := bits.drop k } := by
    rw [hready, runFor_unsent hq bits k (by omega)]
  exact ⟨_, hrun, rfl, push_wrote _ _ ha⟩

end Sys2Proof.Proofs
end

section
/-! SUPPORT. What each command leaves unchanged (R73, R107): a frame per stage, the frames of the composites over those of their
stages, and where a run is cut into turns (log entry 6). -/

namespace Sys2Proof.Machine

/-! ## Frames -/

/-- `s` with the lifecycle's registers, the scratch and the grants of `t`. -/
def lifeFrame (s t : State) : State :=
  { s with
    seq := t.seq, cmd := t.cmd, done := t.done, err := t.err, ovr := t.ovr, errCode := t.errCode, errInfo := t.errInfo
    doneIp := t.doneIp, errIp := t.errIp, phase := t.phase, heap := t.heap, dstack := t.dstack, unsent := t.unsent
    grants := t.grants }

/-- `t` with what CLEAR leaves of `s` (R75). -/
def clearFrame (s t : State) : State :=
  { t with
    magic := s.magic, doneIe := s.doneIe, errIe := s.errIe, host := s.host, reply := s.reply, draws := s.draws
    inp := { t.inp with data := s.inp.data, ioDraws := s.inp.ioDraws }, out := { t.out with data := s.out.data } }

/-- `t` with what ENCODE leaves of `s` (R96). -/
def encodeFrame (s t : State) : State :=
  { t with
    magic := s.magic, doneIe := s.doneIe, errIe := s.errIe, walk := s.walk, host := s.host, reply := s.reply
    inp := { t.inp with data := s.inp.data } }

/-- `t` with what DECODE leaves of `s` (R101). -/
def decodeFrame (s t : State) : State :=
  { t with
    magic := s.magic, doneIe := s.doneIe, errIe := s.errIe, freqV := s.freqV, freq := s.freq, inCount := s.inCount
    code := s.code, host := s.host, reply := s.reply, inp := { t.inp with data := s.inp.data } }

/-- `s` with what a stage may change taken from `t`, by the rule of the stage. -/
def stageFrame : Instr → State → State → State
  | .nop, s, t => lifeFrame s t
  | .clear, s, t => clearFrame s t
  | .openout, s, t | .encode, s, t | .decode, s, t => { lifeFrame s t with out := { t.out with data := s.out.data } }
  | .count, s, t => { lifeFrame s t with
      freqV := t.freqV, freq := t.freq, inCount := t.inCount, inp := { t.inp with data := s.inp.data } }
  | .build, s, t => { lifeFrame s t with
      treeV := t.treeV, codeV := t.codeV, decState := t.decState, treeSrc := t.treeSrc, node := t.node, root := t.root
      nodeCount := t.nodeCount, leafCount := t.leafCount, draws := t.draws }
  | .gencode, s, t => { lifeFrame s t with codeV := t.codeV, code := t.code }
  | .wrmagic, s, t => { lifeFrame s t with out := { t.out with isOpen := s.out.isOpen } }
  | .serialize, s, t => { lifeFrame s t with out := { t.out with isOpen := s.out.isOpen }, hdrBits := t.hdrBits }
  | .encbody, s, t => { lifeFrame s t with
      out := { t.out with isOpen := s.out.isOpen }, inp := { t.inp with data := s.inp.data } }
  | .close, s, t => { lifeFrame s t with out := { t.out with bits := s.out.bits } }
  | .rdmagic, s, t => { lifeFrame s t with inp := { t.inp with data := s.inp.data } }
  | .deserialize, s, t => { lifeFrame s t with
      treeV := t.treeV, codeV := t.codeV, decState := t.decState, treeSrc := t.treeSrc, node := t.node, root := t.root
      nodeCount := t.nodeCount, leafCount := t.leafCount, hdrBits := t.hdrBits, draws := t.draws
      inp := { t.inp with data := s.inp.data } }
  | .decbody, s, t => { lifeFrame s t with
      decState := t.decState, walk := t.walk, out := { t.out with isOpen := s.out.isOpen }
      inp := { t.inp with data := s.inp.data } }

theorem stageFrame_self (stage : Instr) (s : State) : s = stageFrame stage s s := by
  cases stage <;> rfl

/-- A stage that only checked changed nothing. -/
theorem checked_frame {stage : Instr} {s : State} {body : State → StageResult}
    (h : (body s).state = stageFrame stage s (body s).state) :
    (checked stage s body).state = stageFrame stage s (checked stage s body).state := by
  rcases checked_cases stage s body with ⟨-, h'⟩ | ⟨e, -, h'⟩ <;> rw [h']
  · exact h
  · exact stageFrame_self stage s

theorem countIter_frame (s : State) : (countIter s).state = stageFrame .count s (countIter s).state := by
  unfold countIter
  rcases readBits_cases Config.bitsPerWord s.inp with ⟨v, hr, -⟩ | ⟨hr, -⟩ | ⟨hr, -⟩ <;> simp only [hr]
  · split <;> rfl
  · rfl
  · rfl

theorem buildIter_frame (L n : Nat) (s : State) : (buildIter L n s).state = stageFrame .build s (buildIter L n s).state := by
  unfold buildIter
  repeat' split
  all_goals rfl

theorem gencodeIter_frame (s : State) : (gencodeIter s).state = stageFrame .gencode s (gencodeIter s).state := by
  unfold gencodeIter
  dsimp only
  repeat' split
  all_goals rfl

theorem serializeIter_frame (s : State) : (serializeIter s).state = stageFrame .serialize s (serializeIter s).state := by
  unfold serializeIter
  dsimp only
  repeat' split
  all_goals rfl

theorem encbodyIter_frame (s : State) : (encbodyIter s).state = stageFrame .encbody s (encbodyIter s).state := by
  unfold encbodyIter
  rcases readBits_cases Config.bitsPerWord s.inp with ⟨v, hr, -⟩ | ⟨hr, -⟩ | ⟨hr, -⟩ <;> simp only [hr]
  · split <;> rfl
  · split <;> rfl
  · rfl

theorem rdmagicEnter_frame (s : State) : (rdmagicEnter s).state = stageFrame .rdmagic s (rdmagicEnter s).state := by
  unfold rdmagicEnter
  rcases readBits_cases Config.magicBits s.inp.rewind with ⟨v, hr, -⟩ | ⟨hr, -⟩ | ⟨hr, -⟩ <;> simp only [hr]
  · split <;> rfl
  · rfl
  · rfl

theorem deserializeField_frame (i : BitVec Config.idxW) (s : State) :
    (deserializeField i s).state = stageFrame .deserialize s (deserializeField i s).state := by
  unfold deserializeField deserializeLeaf
  rcases readBits_cases Config.leafBits s.inp with ⟨v, hr, -⟩ | ⟨hr, -⟩ | ⟨hr, -⟩ <;> simp only [hr]
  · repeat' split
    all_goals rfl
  · rfl
  · rfl

theorem deserializeIter_frame (s : State) :
    (deserializeIter s).state = stageFrame .deserialize s (deserializeIter s).state := by
  unfold deserializeIter
  rcases readBits_cases 1 s.inp with ⟨v, hr, -⟩ | ⟨hr, -⟩ | ⟨hr, -⟩ <;> simp only [hr]
  · repeat' split
    all_goals rfl
  · rfl
  · rfl

theorem decbodyIter_frame (k : Nat) (s : State) :
    (decbodyIter k s).state = stageFrame .decbody s (decbodyIter k s).state := by
  unfold decbodyIter decbodyAt
  rcases readBits_cases 1 s.inp with ⟨v, hr, -⟩ | ⟨hr, -⟩ | ⟨hr, -⟩ <;> simp only [hr]
  · repeat' split
    all_goals rfl
  · rfl
  · rfl

/-- A pass of a stage changes no more than the stage's rule lets it. -/
theorem stageStep_frame (stage : Instr) (s : State) :
    (stageStep stage s).state = stageFrame stage s (stageStep stage s).state := by
  unfold stageStep
  split
  case h_1 => exact stageFrame_self _ s
  case h_6 => exact countIter_frame s
  case h_7 => exact buildIter_frame _ _ s
  case h_8 => exact checked_frame rfl
  case h_9 => exact checked_frame rfl
  case h_10 => exact gencodeIter_frame s
  case h_11 => exact checked_frame rfl
  case h_12 => exact checked_frame rfl
  case h_13 => exact serializeIter_frame s
  case h_14 => exact checked_frame rfl
  case h_15 => exact encbodyIter_frame s
  case h_16 =>
    refine checked_frame ?_
    unfold OutPort.closeOut
    split <;> rfl
  case h_18 => exact rdmagicEnter_frame s
  case h_20 => exact deserializeField_frame _ s
  case h_21 => exact deserializeIter_frame s
  case h_22 => exact decbodyIter_frame _ s
  case h_23 =>
    refine checked_frame ?_
    dsimp only
    repeat' split
    all_goals rfl
  all_goals rfl

/-- The stages that give bits to a WriteBits (R93, R90, R94, R98). -/
def writesBits : Instr → Bool
  | .wrmagic | .serialize | .encbody | .decbody => true
  | _ => false

theorem checked_unsent {stage : Instr} {s : State} {body : State → StageResult} (h : (body s).state.unsent = s.unsent) :
    (checked stage s body).state.unsent = s.unsent :=
  checked_keeps State.unsent h

/-- The other stages leave the bits under way alone. -/
theorem stageStep_unsent {stage : Instr} (h : writesBits stage = false) (s : State) :
    (stageStep stage s).state.unsent = s.unsent := by
  unfold stageStep
  split
  case h_6 => unfold countIter; repeat' split
              all_goals rfl
  case h_7 => unfold buildIter; repeat' split
              all_goals rfl
  case h_10 => unfold gencodeIter; dsimp only; repeat' split
               all_goals rfl
  case h_18 => unfold rdmagicEnter; repeat' split
               all_goals rfl
  case h_20 => exact deserializeField_unsent _ s
  case h_21 => unfold deserializeIter; dsimp only; repeat' split
               all_goals rfl
  case h_8 => exact checked_unsent rfl
  case h_9 => exact checked_unsent rfl
  case h_16 => exact checked_unsent rfl
  case h_11 => cases h
  case h_12 => cases h
  case h_13 => cases h
  case h_14 => cases h
  case h_15 => cases h
  case h_22 => cases h
  case h_23 => cases h
  all_goals rfl

/-- A frame: what of `s` it keeps, put into `t`. Of `s` itself it makes `s`, the lifecycle does not show in what it keeps, and
putting twice is putting once. -/
structure IsFrame (g : State → State → State) : Prop where
  self : ∀ s, g s s = s
  absorb : ∀ s u t, g (g s u) t = g s t
  life : ∀ s u t, g (lifeFrame s u) t = g s t

/-- A frame that each stage of a command keeps, and an appended bit where a stage writes bits, the whole command keeps. -/
theorem exec_frame {g : State → State → State} (hg : IsFrame g) (i : Instr) (L : List Instr) (hi : i ∈ L)
    (hL : ∀ st ∈ L, ∀ st', nextStage i st = some st' → st' ∈ L)
    (hs : ∀ st ∈ L, ∀ s, (stageStep st s).state = g s (stageStep st s).state)
    (hb : (∀ s b rest, g (sendBit b rest s) State.reset = g s State.reset) ∨ ∀ st ∈ L, writesBits st = false)
    {s t : State} (h : exec i s = .next t) : t = g s t := by
  have hview : g t State.reset = g s State.reset := by
    refine exec_keeps (fun s => g s State.reset) ?_ i L hi hL (fun st hst s => ?_) ?_ s t h
    · intro s q c d e o ec ei di ri ph hp ds un gr
      exact hg.life s { s with
        seq := q, cmd := c, done := d, err := e, ovr := o, errCode := ec, errInfo := ei
        doneIp := di, errIp := ri, phase := ph, heap := hp, dstack := ds, unsent := un, grants := gr } State.reset
    · rw [hs st hst s, hg.absorb]
    · exact hb.imp id fun k st hst s => stageStep_unsent (k st hst) s
  calc t
    _ = g (g t State.reset) t := by rw [hg.absorb, hg.self]
    _ = g s t := by rw [hview, hg.absorb]

theorem stageFrame_isFrame (stage : Instr) : IsFrame (stageFrame stage) where
  self s := (stageFrame_self stage s).symm
  absorb s u t := by cases stage <;> rfl
  life s u t := by cases stage <;> rfl

/-- An appended bit shows in no frame of a stage that writes bits. -/
theorem sendBit_stageFrame {stage : Instr} (h : writesBits stage = true) (s : State) (b : Bool) (rest : List Bool) :
    stageFrame stage (sendBit b rest s) State.reset = stageFrame stage s State.reset := by
  cases stage with
  | wrmagic => simp only [stageFrame, sendBit, writeBit_isOpen]; rfl
  | serialize => simp only [stageFrame, sendBit, writeBit_isOpen]; rfl
  | encbody => simp only [stageFrame, sendBit, writeBit_isOpen]; rfl
  | decbody => simp only [stageFrame, sendBit, writeBit_isOpen]; rfl
  | _ => cases h

/-- A command of one stage changes no more than its stage does. -/
theorem exec_stageFrame {i : Instr} (hi : stageList i = [i]) {s t : State} (h : exec i s = .next t) : t = stageFrame i s t := by
  refine exec_frame (stageFrame_isFrame i) i [i] (List.mem_singleton_self i) (fun st _ st' hn => hi ▸ nextStage_mem hn)
    (fun st hst s => ?_) ?_ h
  · rw [List.mem_singleton.1 hst]
    exact stageStep_frame i s
  · cases hw : writesBits i with
    | true => exact .inl (sendBit_stageFrame hw)
    | false => exact .inr fun st hst => by rw [List.mem_singleton.1 hst, hw]

/-- A composite changes no more than a frame over those of its stages. -/
theorem exec_composite_frame {g : State → State → State} (hg : IsFrame g) {i : Instr}
    (hst : ∀ st ∈ stageList i, ∀ s t, g s (stageFrame st s t) = stageFrame st s t)
    (hb : ∀ s b rest, g (sendBit b rest s) State.reset = g s State.reset) {s t : State} (h : exec i s = .next t) : t = g s t := by
  refine exec_frame hg i (stageList i) (self_mem_stageList i) (fun _ _ _ hn => nextStage_mem hn) (fun st hmem s => ?_) (.inl hb) h
  rw [stageStep_frame st s, hst st hmem]

theorem exec_encode_frame {s t : State} (h : exec .encode s = .next t) : t = encodeFrame s t := by
  refine exec_composite_frame (g := encodeFrame) ⟨fun _ => rfl, fun _ _ _ => rfl, fun _ _ _ => rfl⟩ ?_ (fun _ _ _ => rfl) h
  simp only [stageList, List.forall_mem_cons, List.not_mem_nil, false_imp_iff, implies_true, and_true]
  exact ⟨fun _ _ => rfl, fun _ _ => rfl, fun _ _ => rfl, fun _ _ => rfl, fun _ _ => rfl, fun _ _ => rfl, fun _ _ => rfl,
    fun _ _ => rfl⟩

theorem exec_decode_frame {s t : State} (h : exec .decode s = .next t) : t = decodeFrame s t := by
  refine exec_composite_frame (g := decodeFrame) ⟨fun _ => rfl, fun _ _ _ => rfl, fun _ _ _ => rfl⟩ ?_ (fun _ _ _ => rfl) h
  simp only [stageList, List.forall_mem_cons, List.not_mem_nil, false_imp_iff, implies_true, and_true]
  exact ⟨fun _ _ => rfl, fun _ _ => rfl, fun _ _ => rfl, fun _ _ => rfl, fun _ _ => rfl⟩

/-! ## Turns -/

/-- Some steps of a run first, and the rest in the machine's next step, leave what the run leaves (R73, R118). -/
theorem step_after_run {s t u : State} {m n : Nat} (hg : s.grants = []) (hh : s.host = []) (hm : stepBound s = m)
    (hu : runFor m s = u) (hidle : u.seq = .idle) (ht : runFor n s = t) : step t = .next u := by
  obtain ⟨hhost, hdata, hgr⟩ := runFor_env n s
  rw [ht] at hhost hdata hgr
  have hrest : runFor m t = u := by
    rw [← ht, ← runFor_add]
    exact runFor_mono hu hidle (Nat.le_add_left m n)
  have hbound : stepBound t = m := by rw [← hm, stepBound, stepBound, hdata]
  rw [step, machineStep, hhost, hh]
  refine congrArg Host.Outcome.next ?_
  split
  · rw [runTurn, hgr, hg]
    exact (congrArg (fun k => runFor k t) hbound).trans hrest
  · next hb => rw [← hrest, runFor_idle m (idle_of_not_busy (by simpa using hb))]

/-- From IDLE with one grant, a command is given that many steps (log entry 6). -/
theorem command_granted (i : Instr) {s : State} (n : Nat) (h : s.seq = .idle) :
    command i { s with grants := [n] } = runFor n (accept i { s with grants := [] }) := by
  rw [command, if_neg (by simp [State.busy, h])]
  rfl

end Sys2Proof.Machine

namespace Sys2Proof.Proofs
open Sys2Proof.Machine

/-- Settles O60: a command of one stage keeps its stage's frame, a composite one over the frames of its stages. -/
theorem commandFrames : Obligations.CommandFrames := fun _ _ =>
  ⟨exec_stageFrame rfl, exec_stageFrame rfl, exec_stageFrame rfl, exec_stageFrame rfl, exec_stageFrame rfl, exec_stageFrame rfl,
    exec_stageFrame rfl, exec_stageFrame rfl, exec_stageFrame rfl, exec_stageFrame rfl, exec_encode_frame, exec_stageFrame rfl,
    exec_stageFrame rfl, exec_stageFrame rfl, exec_decode_frame⟩

/-- Settles O38: the steps given first and those of the turn are one run, which ends where the undisturbed run does. -/
theorem commandUndisturbed : Obligations.CommandUndisturbed := by
  intro i s t u n hidle hhost hu hb ht
  rw [exec_eq_command] at hu ht
  injection hu with hu
  injection ht with ht
  have hready : Ready { s with grants := [] } := ⟨hidle, rfl⟩
  exact step_after_run (s := accept i { s with grants := [] }) rfl hhost rfl ((command_ready i hready).symm.trans hu)
    (idle_of_not_busy hb) ((command_granted i n hidle).symm.trans ht)

end Sys2Proof.Proofs
end

section
/-! SUPPORT. ENCODE stage by stage (R96): what each stage makes of the state, where COUNT or ENCBODY raises, and the container the
whole leaves. -/

namespace Sys2Proof.Machine

/-! ## Stages of a composite -/

/-- HUFFC before the first statement of a stage of the command `c`, with the data of `u` (R14, R70). -/
def inStage (c stage : Instr) (u : State) : State :=
  { u with
    seq := .running c stage, cmd := encode c, done := false, err := false, errCode := .eNone, errInfo := 0#32
    phase := .enter, unsent := [] }

theorem accept_eq_inStage (i : Instr) (s : State) : accept i s = inStage i i s := rfl

/-- A stage that ends with the data of `v` goes on with the next stage of the command. -/
theorem leads_inStage {c stage st : Instr} {u v w : State} {n : Nat} (hr : stageRun stage n (inStage c stage u) = .done w)
    (hn : nextStage c stage = some st) (hw : { w with seq := .running c st, phase := .enter } = inStage c st v) :
    Leads n (inStage c stage u) (inStage c st v) :=
  hw ▸ leads_next rfl rfl hr hn

/-- A stage of one pass. -/
theorem stageRun_one {stage : Instr} {s v : State} (h : passStep stage s = .done v) : stageRun stage 1 s = .done v :=
  stageRun_end 0 h (by simp)

/-- The opening step of ENCODE and of DECODE (R96, R101). -/
theorem leads_opened {c st : Instr} (hc : c = .encode ∨ c = .decode) (hn : nextStage c c = some st) (s : State) :
    Leads 1 (accept c s) (inStage c st { s with out := opened s.out }) := by
  have hpass : passStep c (inStage c c s) = .done (openBody (inStage c c s)) := by
    refine passStep_of ?_ rfl
    rcases hc with rfl | rfl <;> rfl
  rw [accept_eq_inStage]
  exact leads_inStage (stageRun_one hpass) hn rfl

/-- A composite ends where its stages lead to the completion of it. -/
theorem exec_of_leads {i : Instr} {s t : State} {n : Nat} (h : Ready s) (hl : Leads n (accept i s) t)
    (hn : 513 * n ≤ 8192 * s.inp.data.length + 2097152) (ht : t.seq = .idle) : exec i s = .next t := by
  rw [exec_eq_command, command_of_leads h hl hn ht]

/-! ## ENCODE up to ENCBODY -/

/-- The state with the count of its input (R77). -/
def withCount (s : State) : State :=
  { s with
    freqV := true, freq := freqOf s.inp.data, inCount := BitVec.ofNat 32 s.inp.data.length, out := opened s.out
    inp := ⟨s.inp.data, BitVec.ofNat 40 (8 * s.inp.data.length), s.inp.ioDraws.drop (s.inp.data.length + 1)⟩ }

/-- COUNT in ENCODE (R96). -/
theorem leads_count {s : State} (hl : s.inp.data.length ≤ 2 ^ 32 - 2)
    (hd : ∀ j ≤ s.inp.data.length, s.inp.ioDraws.getD j false = false) :
    Leads (s.inp.data.length + 2) (inStage .encode .count { s with out := opened s.out })
      (inStage .encode .build (withCount s)) :=
  leads_inStage (count_stage (inStage .encode .count { s with out := opened s.out }) rfl rfl hl hd) rfl rfl

/-- The state with the tree `T`, which stands in the table `t`, built from the count (R81). -/
def built (s : State) (T : HTree) (t : Table NodeRec) : State :=
  { withCount s with
    treeV := true, codeV := false, decState := .idle, treeSrc := .build, node := t, heap := [T.size - 1]
    root := BitVec.ofNat 10 (T.size - 1), nodeCount := BitVec.ofNat 10 T.size, leafCount := BitVec.ofNat 9 T.leaves }

/-- What BUILD's tree is to the input it was built for (R81 to R83). -/
structure BuiltFor (data : List Byte) (T : HTree) (t : Table NodeRec) : Prop where
  inner : ∃ l r, T = .node l r
  stands : treeAt t T (T.size - 1) = true
  size : T.size ≤ 513
  nodup : T.syms.Nodup
  syms : ∀ v, v ∈ T.syms ↔ v = 256 ∨ (∃ b ∈ data, b.toNat = v) ∨ (data = [] ∧ v = 0)

/-- The tree's registers after BUILD (R81). -/
theorem BuiltFor.registers {data : List Byte} {T : HTree} {t : Table NodeRec} (hB : BuiltFor data T t) :
    treeAt t T (BitVec.ofNat 10 (T.size - 1)).toNat = true ∧ (BitVec.ofNat 10 T.size).toNat = T.size ∧
      2 * (BitVec.ofNat 9 T.leaves).toNat = T.size + 1 := by
  have hsize := hB.size
  have hleaves := T.size_eq
  refine ⟨?_, toNat_recordIndex (by omega), ?_⟩
  · rw [toNat_recordIndex (by omega)]
    exact hB.stands
  · rw [BitVec.toNat_ofNat, Nat.mod_eq_of_lt (by omega)]
    exact hleaves.symm

theorem countHolds_withCount {s : State} (hl : s.inp.data.length ≤ 2 ^ 32 - 2) : countHolds (withCount s) :=
  countHolds_freqOf hl rfl rfl

/-- The symbols with a count are the input's bytes and the sentinel (R77). -/
theorem freqAt_withCount_pos {s : State} (hl : s.inp.data.length ≤ 2 ^ 32 - 2) {v : Nat} (hv : v < 257) :
    0 < (freqAt (withCount s) v).toNat ↔ v = 256 ∨ ∃ b ∈ s.inp.data, b.toNat = v := by
  have hget : tableGet (withCount s).freq v = _ := tableGet_freqOf s.inp.data v
  rw [freqAt, hget]
  by_cases h256 : v < 256
  · have hle : s.inp.data.count (BitVec.ofNat 8 v) ≤ s.inp.data.length := List.count_le_length
    have hcount : (BitVec.ofNat 32 (s.inp.data.count (BitVec.ofNat 8 v))).toNat = s.inp.data.count (BitVec.ofNat 8 v) :=
      (BitVec.toNat_ofNat _ _).trans (Nat.mod_eq_of_lt (by omega))
    rw [if_pos h256, Option.getD_some]
    rw [show (BitVec.ofNat 32 (s.inp.data.count (BitVec.ofNat 8 v)) : BitVec Config.cntW).toNat = _ from hcount,
      List.count_pos_iff]
    constructor
    · exact fun hm => .inr ⟨_, hm, (BitVec.toNat_ofNat v 8).trans (Nat.mod_eq_of_lt h256)⟩
    · rintro (rfl | ⟨b, hb, rfl⟩)
      · omega
      · rwa [BitVec.ofNat_toNat, BitVec.setWidth_eq]
  · obtain rfl : v = 256 := by omega
    rw [if_neg h256, if_pos rfl]
    exact iff_of_true (by decide) (.inl rfl)

/-- What BUILD takes of the count of an input: its bytes, the sentinel, and AUG_SYMBOL where it is empty (R81, R82). -/
theorem mem_symbolList_withCount {s : State} (hl : s.inp.data.length ≤ 2 ^ 32 - 2) (v : Nat) :
    v ∈ symbolList (withCount s) ↔ v = 256 ∨ (∃ b ∈ s.inp.data, b.toNat = v) ∨ (s.inp.data = [] ∧ v = 0) := by
  by_cases h0 : s.inp.data = []
  · rw [symbolList_of_empty (countHolds_withCount hl) (by simp [withCount, h0])]
    simp [h0, or_comm]
  · have hmem : ∀ w, w ∈ ((List.range Config.nsym).filter fun v => decide (0 < (freqAt (withCount s) v).toNat)) ↔
        w = 256 ∨ ∃ b ∈ s.inp.data, b.toNat = w := by
      intro w
      rw [List.mem_filter, List.mem_range, decide_eq_true_iff]
      constructor
      · rintro ⟨hw, hp⟩
        exact (freqAt_withCount_pos hl hw).1 hp
      · intro hw
        have hlt : w < 257 := by
          rcases hw with rfl | ⟨b, -, rfl⟩
          · decide
          · have := b.isLt
            omega
        exact ⟨hlt, (freqAt_withCount_pos hl hlt).2 hw⟩
    obtain ⟨b, hb⟩ := List.exists_mem_of_ne_nil _ h0
    have hlen : ((List.range Config.nsym).filter fun v => decide (0 < (freqAt (withCount s) v).toNat)).length ≠ 1 := by
      intro h1
      obtain ⟨x, hx⟩ := List.length_eq_one_iff.1 h1
      have hx256 := (hmem 256).2 (.inl rfl)
      have hxb := (hmem b.toNat).2 (.inr ⟨b, hb, rfl⟩)
      rw [hx, List.mem_singleton] at hx256 hxb
      have := b.isLt
      omega
    rw [symbolList]
    simp only [hlen, if_false, hmem, h0, false_and, or_false]

/-- Reads past the first `k` are the later reads. -/
theorem getD_drop (l : List Bool) (k j : Nat) : (l.drop k).getD j false = l.getD (k + j) false := by
  rw [List.getD_eq_getElem?_getD, List.getElem?_drop, ← List.getD_eq_getElem?_getD]

theorem Leads.mono {m n : Nat} {s t : State} (h : Leads m s t) (hmn : m ≤ n) : Leads n s t := by
  obtain ⟨k, hk, hrun⟩ := h
  exact ⟨k, by omega, hrun⟩

/-- BUILD in ENCODE (R96). -/
theorem leads_build {s : State} (hl : s.inp.data.length ≤ 2 ^ 32 - 2) :
    ∃ T t, BuiltFor s.inp.data T t ∧
      Leads 258 (inStage .encode .build (withCount s)) (inStage .encode .gencode (built s T t)) := by
  have hc := countHolds_withCount hl
  obtain ⟨h2, hL⟩ := symbolList_length_bounds hc
  obtain ⟨hnd, hS, -, hsum⟩ := symbolList_of_countHolds hc
  have hfit : (withCount s).inCount.toNat + 1 < 2 ^ 32 := Nat.lt_of_le_of_lt (Nat.succ_le_succ hc.2.2.2) (by decide)
  have hsyms : buildSymbols (inStage .encode .build (withCount s)) = symbolList (withCount s) :=
    (symbolList_eq_buildSymbols _).symm
  obtain ⟨t, hF, -, -, hrun⟩ := build_stage (inStage .encode .build (withCount s)) rfl rfl rfl (hsyms ▸ h2) (hsyms ▸ hL)
    (fun v hv => Nat.lt_of_le_of_lt (hS v (hsyms ▸ hv)) (by decide)) (by rw [hsyms]; exact hsum.trans_lt hfit)
  rw [hsyms] at hF hrun
  obtain ⟨l, r, hT, hperm, hsize⟩ := hF.tree h2
  have hleaves : (HTree.node l r).leaves = (symbolList (withCount s)).length := hperm.length_eq
  refine ⟨.node l r, t, ⟨⟨l, r, rfl⟩, ?_, by omega, hperm.nodup_iff.2 hnd, fun v => ?_⟩, ?_⟩
  · rw [hsize]
    exact hT
  · rw [hperm.mem_iff, mem_symbolList_withCount hl]
  · refine (leads_inStage hrun rfl ?_).mono (by omega)
    rw [built, hsize, hleaves]
    rfl

/-- The state with the code table of the tree `T`, the magic and the header of `T` written (R85, R90, R93). -/
def headed (s : State) (T : HTree) (t : Table NodeRec) : State :=
  { built s T t with
    codeV := true, code := codeTable T, dstack := [], hdrBits := BitVec.ofNat 32 T.header.length
    out := (opened s.out).push (natToBits 32 s.magic.toNat ++ T.header) }

/-- GENCODE as a stage (R85). -/
theorem leads_gencode {c st : Instr} {u : State} {T : HTree} (hn : nextStage c .gencode = some st) (hv : u.treeV = true)
    (hz : T.size ≤ 513) (hT : treeAt u.node T u.root.toNat = true) :
    Leads (T.size + 2) (inStage c .gencode u) (inStage c st { u with codeV := true, code := codeTable T, dstack := [] }) :=
  leads_inStage (gencode_stage (inStage c .gencode u) T rfl rfl hv hz hT) hn rfl

/-- WRMAGIC as a stage (R93). -/
theorem leads_wrmagic {c st : Instr} {u : State} (hn : nextStage c .wrmagic = some st) (ho : u.out.isOpen = true) :
    Leads 1 (inStage c .wrmagic u) (inStage c st { u with out := u.out.push (natToBits 32 u.magic.toNat) }) := by
  have hpass := wrmagic_pass (s := inStage c .wrmagic u) rfl rfl ho
  change passStep .wrmagic (inStage c .wrmagic u) =
    .done { inStage c .wrmagic u with out := u.out.push (natToBits 32 u.magic.toNat) } at hpass
  -- the bits as a variable: comparing the two states must not compute them
  generalize natToBits 32 u.magic.toNat = bits at hpass ⊢
  exact leads_inStage (stageRun_one hpass) hn rfl

/-- SERIALIZE as a stage (R90). -/
theorem leads_serialize {c st : Instr} {u : State} {T : HTree} (hn : nextStage c .serialize = some st) (hv : u.treeV = true)
    (ho : u.out.isOpen = true) (hz : T.size ≤ 513) (hT : treeAt u.node T u.root.toNat = true) :
    Leads (T.size + 2) (inStage c .serialize u) (inStage c st { u with
      hdrBits := BitVec.ofNat 32 T.header.length, dstack := [], out := u.out.push T.header }) :=
  leads_inStage (serialize_stage (inStage c .serialize u) T rfl rfl hv ho hz hT) hn rfl

/-- GENCODE, WRMAGIC and SERIALIZE in ENCODE (R96). -/
theorem leads_headed {s : State} {T : HTree} {t : Table NodeRec} (hB : BuiltFor s.inp.data T t) :
    Leads 1031 (inStage .encode .gencode (built s T t)) (inStage .encode .encbody (headed s T t)) := by
  have hsize := hB.size
  obtain ⟨hT, -, -⟩ := hB.registers
  have hcode := leads_gencode (c := .encode) (u := built s T t) rfl rfl hsize hT
  have hmagic := leads_wrmagic (c := .encode)
    (u := { built s T t with codeV := true, code := codeTable T, dstack := [] }) rfl rfl
  have hhead := leads_serialize (c := .encode) (u := { built s T t with
    codeV := true, code := codeTable T, dstack := [], out := (opened s.out).push (natToBits 32 s.magic.toNat) })
    rfl rfl (push_isOpen _ _) hsize hT
  rw [headed, ← push_push]
  change Leads 1 _ (inStage .encode .serialize { built s T t with
    codeV := true, code := codeTable T, dstack := [], out := (opened s.out).push (natToBits 32 s.magic.toNat) }) at hmagic
  generalize natToBits 32 s.magic.toNat = bits at hmagic hhead ⊢
  exact ((hcode.trans hmagic).trans hhead).mono (by omega)

/-- ENCODE up to ENCBODY, where no read of COUNT fails (R96). -/
theorem leads_encode_body {s : State} (hl : s.inp.data.length ≤ 2 ^ 32 - 2)
    (hd : ∀ j ≤ s.inp.data.length, s.inp.ioDraws.getD j false = false) :
    ∃ T t, BuiltFor s.inp.data T t ∧
      Leads (s.inp.data.length + 1292) (accept .encode s) (inStage .encode .encbody (headed s T t)) := by
  obtain ⟨T, t, hB, hbuild⟩ := leads_build hl
  exact ⟨T, t, hB, ((((leads_opened (.inl rfl) rfl s).trans (leads_count hl hd)).trans hbuild).trans
    (leads_headed hB)).mono (by omega)⟩

/-- Every byte of the input, and the sentinel, has a code in the table of the tree built for it (R83, R87). -/
theorem BuiltFor.entry {data : List Byte} {T : HTree} {t : Table NodeRec} (hB : BuiltFor data T t) {v : Nat} (hv : v < 257)
    (hmem : v ∈ T.syms) {u : State} (hu : u.code = codeTable T) :
    (codeAt u v).len ≠ 0#9 ∧ codeBits (codeAt u v) = (T.code v).getD [] := by
  obtain ⟨l, r, rfl⟩ := hB.inner
  obtain ⟨c, hc, -, h1, h256⟩ := code_of_mem hB.size hmem
  have hentry : codeAt u v = entryOf (some c) := by
    rw [codeAt_of_tableGet (by rw [hu, tableGet_codeTable _ v hv]), hc]
  rw [hentry, hc]
  refine ⟨fun h0 => ?_, codeBits_entryOf c h256⟩
  have hlen := entryOf_len h256
  rw [h0, BitVec.toNat_zero] at hlen
  omega

theorem BuiltFor.byte_mem {data : List Byte} {T : HTree} {t : Table NodeRec} (hB : BuiltFor data T t) {b : Byte}
    (hb : b ∈ data) : b.toNat ∈ T.syms :=
  (hB.syms _).2 (.inr (.inl ⟨b, hb, rfl⟩))

theorem BuiltFor.sentinel_mem {data : List Byte} {T : HTree} {t : Table NodeRec} (hB : BuiltFor data T t) : 256 ∈ T.syms :=
  (hB.syms _).2 (.inl rfl)

/-- A byte's entry in the table of the tree built for its input. -/
theorem BuiltFor.byte_entry {data : List Byte} {T : HTree} {t : Table NodeRec} (hB : BuiltFor data T t) {u : State}
    (hu : u.code = codeTable T) {b : Byte} (hb : b ∈ data) :
    (codeAt u b.toNat).len ≠ 0#9 ∧ codeBits (codeAt u b.toNat) = (T.code b.toNat).getD [] :=
  hB.entry (by have := b.isLt; omega) (hB.byte_mem hb) hu

/-- The codes of bytes of the input, as ENCBODY writes them and as the container has them (R64, R67). -/
theorem BuiltFor.codes_eq {data : List Byte} {T : HTree} {t : Table NodeRec} (hB : BuiltFor data T t) {u : State}
    (hu : u.code = codeTable T) (l : List Byte) (hl : l ⊆ data) :
    (l.flatMap fun b => codeBits (codeAt u b.toNat)) = l.flatMap fun b => (T.code b.toNat).getD [] :=
  List.flatMap_congr fun _ hb => (hB.byte_entry hu (hl hb)).2

/-- The body ENCBODY writes is the container's (R64, R67). -/
theorem BuiltFor.body_eq {data : List Byte} {T : HTree} {t : Table NodeRec} (hB : BuiltFor data T t) {u : State}
    (hu : u.code = codeTable T) :
    bodyBits (fun v => codeBits (codeAt u v)) data = bodyBits (fun v => (T.code v).getD []) data := by
  rw [bodyBits, bodyBits, hB.codes_eq hu data (List.Subset.refl _),
    show codeBits (codeAt u Config.pseudoEof) = (T.code Config.pseudoEof).getD [] from
      (hB.entry (by decide) hB.sentinel_mem hu).2]

/-! ## ENCODE to its end -/

/-- The output port with the container, before CLOSE (R64). -/
def containerOut (s : State) (T : HTree) : OutPort := (opened s.out).push (containerBits s.magic T s.inp.data)

/-- ENCBODY as a stage (R94). -/
theorem leads_encbody {c st : Instr} {u : State} (hn : nextStage c .encbody = some st) (hv : u.codeV = true)
    (ho : u.out.isOpen = true) (hf : u.inp.data.length ≤ Config.maxAttach)
    (hd : ∀ j ≤ u.inp.data.length, u.inp.ioDraws.getD j false = false)
    (hc : ∀ b ∈ u.inp.data, (codeAt u b.toNat).len ≠ 0#9) (he : (codeAt u 256).len ≠ 0#9) :
    Leads (u.inp.data.length + 2) (inStage c .encbody u) (inStage c st { u with
      inp := ⟨u.inp.data, BitVec.ofNat 40 (8 * u.inp.data.length), u.inp.ioDraws.drop (u.inp.data.length + 1)⟩
      out := u.out.push (bodyBits (fun v => codeBits (codeAt u v)) u.inp.data) }) :=
  leads_inStage (encbody_stage (inStage c .encbody u) rfl rfl hv ho hf hd hc he) hn rfl

/-- The input port before ENCBODY. -/
theorem headed_inp (s : State) (T : HTree) (t : Table NodeRec) : (headed s T t).inp =
    ⟨s.inp.data, BitVec.ofNat 40 (8 * s.inp.data.length), s.inp.ioDraws.drop (s.inp.data.length + 1)⟩ := rfl

/-- ENCODE, undisturbed, over an input of at most MAX_IN bytes none of whose reads fails (R72, R96). -/
theorem exec_encode_ready {s : State} (h : Ready s) (hl : s.inp.data.length ≤ 2 ^ 32 - 2)
    (hd : ∀ j < 2 * (s.inp.data.length + 1), s.inp.ioDraws.getD j false = false) :
    ∃ T t, BuiltFor s.inp.data T t ∧ exec .encode s = .next { completed .encode s with
      freqV := true, treeV := true, codeV := true, treeSrc := .build, decState := .idle
      freq := freqOf s.inp.data, inCount := BitVec.ofNat 32 s.inp.data.length
      node := t, code := codeTable T, root := BitVec.ofNat 10 (T.size - 1), nodeCount := BitVec.ofNat 10 T.size
      leafCount := BitVec.ofNat 9 T.leaves, hdrBits := BitVec.ofNat 32 T.header.length
      inp := ⟨s.inp.data, BitVec.ofNat 40 (8 * s.inp.data.length), s.inp.ioDraws.drop (2 * (s.inp.data.length + 1))⟩
      out := (containerOut s T).closeOut } := by
  obtain ⟨T, t, hB, hto⟩ := leads_encode_body hl fun j hj => hd j (by omega)
  have hfit : s.inp.data.length ≤ Config.maxAttach := hl.trans (by decide)
  have hopen : (headed s T t).out.isOpen = true := push_isOpen _ _
  have hdraws : ∀ j ≤ s.inp.data.length, (s.inp.ioDraws.drop (s.inp.data.length + 1)).getD j false = false := by
    intro j hj
    exact (getD_drop _ _ j).trans (hd _ (by omega))
  have hbody := leads_encbody (c := .encode) (u := headed s T t) rfl rfl hopen hfit hdraws
    (fun b hb => (hB.byte_entry rfl hb).1) (hB.entry (by decide) hB.sentinel_mem rfl).1
  have hout : (headed s T t).out.push (bodyBits (fun v => codeBits (codeAt (headed s T t) v)) s.inp.data) =
      containerOut s T := by
    rw [hB.body_eq (u := headed s T t) rfl, headed, containerOut, containerBits, push_push]
    rfl
  have hdrop : (s.inp.ioDraws.drop (s.inp.data.length + 1)).drop (s.inp.data.length + 1) =
      s.inp.ioDraws.drop (2 * (s.inp.data.length + 1)) := by
    rw [List.drop_drop, two_mul]
  simp only [headed_inp, hout, hdrop] at hbody
  have hclose := leads_complete (s := inStage .encode .close { headed s T t with
      inp := ⟨s.inp.data, BitVec.ofNat 40 (8 * s.inp.data.length), s.inp.ioDraws.drop (2 * (s.inp.data.length + 1))⟩
      out := containerOut s T }) (cmd := .encode) rfl rfl (stageRun_one (close_pass rfl rfl (push_isOpen _ _))) rfl
  exact ⟨T, t, hB, exec_of_leads h ((hto.trans hbody).trans hclose) (by omega) rfl⟩

/-- An output port newly opened, a run of bits and CloseOut(): the run stands after OUT_DATA, padded to a whole byte, and the
counters count it (R50, R51, R76). -/
theorem closeOut_push_opened (o : OutPort) (bs : List Bool) {p : OutPort} (hp : p = ((opened o).push bs).closeOut) :
    streamOf p.data = streamOf o.data ++ bs ++ padBits bs ∧ p.acc = [] ∧ p.isOpen = false ∧
    p.bits = BitVec.ofNat 32 bs.length ∧ p.count = BitVec.ofNat 32 (p.data.length - o.data.length) := by
  obtain ⟨hstream, hacc, -, hbits, hcount⟩ := push_wrote (opened o) bs (Nat.zero_le 7)
  obtain ⟨hstream', hacc', hopen', hbits', hcount'⟩ := closeOut_spec ((opened o).push bs) hacc
  obtain ⟨ds, hds⟩ := push_data (opened o) bs
  obtain ⟨es, hes, -⟩ := closeOut_data ((opened o).push bs)
  have hout : outStream (opened o) = streamOf o.data := List.append_nil _
  have hpad : padBits (streamOf o.data ++ bs) = padBits bs := by
    rw [padBits, padBits, List.length_append, streamOf_length, Nat.mul_add_mod]
  have hlen : ((opened o).push bs).data.length = o.data.length + ds.length := by
    rw [hds, List.length_append]
    rfl
  subst hp
  refine ⟨by rw [hstream', hstream, hout, hpad], hacc', hopen', ?_, ?_⟩
  · rw [hbits', hbits]
    exact BitVec.zero_add _
  · rw [hcount', hcount, hes, List.length_append, hlen]
    rw [show (opened o).data.length = o.data.length from rfl, show (opened o).count = 0#32 from rfl, BitVec.zero_add,
      ← BitVec.ofNat_add]
    congr 1
    omega

/-! ## ENCODE in error -/

/-- COUNT's error is ENCODE's (R96, R106). -/
theorem exec_encode_count_raise {s v : State} {k : Nat} {e : ErrCode} {info : Word} (h : Ready s)
    (hr : stageRun .count (k + 2) (inStage .encode .count { s with out := opened s.out }) = .raise e info v)
    (hk : k ≤ s.inp.data.length) : exec .encode s = .next (raiseError e info v) :=
  exec_of_leads h ((leads_opened (.inl rfl) rfl s).trans (leads_raise rfl rfl hr)) (by omega) rfl

/-- ENCBODY as a stage, where the source fails at read `k` (R94, R107, R108). -/
theorem leads_encbody_io {c : Instr} {u : State} {k : Nat} (hv : u.codeV = true) (ho : u.out.isOpen = true)
    (hk : k ≤ u.inp.data.length) (hf : u.inp.data.length ≤ Config.maxAttach)
    (hd : ∀ j < k, u.inp.ioDraws.getD j false = false) (hio : u.inp.ioDraws.getD k false = true)
    (hc : ∀ b ∈ u.inp.data.take k, (codeAt u b.toNat).len ≠ 0#9) :
    Leads (k + 2) (inStage c .encbody u) (raiseError .eFmtIo 0#32 { inStage c .encbody u with
      phase := .body
      inp := ⟨u.inp.data, BitVec.ofNat 40 (8 * k), u.inp.ioDraws.drop (k + 1)⟩
      out := u.out.push ((u.inp.data.take k).flatMap fun b => codeBits (codeAt u b.toNat)) }) :=
  leads_raise rfl rfl (encbody_end (inStage c .encbody u) k _ rfl rfl hv ho hk hf hd hc
    (encbody_pass_io (inStage c .encbody u) k rfl hio) (by simp))

/-- ENCODE where the source fails at read `k` of ENCBODY (R96, R107, R108). -/
theorem exec_encode_body_io {s : State} {k : Nat} (h : Ready s) (hl : s.inp.data.length ≤ 2 ^ 32 - 2)
    (hk : k ≤ s.inp.data.length) (hd : ∀ j < s.inp.data.length + 1 + k, s.inp.ioDraws.getD j false = false)
    (hio : s.inp.ioDraws.getD (s.inp.data.length + 1 + k) false = true) :
    ∃ T t, BuiltFor s.inp.data T t ∧ exec .encode s = .next (raiseError .eFmtIo 0#32
      { inStage .encode .encbody (headed s T t) with
        phase := .body
        inp := ⟨s.inp.data, BitVec.ofNat 40 (8 * k), s.inp.ioDraws.drop (s.inp.data.length + 1 + k + 1)⟩
        out := (opened s.out).push (natToBits 32 s.magic.toNat ++ T.header ++
          (s.inp.data.take k).flatMap fun b => (T.code b.toNat).getD []) }) := by
  obtain ⟨T, t, hB, hto⟩ := leads_encode_body hl fun j hj => hd j (by omega)
  have hdrop : ∀ j, (s.inp.ioDraws.drop (s.inp.data.length + 1)).getD j false =
      s.inp.ioDraws.getD (s.inp.data.length + 1 + j) false := getD_drop _ _
  have hraise := leads_encbody_io (c := .encode) (u := headed s T t) rfl (push_isOpen _ _) hk (hl.trans (by decide))
    (fun j hj => (hdrop j).trans (hd _ (by omega))) ((hdrop k).trans hio)
    fun b hb => (hB.byte_entry rfl (List.mem_of_mem_take hb)).1
  have hcodes := hB.codes_eq (u := headed s T t) rfl (s.inp.data.take k) fun b hb => List.mem_of_mem_take hb
  have hout : (headed s T t).out.push ((s.inp.data.take k).flatMap fun b => codeBits (codeAt (headed s T t) b.toNat)) =
      (opened s.out).push (natToBits 32 s.magic.toNat ++ T.header ++
        (s.inp.data.take k).flatMap fun b => (T.code b.toNat).getD []) := by
    rw [hcodes, headed, push_push]
  simp only [headed_inp, hout, List.drop_drop] at hraise
  exact ⟨T, t, hB, exec_of_leads h (hto.trans hraise) (by omega) rfl⟩

end Sys2Proof.Machine

namespace Sys2Proof.Proofs
open Sys2Proof.Machine

/-- Settles O22: the eight stages one after another, and what CLOSE leaves of the container's bits. -/
theorem encodeCompletes : Obligations.EncodeCompletes := by
  intro s h hs hl
  obtain ⟨T, t, hB, hexec⟩ := exec_encode_ready h hl fun j _ => sourceOk_getD hs j
  obtain ⟨hroot, hcount, hleaves⟩ := hB.registers
  obtain ⟨l, r, hT⟩ := hB.inner
  obtain ⟨hstream, hacc, hopen, hbits, hbytes⟩ := closeOut_push_opened s.out (containerBits s.magic T s.inp.data) rfl
  refine ⟨_, l, r, hexec, ?_, ?_⟩
  all_goals subst hT
  · rfl
  · exact ⟨hroot, hcount.symm, hleaves.trans (by rw [hcount]), fun b hb => hB.byte_mem hb, hB.sentinel_mem, hB.nodup,
      fun v hv => tableGet_codeTable _ v hv, hstream, hacc, hopen, hbits, hbytes⟩

/-- Settles O33: COUNT's errors are raised before anything is written; ENCBODY's behind the magic, the header and the codes of
the bytes read. -/
theorem encodeFailures : Obligations.EncodeFailures := by
  refine ⟨fun s k h hk hm hd hio => ?_, fun s h hd hf => ?_, fun s k h hl hk hd hio => ?_⟩
  · exact exec_encode_count_raise h (count_stage_io _ k rfl rfl hk hm hd hio) hk
  · exact exec_encode_count_raise h (count_stage_overflow _ rfl rfl hf hd) (by omega)
  · obtain ⟨T, t, hB, hexec⟩ := exec_encode_body_io h hl hk hd hio
    obtain ⟨hroot, -, -⟩ := hB.registers
    obtain ⟨l, r, hT⟩ := hB.inner
    have hwrote := push_wrote (opened s.out) (natToBits 32 s.magic.toNat ++ T.header ++
      (s.inp.data.take k).flatMap fun b => (T.code b.toNat).getD []) (Nat.zero_le 7)
    -- the bits as a variable: comparing the two states must not compute them
    generalize (opened s.out).push _ = out at hexec hwrote
    refine ⟨_, l, r, hexec, ?_, ?_⟩
    all_goals subst hT
    · rfl
    · exact ⟨hroot, fun b hb => hB.byte_mem hb, fun v hv => tableGet_codeTable _ v hv, hwrote⟩

end Sys2Proof.Proofs
end

section
/-! SUPPORT. DECODE stage by stage (R101): the magic, the header and the body, each with where it raises, and the ends of the
whole. -/

namespace Sys2Proof.Machine

/-! ## The magic -/

/-- The state with the output opened and the magic read (R97). -/
def magicRead (s : State) : State :=
  { s with out := opened s.out, inp := ⟨s.inp.data, 32#40, s.inp.ioDraws.tail⟩ }

/-- DECODE before RDMAGIC: its output opened (R101). -/
def atMagic (s : State) : State := inStage .decode .rdmagic { s with out := opened s.out }

/-- A stream that begins with a word's bits has them as its first 32. -/
theorem magic_of_prefix {bytes : List Byte} {w : Word} {rest : List Bool} (h : streamOf bytes = natToBits 32 w.toNat ++ rest) :
    32 ≤ 8 * bytes.length ∧ bitsToNat ((streamOf bytes).take 32) = w.toNat ∧ (streamOf bytes).drop 32 = rest := by
  have hlen := congrArg List.length h
  rw [streamOf_length, List.length_append, natToBits_length] at hlen
  refine ⟨by omega, ?_, ?_⟩
  · rw [h, List.take_left' (natToBits_length 32 _), bitsToNat_natToBits, Nat.mod_eq_of_lt w.isLt]
  · rw [h, List.drop_left' (natToBits_length 32 _)]

/-- DECODE up to RDMAGIC. -/
theorem leads_decode_opened (s : State) :
    Leads 1 (accept .decode s) (atMagic s) :=
  leads_opened (.inr rfl) rfl s

/-- RDMAGIC in DECODE, where the magic is right (R97, R101). -/
theorem leads_magic {s : State} (hd : s.inp.ioDraws.headD false = false) (hl : 32 ≤ 8 * s.inp.data.length)
    (hm : bitsToNat ((streamOf s.inp.data).take 32) = s.magic.toNat) :
    Leads 2 (accept .decode s) (inStage .decode .deserialize (magicRead s)) := by
  have henter := (rdmagicEnter_val (s := atMagic s) hd hl).trans (if_pos hm)
  exact (leads_decode_opened s).trans (leads_inStage (stageRun_one (passStep_of henter rfl)) rfl rfl)

/-- RDMAGIC's error is DECODE's (R97, R101). -/
theorem exec_decode_magic_raise {s v : State} {e : ErrCode} {info : Word} (h : Ready s)
    (hr : rdmagicEnter (atMagic s) = .raise e info v) (hu : v.unsent = []) :
    exec .decode s = .next (raiseError e info v) :=
  exec_of_leads h ((leads_decode_opened s).trans (leads_raise rfl rfl (stageRun_end 0 (passStep_of hr hu) (by simp))))
    (by omega) rfl

/-! ## The header -/

/-- The state with the tree `T` read into the table `t` (R91). -/
def treeRead (s : State) (T : HTree) (t : Table NodeRec) : State :=
  { magicRead s with
    treeV := true, codeV := false, decState := .idle, treeSrc := .deserialize, dstack := []
    root := 0#10, nodeCount := BitVec.ofNat 10 T.size, leafCount := BitVec.ofNat 9 T.leaves
    hdrBits := BitVec.ofNat 32 T.header.length, node := t
    inp := ⟨s.inp.data, BitVec.ofNat 40 (32 + T.header.length), s.inp.ioDraws.drop (1 + T.reads)⟩ }

/-- The reads of a tree that fits are few. -/
theorem HTree.reads_le {T : HTree} (h : T.fits) : T.reads ≤ 770 := by
  have hsize : T.size ≤ 513 := h.1
  rw [HTree.reads, T.leaves_eq]
  omega

/-- DECODE up to DECBODY, over the magic and the header of a tree that fits, none of whose reads fails (R91, R101). -/
theorem leads_treeRead {s : State} {T : HTree} {rest : List Bool} (hf : InputFits s) (hT : T.fits)
    (hr : streamOf s.inp.data = natToBits 32 s.magic.toNat ++ (T.header ++ rest))
    (hd : ∀ j < 1 + T.reads, s.inp.ioDraws.getD j false = false) :
    ∃ t, preAt t T 0 ∧ inRest (treeRead s T t).inp = rest ∧
      Leads 773 (accept .decode s) (inStage .decode .decbody (treeRead s T t)) := by
  obtain ⟨hl, hm, hdrop⟩ := magic_of_prefix hr
  have hrest : inRest (magicRead s).inp = T.header ++ rest := hdrop
  have hmagic := leads_magic ((headD_drop s.inp.ioDraws 0).trans (hd 0 (by omega))) hl hm
  have hpos : (magicRead s).inp.pos.toNat ≤ 8 * s.inp.data.length := hl
  obtain ⟨t, hpre, -, -, hrun⟩ := deserialize_stage (inStage .decode .deserialize (magicRead s)) T rest rfl rfl hf hpos hrest
    (fun j hj => (getD_tail _ j).trans (hd _ (by omega))) hT
  obtain ⟨hafter, -⟩ := inRest_after (magicRead s).inp T.header rest hf hpos hrest (s.inp.ioDraws.drop (1 + T.reads))
  have hcursor : (32#40 : BitVec 40) + BitVec.ofNat 40 T.header.length = BitVec.ofNat 40 (32 + T.header.length) :=
    (BitVec.ofNat_add 32 _).symm
  have hdraws : s.inp.ioDraws.tail.drop T.reads = s.inp.ioDraws.drop (1 + T.reads) := by
    rw [← List.drop_one, List.drop_drop]
  refine ⟨t, hpre, ?_, ?_⟩
  · rw [treeRead, ← hcursor]
    exact hafter
  · refine (hmagic.trans (leads_inStage hrun rfl ?_)).mono (by have := HTree.reads_le hT; omega)
    rw [treeRead, ← hcursor, ← hdraws]
    rfl

/-- DECODE over a header that does not end whole (R91, R101, R108). -/
theorem exec_decode_header_fails {s : State} {e : HeaderEnd} {b r : Nat} (h : Ready s) (hf : InputFits s)
    (hd : s.inp.ioDraws.headD false = false) (hl : 32 ≤ 8 * s.inp.data.length)
    (hm : bitsToNat ((streamOf s.inp.data).take 32) = s.magic.toNat)
    (hs : headerScan ⟨s.inp.data, 32#40, s.inp.ioDraws.tail⟩ = ⟨e, b, r⟩) (he : e ≠ .whole) : ∃ t, exec .decode s = .next t ∧
      t = { failed .decode e.error (e.info b) s with
        treeV := false, codeV := false, decState := .idle, hdrBits := BitVec.ofNat 32 b, out := opened s.out
        inp := ⟨s.inp.data, BitVec.ofNat 40 (32 + b), s.inp.ioDraws.drop (1 + r)⟩
        node := t.node, root := t.root, nodeCount := t.nodeCount, leafCount := t.leafCount, draws := t.draws } := by
  have hs' : headerScan (inStage .decode .deserialize (magicRead s)).inp = ⟨e, b, r⟩ := hs
  obtain ⟨hreads, u, hu, hrun⟩ :=
    deserialize_stage_fails (inStage .decode .deserialize (magicRead s)) rfl rfl hf (by rw [hs']; exact he)
  rw [hs'] at hreads hu hrun
  have hcursor : (32#40 : BitVec 40) + BitVec.ofNat 40 b = BitVec.ofNat 40 (32 + b) := (BitVec.ofNat_add 32 _).symm
  have hdraws : s.inp.ioDraws.tail.drop r = s.inp.ioDraws.drop (1 + r) := by
    rw [← List.drop_one, List.drop_drop]
  refine ⟨raiseError e.error (e.info b) u, exec_of_leads h ((leads_magic hd hl hm).trans (leads_raise rfl rfl hrun))
    (by dsimp only at hreads ⊢; omega) rfl, ?_⟩
  rw [hu, ← hcursor, ← hdraws]
  rfl

/-! ## The body -/

/-- Whole bytes written to a port with nothing pending (R50). -/
theorem push_streamOf (o : OutPort) (bytes : List Byte) (ha : o.acc = []) :
    o.push (streamOf bytes) =
      ⟨[], o.data ++ bytes, o.count + BitVec.ofNat 32 bytes.length, o.bits + BitVec.ofNat 32 (8 * bytes.length), o.isOpen⟩ := by
  refine wrote_unique (push_wrote o _ (by rw [ha]; exact Nat.zero_le 7)) ⟨?_, Nat.zero_le 7, rfl, by rw [streamOf_length], ?_⟩
  · simp only [outStream, streamOf_append, ha, List.append_nil]
  · simp only [List.length_append, Nat.add_sub_cancel_left]

/-- CloseOut() with nothing pending (R51). -/
theorem closeOut_of_nil {o : OutPort} (ha : o.acc = []) : o.closeOut = { o with isOpen := false } := by
  rw [OutPort.closeOut, if_neg (by simp [ha])]

/-- The output port of a decoder that has written the bytes of the leaves of `ps` (R101). -/
def decodedOut (o : OutPort) (ps : List (Nat × List Bool)) (isOpen : Bool) : OutPort :=
  ⟨[], o.data ++ ps.map (fun p => BitVec.ofNat 8 p.1), BitVec.ofNat 32 ps.length, BitVec.ofNat 32 (8 * ps.length), isOpen⟩

/-- The body's bits, written to the port newly opened (R50, R98). -/
theorem push_opened (o : OutPort) (ps : List (Nat × List Bool)) :
    (opened o).push (ps.flatMap fun p => natToBits 8 p.1) = decodedOut o ps true := by
  rw [← streamOf_map_bytes, push_streamOf (opened o) _ rfl]
  simp only [opened, decodedOut, BitVec.zero_add, List.length_map]

/-- CLOSE as a stage, with nothing pending (R95). -/
theorem leads_closed {u : State} (ho : u.out.isOpen = true) (ha : u.out.acc = []) :
    Leads 1 (inStage .decode .close u)
      (complete { inStage .decode .close u with out := { u.out with isOpen := false } }) := by
  rw [← closeOut_of_nil ha]
  exact leads_complete rfl rfl (stageRun_one (close_pass rfl rfl ho)) rfl

/-- DECBODY in DECODE, over a body that ends with the sentinel, and CLOSE (R98, R101). -/
theorem leads_decbody {u : State} {o : OutPort} {l r : HTree} {ps : List (Nat × List Bool)} {q rest : List Bool}
    (hf : InputFits u) (hv : u.treeV = true) (ho : u.out = opened o) (hT : treeAt u.node (.node l r) u.root.toNat = true)
    (hm : ∀ p ∈ ps, p ∈ (HTree.node l r).paths ∧ p.1 < 256) (hq : (256, q) ∈ (HTree.node l r).paths)
    (hr : inRest u.inp = ps.flatMap Prod.snd ++ q ++ rest)
    (hd : ∀ j < (ps.flatMap Prod.snd ++ q).length, u.inp.ioDraws.getD j false = false) :
    Leads ((ps.flatMap Prod.snd ++ q).length + 2) (inStage .decode .decbody u)
      (complete { inStage .decode .close u with
        decState := .done, walk := walkPath u.node u.root q
        out := decodedOut o ps false
        inp := ⟨u.inp.data, u.inp.pos + BitVec.ofNat 40 (ps.flatMap Prod.snd ++ q).length,
          u.inp.ioDraws.drop (ps.flatMap Prod.snd ++ q).length⟩ }) := by
  have hw : 0 < (ps.flatMap Prod.snd ++ q).length := by
    have : 0 < q.length := List.length_pos_iff.2 (HTree.paths_ne_nil _ hq)
    rw [List.length_append]
    omega
  have hopen : u.out.isOpen = true := by
    rw [ho]
    rfl
  have hrun := decbody_stage l r ps q (inStage .decode .decbody u) rest rfl rfl hv hopen hT
    (byte_ne_sentinel hm) hq hf (pos_le_of_inRest hw hr) hr hd
  rw [show (inStage .decode .decbody u).out = _ from ho, push_opened] at hrun
  exact (leads_inStage hrun rfl rfl).trans (leads_closed (u := { u with
    decState := .done, walk := walkPath u.node u.root q, out := decodedOut o ps true
    inp := ⟨u.inp.data, u.inp.pos + BitVec.ofNat 40 (ps.flatMap Prod.snd ++ q).length,
      u.inp.ioDraws.drop (ps.flatMap Prod.snd ++ q).length⟩ }) rfl rfl)

/-- DECBODY in DECODE where the read inside a path raises (R98, R107). -/
theorem leads_decbody_raise {u : State} {o : OutPort} {l r : HTree} {ps : List (Nat × List Bool)} {p : Nat × List Bool}
    {c rest : List Bool} {e : ErrCode} {info : Word}
    (hf : InputFits u) (hv : u.treeV = true) (ho : u.out = opened o) (hT : treeAt u.node (.node l r) u.root.toNat = true)
    (hm : ∀ p ∈ ps, p ∈ (HTree.node l r).paths ∧ p.1 < 256) (hmem : p ∈ (HTree.node l r).paths)
    (hpre : c <+: p.2) (hne : c ≠ p.2) (hr : inRest u.inp = ps.flatMap Prod.snd ++ c ++ rest)
    (hd : ∀ j < (ps.flatMap Prod.snd ++ c).length, u.inp.ioDraws.getD j false = false)
    (hpass : passStep .decbody (walkedUpto (inStage .decode .decbody u) ps c) =
      .raise e info { walkedUpto (inStage .decode .decbody u) ps c with
        inp := ⟨u.inp.data, u.inp.pos + BitVec.ofNat 40 (ps.flatMap Prod.snd ++ c).length,
          u.inp.ioDraws.drop ((ps.flatMap Prod.snd ++ c).length + 1)⟩ }) :
    Leads ((ps.flatMap Prod.snd ++ c).length + 2) (inStage .decode .decbody u)
      (raiseError e info { inStage .decode .decbody u with
        decState := .walking, walk := walkPath u.node u.root c, phase := .walk ps.length
        out := decodedOut o ps true
        inp := ⟨u.inp.data, u.inp.pos + BitVec.ofNat 40 (ps.flatMap Prod.snd ++ c).length,
          u.inp.ioDraws.drop ((ps.flatMap Prod.snd ++ c).length + 1)⟩ }) := by
  have hopen : u.out.isOpen = true := by
    rw [ho]
    rfl
  have hrun := decbody_walkedUpto (s := inStage .decode .decbody u) 1 rfl rfl hv hopen hT hm hmem hpre hne hf hr hd
  rw [stageRun_end 0 hpass (by simp)] at hrun
  have hraise := leads_raise (cmd := .decode) rfl rfl hrun
  simp only [walkedUpto, show (inStage .decode .decbody u).out = _ from ho, push_opened] at hraise
  exact hraise

/-- DECBODY in DECODE over a root that is a leaf (R100). -/
theorem passStep_decbody_leaf {u : State} {v : Nat} (hv : u.treeV = true) (ho : u.out.isOpen = true)
    (hn : nodeIn u.node u.root.toNat = ⟨true, BitVec.ofNat 9 v, 0#32, 0#10, 0#10⟩) :
    passStep .decbody (inStage .decode .decbody u) =
      if BitVec.ofNat 9 v = 256#9 then
        .done { inStage .decode .decbody u with decState := .done, walk := u.root, phase := .walk 0 }
      else .raise .eFmtDegenerate ((BitVec.ofNat 9 v).setWidth 32)
        { inStage .decode .decbody u with decState := .walking, walk := u.root, phase := .walk 0 } := by
  have hnode : nodeAt (inStage .decode .decbody u) (inStage .decode .decbody u).root.toNat =
      ⟨true, BitVec.ofNat 9 v, 0#32, 0#10, 0#10⟩ := hn
  have henter := decbodyEnter_leaf (s := inStage .decode .decbody u) hv ho (by rw [hnode])
  rw [hnode] at henter
  refine passStep_of henter ?_
  split <;> rfl

/-! ## DECODE to its end -/

/-- A leaf of a symbol is a tree that fits. -/
theorem fits_leaf {v : Nat} (hv : v ≤ 256) : (HTree.leaf v).fits :=
  ⟨(by decide : 1 ≤ 513), fun w hw => (List.mem_singleton.1 hw).trans_le hv⟩

section
variable {s : State} {l r : HTree} {ps : List (Nat × List Bool)}

/-- DECODE, undisturbed, over a container none of whose reads fails (R72, R101). -/
theorem exec_decode_ready {q rest : List Bool} (h : Ready s) (hf : InputFits s) (hT : (HTree.node l r).fits)
    (hm : ∀ p ∈ ps, p ∈ (HTree.node l r).paths ∧ p.1 < 256) (hq : (256, q) ∈ (HTree.node l r).paths)
    (hr : streamOf s.inp.data = natToBits 32 s.magic.toNat ++ (HTree.node l r).header ++ ps.flatMap Prod.snd ++ q ++ rest)
    (hd : ∀ j < 1 + (HTree.node l r).reads + (ps.flatMap Prod.snd ++ q).length, s.inp.ioDraws.getD j false = false) :
    ∃ t, treeAt t (.node l r) 0 = true ∧ exec .decode s = .next { completed .decode s with
      treeV := true, codeV := false, decState := .done, treeSrc := .deserialize
      root := 0#10, nodeCount := BitVec.ofNat 10 (HTree.node l r).size
      leafCount := BitVec.ofNat 9 (((HTree.node l r).size + 1) / 2)
      hdrBits := BitVec.ofNat 32 (HTree.node l r).header.length, node := t, walk := walkPath t 0#10 q
      inp := ⟨s.inp.data, BitVec.ofNat 40 (32 + (HTree.node l r).header.length + (ps.flatMap Prod.snd ++ q).length),
        s.inp.ioDraws.drop (1 + (HTree.node l r).reads + (ps.flatMap Prod.snd ++ q).length)⟩
      out := decodedOut s.out ps false } := by
  obtain ⟨t, hpre, hrest, hto⟩ := leads_treeRead (T := .node l r) (rest := ps.flatMap Prod.snd ++ q ++ rest) hf hT
    (by simpa only [List.append_assoc] using hr) fun j hj => hd j (by omega)
  have hat := treeAt_of_header hT hpre
  have hbody := leads_decbody (u := treeRead s (.node l r) t) (o := s.out) hf rfl rfl hat hm hq hrest
    fun j hj => (getD_drop _ _ j).trans (hd _ (by omega))
  have hlen : (ps.flatMap Prod.snd ++ q).length ≤ 8 * s.inp.data.length := (length_le_of_inRest hrest :)
  rw [BitVec.ofNat_add (32 + _), ← List.drop_drop, ← HTree.leaves_eq]
  exact ⟨t, hat, exec_of_leads h (hto.trans hbody) (by omega) rfl⟩

/-- DECODE where the read inside a path finds the end of the input or fails (R98, R101, R107, R108). -/
theorem exec_decode_body_raise {p : Nat × List Bool} {c rest : List Bool} {io : Bool} (h : Ready s) (hf : InputFits s)
    (hT : (HTree.node l r).fits) (hm : ∀ p ∈ ps, p ∈ (HTree.node l r).paths ∧ p.1 < 256)
    (hmem : p ∈ (HTree.node l r).paths) (hpre : c <+: p.2) (hne : c ≠ p.2)
    (hr : streamOf s.inp.data = natToBits 32 s.magic.toNat ++ (HTree.node l r).header ++ (ps.flatMap Prod.snd ++ c) ++ rest)
    (hd : ∀ j < 1 + (HTree.node l r).size + ((HTree.node l r).size + 1) / 2 + (ps.flatMap Prod.snd ++ c).length,
      s.inp.ioDraws.getD j false = false)
    (hi : s.inp.ioDraws.getD (1 + (HTree.node l r).size + ((HTree.node l r).size + 1) / 2 + (ps.flatMap Prod.snd ++ c).length)
      false = io) (hio : io = true ∨ rest = []) :
    ∃ t, treeAt t (.node l r) 0 = true ∧ exec .decode s = .next {
      failed .decode (if io then .eFmtIo else .eFmtBodyTrunc) (if io then 0#32 else BitVec.ofNat 32 ps.length) s with
      treeV := true, codeV := false, decState := .walking, treeSrc := .deserialize
      root := 0#10, nodeCount := BitVec.ofNat 10 (HTree.node l r).size
      leafCount := BitVec.ofNat 9 (((HTree.node l r).size + 1) / 2)
      hdrBits := BitVec.ofNat 32 (HTree.node l r).header.length, node := t, walk := walkPath t 0#10 c
      inp := ⟨s.inp.data, BitVec.ofNat 40 (32 + (HTree.node l r).header.length + (ps.flatMap Prod.snd ++ c).length),
        s.inp.ioDraws.drop
          (1 + (HTree.node l r).size + ((HTree.node l r).size + 1) / 2 + (ps.flatMap Prod.snd ++ c).length + 1)⟩
      out := decodedOut s.out ps true } := by
  rw [Nat.add_assoc 1, ← HTree.leaves_eq, ← HTree.reads] at hd hi ⊢
  obtain ⟨t, hpreAt, hrest, hto⟩ := leads_treeRead (T := .node l r) (rest := ps.flatMap Prod.snd ++ c ++ rest) hf hT
    (by simpa only [List.append_assoc] using hr) fun j hj => hd j (by omega)
  have hat := treeAt_of_header hT hpreAt
  have hlen : (ps.flatMap Prod.snd ++ c).length ≤ 8 * s.inp.data.length := (length_le_of_inRest hrest :)
  have hnext := (getD_drop s.inp.ioDraws (1 + (HTree.node l r).reads) (ps.flatMap Prod.snd ++ c).length).trans hi
  have hpass : passStep .decbody (walkedUpto (inStage .decode .decbody (treeRead s (.node l r) t)) ps c) = .raise
      (if io then .eFmtIo else .eFmtBodyTrunc) (if io then 0#32 else BitVec.ofNat 32 ps.length)
      { walkedUpto (inStage .decode .decbody (treeRead s (.node l r) t)) ps c with
        inp := ⟨s.inp.data, (treeRead s (.node l r) t).inp.pos + BitVec.ofNat 40 (ps.flatMap Prod.snd ++ c).length,
          (s.inp.ioDraws.drop (1 + (HTree.node l r).reads)).drop ((ps.flatMap Prod.snd ++ c).length + 1)⟩ } := by
    cases io with
    | true => exact decbody_pass_fails rfl hnext
    | false =>
      obtain rfl := hio.resolve_left (by decide)
      exact decbody_pass_end rfl hf (hrest.trans (List.append_nil _)) hnext
  have hbody := leads_decbody_raise (u := treeRead s (.node l r) t) (o := s.out) hf rfl rfl hat hm hmem hpre hne hrest
    (fun j hj => (getD_drop _ _ j).trans (hd _ (by omega))) hpass
  rw [BitVec.ofNat_add (32 + _), Nat.add_assoc (1 + _), ← List.drop_drop]
  exact ⟨t, hat, exec_of_leads h (hto.trans hbody) (by omega) rfl⟩

end

end Sys2Proof.Machine

namespace Sys2Proof.Proofs
open Sys2Proof.Machine

/-- Settles O32: OPENOUT, RDMAGIC, DESERIALIZE, DECBODY and CLOSE, each over its part of the input. -/
theorem decodeCompletes : Obligations.DecodeCompletes := by
  refine ⟨fun s l r ps q rest h hs hf hT hm hq hr => ?_, fun s rest h hs hf hr => ?_⟩
  · obtain ⟨t, hat, hexec⟩ := exec_decode_ready (rest := rest) h hf hT hm hq hr fun j _ => sourceOk_getD hs j
    exact ⟨_, hexec, rfl, hat⟩
  · obtain ⟨t, hpre, -, hto⟩ := leads_treeRead (T := .leaf 256) (rest := rest) hf (fits_leaf (by decide))
      (by simpa only [List.append_assoc] using hr) fun j _ => sourceOk_getD hs j
    have hpass := (passStep_decbody_leaf (u := treeRead s (.leaf 256) t) rfl rfl hpre).trans (if_pos rfl)
    have hend := (hto.trans (leads_inStage (c := .decode) (st := .close) (v := { treeRead s (.leaf 256) t with
      decState := .done, walk := 0#10 }) (stageRun_one hpass) rfl rfl)).trans (leads_closed rfl rfl)
    exact ⟨_, exec_of_leads h hend (by omega) rfl, rfl, treeAt_of_header (fits_leaf (by decide)) hpre⟩

/-- Settles O34: the stage that ends in an error is reached with the output newly opened, and its error is DECODE's. -/
theorem decodeFailures : Obligations.DecodeFailures := by
  refine ⟨fun s h => ⟨fun hd hl hm => ?_, fun hd hl => ?_, fun hd => ?_⟩,
    fun s e b r h hf hd hl hm hs he => exec_decode_header_fails h hf hd hl hm hs he,
    fun s l r ps p c rest io h hf hT hm hmem hpre hne hr hd hi hio => ?_, fun s v rest h hf hd hv hr => ?_⟩
  · exact exec_decode_magic_raise h ((rdmagicEnter_val (s := atMagic s) hd hl).trans (if_neg hm)) rfl
  · exact exec_decode_magic_raise h (rdmagicEnter_eos (s := atMagic s) hd hl) rfl
  · exact exec_decode_magic_raise h (rdmagicEnter_ioErr (s := atMagic s) hd) rfl
  · obtain ⟨t, hat, hexec⟩ := exec_decode_body_raise h hf hT hm hmem hpre hne hr hd hi hio
    exact ⟨_, hexec, rfl, hat⟩
  · obtain ⟨t, hpre, -, hto⟩ := leads_treeRead (T := .leaf v) (rest := rest) hf (fits_leaf (by omega))
      (by simpa only [List.append_assoc] using hr) fun j hj => hd j hj
    have hne : BitVec.ofNat 9 v ≠ 256#9 := fun h9 => by
      have := congrArg BitVec.toNat h9
      simp only [BitVec.toNat_ofNat] at this
      omega
    have hpass := (passStep_decbody_leaf (u := treeRead s (.leaf v) t) rfl rfl hpre).trans (if_neg hne)
    rw [BitVec.setWidth_ofNat_of_le_of_lt (by decide) (by omega)] at hpass
    have hend := hto.trans (leads_raise (cmd := .decode) rfl rfl (stageRun_end 0 hpass (by simp)))
    exact ⟨_, exec_of_leads h hend (by omega) rfl, rfl, treeAt_of_header (fits_leaf (by omega)) hpre⟩

end Sys2Proof.Proofs
end

section
/-! SUPPORT. The round-trip law (R102): the length of a container, and DECODE over the container ENCODE appended. -/

namespace Sys2Proof.Machine

/-! ## The container fits in IN_DATA -/

/-- The lengths of a tree's paths, all together. -/
def HTree.pathSum (T : HTree) : Nat := (T.paths.map fun p => p.2.length).sum

theorem HTree.pathSum_node (l r : HTree) :
    (HTree.node l r).pathSum = l.pathSum + r.pathSum + (l.leaves + r.leaves) := by
  have hpaths : ∀ T : HTree, T.paths.length = T.leaves := fun T => by
    rw [HTree.leaves, ← T.paths_fst, List.length_map]
  simp only [pathSum, paths, List.map_append, List.sum_append, List.map_map, Function.comp_def, List.length_cons,
    List.sum_map_add, List.map_const', List.sum_replicate, hpaths, smul_eq_mul, mul_one]
  omega

/-- The paths are together no longer than those of the tree that is a chain. -/
theorem HTree.pathSum_le (T : HTree) : 2 * T.pathSum + 2 ≤ T.leaves * (T.leaves + 1) := by
  induction T with
  | leaf v => exact Nat.le_refl 2
  | node l r hl hr =>
    have hleaves : (HTree.node l r).leaves = l.leaves + r.leaves := by simp [HTree.leaves, HTree.syms]
    obtain ⟨a, ha⟩ := Nat.exists_eq_succ_of_ne_zero l.leaves_pos.ne'
    obtain ⟨b, hb⟩ := Nat.exists_eq_succ_of_ne_zero r.leaves_pos.ne'
    rw [HTree.pathSum_node, hleaves]
    rw [ha] at hl ⊢
    rw [hb] at hr ⊢
    nlinarith [Nat.zero_le (a * b)]

/-- The length of the code of the symbol `v` in `T`. -/
def HTree.codeLength (T : HTree) (v : Nat) : Nat := ((T.code v).getD []).length

/-- A symbol's code is the path of its leaf, where no symbol has two. -/
theorem HTree.code_eq_path {l r : HTree} (hnd : (HTree.node l r).syms.Nodup) {p : Nat × List Bool}
    (hp : p ∈ (HTree.node l r).paths) : (HTree.node l r).code p.1 = some p.2 := by
  rw [← HTree.paths_fst] at hnd
  obtain ⟨c, hc⟩ := HTree.code_isSome (l := l) (r := r) (v := p.1) (HTree.paths_fst _ ▸ List.mem_map_of_mem hp)
  have hpc : (p.1, c) = p := List.inj_on_of_nodup_map hnd (HTree.code_mem hc).1 hp rfl
  rw [hc, ← hpc]

theorem HTree.sum_codeLength {l r : HTree} (hnd : (HTree.node l r).syms.Nodup) :
    ((HTree.node l r).syms.map (HTree.node l r).codeLength).sum = (HTree.node l r).pathSum := by
  rw [← HTree.paths_fst, List.map_map, HTree.pathSum]
  congr 1
  refine List.map_congr_left fun p hp => ?_
  rw [Function.comp_apply, HTree.codeLength, HTree.code_eq_path hnd hp, Option.getD_some]

/-- The body's length, symbol by symbol (R67). -/
theorem length_bodyBits (c : Nat → List Bool) (bytes : List Byte) :
    (bodyBits c bytes).length = ((bytes.map BitVec.toNat ++ [256]).map fun v => (c v).length).sum := by
  simp [bodyBits, Config.pseudoEof, List.length_flatMap, Function.comp_def]

section
variable {data : List Byte} {T : HTree} {t : Table NodeRec} (hB : BuiltFor data T t)
include hB

/-- A symbol's code in BUILD's tree has at most 256 bits (R87). -/
theorem BuiltFor.codeLength_le {v : Nat} (hv : v ∈ T.syms) : T.codeLength v ≤ 256 := by
  obtain ⟨l, r, rfl⟩ := hB.inner
  obtain ⟨c, hc, -, -, h256⟩ := code_of_mem hB.size hv
  rwa [HTree.codeLength, hc]

/-- The symbols of the input's body have leaves. -/
theorem BuiltFor.body_subset : data.map BitVec.toNat ++ [256] ⊆ T.syms := by
  intro v hv
  rcases List.mem_append.1 hv with hv | hv
  · obtain ⟨b, hb, rfl⟩ := List.mem_map.1 hv
    exact hB.byte_mem hb
  · obtain rfl := List.mem_singleton.1 hv
    exact hB.sentinel_mem

/-- The body of an input that is not empty: every leaf's path is in it once, and no code is longer than 256 bits. -/
theorem BuiltFor.body_length_le (h0 : data ≠ []) :
    (bodyBits (fun v => (T.code v).getD []) data).length + 256 * T.leaves ≤ T.pathSum + 256 * (data.length + 1) := by
  obtain ⟨l, r, hT⟩ := hB.inner
  have hsub : T.syms ⊆ data.map BitVec.toNat ++ [256] := by
    intro v hv
    rcases (hB.syms v).1 hv with rfl | ⟨b, hb, rfl⟩ | ⟨h, -⟩
    · simp
    · exact List.mem_append_left _ (List.mem_map_of_mem hb)
    · exact absurd h h0
  obtain ⟨kept, hkept, hsublist⟩ := hB.nodup.subperm hsub
  obtain ⟨others, hothers⟩ := hsublist.exists_perm_append
  have hperm := hothers.trans (hkept.append_right others)
  have hsumOthers : (others.map T.codeLength).sum ≤ 256 * others.length := by
    have := List.sum_le_card_nsmul (others.map T.codeLength) 256 fun n hn => by
      obtain ⟨v, hv, rfl⟩ := List.mem_map.1 hn
      exact hB.codeLength_le (hB.body_subset (hperm.mem_iff.2 (List.mem_append_right _ hv)))
    rwa [List.length_map, smul_eq_mul, mul_comm] at this
  have hsum : (T.syms.map T.codeLength).sum = T.pathSum := by
    subst hT
    exact HTree.sum_codeLength hB.nodup
  have hlen := hperm.length_eq
  have hbody : (bodyBits (fun v => (T.code v).getD []) data).length = T.pathSum + (others.map T.codeLength).sum := by
    rw [length_bodyBits, ← hsum, ← List.sum_append, ← List.map_append]
    exact (hperm.map _).sum_eq
  simp only [List.length_append, List.length_map, List.length_singleton] at hlen
  rw [show T.syms.length = T.leaves from rfl] at hlen
  omega

/-- A container, less its magic and pad, is shorter than 2^37 - 1 bytes (R36, R64). -/
theorem BuiltFor.container_length_le (hl : data.length ≤ 2 ^ 32 - 2) :
    T.header.length + (bodyBits (fun v => (T.code v).getD []) data).length + 100 ≤ 8 * (2 ^ 37 - 1) := by
  have hsize := hB.size
  have hleaves := T.size_eq
  have hheader := T.header_length
  by_cases h0 : data = []
  · have hsentinel : (bodyBits (fun v => (T.code v).getD []) data).length = T.codeLength 256 := by
      rw [h0]
      rfl
    have := hB.codeLength_le hB.sentinel_mem
    omega
  · have hbody := hB.body_length_le h0
    have hsum := T.pathSum_le
    have hsquare : T.leaves * (T.leaves + 1) ≤ T.leaves * 258 := Nat.mul_le_mul_left _ (by omega)
    omega

end

/-! ## DECODE over the container -/

/-- BUILD's tree fits in NODE (R30). -/
theorem BuiltFor.fits {data : List Byte} {T : HTree} {t : Table NodeRec} (hB : BuiltFor data T t) : T.fits := by
  refine ⟨hB.size, fun v hv => ?_⟩
  rcases (hB.syms v).1 hv with rfl | ⟨b, -, rfl⟩ | ⟨-, rfl⟩
  · exact Nat.le_refl 256
  · exact Nat.le_trans (Nat.le_of_lt b.isLt) (by decide)
  · exact Nat.zero_le _

/-- What ENCODE appends to OUT_DATA is the container, padded to whole bytes (R64). -/
theorem container_appended (s : State) (T : HTree) : ∃ container,
    (containerOut s T).closeOut.data = s.out.data ++ container ∧
    streamOf container = containerBits s.magic T s.inp.data ++ padBits (containerBits s.magic T s.inp.data) := by
  obtain ⟨ds, hds⟩ := push_data (opened s.out) (containerBits s.magic T s.inp.data)
  obtain ⟨es, hes, -⟩ := closeOut_data (containerOut s T)
  have hdata : (containerOut s T).closeOut.data = s.out.data ++ (ds ++ es) := by
    rw [hes, containerOut, hds, List.append_assoc]
    rfl
  obtain ⟨hstream, -⟩ := closeOut_push_opened s.out (containerBits s.magic T s.inp.data)
    (p := (containerOut s T).closeOut) rfl
  rw [hdata, streamOf_append, List.append_assoc] at hstream
  exact ⟨ds ++ es, hdata, List.append_cancel_left hstream⟩

/-- The bytes of an input as the leaves DECODE reaches over its container. -/
def bodyPaths (T : HTree) (data : List Byte) : List (Nat × List Bool) :=
  data.map fun b => (b.toNat, (T.code b.toNat).getD [])

theorem bodyPaths_bytes (T : HTree) (data : List Byte) : (bodyPaths T data).map (fun p => BitVec.ofNat 8 p.1) = data := by
  simp [bodyPaths, Function.comp_def]

/-- A symbol's code is a path to a leaf of it. -/
theorem BuiltFor.code_path {data : List Byte} {T : HTree} {t : Table NodeRec} (hB : BuiltFor data T t) {v : Nat}
    (hv : v ∈ T.syms) : (v, (T.code v).getD []) ∈ T.paths := by
  obtain ⟨l, r, rfl⟩ := hB.inner
  obtain ⟨c, hc, hmem, -⟩ := code_of_mem hB.size hv
  rwa [hc]

/-- DECODE over the container of an input, under the MAGIC it was made with (R101, R102). -/
theorem decode_container {s u : State} {T : HTree} {t : Table NodeRec} (hB : BuiltFor s.inp.data T t)
    (hl : s.inp.data.length ≤ 2 ^ 32 - 2) (hu : Ready u) (hs : SourceOk u) (hm : u.magic = s.magic)
    (hr : streamOf u.inp.data = containerBits s.magic T s.inp.data ++ padBits (containerBits s.magic T s.inp.data)) :
    ∃ v, exec .decode u = .next v ∧ v.done = true ∧ v.err = false ∧ v.out.data = u.out.data ++ s.inp.data := by
  have hlen := congrArg List.length hr
  have hfit : InputFits u := by
    have hle := hB.container_length_le hl
    have hpad : (padBits (containerBits s.magic T s.inp.data)).length ≤ 7 := by
      rw [padBits, List.length_replicate]
      omega
    rw [streamOf_length, List.length_append] at hlen
    have hcontainer : (containerBits s.magic T s.inp.data).length =
        32 + T.header.length + (bodyBits (fun v => (T.code v).getD []) s.inp.data).length := by
      rw [containerBits, List.length_append, List.length_append, natToBits_length]
      rfl
    exact (show u.inp.data.length ≤ 2 ^ 37 - 1 by omega)
  have hstream : streamOf u.inp.data = natToBits 32 u.magic.toNat ++ T.header ++
      (bodyPaths T s.inp.data).flatMap Prod.snd ++ (T.code 256).getD [] ++
      padBits (containerBits s.magic T s.inp.data) := by
    rw [hr, hm]
    simp only [containerBits, bodyBits, bodyPaths, List.flatMap_map, List.append_assoc]
    rfl
  have hpaths : ∀ p ∈ bodyPaths T s.inp.data, p ∈ T.paths ∧ p.1 < 256 := by
    intro p hp
    obtain ⟨b, hb, rfl⟩ := List.mem_map.1 hp
    exact ⟨hB.code_path (hB.byte_mem hb), b.isLt⟩
  have hend := hB.code_path hB.sentinel_mem
  have hfits := hB.fits
  obtain ⟨l, r, rfl⟩ := hB.inner
  obtain ⟨t', -, hexec⟩ := exec_decode_ready hu hfit hfits hpaths hend hstream fun j _ => sourceOk_getD hs j
  exact ⟨_, hexec, rfl, rfl, congrArg (u.out.data ++ ·) (bodyPaths_bytes _ _)⟩

end Sys2Proof.Machine

namespace Sys2Proof.Proofs
open Sys2Proof.Machine

/-- Settles O35: DECODE walks the codes ENCODE wrote back to their bytes. -/
theorem roundTrip : Obligations.RoundTrip := by
  intro s h hs hl
  obtain ⟨T, t, hB, hexec⟩ := exec_encode_ready h hl fun j _ => sourceOk_getD hs j
  obtain ⟨container, hdata, hstream⟩ := container_appended s T
  exact ⟨_, container, hexec, rfl, rfl, hdata, fun u hu hsu hm hc =>
    decode_container hB hl hu hsu hm (hc ▸ hstream)⟩

end Sys2Proof.Proofs
end

section
/-! SUPPORT. A composite and its stages issued one by one (R126): a stage does not see which command it runs in, nor what an
earlier stage left in the scratch it does not use or overwrites, so the two runs go step by step together. -/

namespace Sys2Proof.Machine

/-! ## What a stage does not see -/

/-- `s` with the tags of a run, those of `c`: SEQ, CMD, the pending DONE interrupt, and the scratch. -/
def tagAll (c s : State) : State :=
  { s with seq := c.seq, cmd := c.cmd, doneIp := c.doneIp, heap := c.heap, dstack := c.dstack }

/-- `s` inside a stage with the tags of `c`, but for the scratch the stage uses (R32, R33). -/
def tagIn : Instr → State → State → State
  | .build, c, s => { tagAll c s with heap := s.heap }
  | .gencode, c, s | .serialize, c, s | .deserialize, c, s => { tagAll c s with dstack := s.dstack }
  | _, c, s => tagAll c s

theorem tagIn_phase (stage : Instr) (c s : State) : (tagIn stage c s).phase = s.phase := by
  cases stage <;> rfl

theorem tagIn_unsent (stage : Instr) (c s : State) : (tagIn stage c s).unsent = s.unsent := by
  cases stage <;> rfl

theorem tagIn_seq (stage : Instr) (c s : State) : (tagIn stage c s).seq = c.seq := by
  cases stage <;> rfl

/-- A pass's result with its state changed. -/
def StageResult.map (f : State → State) : StageResult → StageResult
  | .more s => .more (f s)
  | .done s => .done (f s)
  | .raise e info s => .raise e info (f s)

theorem StageResult.map_ite (f : State → State) (p : Prop) [Decidable p] (a b : StageResult) :
    (if p then a else b).map f = if p then a.map f else b.map f :=
  apply_ite _ p a b

/-- A pass of the stage that does not see the tags. -/
def TagBlind (c : State) (stage : Instr) (f : State → StageResult) : Prop :=
  ∀ s, f (tagIn stage c s) = (f s).map (tagIn stage c)

theorem tagBlind_checked {c : State} {stage : Instr} {body : State → StageResult}
    (hp : ∀ s, precondition stage (tagIn stage c s) = precondition stage s) (hb : TagBlind c stage body) :
    TagBlind c stage fun s => checked stage s body := by
  intro s
  dsimp only
  rw [checked, checked, hp s]
  cases precondition stage s with
  | some e => rfl
  | none => exact hb s

theorem tagBlind_countIter (c : State) : TagBlind c .count countIter := by
  intro s
  unfold countIter
  dsimp only [tagIn, tagAll, freqAt]
  rcases s.inp.readBits Config.bitsPerWord with ⟨v | _ | _, p⟩
  · rw [StageResult.map_ite]
    rfl
  · rfl
  · rfl

theorem tagBlind_buildIter (c : State) (L n : Nat) : TagBlind c .build (buildIter L n) := by
  intro s
  unfold buildIter
  dsimp only [tagIn, tagAll]
  cases extractMin s.node s.heap with
  | none => rfl
  | some p =>
    dsimp only
    cases extractMin s.node p.2 <;> rfl

theorem tagBlind_gencodeIter (c : State) : TagBlind c .gencode gencodeIter := by
  intro s
  unfold gencodeIter
  dsimp only [tagIn, tagAll, nodeAt]
  cases s.dstack with
  | nil => rfl
  | cons f rest =>
    cases f with
    | visit i len bits =>
      rw [StageResult.map_ite, StageResult.map_ite]
      rfl
    | _ => rfl

theorem tagBlind_serializeIter (c : State) : TagBlind c .serialize serializeIter := by
  intro s
  unfold serializeIter
  dsimp only [tagIn, tagAll, nodeAt]
  cases hd : s.dstack with
  | nil => exact congrArg (fun frames => StageResult.done { tagAll c s with dstack := frames }) hd.symm
  | cons f rest =>
    cases f with
    | put i =>
      rw [StageResult.map_ite]
      rfl
    | _ => rfl

theorem tagBlind_encbodyIter (c : State) : TagBlind c .encbody encbodyIter := by
  intro s
  unfold encbodyIter
  dsimp only [tagIn, tagAll, codeAt]
  rcases s.inp.readBits Config.bitsPerWord with ⟨v | _ | _, p⟩
  · rw [StageResult.map_ite]
    rfl
  · rw [StageResult.map_ite]
    rfl
  · rfl

theorem tagBlind_rdmagicEnter (c : State) : TagBlind c .rdmagic rdmagicEnter := by
  intro s
  unfold rdmagicEnter
  dsimp only [tagIn, tagAll]
  rcases s.inp.rewind.readBits Config.magicBits with ⟨v | _ | _, p⟩
  · rw [StageResult.map_ite]
    rfl
  · rfl
  · rfl

theorem tagBlind_deserializeField (c : State) (i : BitVec Config.idxW) : TagBlind c .deserialize (deserializeField i) := by
  intro s
  unfold deserializeField deserializeLeaf
  dsimp only [tagIn, tagAll]
  rcases s.inp.readBits Config.leafBits with ⟨v | _ | _, p⟩
  · dsimp only
    split
    · rfl
    · rcases returnNode i s.dstack _ with ⟨t, st, _ | r⟩ <;> rfl
  · rfl
  · rfl

theorem tagBlind_deserializeIter (c : State) : TagBlind c .deserialize deserializeIter := by
  intro s
  unfold deserializeIter
  dsimp only [tagIn, tagAll]
  rcases s.inp.readBits 1 with ⟨b | _ | _, p⟩
  · rw [StageResult.map_ite, StageResult.map_ite]
    rfl
  · rfl
  · rfl

theorem tagBlind_decbodyAt (c : State) (k : Nat) (i : BitVec Config.idxW) : TagBlind c .decbody (decbodyAt k i) := by
  intro s
  unfold decbodyAt
  dsimp only [tagIn, tagAll, nodeAt]
  rw [StageResult.map_ite, StageResult.map_ite]
  rfl

theorem tagBlind_decbodyIter (c : State) (k : Nat) : TagBlind c .decbody (decbodyIter k) := by
  intro s
  unfold decbodyIter
  dsimp only [tagIn, tagAll, nodeAt]
  rcases s.inp.readBits 1 with ⟨b | _ | _, p⟩
  · exact tagBlind_decbodyAt c k _ { s with inp := p }
  · rfl
  · rfl

theorem tagBlind_decbodyEnter (c : State) : TagBlind c .decbody decbodyEnter := by
  refine tagBlind_checked (fun _ => rfl) fun s => ?_
  dsimp only [tagIn, tagAll, nodeAt]
  rw [StageResult.map_ite, StageResult.map_ite]
  rfl

/-- The leaves BUILD writes are those of FREQ alone (R81). -/
theorem writeLeaves_of_freq {s s' : State} (h : s'.freq = s.freq) (syms : List Nat) (k : Nat) (t : Table NodeRec) :
    writeLeaves s' k syms t = writeLeaves s k syms t := by
  induction syms generalizing k t with
  | nil => rfl
  | cons v rest ih => rw [writeLeaves, writeLeaves, ih, leafRec, leafRec, freqAt, freqAt, h]

theorem tagBlind_buildEnter (c : State) : TagBlind c .build buildEnter := by
  refine tagBlind_checked (fun _ => rfl) fun s => ?_
  dsimp only
  rw [writeLeaves_of_freq (s := s) (s' := tagIn .build c s) rfl]
  rfl

/-- The pass a stage makes in a phase. -/
def stageArm : Instr → Phase → State → StageResult
  | _, .ended => .done
  | .nop, _ => .done
  | .clear, _ => fun s => .done (clearBody s)
  | .openout, _ => fun s => .done (openBody s)
  | .count, .enter => countEnter
  | .count, _ => countIter
  | .build, .merge L n => buildIter L n
  | .build, _ => buildEnter
  | .gencode, .enter => gencodeEnter
  | .gencode, _ => gencodeIter
  | .wrmagic, _ => wrmagicEnter
  | .serialize, .enter => serializeEnter
  | .serialize, _ => serializeIter
  | .encbody, .enter => encbodyEnter
  | .encbody, _ => encbodyIter
  | .close, _ => closeEnter
  | .encode, _ => fun s => .done (openBody s)
  | .rdmagic, _ => rdmagicEnter
  | .deserialize, .enter => deserializeEnter
  | .deserialize, .field i => deserializeField i
  | .deserialize, _ => deserializeIter
  | .decbody, .walk k => decbodyIter k
  | .decbody, _ => decbodyEnter
  | .decode, _ => fun s => .done (openBody s)

theorem stageStep_eq_arm (stage : Instr) (s : State) : stageStep stage s = stageArm stage s.phase s := by
  unfold stageStep stageArm
  generalize s.phase = p
  cases stage <;> cases p <;> rfl

theorem tagBlind_stageArm (c : State) (stage : Instr) (p : Phase) : TagBlind c stage (stageArm stage p) := by
  unfold stageArm
  split
  case h_6 => exact tagBlind_countIter c
  case h_7 => exact tagBlind_buildIter c _ _
  case h_8 => exact tagBlind_buildEnter c
  case h_9 => exact tagBlind_checked (fun _ => rfl) fun _ => rfl
  case h_10 => exact tagBlind_gencodeIter c
  case h_11 => exact tagBlind_checked (fun _ => rfl) fun _ => rfl
  case h_12 => exact tagBlind_checked (fun _ => rfl) fun _ => rfl
  case h_13 => exact tagBlind_serializeIter c
  case h_14 => exact tagBlind_checked (fun _ => rfl) fun _ => rfl
  case h_15 => exact tagBlind_encbodyIter c
  case h_16 => exact tagBlind_checked (fun _ => rfl) fun _ => rfl
  case h_18 => exact tagBlind_rdmagicEnter c
  case h_20 => exact tagBlind_deserializeField c _
  case h_21 => exact tagBlind_deserializeIter c
  case h_22 => exact tagBlind_decbodyIter c _
  case h_23 => exact tagBlind_decbodyEnter c
  all_goals exact fun _ => rfl

/-- A pass of a stage does not see the tags. -/
theorem stageStep_tagIn (stage : Instr) (c s : State) :
    stageStep stage (tagIn stage c s) = (stageStep stage s).map (tagIn stage c) := by
  rw [stageStep_eq_arm, stageStep_eq_arm, tagIn_phase]
  exact tagBlind_stageArm c stage s.phase s

/-! ## The two runs, step by step -/

/-- How a pass of a stage in the run tagged `c` comes out, by how it comes out in the stage's own run. -/
inductive StageFollows (stage : Instr) (c : State) : StageResult → StageResult → Prop
  | more {x s : State} (h : x = tagIn stage c s) : StageFollows stage c (.more x) (.more s)
  | done {x s : State} (h : x = tagIn stage c s) : StageFollows stage c (.done x) (.done s)
  | raise (e : ErrCode) (info : Word) {x s : State}
      (h : raiseError e info x = { raiseError e info s with cmd := c.cmd, doneIp := c.doneIp }) :
      StageFollows stage c (.raise e info x) (.raise e info s)

theorem raiseError_tagIn (stage : Instr) (e : ErrCode) (info : Word) (c s : State) :
    raiseError e info (tagIn stage c s) = { raiseError e info s with cmd := c.cmd, doneIp := c.doneIp } := by
  cases stage <;> rfl

theorem follows_map (stage : Instr) (c : State) (r : StageResult) : StageFollows stage c (r.map (tagIn stage c)) r := by
  cases r with
  | more s => exact .more rfl
  | done s => exact .done rfl
  | raise e info s => exact .raise e info (raiseError_tagIn stage e info c s)

/-- A pass inside a stage. -/
theorem stageStep_follows (stage : Instr) (c s : State) :
    StageFollows stage c (stageStep stage (tagIn stage c s)) (stageStep stage s) :=
  stageStep_tagIn stage c s ▸ follows_map stage c _

/-- The checks of a stage that uses scratch, before its entry (R71). -/
theorem follows_checked {stage : Instr} {c s : State} {body : State → StageResult}
    (hp : precondition stage (tagAll c s) = precondition stage s) (hb : StageFollows stage c (body (tagAll c s)) (body s)) :
    StageFollows stage c (checked stage (tagAll c s) body) (checked stage s body) := by
  rw [checked, checked, hp]
  cases precondition stage s with
  | some e => exact .raise e _ rfl
  | none => exact hb

theorem buildEnter_follows (c s : State) : StageFollows .build c (buildEnter (tagAll c s)) (buildEnter s) := by
  unfold buildEnter
  refine follows_checked rfl ?_
  dsimp only
  rw [writeLeaves_of_freq (s := s) (s' := tagAll c s) rfl]
  exact .more rfl

theorem gencodeEnter_follows (c s : State) : StageFollows .gencode c (gencodeEnter (tagAll c s)) (gencodeEnter s) := by
  unfold gencodeEnter
  exact follows_checked rfl (.more rfl)

theorem serializeEnter_follows (c s : State) :
    StageFollows .serialize c (serializeEnter (tagAll c s)) (serializeEnter s) := by
  unfold serializeEnter
  exact follows_checked rfl (.more rfl)

theorem deserializeEnter_follows (c s : State) :
    StageFollows .deserialize c (deserializeEnter (tagAll c s)) (deserializeEnter s) := .more rfl

/-- The first pass of a stage: what stands in the scratch is not used. -/
theorem stageStep_enter_follows {stage : Instr} {c s : State} (hp : s.phase = .enter) :
    StageFollows stage c (stageStep stage (tagAll c s)) (stageStep stage s) := by
  have harm := stageStep_eq_arm stage (tagAll c s)
  have harm' := stageStep_eq_arm stage s
  rw [show (tagAll c s).phase = _ from hp] at harm
  rw [hp] at harm'
  cases stage with
  | build => exact harm ▸ harm' ▸ buildEnter_follows c s
  | gencode => exact harm ▸ harm' ▸ gencodeEnter_follows c s
  | serialize => exact harm ▸ harm' ▸ serializeEnter_follows c s
  | deserialize => exact harm ▸ harm' ▸ deserializeEnter_follows c s
  | _ => exact stageStep_follows _ c s

/-- Where a stage's own run ends, in `v`, the run of the command `cmd` tagged `c` stands in `x`: at the end of the stage, or at
the same error. -/
def EndsWith (cmd stage : Instr) (c y v x : State) : Prop :=
  (∃ z, SameLifecycle y z ∧ z.unsent = [] ∧ v = complete z ∧ x = stageEnded cmd stage (tagIn stage c z)) ∨
  (v.seq = .idle ∧ v.err = true ∧ v.done = y.done ∧ x = { v with cmd := c.cmd, doneIp := c.doneIp })

theorem EndsWith.of_same {cmd stage : Instr} {c y y' v x : State} (h : EndsWith cmd stage c y' v x) (hy : SameLifecycle y y') :
    EndsWith cmd stage c y v x := by
  rcases h with ⟨z, hz, hend⟩ | ⟨hidle, herr, hdone, hx⟩
  · exact .inl ⟨z, sameLifecycle_trans hy hz, hend⟩
  · obtain ⟨-, -, hdone', -⟩ := hy
    exact .inr ⟨hidle, herr, hdone.trans hdone', hx⟩

section
variable {cmd stage : Instr} {c y : State}

/-- What a pass comes to in the two runs: both go on, or both end the stage. -/
theorem settle_follows {r r' : StageResult} (hone : nextStage stage stage = none) (hs : SameLifecycle y r.state)
    (h : StageFollows stage c r' r) :
    (SameLifecycle y (settle stage stage r) ∧ settle cmd stage r' = tagIn stage c (settle stage stage r)) ∨
    EndsWith cmd stage c y (settle stage stage r) (settle cmd stage r') := by
  cases h with
  | more hx => exact .inl ⟨hs, hx⟩
  | @done x z hx =>
    subst hx
    by_cases hu : z.unsent = []
    · refine .inr (.inl ⟨z, hs, hu, ?_, settle_done ((tagIn_unsent stage c z).trans hu)⟩)
      rw [settle_done hu, stageEnded, hone]
    · have hu' : (tagIn stage c z).unsent ≠ [] := by rwa [tagIn_unsent]
      rw [settle, settle, if_neg hu, if_neg hu']
      refine .inl ⟨sameLifecycle_trans hs (sameLifecycle_of (by simp [StageResult.state]) rfl), ?_⟩
      cases stage <;> rfl
  | raise e info h =>
    obtain ⟨-, -, hdone, -⟩ := hs
    exact .inr (.inr ⟨rfl, rfl, hdone, h⟩)

/-- A step inside a stage. -/
theorem microStep_tagIn (hone : nextStage stage stage = none) (hc : c.seq = .running cmd stage)
    (hy : y.seq = .running stage stage) :
    (SameLifecycle y (microStep y) ∧ microStep (tagIn stage c y) = tagIn stage c (microStep y)) ∨
    EndsWith cmd stage c y (microStep y) (microStep (tagIn stage c y)) := by
  have hx : (tagIn stage c y).seq = .running cmd stage := (tagIn_seq stage c y).trans hc
  cases hu : y.unsent with
  | nil =>
    rw [microStep_pass hy hu, microStep_pass hx ((tagIn_unsent stage c y).trans hu)]
    exact settle_follows hone (stageStep_same stage y) (stageStep_follows stage c y)
  | cons b rest =>
    have hu' : (tagIn stage c y).unsent = b :: rest := (tagIn_unsent stage c y).trans hu
    rw [microStep, microStep, hy, hx]
    dsimp only
    rw [hu, hu']
    refine .inl ⟨sameLifecycle_of (by simp [sendBit]) rfl, ?_⟩
    cases stage <;> rfl

/-- The two runs inside a stage, up to its end. -/
theorem runFor_tagIn (hone : nextStage stage stage = none) (hc : c.seq = .running cmd stage) {n : Nat} {t : State}
    (hy : y.seq = .running stage stage) (ht : runFor n (tagIn stage c y) = t) (hidle : t.seq = .idle) :
    ∃ k ≤ n, EndsWith cmd stage c y (runFor k y) (runFor k (tagIn stage c y)) := by
  induction n generalizing y with
  | zero =>
    rw [← ht, runFor, tagIn_seq, hc] at hidle
    cases hidle
  | succ n ih =>
    have hby := busy_running hy
    have hbx := busy_running ((tagIn_seq stage c y).trans hc)
    rw [runFor_busy n hbx] at ht
    rcases microStep_tagIn hone hc hy with ⟨hsame, hx⟩ | hend
    · obtain ⟨hseq, -⟩ := id hsame
      rw [hx] at ht
      obtain ⟨k, hk, hend⟩ := ih (hseq.trans hy) ht
      refine ⟨k + 1, by omega, ?_⟩
      rw [runFor_busy k hby, runFor_busy k hbx, hx]
      exact hend.of_same hsame
    · exact ⟨1, by omega, by rw [runFor_busy 0 hby, runFor_busy 0 hbx]; exact hend⟩

/-- The two runs from the first statement of a stage, up to its end. -/
theorem runFor_tagAll (hone : nextStage stage stage = none) (hc : c.seq = .running cmd stage) {n : Nat} {t : State}
    (hy : y.seq = .running stage stage) (hp : y.phase = .enter) (hu : y.unsent = []) (ht : runFor n (tagAll c y) = t)
    (hidle : t.seq = .idle) : ∃ k ≤ n, EndsWith cmd stage c y (runFor k y) (runFor k (tagAll c y)) := by
  cases n with
  | zero =>
    rw [← ht, runFor, show (tagAll c y).seq = _ from hc] at hidle
    cases hidle
  | succ n =>
    have hby := busy_running hy
    have hbx : (tagAll c y).busy = true := busy_running (show (tagAll c y).seq = _ from hc)
    have hstep := settle_follows (cmd := cmd) hone (stageStep_same stage y) (stageStep_enter_follows (c := c) hp)
    rw [← microStep_pass hy hu, ← microStep_pass (s := tagAll c y) hc hu] at hstep
    rw [runFor_busy n hbx] at ht
    rcases hstep with ⟨hsame, hx⟩ | hend
    · obtain ⟨hseq, -⟩ := id hsame
      rw [hx] at ht
      obtain ⟨k, hk, hend⟩ := runFor_tagIn hone hc (hseq.trans hy) ht hidle
      refine ⟨k + 1, by omega, ?_⟩
      rw [runFor_busy k hby, runFor_busy k hbx, hx]
      exact hend.of_same hsame
    · exact ⟨1, by omega, by rw [runFor_busy 0 hby, runFor_busy 0 hbx]; exact hend⟩

end

/-! ## Stage after stage -/

/-- A stage that leaves the output as open as it was. -/
def KeepsOpen (stage : Instr) : Prop := stageList stage = [stage] ∧ ∀ s t, (stageFrame stage s t).out.isOpen = s.out.isOpen

/-- The stages of a command from `stage` on are `stage` and `rest`, with CLOSE the last (R96, R101). -/
def StagesAre (cmd : Instr) : Instr → List Instr → Prop
  | stage, [] => stage = .close ∧ nextStage cmd .close = none
  | stage, st :: rest => KeepsOpen stage ∧ nextStage cmd stage = some st ∧ StagesAre cmd st rest

theorem nextStage_self {stage : Instr} (h : stageList stage = [stage]) : nextStage stage stage = none := by
  rw [nextStage, h]
  rfl

theorem StagesAre.nextStage_self {cmd stage : Instr} {rest : List Instr} (h : StagesAre cmd stage rest) :
    nextStage stage stage = none := by
  cases rest with
  | nil => rw [h.1]; rfl
  | cons st rest => exact Machine.nextStage_self h.1.1

/-- A command, undisturbed, that its run brings to its end. -/
theorem exec_of_runFor {i : Instr} {s v : State} {k : Nat} (h : Ready s) (hv : runFor k (accept i s) = v)
    (hidle : v.seq = .idle) (hk : k ≤ stepBound s) : exec i s = .next v := by
  have hend : command i s = v := (command_ready i h).trans (runFor_mono hv hidle hk)
  rw [exec_eq_command, hend]

theorem issueAll_completed {i : Instr} {L : List Instr} {s v : State} (h : exec i s = .next v) (hidle : v.seq = .idle)
    (hdone : v.done = true) : issueAll (i :: L) s = issueAll L v := by
  simp [issueAll, h, busy_idle hidle, hdone]

theorem issueToError_completed {i : Instr} {L : List Instr} {s v : State} (h : exec i s = .next v) (herr : v.err = false) :
    issueToError (i :: L) s = issueToError L v := by
  simp [issueToError, h, herr]

theorem issueToError_failed {i : Instr} {L : List Instr} {s v : State} (h : exec i s = .next v) (herr : v.err = true) :
    issueToError (i :: L) s = v := by
  simp [issueToError, h, herr]

/-- The run of a composite whose stage has ended goes on like the next stage's own command (R96 Stage(op)). -/
theorem stageEnded_eq_accept {cmd stage st : Instr} {c y z : State} (hn : nextStage cmd stage = some st)
    (hz : SameLifecycle (accept stage y) z) (hu : z.unsent = []) :
    stageEnded cmd stage (tagIn stage c z) =
      tagAll { tagIn stage c z with seq := .running cmd st } (accept st (complete z)) := by
  obtain ⟨-, -, hdone, herr, hcode, hinfo, -⟩ := hz
  rw [stageEnded, hn]
  cases z
  simp only [accept, acceptWord] at hu hdone herr hcode hinfo
  subst hu hdone herr hcode hinfo
  cases stage <;> rfl

/-- What the commands from a state on leave, next to what the composite's run leaves (R126). -/
def SameAsIssued (cmd : Instr) (c y t : State) (L : List Instr) : Prop :=
  (t.done = true → issueAll L y = some { t with cmd := encode .close }) ∧
  (t.done = false → ∃ u, issueToError L y = u ∧ u.err = true ∧ t = { u with cmd := encode cmd, doneIp := c.doneIp } ∧
    t.out.isOpen = true)

/-- A stage that raises: the command that is the stage raises, and the composite is left the same, with the output open. -/
theorem sameAsIssued_raise {cmd stage : Instr} {rest : List Instr} {c y v : State} (hL : StagesAre cmd stage rest)
    (hy : Ready y) (ho : y.out.isOpen = true) (hexec : exec stage y = .next v) (herr : v.err = true) (hdone : v.done = false)
    (hc : c.cmd = encode cmd) :
    SameAsIssued cmd c y { v with cmd := c.cmd, doneIp := c.doneIp } (stage :: rest) := by
  refine ⟨fun h => absurd (hdone.symm.trans h) (by decide), fun _ => ⟨v, issueToError_failed hexec herr, herr, by rw [hc], ?_⟩⟩
  cases rest with
  | nil =>
    obtain ⟨rfl, -⟩ := hL
    rw [exec_close_ready hy ho] at hexec
    injection hexec with hexec
    rw [← hexec] at herr
    cases herr
  | cons st rest =>
    obtain ⟨⟨hlist, hopen⟩, -⟩ := hL
    have hframe := exec_stageFrame hlist hexec
    calc v.out.isOpen
      _ = (stageFrame stage y v).out.isOpen := by rw [← hframe]
      _ = true := (hopen y v).trans ho

/-- The last stage of a composite completes: so does its command. -/
theorem sameAsIssued_last {cmd : Instr} {c y z : State} (hy : SameLifecycle (accept .close y) z)
    (hexec : exec .close y = .next (complete z)) : SameAsIssued cmd c y (complete (tagIn .close c z)) [.close] := by
  obtain ⟨-, hcmd, -⟩ := hy
  refine ⟨fun _ => ?_, fun h => nomatch (show true = false from h)⟩
  rw [issueAll_completed hexec rfl rfl, issueAll, show encode .close = z.cmd from hcmd.symm]
  rfl

/-- A stage of a composite that completes: so does its command, and what follows the one follows the other. -/
theorem sameAsIssued_next {cmd stage : Instr} {rest : List Instr} {c c' y z t : State} (hy : SameLifecycle (accept stage y) z)
    (hexec : exec stage y = .next (complete z)) (hc : c'.doneIp = c.doneIp) (h : SameAsIssued cmd c' (complete z) t rest) :
    SameAsIssued cmd c y t (stage :: rest) := by
  obtain ⟨-, -, -, herr, -⟩ := hy
  obtain ⟨hall, herror⟩ := h
  rw [SameAsIssued, issueAll_completed hexec rfl rfl, issueToError_completed hexec herr, ← hc]
  exact ⟨hall, herror⟩

section
variable {cmd stage : Instr} {rest : List Instr} {c y t : State} {n : Nat} (hL : StagesAre cmd stage rest) (hy : Ready y)
  (ho : y.out.isOpen = true) (hn : n ≤ stepBound y) (hseq : c.seq = .running cmd stage) (hc : c.cmd = encode cmd)
  (ht : runFor n (tagAll c (accept stage y)) = t) (hidle : t.seq = .idle)
include hL hy ho hn hseq hc ht hidle

/-- A stage of a composite raises, and its command the same; or both come to its end, and the composite goes on. -/
theorem stage_raises_or_ends : SameAsIssued cmd c y t (stage :: rest) ∨
    ∃ z, ∃ m ≤ n, SameLifecycle (accept stage y) z ∧ z.unsent = [] ∧ exec stage y = .next (complete z) ∧
      runFor m (stageEnded cmd stage (tagIn stage c z)) = t := by
  obtain ⟨k, hk, hend⟩ := runFor_tagAll hL.nextStage_self hseq rfl rfl rfl ht hidle
  have hrest : runFor (n - k) (runFor k (tagAll c (accept stage y))) = t := by
    rw [← runFor_add, Nat.add_sub_cancel' hk, ht]
  rcases hend with ⟨z, hz, hu, hv, hx⟩ | ⟨hvidle, herr, hdone, hx⟩
  · exact .inr ⟨z, n - k, Nat.sub_le n k, hz, hu, exec_of_runFor hy hv rfl (hk.trans hn), hx ▸ hrest⟩
  · have hxidle : (runFor k (tagAll c (accept stage y))).seq = .idle := by
      rw [hx]
      exact hvidle
    rw [runFor_idle _ hxidle, hx] at hrest
    exact .inl (hrest ▸ sameAsIssued_raise hL hy ho (exec_of_runFor hy rfl hvidle (hk.trans hn)) herr hdone hc)

end

/-- From the first statement of a stage on, a composite leaves what the stages from there on, issued one by one, leave. -/
theorem sameAsIssued_stages {cmd : Instr} (rest : List Instr) {stage : Instr} {c y t : State} {n : Nat}
    (hL : StagesAre cmd stage rest) (hy : Ready y) (ho : y.out.isOpen = true) (hn : n ≤ stepBound y)
    (hseq : c.seq = .running cmd stage) (hc : c.cmd = encode cmd) (ht : runFor n (tagAll c (accept stage y)) = t)
    (hidle : t.seq = .idle) : SameAsIssued cmd c y t (stage :: rest) := by
  induction rest generalizing stage c y n with
  | nil =>
    rcases stage_raises_or_ends hL hy ho hn hseq hc ht hidle with hraise | ⟨z, m, -, hz, -, hexec, hend⟩
    · exact hraise
    · obtain ⟨rfl, hnone⟩ := hL
      rw [stageEnded, hnone, runFor_idle _ rfl] at hend
      exact hend ▸ sameAsIssued_last hz hexec
  | cons st rest ih =>
    rcases stage_raises_or_ends hL hy ho hn hseq hc ht hidle with hraise | ⟨z, m, hm, hz, hu, hexec, hend⟩
    · exact hraise
    · obtain ⟨⟨hlist, hopen⟩, hnext, hL'⟩ := hL
      have hframe := exec_stageFrame hlist hexec
      have ho' : (complete z).out.isOpen = true := by
        rw [hframe]
        exact (hopen y _).trans ho
      rw [stageEnded_eq_accept hnext hz hu] at hend
      obtain ⟨-, -, -, -, -, -, -, -, -, -, -, hdata, -, hgrants, -⟩ := id hz
      have hbound : stepBound (complete z) = stepBound y :=
        congrArg (fun d : List Byte => 8192 * d.length + 2097152) hdata
      refine sameAsIssued_next hz hexec ?_ (ih hL' ⟨rfl, hgrants.trans hy.2⟩ ho' (by omega) rfl ?_ hend)
      · cases stage <;> rfl
      · rw [← hc]
        cases stage <;> rfl

/-- A composite, from its acceptance on: its opening step is OPENOUT (R96, R101). -/
theorem sameAsIssued_composite {cmd stage : Instr} {rest : List Instr} {s t : State} (hcmd : cmd = .encode ∨ cmd = .decode)
    (hn : nextStage cmd cmd = some stage) (hL : StagesAre cmd stage rest) (h : Ready s) (hexec : exec cmd s = .next t)
    (hidle : t.seq = .idle) : SameAsIssued cmd s s t (.openout :: stage :: rest) := by
  obtain ⟨k, hk, hrun⟩ := leads_opened hcmd hn s
  have hk' : k ≤ stepBound s := by
    rw [stepBound]
    omega
  rw [exec_eq_command, command_ready cmd h] at hexec
  injection hexec with hexec
  have hrest : runFor (stepBound s - k) (inStage cmd stage { s with out := opened s.out }) = t := by
    rw [← hrun, Nat.add_sub_cancel' hk']
    exact hexec
  have hafter := sameAsIssued_stages rest (c := inStage cmd stage s) (y := openBody (completed .openout s)) hL ⟨rfl, h.2⟩ rfl
    (Nat.sub_le _ k) rfl rfl hrest hidle
  rw [SameAsIssued, issueAll_completed (exec_openout_ready h) rfl rfl, issueToError_completed (exec_openout_ready h) rfl]
  exact hafter

end Sys2Proof.Machine

namespace Sys2Proof.Proofs
open Sys2Proof.Machine

/-- Settles O36: ENCODE goes step by step with its stages' own commands. -/
theorem encodeEqualsStages : Obligations.EncodeEqualsStages := by
  have hstages : StagesAre .encode .count [.build, .gencode, .wrmagic, .serialize, .encbody, .close] :=
    ⟨⟨rfl, fun _ _ => rfl⟩, rfl, ⟨rfl, fun _ _ => rfl⟩, rfl, ⟨rfl, fun _ _ => rfl⟩, rfl, ⟨rfl, fun _ _ => rfl⟩, rfl,
      ⟨rfl, fun _ _ => rfl⟩, rfl, ⟨rfl, fun _ _ => rfl⟩, rfl, rfl, rfl⟩
  exact fun _ _ h hexec hidle => sameAsIssued_composite (.inl rfl) rfl hstages h hexec hidle

/-- Settles O37: DECODE goes step by step with its stages' own commands. -/
theorem decodeEqualsStages : Obligations.DecodeEqualsStages := by
  have hstages : StagesAre .decode .rdmagic [.deserialize, .decbody, .close] :=
    ⟨⟨rfl, fun _ _ => rfl⟩, rfl, ⟨rfl, fun _ _ => rfl⟩, rfl, ⟨rfl, fun _ _ => rfl⟩, rfl, rfl, rfl⟩
  exact fun _ _ h hexec hidle => sameAsIssued_composite (.inr rfl) rfl hstages h hexec hidle

end Sys2Proof.Proofs
end
